-- ==== Sys2Proof/Word.lean ====
section
/-! DEFINITION. The words of the block (00_scope.md R17): a 32-bit word and a byte, bit 0 the least significant. -/

namespace Sys2Proof

/-- A message-buffer word or a 32-bit field (00_scope.md R11, R17). -/
abbrev Word := BitVec 32

/-- One byte of a payload or of an encoded operation. -/
abbrev Byte := BitVec 8

end Sys2Proof
end

