-- ==== Sys2Proof/Syntax.lean ====
section
/-! DEFINITION. What the host can ask and what the hardware can do: control fields, frames, timing records,
the operations of spec/opcode_table.json (`Instr`, one constructor per row), and the labels of the agents' steps (`Event`). -/

namespace Sys2Proof

/-- The nineteen control fields (10_state.md R52), in the order of their numbers (30_encoding.md R117). -/
inductive Field where
  | mdis | frz | halt | frzack | notrdy | srxdis | clksrc | synch
  | presdiv | rjw | pseg1 | pseg2 | propseg | smp
  | mbws | rxmgmask | imask | iflag | timer
deriving DecidableEq, Repr

/-- The field operand of FLD.RD and FLD.WR: a named field, or a number that names none (30_encoding.md R117). -/
inductive FieldSel where
  | named (f : Field)
  | unnamed (num : BitVec 8)
deriving DecidableEq, Repr

/-- A logical CAN frame (41_frame_mapper.md R170). -/
structure Frame where
  id : BitVec 29
  ide : Bool
  rtr : Bool
  edl : Bool
  brs : Bool
  esi : Bool
  dlc : BitVec 4
  data : Vector Byte 64
deriving DecidableEq, Repr

/-- A frame record as the host presents it to CFGTX and SEND: wide enough to hold a record that is not well-formed
(41_frame_mapper.md R170; 44_driver_ops.md R278). -/
structure FrameRec where
  id : Word
  ide : Bool
  rtr : Bool
  edl : Bool
  brs : Bool
  esi : Bool
  dlc : BitVec 8
  data : Vector Byte 64
deriving DecidableEq, Repr

/-- A bit-timing configuration of unsigned members (42_bit_timing.md R200); a member may be too wide for its field (R203). -/
structure Timing where
  presdiv : Word
  rjw : Word
  pseg1 : Word
  pseg2 : Word
  propseg : Word
  smp : Word
deriving DecidableEq, Repr

/-- The bits of a control word beside its code (30_encoding.md R111): bit 28, bit 23 and bits 15:0 are unassigned. -/
structure CtrlBits where
  edl : Bool
  brs : Bool
  esi : Bool
  un28 : Bool
  un23 : Bool
  srr : Bool
  ide : Bool
  rtr : Bool
  dlc : BitVec 4
  low : BitVec 16
deriving DecidableEq, Repr

/-- The name of a host handler (10_state.md R63; 30_encoding.md R113); its body is host software (44_driver_ops.md R296).
DESIGN CHOICE (log 4): the spec gives a handler no width; here it is one of 256 names of 8 bits. Safe. -/
abbrev Handler := BitVec 8

/-- One constructor per row of spec/opcode_table.json. `inst` is the controller selector, `slot` a slot index
(30_encoding.md R113); the code commands carry the slot they are written to and the other bits of the control word
(43_mb_hardware.md section 8). -/
inductive Instr where
  | fldRd (inst : BitVec 8) (field : FieldSel)
  | fldWr (inst : BitVec 8) (field : FieldSel) (value : Word)
  | mbRd (inst : BitVec 8) (word : BitVec 8)
  | mbWr (inst : BitVec 8) (word : BitVec 8) (value : Word)
  | iflagW1c (inst : BitVec 8) (value : Word)
  | timerRd (inst : BitVec 8)
  | init (inst : BitVec 8) (wordSize : BitVec 8) (timing : Option Timing)
  | frzEnter (inst : BitVec 8)
  | frzExit (inst : BitVec 8)
  | cfgTx (inst : BitVec 8) (slot : BitVec 8) (frame : Option FrameRec)
  | cfgRx (inst : BitVec 8) (slot : BitVec 8) (filterId : Word) (filterMask : Word)
  | send (inst : BitVec 8) (slot : BitVec 8) (frame : Option FrameRec)
  | recv (inst : BitVec 8) (slot : BitVec 8)
  | clrFlag (inst : BitVec 8) (slot : BitVec 8)
  | enIrq (inst : BitVec 8) (slot : BitVec 8)
  | regCb (inst : BitVec 8) (handler : Option Handler)
  | dispatch (inst : BitVec 8)
  | codeInactiveRx (inst : BitVec 8) (slot : BitVec 8) (bits : CtrlBits)
  | codeReceiveEmpty (inst : BitVec 8) (slot : BitVec 8) (bits : CtrlBits)
  | codeInactiveTx (inst : BitVec 8) (slot : BitVec 8) (bits : CtrlBits)
  | codeAbort (inst : BitVec 8) (slot : BitVec 8) (bits : CtrlBits)
  | codeSend (inst : BitVec 8) (slot : BitVec 8) (bits : CtrlBits)
  | codeBusy (inst : BitVec 8) (slot : BitVec 8)
deriving DecidableEq, Repr

/-- Where the frame of RX_BEGIN comes from (43_mb_hardware.md R232): the bus environment, or the held frame. -/
inductive RxSource where
  | bus (f : Frame)
  | held
deriving DecidableEq, Repr

/-- One step of an agent, with the draws of that step (00_scope.md R9; 43_mb_hardware.md). `n` is the controller,
`i` the slot, `t` the time-stamp draw (R246), `pick` the draw that chooses among eligible receive slots (R232). -/
inductive Event where
  /-- The host takes its next step. -/
  | host
  /-- An interrupt entry for `n` (60_exceptions.md R332). -/
  | irqEntry (n : Nat)
  | freezeAck (n : Nat)
  | freezeExit (n : Nat)
  | sync (n : Nat)
  | txComplete (n i : Nat) (t : BitVec 16) (pick : Nat)
  /-- `sent` draws the outcome, `keep9` the final code of an abort that did not transmit (R234). -/
  | abortResolve (n i : Nat) (sent keep9 : Bool) (t : BitVec 16) (pick : Nat)
  | rxBegin (n : Nat) (src : RxSource) (pick : Nat)
  /-- `fill` draws the byte lanes past the payload (41_frame_mapper.md R183). -/
  | rxCommit (n i : Nat) (t : BitVec 16) (fill : Word)
deriving DecidableEq, Repr, Inhabited

/-- The three encoded forms of spec/opcode_table.json's column "format". -/
inductive ReqFormat where
  | hostOp | controlWord | controlWordRead
deriving DecidableEq, Repr

/-- One encoded request of the host's program: a form and its bytes, the first byte at the lowest address. -/
structure Request where
  format : ReqFormat
  bytes : List Byte
deriving DecidableEq, Repr

end Sys2Proof
end

