-- ==== Sys2Proof/WellFormed.lean ====
section
/-! DEFINITION. The operations the encodings can express: every operand fills its bits, but for a field number that
names no field, which must not be the number of a named one (30_encoding.md R117). -/

namespace Sys2Proof

/-- 30_encoding.md R117: the numbers 0 to 18 name fields, so an unnamed number is at least 19. -/
def FieldSel.wellFormed : FieldSel → Bool
  | .named _ => true
  | .unnamed num => 19 ≤ num.toNat

/-- The operands of an operation are ones an encoding of it can hold. -/
def Instr.wellFormed : Instr → Bool
  | .fldRd _ field => field.wellFormed
  | .fldWr _ field _ => field.wellFormed
  | .mbRd _ _ => true
  | .mbWr _ _ _ => true
  | .iflagW1c _ _ => true
  | .timerRd _ => true
  | .init _ _ _ => true
  | .frzEnter _ => true
  | .frzExit _ => true
  | .cfgTx _ _ _ => true
  | .cfgRx _ _ _ _ => true
  | .send _ _ _ => true
  | .recv _ _ => true
  | .clrFlag _ _ => true
  | .enIrq _ _ => true
  | .regCb _ _ => true
  | .dispatch _ => true
  | .codeInactiveRx _ _ _ => true
  | .codeReceiveEmpty _ _ _ => true
  | .codeInactiveTx _ _ _ => true
  | .codeAbort _ _ _ => true
  | .codeSend _ _ _ => true
  | .codeBusy _ _ => true

end Sys2Proof
end

