-- ==== Sys2Proof/Decode.lean ====
section
/-! DEFINITION. From bytes to operations and back. A request holds one operation: a host operation as its number and operand
tuple (30_encoding.md R113, R121), or a control word with the slot it goes to (30_encoding.md R111, R115). The bytes of
an operand stand least significant first, an optional record behind a presence byte (log 4). Decoding is total and
rejects by name; the encoder follows the same tables. -/

namespace Sys2Proof

/-- Why bytes are no operation. -/
inductive DecodeError where
  /-- A number outside 30_encoding.md R113 (R120). -/
  | unknownOperation (num : Nat)
  /-- Fewer bytes than the operand tuple of the operation. -/
  | truncated (num : Nat)
  /-- A presence or flag byte that is none of the values the tuple uses. -/
  | malformedRecord (num : Nat)
  /-- A written control word whose code is no command (30_encoding.md R118). -/
  | reservedCode (code : Nat)
  /-- A read control word whose code is no busy value (43_mb_hardware.md R238). -/
  | notBusyCode (code : Nat)
deriving DecidableEq, Repr

/-! ### Bytes -/

/-- Byte `k` of a request. -/
def byteAt (bs : List Byte) (k : Nat) : Byte := bs.getD k 0

/-- The 32-bit operand at byte `k`, least significant byte first (log 4). -/
def wordAt (bs : List Byte) (k : Nat) : Word :=
  byteAt bs (k + 3) ++ byteAt bs (k + 2) ++ byteAt bs (k + 1) ++ byteAt bs k

/-- The bytes of a 32-bit operand, least significant byte first (log 4). -/
def wordBytes (v : Word) : List Byte :=
  [v.extractLsb' 0 8, v.extractLsb' 8 8, v.extractLsb' 16 8, v.extractLsb' 24 8]

/-- An array of 64 bytes, given byte by byte (41_frame_mapper.md R170). -/
def bytes64 (f : Nat → Byte) : Vector Byte 64 := ⟨((List.range 64).map f).toArray, by simp⟩

/-- The `n` low bytes of a number, least significant first. -/
def leBytes : Nat → Nat → List Byte
  | 0, _ => []
  | n + 1, w => BitVec.ofNat 8 w :: leBytes n (w / 256)

/-! ### Control words (30_encoding.md R111, R116) -/

/-- The control word with code `code` and the other bits `b`. -/
def CtrlBits.toWord (b : CtrlBits) (code : BitVec 4) : Word :=
  BitVec.ofBool b.edl ++ BitVec.ofBool b.brs ++ BitVec.ofBool b.esi ++ BitVec.ofBool b.un28 ++ code ++
    BitVec.ofBool b.un23 ++ BitVec.ofBool b.srr ++ BitVec.ofBool b.ide ++ BitVec.ofBool b.rtr ++ b.dlc ++ b.low

/-- The bits of a control word beside its code. -/
def CtrlBits.ofWord (w : Word) : CtrlBits where
  edl := w.getLsbD 31
  brs := w.getLsbD 30
  esi := w.getLsbD 29
  un28 := w.getLsbD 28
  un23 := w.getLsbD 23
  srr := w.getLsbD 22
  ide := w.getLsbD 21
  rtr := w.getLsbD 20
  dlc := w.extractLsb' 16 4
  low := w.extractLsb' 0 16

/-- The code of a control word, bits [27:24]. -/
def codeOf (w : Word) : BitVec 4 := w.extractLsb' 24 4

/-! ### Field numbers (30_encoding.md R117) -/

/-- The number of a field. -/
def Field.num : Field → BitVec 8
  | .mdis => 0 | .frz => 1 | .halt => 2 | .frzack => 3 | .notrdy => 4 | .srxdis => 5 | .clksrc => 6 | .synch => 7
  | .presdiv => 8 | .rjw => 9 | .pseg1 => 10 | .pseg2 => 11 | .propseg => 12 | .smp => 13
  | .mbws => 14 | .rxmgmask => 15 | .imask => 16 | .iflag => 17 | .timer => 18

/-- The field a number names, or the number where it names none. -/
def decodeField (n : BitVec 8) : FieldSel :=
  match n.toNat with
  | 0 => .named .mdis | 1 => .named .frz | 2 => .named .halt | 3 => .named .frzack | 4 => .named .notrdy
  | 5 => .named .srxdis | 6 => .named .clksrc | 7 => .named .synch | 8 => .named .presdiv | 9 => .named .rjw
  | 10 => .named .pseg1 | 11 => .named .pseg2 | 12 => .named .propseg | 13 => .named .smp | 14 => .named .mbws
  | 15 => .named .rxmgmask | 16 => .named .imask | 17 => .named .iflag | 18 => .named .timer
  | _ => .unnamed n

/-- The number of a field operand. -/
def encodeField : FieldSel → BitVec 8
  | .named f => f.num
  | .unnamed n => n

/-! ### Optional records: a presence byte (0 absent, 1 present), then the record (log 4) -/

/-- Bytes of a frame record: identifier (4), flags (1: bit 0 IDE, 1 RTR, 2 EDL, 3 BRS, 4 ESI), DLC (1), data (64). -/
def encodeFrame : Option FrameRec → List Byte
  | none => List.replicate 71 0
  | some f =>
    1 :: wordBytes f.id ++
      (0#3 ++ BitVec.ofBool f.esi ++ BitVec.ofBool f.brs ++ BitVec.ofBool f.edl ++ BitVec.ofBool f.rtr ++ BitVec.ofBool f.ide)
        :: f.dlc :: f.data.toList

/-- The frame record at byte `k` of a request for operation `num`. -/
def decodeFrame (num : Nat) (bs : List Byte) (k : Nat) : Except DecodeError (Option FrameRec) :=
  match (byteAt bs k).toNat with
  | 0 => .ok none
  | 1 =>
    let flags := byteAt bs (k + 5)
    if 32 ≤ flags.toNat then .error (.malformedRecord num)
    else .ok (some
      { id := wordAt bs (k + 1), ide := flags.getLsbD 0, rtr := flags.getLsbD 1, edl := flags.getLsbD 2,
        brs := flags.getLsbD 3, esi := flags.getLsbD 4, dlc := byteAt bs (k + 6),
        data := bytes64 fun j => byteAt bs (k + 7 + j) })
  | _ => .error (.malformedRecord num)

/-- Bytes of a timing record: its six members, four bytes each (42_bit_timing.md R200). -/
def encodeTiming : Option Timing → List Byte
  | none => List.replicate 25 0
  | some t =>
    1 :: wordBytes t.presdiv ++ wordBytes t.rjw ++ wordBytes t.pseg1 ++ wordBytes t.pseg2 ++ wordBytes t.propseg ++
      wordBytes t.smp

/-- The timing record at byte `k` of a request for operation `num`. -/
def decodeTiming (num : Nat) (bs : List Byte) (k : Nat) : Except DecodeError (Option Timing) :=
  match (byteAt bs k).toNat with
  | 0 => .ok none
  | 1 => .ok (some
      { presdiv := wordAt bs (k + 1), rjw := wordAt bs (k + 5), pseg1 := wordAt bs (k + 9),
        pseg2 := wordAt bs (k + 13), propseg := wordAt bs (k + 17), smp := wordAt bs (k + 21) })
  | _ => .error (.malformedRecord num)

/-- Bytes of an optional handler; that its name takes 8 bits is the model's (DESIGN CHOICE, log 4). -/
def encodeHandler : Option Handler → List Byte
  | none => [0, 0]
  | some h => [1, h]

/-- The handler at byte `k` of a request for operation `num`. -/
def decodeHandler (num : Nat) (bs : List Byte) (k : Nat) : Except DecodeError (Option Handler) :=
  match (byteAt bs k).toNat with
  | 0 => .ok none
  | 1 => .ok (some (byteAt bs (k + 1)))
  | _ => .error (.malformedRecord num)

/-! ### Operations -/

/-- How many bytes an operation and its operand tuple take (30_encoding.md R113, R121; log 4). -/
def opLength (num : Nat) : Option Nat :=
  match num with
  | 0x01 => some 3 | 0x02 => some 7 | 0x03 => some 3 | 0x04 => some 7 | 0x05 => some 6 | 0x06 => some 2
  | 0x10 => some 28 | 0x11 => some 2 | 0x12 => some 2 | 0x13 => some 74 | 0x14 => some 11 | 0x15 => some 74
  | 0x16 => some 3 | 0x17 => some 3 | 0x18 => some 3 | 0x19 => some 4 | 0x1A => some 2
  | _ => none

/-- The longest encoding: CFGTX and SEND. -/
def longestRequest : Nat := 74

/-- The operation number `num` with its operand tuple in `bs` (30_encoding.md R113). -/
def decodeOperands (num : Nat) (bs : List Byte) : Except DecodeError Instr :=
  let inst := byteAt bs 1
  match num with
  | 0x01 => .ok (.fldRd inst (decodeField (byteAt bs 2)))
  | 0x02 => .ok (.fldWr inst (decodeField (byteAt bs 2)) (wordAt bs 3))
  | 0x03 => .ok (.mbRd inst (byteAt bs 2))
  | 0x04 => .ok (.mbWr inst (byteAt bs 2) (wordAt bs 3))
  | 0x05 => .ok (.iflagW1c inst (wordAt bs 2))
  | 0x06 => .ok (.timerRd inst)
  | 0x10 => (decodeTiming num bs 3).map (.init inst (byteAt bs 2))
  | 0x11 => .ok (.frzEnter inst)
  | 0x12 => .ok (.frzExit inst)
  | 0x13 => (decodeFrame num bs 3).map (.cfgTx inst (byteAt bs 2))
  | 0x14 => .ok (.cfgRx inst (byteAt bs 2) (wordAt bs 3) (wordAt bs 7))
  | 0x15 => (decodeFrame num bs 3).map (.send inst (byteAt bs 2))
  | 0x16 => .ok (.recv inst (byteAt bs 2))
  | 0x17 => .ok (.clrFlag inst (byteAt bs 2))
  | 0x18 => .ok (.enIrq inst (byteAt bs 2))
  | 0x19 => (decodeHandler num bs 2).map (.regCb inst)
  | 0x1A => .ok (.dispatch inst)
  | n => .error (.unknownOperation n)

/-- A host operation: its number, then its operand tuple; bytes behind the tuple are not read (log 4). -/
def decodeHostOp (bs : List Byte) : Except DecodeError Instr :=
  let num := (byteAt bs 0).toNat
  match opLength num with
  | none => .error (.unknownOperation num)
  | some n => if bs.length < n then .error (.truncated num) else decodeOperands num bs

/-- A written control word, then the controller and the slot (30_encoding.md R115, R118; log 6). A reserved code is refused
here, before any check of the controller or the slot (DESIGN CHOICE, log 5). -/
def decodeControlWrite (bs : List Byte) : Except DecodeError Instr :=
  if bs.length < 6 then .error (.truncated 0)
  else
    let w := wordAt bs 0
    let b := CtrlBits.ofWord w
    match (codeOf w).toNat with
    | 0x0 => .ok (.codeInactiveRx (byteAt bs 4) (byteAt bs 5) b)
    | 0x4 => .ok (.codeReceiveEmpty (byteAt bs 4) (byteAt bs 5) b)
    | 0x8 => .ok (.codeInactiveTx (byteAt bs 4) (byteAt bs 5) b)
    | 0x9 => .ok (.codeAbort (byteAt bs 4) (byteAt bs 5) b)
    | 0xC => .ok (.codeSend (byteAt bs 4) (byteAt bs 5) b)
    | c => .error (.reservedCode c)

/-- Is this the code of a busy slot's control word: 0x1 or 0x5 (30_encoding.md R115; the table's pattern 0x01)? -/
def isBusyCode (c : BitVec 4) : Bool := c.getLsbD 0 && !c.getLsbD 1 && !c.getLsbD 3

/-- A read control word that shows a busy slot, then the controller and the slot (43_mb_hardware.md R238; log 7). -/
def decodeControlRead (bs : List Byte) : Except DecodeError Instr :=
  if bs.length < 6 then .error (.truncated 1)
  else
    let c := codeOf (wordAt bs 0)
    if isBusyCode c then .ok (.codeBusy (byteAt bs 4) (byteAt bs 5)) else .error (.notBusyCode c.toNat)

/-- The operation a request holds. -/
def decode (r : Request) : Except DecodeError Instr :=
  match r.format with
  | .hostOp => decodeHostOp r.bytes
  | .controlWord => decodeControlWrite r.bytes
  | .controlWordRead => decodeControlRead r.bytes

/-! ### The encoder -/

/-- A host operation's number and operand tuple (30_encoding.md R113). -/
def hostRequest (num : Byte) (operands : List Byte) : Request := ⟨.hostOp, num :: operands⟩

/-- A control word written to slot `slot` of controller `inst`. -/
def controlRequest (inst slot : BitVec 8) (w : Word) : Request := ⟨.controlWord, wordBytes w ++ [inst, slot]⟩

/-- The request that holds an operation, from the tables of 30_encoding.md R111, R113, R115 and R117. -/
def encode : Instr → Request
  | .fldRd inst field => hostRequest 0x01 [inst, encodeField field]
  | .fldWr inst field value => hostRequest 0x02 (inst :: encodeField field :: wordBytes value)
  | .mbRd inst word => hostRequest 0x03 [inst, word]
  | .mbWr inst word value => hostRequest 0x04 (inst :: word :: wordBytes value)
  | .iflagW1c inst value => hostRequest 0x05 (inst :: wordBytes value)
  | .timerRd inst => hostRequest 0x06 [inst]
  | .init inst wordSize timing => hostRequest 0x10 (inst :: wordSize :: encodeTiming timing)
  | .frzEnter inst => hostRequest 0x11 [inst]
  | .frzExit inst => hostRequest 0x12 [inst]
  | .cfgTx inst slot frame => hostRequest 0x13 (inst :: slot :: encodeFrame frame)
  | .cfgRx inst slot filterId filterMask =>
    hostRequest 0x14 (inst :: slot :: wordBytes filterId ++ wordBytes filterMask)
  | .send inst slot frame => hostRequest 0x15 (inst :: slot :: encodeFrame frame)
  | .recv inst slot => hostRequest 0x16 [inst, slot]
  | .clrFlag inst slot => hostRequest 0x17 [inst, slot]
  | .enIrq inst slot => hostRequest 0x18 [inst, slot]
  | .regCb inst handler => hostRequest 0x19 (inst :: encodeHandler handler)
  | .dispatch inst => hostRequest 0x1A [inst]
  | .codeInactiveRx inst slot bits => controlRequest inst slot (bits.toWord 0x0)
  | .codeReceiveEmpty inst slot bits => controlRequest inst slot (bits.toWord 0x4)
  | .codeInactiveTx inst slot bits => controlRequest inst slot (bits.toWord 0x8)
  | .codeAbort inst slot bits => controlRequest inst slot (bits.toWord 0x9)
  | .codeSend inst slot bits => controlRequest inst slot (bits.toWord 0xC)
  | .codeBusy inst slot => ⟨.controlWordRead, wordBytes 0x01000000 ++ [inst, slot]⟩

/-! ### Words of spec/opcode_table.json -/

/-- The request whose low `nbits` bits are `w` and whose other bits, up to the longest encoding, are 0. A row of fewer
than 32 bits is a host operation; a row of 32 bits is a control word, read where its code is a busy value. -/
def tableRequest (nbits w : Nat) : Request :=
  let bytes := leBytes (nbits / 8) w ++ List.replicate (longestRequest - nbits / 8) 0
  if nbits < 32 then ⟨.hostOp, bytes⟩
  else if isBusyCode (codeOf (BitVec.ofNat 32 w)) then ⟨.controlWordRead, bytes⟩
  else ⟨.controlWord, bytes⟩

/-- The operation the decoder reads from a table word (none where it refuses). -/
def decodeTableWord (nbits w : Nat) : Option Instr := (decode (tableRequest nbits w)).toOption

end Sys2Proof
end

