-- ==== Sys2Proof/Config.lean ====
section
/-! DEFINITION. The widths and sizes of 00_scope.md R11 to R15 at the spec's values (log 19; the parameters of R16 are fields of
the state) and the free values (00_scope.md R20: a draw): constants without a body, applied to the counter of draws (log 9,
10, 13). -/

namespace Sys2Proof

/-! ### Parameters at the spec's values -/

/-- 00_scope.md R14. -/
abbrev Config.wPresdiv : Nat := 8
/-- 00_scope.md R14. -/
abbrev Config.wRjw : Nat := 2
/-- 00_scope.md R14. -/
abbrev Config.wPseg1 : Nat := 3
/-- 00_scope.md R14. -/
abbrev Config.wPseg2 : Nat := 3
/-- 00_scope.md R14. -/
abbrev Config.wPropseg : Nat := 3
/-- 00_scope.md R14. -/
abbrev Config.wSmp : Nat := 1
/-- 00_scope.md R15. -/
abbrev Config.wClksrc : Nat := 1
/-- 00_scope.md R15. -/
abbrev Config.wTimer : Nat := 16
/-- The least admissible word size (00_scope.md R12). -/
abbrev Config.wsMin : Nat := 4
/-- WS_MAX (00_scope.md R12). -/
abbrev Config.wsMax : Nat := 18
/-- Words of one controller's message-buffer memory (00_scope.md R11). -/
abbrev Config.mbWords : Nat := 128

/-! ### Free values -/

/-- The draw of the host's accesses numbered `k`: a TIMER read, a busy read, an outcome of a preemption (log 10). -/
opaque Config.draw (k : Nat) : Word

/-- The step that comes next where the schedule names none: any agent, any step, any draws (log 9). -/
opaque Config.nextEvent (k : Nat) : Event

/-- The body of a host handler for a slot where the host's code names none: any sequence of operations (log 13). -/
opaque Config.callbackBody (k : Nat) (h : Handler) (slot : Nat) : List Instr

end Sys2Proof
end

