-- ==== Sys2Proof/Machine/State.lean ====
section
/-! DEFINITION. The state of the system as plain data (10_state.md): every controller with its fields, memory, hidden state,
driver record and bus output, the host context, the parameters no step writes, and the model's own fields. -/

namespace Sys2Proof.Machine

/-- The reasons a use is refused (60_exceptions.md R323). Each is safe: the model stops where hardware goes on (R322).
`step` answers the reason that the host context records. -/
inductive Fault where
  /-- Raised by a field number outside 0..18, a word offset above 127, an unknown or malformed request. Safe. -/
  | badAccess
  /-- Raised by FLD.WR of FRZACK, NOTRDY, SYNCH or TIMER. Safe. -/
  | readOnlyWrite
  /-- Raised by FLD.WR of IFLAG. Safe. -/
  | rmwOnW1C
  /-- Raised by FLD.WR of a value too wide for its field. Safe. -/
  | fieldOverflow
  /-- Raised by FLD.WR of MBWS outside 4..WS_MAX. Safe. -/
  | illegalFieldValue
  /-- Raised by FLD.WR of a freeze-protected field while FRZACK = 0. Safe. -/
  | freezeProtectedWrite
  /-- Raised by FLD.WR of CLKSRC while MDIS = 0. Safe. -/
  | clockSourceWhileEnabled
  /-- Raised by MB.WR of a word other than the control word of an armed slot. Safe. -/
  | writeToArmedSlot
  /-- Raised by a control-word write whose code the slot's state does not admit. Safe. -/
  | illegalCodeTransition
  /-- Raised by a control-word write with a code outside 0, 4, 8, 9, 0xC. Safe. -/
  | reservedCode
  /-- Raised by INIT with a timing member too wide for its field. Safe. -/
  | timingOutOfRange
deriving DecidableEq, Repr

/-- Why an operation has no meaning. Every operation has one, so nothing answers with this. -/
inductive Refusal where
  /-- Raised by an arm of `exec` that has no meaning yet (there is none). Safe. -/
  | notModelled (mnemonic : String)
deriving DecidableEq, Repr

/-- What one step answers. -/
abbrev Outcome (σ : Type) : Type := Host.Outcome σ Fault Refusal

/-! ### A controller -/

/-- The control fields that hold a value (10_state.md R33 to R50); TIMER holds none (70_reset_and_hazards.md R351). -/
structure Fields where
  mdis : BitVec 1
  frz : BitVec 1
  halt : BitVec 1
  frzack : BitVec 1
  notrdy : BitVec 1
  srxdis : BitVec 1
  clksrc : BitVec Config.wClksrc
  synch : BitVec 1
  presdiv : BitVec Config.wPresdiv
  rjw : BitVec Config.wRjw
  pseg1 : BitVec Config.wPseg1
  pseg2 : BitVec Config.wPseg2
  propseg : BitVec Config.wPropseg
  smp : BitVec Config.wSmp
  mbws : BitVec 5
  rxmgmask : Word
  imask : Word
  iflag : Word
deriving DecidableEq, Repr

/-- Message-buffer memory (10_state.md R54): bytes at their offsets 0 to 511, in canonical form (log 2). -/
abbrev Memory := List Host.Cell

/-- The canonical form: offsets strictly rising and below 512, and no entry equal to what an unlisted byte reads as. -/
abbrev Memory.wf (m : Memory) : Prop :=
  m.Pairwise (fun c d => c.1 < d.1) ∧ ∀ c ∈ m, c.2 ≠ 0#8 ∧ c.1 < 4 * Config.mbWords

/-- The hidden state of one slot index (10_state.md R56 to R58). -/
structure SlotHidden where
  busy : Bool := false
  rxInflight : Option Frame := none
  abortPending : Bool := false
deriving DecidableEq, Repr

/-- The hidden state of a controller (10_state.md R56 to R60). -/
structure Hidden where
  slots : Vector SlotHidden 32
  locked : Option Nat := none
  pendingRx : Option Frame := none
deriving DecidableEq, Repr

/-- No slot busy, no abort pending, no lock, no held frame (70_reset_and_hazards.md R351). -/
def Hidden.idle : Hidden := { slots := Vector.replicate 32 {} }

/-- The driver record of a controller (10_state.md R62, R63). -/
structure Driver where
  wordSize : Option Nat := none
  slotRange : Option Nat := none
  callback : Option Handler := none
deriving DecidableEq, Repr

/-- A frame as recorded on the bus: its data cut to what was sent (41_frame_mapper.md R184). -/
structure BusFrame where
  id : BitVec 29
  ide : Bool
  rtr : Bool
  edl : Bool
  brs : Bool
  esi : Bool
  dlc : BitVec 4
  data : List Byte
deriving DecidableEq, Repr

/-! ### Parameters of a controller (00_scope.md R16; log 24) -/

/-- BUSY_READ: which codes a busy slot may show, a nonempty set of 0x1 and 0x5 (43_mb_hardware.md R238; log 24). -/
inductive BusyRead where
  | either | only1 | only5
deriving DecidableEq, Repr

/-- ABORT_FINAL: which codes an abort that did not transmit may leave, a nonempty set of 8 and 9 (43_mb_hardware.md R234;
log 24). -/
inductive AbortFinal where
  | either | only8 | only9
deriving DecidableEq, Repr

/-- RTR_MATCH: whether the acceptance test compares RTR (43_mb_hardware.md R230; the value beside `ignored` is the model's
reading, log 24). -/
inductive RtrMatch where
  | ignored | compared
deriving DecidableEq, Repr

/-- DLC_MAP: the payload byte counts of the length codes 9 to 15, classic and FD (41_frame_mapper.md R176); a frame has at
most 64 bytes (R170). -/
structure DlcMap where
  classic : Vector (Fin 65) 7 := #v[8, 8, 8, 8, 8, 8, 8]
  fd : Vector (Fin 65) 7 := #v[12, 16, 20, 24, 32, 48, 64]
deriving DecidableEq, Repr

/-- The parameters a controller's words depend on, by default at the values of 00_scope.md R16; no step writes them. Each
controller carries its own (log 24). -/
structure CtrlParams where
  busyRead : BusyRead := .either
  abortFinal : AbortFinal := .either
  rtrMatch : RtrMatch := .ignored
  /-- STD_ID_SHIFT (92_eei_decisions.md D20): an 11-bit identifier lies inside bits 28:0 of the ID word. -/
  stdIdShift : Fin 19 := 18
  /-- RX_IDE (92_eei_decisions.md D26). -/
  rxIde : Bool := true
  dlcMap : DlcMap := {}
  /-- INIT_CLKSRC (92_eei_decisions.md D10). -/
  initClksrc : BitVec Config.wClksrc := 0
  /-- The model's own: whether the abort request of a Send slot preempts, as the pseudocode line of 43_mb_hardware.md R222
  says, or not, as its table and 44_driver_ops.md R286 say (log 8). -/
  abortPreempts : Bool := false
  /-- The model's own: whether SEND's abort write has the unassigned bits 0, as 30_encoding.md R111 and R119 say, or as it
  read them, as 44_driver_ops.md R284 and R285 say (log 25). -/
  sendClears : Bool := true
deriving DecidableEq, Repr

/-- One controller (00_scope.md R10). -/
structure Instance where
  fields : Fields
  mem : Memory
  hidden : Hidden
  driver : Driver
  /-- BUS[n].out, oldest first (10_state.md R65). -/
  busOut : List BusFrame
  /-- LINE_ENABLED[n] (00_scope.md R16; log 21). -/
  lineEnabled : Bool
  /-- The parameters of 00_scope.md R16 that this controller's words depend on (log 24). -/
  params : CtrlParams
deriving DecidableEq, Repr

/-- The logical state of a slot (10_state.md R61). -/
inductive SlotState where
  | inactiveRx | receiveEmpty | busy | inactiveTx | send | abortPending | aborted | reserved
deriving DecidableEq, Repr

/-- What the table of 43_mb_hardware.md R222 says of a code write. -/
inductive Admission where
  | no | yes | preempt
deriving DecidableEq, Repr

/-- The operating modes of a controller (60_exceptions.md R337). -/
inductive Mode where
  | disabled | freezeRequested | frozen | exiting | unsynced | normal
deriving DecidableEq, Repr

/-! ### The host context -/

/-- Result codes (60_exceptions.md R320). -/
inductive Result where
  | success | fail | invalidInstance | timeout
deriving DecidableEq, Repr

/-- What comes with a result (60_exceptions.md R320). -/
inductive RetVal where
  | none
  | word (v : Word)
  | frame (f : Frame)
deriving DecidableEq, Repr

/-- The last return of an operation: an observation, read by no step (log 14). -/
structure Return where
  op : Instr
  result : Result
  value : RetVal
deriving DecidableEq, Repr

/-- The host's position inside an operation (10_state.md R31): the step index and the operation's local values. -/
structure Pos where
  pc : Nat := 0
  /-- The last word or field value read (`c`, `a` and `m` of 44_driver_ops.md). -/
  val : Word := 0
  /-- The ID word RECV read. -/
  idw : Word := 0
  /-- The index of the loop under way (`w` of INIT, `p` of CFGTX and RECV). -/
  idx : Nat := 0
  /-- The payload words RECV read so far. -/
  words : List Word := []
  /-- RECV's `ok`. -/
  ok : Bool := true
  /-- Reads of the spin under way that did not succeed (00_scope.md R20). -/
  spins : Nat := 0
  /-- The call DISPATCH made: the handler and the slot index it was given (44_driver_ops.md R297). -/
  called : Option (Handler × Nat) := none
  /-- The operations of the called handler still to run (44_driver_ops.md R296). -/
  body : List Instr := []
deriving DecidableEq, Repr

/-- An operation in progress. -/
structure Activation where
  op : Instr
  pos : Pos := {}
deriving DecidableEq, Repr

/-- A running interrupt handler (60_exceptions.md R332): its controller and its operations in progress, innermost first. -/
structure HandlerCtx where
  inst : Nat
  acts : List Activation
deriving DecidableEq, Repr

/-- The operation a fault names: one the host ran, or a request that is none. -/
inductive FaultOp where
  | instr (i : Instr)
  | undecoded (r : Request)
deriving DecidableEq, Repr

/-- A fault and what it records (60_exceptions.md R322): the operation and operands, the slot and the word involved. -/
structure FaultRecord where
  reason : Fault
  op : FaultOp
  slot : Option Nat
  word : Option Nat
deriving DecidableEq, Repr

/-! ### Parameters and host software -/

/-- SPIN_BUDGET (00_scope.md R16). -/
inductive SpinBudget where
  | unbounded
  | bounded (k : Nat)
deriving DecidableEq, Repr

/-- RX_MATCH_ORDER (00_scope.md R16; 92_eei_decisions.md D19). -/
inductive RxMatchOrder where
  | any | lowestIndex
deriving DecidableEq, Repr

/-- Where a control field lies: the offset of its 32-bit register, and its lowest bit there; its width is the field's own. -/
structure FieldPlace where
  offset : Nat
  low : Nat
deriving DecidableEq, Repr

/-- REG_LAYOUT (00_scope.md R8; 20_memory.md R91; 60_exceptions.md R339): the base address of each controller, the places of the
control fields, and the offset of message-buffer word 0. By default the preset of 93_implementation_defined.md I4, which
places no MBWS, and base 0 (PRESUMED and DESIGN CHOICE, log 31). -/
structure RegLayout where
  bases : List Nat := [0]
  places : List (Field × FieldPlace) :=
    [(.mdis, ⟨0x00, 31⟩), (.frz, ⟨0x00, 30⟩), (.halt, ⟨0x00, 28⟩), (.notrdy, ⟨0x00, 27⟩), (.frzack, ⟨0x00, 24⟩),
     (.srxdis, ⟨0x00, 17⟩), (.presdiv, ⟨0x04, 24⟩), (.rjw, ⟨0x04, 22⟩), (.pseg1, ⟨0x04, 19⟩), (.pseg2, ⟨0x04, 16⟩),
     (.clksrc, ⟨0x04, 13⟩), (.smp, ⟨0x04, 7⟩), (.propseg, ⟨0x04, 0⟩), (.timer, ⟨0x08, 0⟩), (.rxmgmask, ⟨0x10, 0⟩),
     (.synch, ⟨0x20, 18⟩), (.imask, ⟨0x28, 0⟩), (.iflag, ⟨0x30, 0⟩)]
  mbOffset : Nat := 0x80
deriving DecidableEq, Repr

/-- The parameters of 00_scope.md R8 and R16 that the system as a whole takes; no step writes them (log 16, 31). -/
structure Params where
  spinBudget : SpinBudget := .unbounded
  rxMatchOrder : RxMatchOrder := .any
  regLayout : RegLayout := {}
deriving DecidableEq, Repr

/-- The body of a host handler for one slot index (44_driver_ops.md R296; log 13). -/
structure HandlerBody where
  handler : Handler
  slot : Nat
  ops : List Instr
deriving DecidableEq, Repr

/-! ### The state -/

/-- The whole system. -/
structure State where
  /-- The controllers, selector 0 first; N_INST is their number (00_scope.md R10; log 20). -/
  insts : List Instance
  /-- The mainline's operation in progress, innermost first; the empty list is idle (10_state.md R64). -/
  mainline : List Activation
  /-- The running handlers, innermost FIRST (the spec lists them innermost last, 10_state.md R64). -/
  handlers : List HandlerCtx
  /-- The fault, once raised (10_state.md R64; 60_exceptions.md R322). -/
  fault : Option FaultRecord
  /-- SPIN_BUDGET, RX_MATCH_ORDER and REG_LAYOUT. -/
  params : Params
  /-- The model's own: requests the mainline has not started (log 11, 12). -/
  program : List Request
  /-- The model's own: handler bodies the host's code fixes (log 13). -/
  handlerCode : List HandlerBody
  /-- The model's own: the last return, an observation (log 14). -/
  lastReturn : Option Return
  /-- The model's own: the steps that come next; where it ends they are free (log 9). -/
  schedule : List Event
  /-- The model's own: how many free values were taken (log 10). -/
  draws : Nat
deriving DecidableEq, Repr

/-! ### Reset (70_reset_and_hazards.md R351) -/

/-- What the spec leaves to a draw at reset, for one controller. -/
structure ResetDraw where
  fields : Fields
  mem : Memory
deriving DecidableEq, Repr

/-- A controller after reset, given its draws (70_reset_and_hazards.md R351). -/
def Instance.resetWith (r : ResetDraw) : Instance where
  fields := r.fields
  mem := r.mem
  hidden := .idle
  driver := {}
  busOut := []
  lineEnabled := true
  params := {}

/-- The system after reset with one controller for each draw (70_reset_and_hazards.md R351). -/
def State.resetWith (rs : List ResetDraw) : State where
  insts := rs.map Instance.resetWith
  mainline := []
  handlers := []
  fault := none
  params := {}
  program := []
  handlerCode := []
  lastReturn := none
  schedule := []
  draws := 0

/-- The draws this model names at reset (log 1): MDIS = 1, every other field 0, no byte of memory listed. -/
def ResetDraw.named : ResetDraw where
  fields :=
    { mdis := 1, frz := 0, halt := 0, frzack := 0, notrdy := 0, srxdis := 0, clksrc := 0, synch := 0, presdiv := 0,
      rjw := 0, pseg1 := 0, pseg2 := 0, propseg := 0, smp := 0, mbws := 0, rxmgmask := 0, imask := 0, iflag := 0 }
  mem := []

/-- The machine right after reset: one controller, with the named draws (log 1, 20). -/
def State.reset : State := State.resetWith [ResetDraw.named]

end Sys2Proof.Machine
end

