-- ==== Sys2Proof/Machine/Operands.lean ====
section
/-! DEFINITION. The frame-to-memory mapper (41_frame_mapper.md): pure functions between a frame and the words of a slot, the
geometry of the slots, and the operand forms of the driver operations. -/

namespace Sys2Proof.Machine

/-! ### Codes the hardware draws (00_scope.md R16; log 24) -/

/-- A code of BUSY_READ, by the draw `first` (43_mb_hardware.md R238). -/
def BusyRead.code (b : BusyRead) (first : Bool) : BitVec 4 :=
  match b with
  | .either => if first then 0x1 else 0x5
  | .only1 => 0x1
  | .only5 => 0x5

/-- A code of ABORT_FINAL, by the draw `keep9` (43_mb_hardware.md R234). -/
def AbortFinal.code (a : AbortFinal) (keep9 : Bool) : BitVec 4 :=
  match a with
  | .either => if keep9 then 0x9 else 0x8
  | .only8 => 0x8
  | .only9 => 0x9

/-! ### Geometry (41_frame_mapper.md R171, R172) -/

/-- The word sizes a slot may have (00_scope.md R12). -/
def legalWordSize (ws : Nat) : Bool := Config.wsMin ≤ ws && ws ≤ Config.wsMax

/-- 41_frame_mapper.md R171. -/
def wordAddr (ws i j : Nat) : Nat := i * ws + j

/-- 41_frame_mapper.md R172. -/
def slotRange (ws : Nat) : Nat := 512 / (ws * 4)

/-- 41_frame_mapper.md R172. -/
def capacity (ws : Nat) : Nat := (ws - 2) * 4

/-! ### Lengths (41_frame_mapper.md R175, R176) -/

/-- The payload byte count of a length code under DLC_MAP (41_frame_mapper.md R175, R176). -/
def dlcBytes (m : DlcMap) (edl : Bool) (dlc : BitVec 4) : Nat :=
  if dlc.toNat ≤ 8 then dlc.toNat
  else ((if edl then m.fd else m.classic).toList.getD (dlc.toNat - 9) 0).val

/-- How many payload words `nb` bytes take (41_frame_mapper.md R178). -/
def payloadWords (nb : Nat) : Nat := (nb + 3) / 4

end Sys2Proof.Machine

namespace Sys2Proof

/-! ### Frames (41_frame_mapper.md R170) -/

/-- The identifier fits: 29 bits when extended, 11 bits otherwise (41_frame_mapper.md R170). -/
def Frame.wellFormed (f : Frame) : Bool := f.ide || f.id.toNat < 2 ^ 11

/-- The payload byte count of a frame under DLC_MAP (41_frame_mapper.md R175, R176). -/
def Frame.bytes (m : Machine.DlcMap) (f : Frame) : Nat := Machine.dlcBytes m f.edl f.dlc

/-- A record the host presents is a frame when it is well-formed (41_frame_mapper.md R170; 44_driver_ops.md R278). -/
def FrameRec.frame? (r : FrameRec) : Option Frame :=
  if r.dlc.toNat ≤ 15 ∧ r.id.toNat < (if r.ide then 2 ^ 29 else 2 ^ 11) then
    some { id := r.id.setWidth 29, ide := r.ide, rtr := r.rtr, edl := r.edl, brs := r.brs, esi := r.esi,
           dlc := r.dlc.setWidth 4, data := r.data }
  else none

/-- The bits of a frame's control word beside the code; SRR is IDE, the unassigned bits are 0 (41_frame_mapper.md R177). -/
def Frame.ctrlBits (f : Frame) : CtrlBits where
  edl := f.edl
  brs := f.brs
  esi := f.esi
  un28 := false
  un23 := false
  srr := f.ide
  ide := f.ide
  rtr := f.rtr
  dlc := f.dlc
  low := 0

end Sys2Proof

namespace Sys2Proof.Machine

/-! ### Words (41_frame_mapper.md R177 to R180) -/

/-- 41_frame_mapper.md R177. -/
def encodeControl (code : BitVec 4) (f : Frame) : Word := f.ctrlBits.toWord code

/-- 41_frame_mapper.md R180; `shift` is STD_ID_SHIFT. -/
def encodeId (shift : Fin 19) (f : Frame) : Word :=
  if f.ide then f.id.setWidth 32 else (f.id.extractLsb' 0 11).setWidth 32 <<< shift.val

/-- 41_frame_mapper.md R180; `shift` is STD_ID_SHIFT. -/
def decodeId (shift : Fin 19) (idw : Word) (ide : Bool) : BitVec 29 :=
  if ide then idw.extractLsb' 0 29 else (idw.extractLsb' shift.val 11).setWidth 29

/-- Byte `k` of a payload of `nb` bytes, the lane's draw past it (41_frame_mapper.md R178, R183). -/
def laneByte (data : Vector Byte 64) (nb : Nat) (fill : Byte) (k : Nat) : Byte :=
  if k < nb then data.toList.getD k 0 else fill

/-- Payload word `p` of a payload of `nb` bytes, most significant byte first; the lanes past the payload hold the lanes
of `fill` (41_frame_mapper.md R178 with `fill = 0`, R183). -/
def packWord (data : Vector Byte 64) (nb : Nat) (fill : Word) (p : Nat) : Word :=
  laneByte data nb (fill.extractLsb' 24 8) (4 * p) ++ laneByte data nb (fill.extractLsb' 16 8) (4 * p + 1) ++
    laneByte data nb (fill.extractLsb' 8 8) (4 * p + 2) ++ laneByte data nb (fill.extractLsb' 0 8) (4 * p + 3)

/-- 41_frame_mapper.md R178. -/
def pack (data : Vector Byte 64) (nb : Nat) : List Word := (List.range (payloadWords nb)).map (packWord data nb 0)

/-- Byte `k` of a word, byte 0 the most significant (20_memory.md R80). -/
def wordByte (w : Word) (k : Nat) : Byte := w.extractLsb' (24 - 8 * k) 8

/-- 41_frame_mapper.md R179. -/
def unpack (words : List Word) (nb : Nat) : Vector Byte 64 :=
  bytes64 fun k => if k < nb then wordByte (words.getD (k / 4) 0) (k % 4) else 0

/-- The frame that a control word, an ID word and payload words hold, `nb` bytes of it (41_frame_mapper.md R182;
44_driver_ops.md R287). -/
def frameOfWords (shift : Fin 19) (cw idw : Word) (words : List Word) (nb : Nat) : Frame :=
  let b := CtrlBits.ofWord cw
  { id := decodeId shift idw b.ide, ide := b.ide, rtr := b.rtr, edl := b.edl, brs := b.brs, esi := b.esi, dlc := b.dlc,
    data := unpack words nb }

/-- The payload byte count a control word gives (30_encoding.md R116). -/
def ctrlBytes (m : DlcMap) (cw : Word) : Nat := dlcBytes m (CtrlBits.ofWord cw).edl (CtrlBits.ofWord cw).dlc

end Sys2Proof.Machine

namespace Sys2Proof

/-- A frame as the bus records it: the first `nb` bytes, none of a remote frame (41_frame_mapper.md R184). -/
def Frame.onBus (f : Frame) (nb : Nat) : Machine.BusFrame where
  id := f.id
  ide := f.ide
  rtr := f.rtr
  edl := f.edl
  brs := f.brs
  esi := f.esi
  dlc := f.dlc
  data := if f.rtr then [] else f.data.toList.take nb

end Sys2Proof

namespace Sys2Proof.Machine

/-- The control word with its code replaced (44_driver_ops.md R285). -/
def withCode (cw : Word) (code : BitVec 4) : Word := (cw &&& ~~~0x0F000000#32) ||| (code.setWidth 32 <<< 24)

/-- The bits of a control word that 30_encoding.md R111 assigns; bits 28, 23 and 15:0 read 0. -/
def assignedBits (cw : Word) : Word := cw &&& 0xEF7F0000#32

/-- The word of SEND's abort write (44_driver_ops.md R284, R285), its unassigned bits 0 under `clears` (30_encoding.md R111,
R119) and as read otherwise (log 25). -/
def abortWord (clears : Bool) (cw : Word) : Word := withCode (if clears then assignedBits cw else cw) 0x9

/-- The control word after a hardware transmission step: code and time-stamp bits replaced (43_mb_hardware.md R228). -/
def withCodeStamp (cw : Word) (code : BitVec 4) (t : BitVec 16) : Word :=
  (cw &&& ~~~0x0F00FFFF#32) ||| (code.setWidth 32 <<< 24) ||| t.setWidth 32

/-! ### Physical places (00_scope.md R8): no rule reads them -/

/-- The address of the register of a field of controller `n`, and the field's lowest bit there, where the layout places it
(60_exceptions.md R339). -/
def RegLayout.fieldAt (l : RegLayout) (n : Nat) (f : Field) : Option (Nat × Nat) := do
  let b ← l.bases[n]?
  let p ← l.places.lookup f
  return (b + p.offset, p.low)

/-- The address of message-buffer word `w` of controller `n` (20_memory.md R91). -/
def RegLayout.wordAt (l : RegLayout) (n w : Nat) : Option Nat := l.bases[n]?.map (· + l.mbOffset + 4 * w)

/-- `bit(i)` of 44_driver_ops.md. -/
def slotBit (i : Nat) : Word := 1#32 <<< i

end Sys2Proof.Machine

namespace Sys2Proof

/-! ### Bit-timing operands (42_bit_timing.md R201, R203) -/

/-- Every member fits its field (42_bit_timing.md R203). -/
def Timing.inRange (t : Timing) : Bool :=
  t.presdiv.toNat < 2 ^ Config.wPresdiv && t.rjw.toNat < 2 ^ Config.wRjw && t.pseg1.toNat < 2 ^ Config.wPseg1 &&
    t.pseg2.toNat < 2 ^ Config.wPseg2 && t.propseg.toNat < 2 ^ Config.wPropseg && t.smp.toNat < 2 ^ Config.wSmp

end Sys2Proof
end

