-- ==== Sys2Proof/Machine/Ops.lean ====
section
/-! DEFINITION. The named operations over memory, fields, hidden state and the host context: reading and writing a word, the
slot view, the free values, the position inside an operation, returning from one, raising a fault, and entering and
leaving an interrupt handler. -/

namespace Sys2Proof.Machine

/-! ### Memory (10_state.md R54; log 2, 3) -/

/-- The byte at an offset; an unlisted byte reads 0 (log 2). -/
def Memory.byte : Memory → Nat → Byte
  | [], _ => 0
  | (b, v) :: r, a => if a = b then v else Memory.byte r a

/-- Stores a byte, keeping the canonical form. -/
def Memory.setByte : Memory → Nat → Byte → Memory
  | [], a, v => if v = 0#8 then [] else [(a, v)]
  | (b, w) :: r, a, v =>
    if a < b then (if v = 0#8 then (b, w) :: r else (a, v) :: (b, w) :: r)
    else if a = b then (if v = 0#8 then r else (a, v) :: r)
    else (b, w) :: Memory.setByte r a v

/-- Word `w`, its most significant byte at the lowest offset (log 3). -/
def Memory.word (m : Memory) (w : Nat) : Word :=
  m.byte (4 * w) ++ m.byte (4 * w + 1) ++ m.byte (4 * w + 2) ++ m.byte (4 * w + 3)

/-- Stores word `w`; there is no word above 127 (10_state.md R54). -/
def Memory.setWord (m : Memory) (w : Nat) (v : Word) : Memory :=
  if w < Config.mbWords then
    (((m.setByte (4 * w) (wordByte v 0)).setByte (4 * w + 1) (wordByte v 1)).setByte (4 * w + 2) (wordByte v 2)).setByte
      (4 * w + 3) (wordByte v 3)
  else m

/-! ### Fields (10_state.md R52) -/

end Sys2Proof.Machine

namespace Sys2Proof

/-- The width of a field (10_state.md R52). -/
def Field.width : Field → Nat
  | .mdis | .frz | .halt | .frzack | .notrdy | .srxdis | .synch => 1
  | .clksrc => Config.wClksrc
  | .presdiv => Config.wPresdiv
  | .rjw => Config.wRjw
  | .pseg1 => Config.wPseg1
  | .pseg2 => Config.wPseg2
  | .propseg => Config.wPropseg
  | .smp => Config.wSmp
  | .mbws => 5
  | .rxmgmask | .imask | .iflag => 32
  | .timer => Config.wTimer

/-- Written by the host only while frozen (10_state.md R53). -/
def Field.freezeProtected : Field → Bool
  | .srxdis | .presdiv | .rjw | .pseg1 | .pseg2 | .propseg | .smp | .mbws | .rxmgmask | .imask => true
  | .mdis | .frz | .halt | .frzack | .notrdy | .clksrc | .synch | .iflag | .timer => false

/-- Never written by the host (40_register_interface.md R143). -/
def Field.readOnly : Field → Bool
  | .frzack | .notrdy | .synch | .timer => true
  | .mdis | .frz | .halt | .srxdis | .clksrc | .presdiv | .rjw | .pseg1 | .pseg2 | .propseg | .smp | .mbws | .rxmgmask
  | .imask | .iflag => false

end Sys2Proof

namespace Sys2Proof.Machine

/-- The value of a field, zero-extended (40_register_interface.md R142); TIMER holds none and its reads are draws (R148). -/
def Fields.get (x : Fields) : Field → Word
  | .mdis => x.mdis.setWidth 32
  | .frz => x.frz.setWidth 32
  | .halt => x.halt.setWidth 32
  | .frzack => x.frzack.setWidth 32
  | .notrdy => x.notrdy.setWidth 32
  | .srxdis => x.srxdis.setWidth 32
  | .clksrc => x.clksrc.setWidth 32
  | .synch => x.synch.setWidth 32
  | .presdiv => x.presdiv.setWidth 32
  | .rjw => x.rjw.setWidth 32
  | .pseg1 => x.pseg1.setWidth 32
  | .pseg2 => x.pseg2.setWidth 32
  | .propseg => x.propseg.setWidth 32
  | .smp => x.smp.setWidth 32
  | .mbws => x.mbws.setWidth 32
  | .rxmgmask => x.rxmgmask
  | .imask => x.imask
  | .iflag => x.iflag
  | .timer => 0

/-- Stores a value into one field and changes no other (20_memory.md R87). -/
def Fields.set (x : Fields) (f : Field) (v : Word) : Fields :=
  match f with
  | .mdis => { x with mdis := v.setWidth 1 }
  | .frz => { x with frz := v.setWidth 1 }
  | .halt => { x with halt := v.setWidth 1 }
  | .frzack => { x with frzack := v.setWidth 1 }
  | .notrdy => { x with notrdy := v.setWidth 1 }
  | .srxdis => { x with srxdis := v.setWidth 1 }
  | .clksrc => { x with clksrc := v.setWidth _ }
  | .synch => { x with synch := v.setWidth 1 }
  | .presdiv => { x with presdiv := v.setWidth _ }
  | .rjw => { x with rjw := v.setWidth _ }
  | .pseg1 => { x with pseg1 := v.setWidth _ }
  | .pseg2 => { x with pseg2 := v.setWidth _ }
  | .propseg => { x with propseg := v.setWidth _ }
  | .smp => { x with smp := v.setWidth _ }
  | .mbws => { x with mbws := v.setWidth 5 }
  | .rxmgmask => { x with rxmgmask := v }
  | .imask => { x with imask := v }
  | .iflag => { x with iflag := v }
  | .timer => x

/-! ### Hidden state (10_state.md R56 to R60) -/

/-- The hidden state of slot index `i`. -/
def Hidden.slot (h : Hidden) (i : Nat) : SlotHidden := h.slots.toList.getD i {}

/-- Replaces the hidden state of slot index `i`. -/
def Hidden.setSlot (h : Hidden) (i : Nat) (v : SlotHidden) : Hidden := { h with slots := h.slots.setIfInBounds i v }

/-! ### A controller -/

/-- Word `w` of the controller's memory. -/
def Instance.word (x : Instance) (w : Nat) : Word := x.mem.word w

/-- Stores word `w` of the controller's memory. -/
def Instance.setWord (x : Instance) (w : Nat) (v : Word) : Instance := { x with mem := x.mem.setWord w v }

/-- Replaces the control fields. -/
def Instance.setFields (x : Instance) (f : Fields) : Instance := { x with fields := f }

/-- Replaces the hidden state. -/
def Instance.setHidden (x : Instance) (h : Hidden) : Instance := { x with hidden := h }

/-- Replaces the hidden state of one slot index. -/
def Instance.setSlot (x : Instance) (i : Nat) (v : SlotHidden) : Instance := x.setHidden (x.hidden.setSlot i v)

/-- Is slot `i` busy (10_state.md R56)? -/
def Instance.busy (x : Instance) (i : Nat) : Bool := (x.hidden.slot i).busy

/-- Is an abort pending on slot `i` (10_state.md R58)? -/
def Instance.abortPending (x : Instance) (i : Nat) : Bool := (x.hidden.slot i).abortPending

/-- Sets whether an abort is pending on slot `i`. -/
def Instance.setAbortPending (x : Instance) (i : Nat) (b : Bool) : Instance :=
  x.setSlot i { x.hidden.slot i with abortPending := b }

/-- Takes a reception of `f` into slot `i` under way (43_mb_hardware.md R232). -/
def Instance.beginRx (x : Instance) (i : Nat) (f : Frame) : Instance :=
  x.setSlot i { x.hidden.slot i with busy := true, rxInflight := some f }

/-- Ends the reception under way into slot `i` (43_mb_hardware.md R223, R233). -/
def Instance.endRx (x : Instance) (i : Nat) : Instance :=
  x.setSlot i { x.hidden.slot i with busy := false, rxInflight := none }

/-- Sets the lock (10_state.md R59). -/
def Instance.setLocked (x : Instance) (l : Option Nat) : Instance := x.setHidden { x.hidden with locked := l }

/-- Sets the held frame (10_state.md R60). -/
def Instance.setPendingRx (x : Instance) (f : Option Frame) : Instance := x.setHidden { x.hidden with pendingRx := f }

/-- Appends a frame to the bus output (10_state.md R65). -/
def Instance.pushBus (x : Instance) (f : BusFrame) : Instance := { x with busOut := x.busOut ++ [f] }

/-- The words per slot the hardware uses (10_state.md R55). -/
def Instance.ws (x : Instance) : Nat := x.fields.mbws.toNat

/-- The number of hardware slots; none while MBWS is not legal (43_mb_hardware.md R221). -/
def Instance.hwSlots (x : Instance) : Nat := if legalWordSize x.ws then Config.mbWords / x.ws else 0

/-- The hardware slot and the word inside it that word `w` lies in (10_state.md R55). -/
def Instance.slotOf (x : Instance) (w : Nat) : Option (Nat × Nat) :=
  if w / x.ws < x.hwSlots then some (w / x.ws, w % x.ws) else none

/-- The control word of slot `i` (10_state.md R55). -/
def Instance.ctrl (x : Instance) (i : Nat) : Word := x.word (wordAddr x.ws i 0)

/-- The code of slot `i` (10_state.md R55). -/
def Instance.code (x : Instance) (i : Nat) : BitVec 4 := codeOf (x.ctrl i)

/-- The payload byte count of a frame under the controller's DLC_MAP (41_frame_mapper.md R176). -/
def Instance.bytes (x : Instance) (f : Frame) : Nat := f.bytes x.params.dlcMap

/-- The ID word of a frame under the controller's STD_ID_SHIFT (41_frame_mapper.md R180). -/
def Instance.idWord (x : Instance) (f : Frame) : Word := encodeId x.params.stdIdShift f

/-- The payload bytes slot `i` holds: those of its DLC, bounded by its capacity (41_frame_mapper.md R182). -/
def Instance.slotBytes (x : Instance) (i : Nat) : Nat := min (ctrlBytes x.params.dlcMap (x.ctrl i)) (capacity x.ws)

/-- 41_frame_mapper.md R182. -/
def Instance.decodeSlot (x : Instance) (i : Nat) : Frame :=
  frameOfWords x.params.stdIdShift (x.ctrl i) (x.word (wordAddr x.ws i 1))
    ((List.range (payloadWords (x.slotBytes i))).map fun p => x.word (wordAddr x.ws i (2 + p))) (x.slotBytes i)

/-- 41_frame_mapper.md R184. -/
def Instance.busImage (x : Instance) (i : Nat) : BusFrame := (x.decodeSlot i).onBus (x.slotBytes i)

/-- Stores the words `f 0 .. f (k-1)` at `base ..`, ascending. -/
def Instance.setWords (x : Instance) (base : Nat) (f : Nat → Word) : Nat → Instance
  | 0 => x
  | k + 1 => (x.setWords base f k).setWord (base + k) (f k)

/-- The receive image (41_frame_mapper.md R183): ID word, payload words with drawn lanes past the payload, control word of
code 4 with a time stamp. Bits 28 and 23 of that word and bits 31:29 of the ID word become 0, as R183's formulas have
them, where 92_eei_decisions.md D24 leaves them as they were (DEDUCED, log 26). -/
def Instance.writeRxImage (x : Instance) (i : Nat) (f : Frame) (t : BitVec 16) (fill : Word) : Instance :=
  ((x.setWord (wordAddr x.ws i 1) (x.idWord f)).setWords (wordAddr x.ws i 2) (packWord f.data (x.bytes f) fill)
    (payloadWords (x.bytes f))).setWord (wordAddr x.ws i 0)
      ((encodeControl 0x4 f &&& ~~~0x0000FFFF#32) ||| t.setWidth 32)

/-! ### Free values of the host's accesses (00_scope.md R20; log 10) -/

/-- A drawn Boolean. -/
def drawBool (k : Nat) : Bool := (Config.draw k).getLsbD 0

/-- A drawn value of `W_TIMER` bits (40_register_interface.md R148). -/
def drawTimer (k : Nat) : BitVec Config.wTimer := (Config.draw k).setWidth Config.wTimer

/-! ### The host context (10_state.md R31, R64) -/

/-- The operations in progress of the running context: the innermost handler's, else the mainline's. -/
def State.acts (s : State) : List Activation :=
  match s.handlers with
  | [] => s.mainline
  | h :: _ => h.acts

/-- Replaces the operations in progress of the running context. -/
def State.setActs (s : State) (a : List Activation) : State :=
  match s.handlers with
  | [] => { s with mainline := a }
  | h :: hs => { s with handlers := { h with acts := a } :: hs }

/-- The position inside the operation that runs: its start where none is in progress (10_state.md R31). -/
def State.pos (s : State) : Pos :=
  match s.acts with
  | [] => {}
  | a :: _ => a.pos

/-- The operation `i` that runs goes on at `p`. -/
def State.goto (s : State) (i : Instr) (p : Pos) : State := s.setActs (⟨i, p⟩ :: s.acts.tail)

/-- The operation `i` that runs starts the operation `sub`, and goes on at `p` when that has returned. -/
def State.call (s : State) (i : Instr) (p : Pos) (sub : Instr) : State :=
  s.setActs (⟨sub, {}⟩ :: ⟨i, p⟩ :: s.acts.tail)

/-- The calling operations return at once with a result that is not Success (44_driver_ops.md R270), up to a DISPATCH:
a handler body's operation returns to the body (R296). The outermost operation that returned, and those left. -/
def unwind (op : Instr) : List Activation → Instr × List Activation
  | [] => (op, [])
  | a :: rest =>
    match a.op with
    | .dispatch _ => (op, a :: rest)
    | _ => unwind a.op rest

/-- The operation `i` that runs returns (60_exceptions.md R320). -/
def State.ret (s : State) (i : Instr) (r : Result) (v : RetVal) : State :=
  match r with
  | .success => { s.setActs s.acts.tail with lastReturn := some ⟨i, r, v⟩ }
  | _ => { s.setActs (unwind i s.acts.tail).2 with lastReturn := some ⟨(unwind i s.acts.tail).1, r, v⟩ }

/-- Raises a fault: the host context records it, and nothing else is written (60_exceptions.md R322;
40_register_interface.md R141). -/
def State.raise (s : State) (reason : Fault) (op : FaultOp) (slot word : Option Nat) : State :=
  { s with fault := some ⟨reason, op, slot, word⟩ }

/-- Enters the handler of controller `n`: the running position stays where it is, and DISPATCH starts at its step 0
(60_exceptions.md R332). -/
def State.enterHandler (s : State) (n : Nat) : State :=
  { s with handlers := ⟨n, [⟨.dispatch (BitVec.ofNat 8 n), {}⟩]⟩ :: s.handlers }

/-- Leaves the innermost handler; the saved position resumes (60_exceptions.md R333). -/
def State.leaveHandler (s : State) : State := { s with handlers := s.handlers.tail }

/-- Replaces controller `n`. -/
def State.setInst (s : State) (n : Nat) (x : Instance) : State := { s with insts := s.insts.set n x }

/-- Controller `n` is `x` now, and `used` more free values were taken. -/
def State.commit (s : State) (n : Nat) (x : Instance) (used : Nat) : State :=
  { s with insts := s.insts.set n x, draws := s.draws + used }

/-! ### An access of the host to one controller -/

/-- What an access to a controller gives: a value, the controller after it and how many free values it took; or a fault
with the slot and the word it names. -/
inductive Acc (α : Type) where
  | ok (a : α) (x : Instance) (used : Nat)
  | fault (r : Fault) (slot word : Option Nat)

/-- One host step of operation `i` on controller `inst`: a selector that names none returns InvalidInstance and changes
nothing (40_register_interface.md R140); a fault is raised and writes nothing (R141), its record naming `i`, the
innermost operation under way (DESIGN CHOICE, log 27); else `k` says how the operation goes on. -/
def onInst {α : Type} (i : Instr) (inst : BitVec 8) (s : State) (f : Nat → Instance → Acc α) (k : α → State → State) :
    Outcome State :=
  match s.insts[inst.toNat]? with
  | none => .next (s.ret i .invalidInstance .none)
  | some x =>
    match f s.draws x with
    | .ok a x' used => .next (k a (s.commit inst.toNat x' used))
    | .fault r slot word => .next (s.raise r (.instr i) slot word)

/-- An access that only looks at the controller: a check, or a pure computation (10_state.md R31). -/
def look {α : Type} (f : Instance → α) (_ : Nat) (x : Instance) : Acc α := .ok (f x) x 0

/-- An access together with what `g` computes from the controller before it (a parameter or the driver record). -/
def along {α β : Type} (g : Instance → β) (f : Nat → Instance → Acc α) (d : Nat) (x : Instance) : Acc (β × α) :=
  match f d x with
  | .ok a y used => .ok (g x, a) y used
  | .fault r slot word => .fault r slot word

/-- The budget of the spin under way is used up (00_scope.md R20; log 16). -/
def Params.exhausted (p : Params) (reads : Nat) : Bool :=
  match p.spinBudget with
  | .unbounded => false
  | .bounded k => k ≤ reads

/-- A read of a spin did not succeed: count it, and read again from step `pc`, or return Timeout (00_scope.md R20). -/
def State.spinAgain (s : State) (i : Instr) (p : Pos) (pc : Nat) : State :=
  if s.params.exhausted (p.spins + 1) then s.ret i .timeout .none
  else s.goto i { p with pc := pc, spins := p.spins + 1 }

/-- A step that is a spin's first read: a budget of no read returns Timeout at once (00_scope.md R20; log 16). -/
def State.spinRead (s : State) (i : Instr) (p : Pos) (read : Outcome State) : Outcome State :=
  if s.params.exhausted p.spins then .next (s.ret i .timeout .none) else read

end Sys2Proof.Machine
end

