-- ==== Sys2Proof/Machine/Flags.lean ====
section
/-! DEFINITION. What the status bits say and how flags change: the state of a slot, the admission of code writes, the
completion flags, the interrupt request, the operating mode, and which receptions a slot takes. -/

namespace Sys2Proof.Machine

/-! ### Slot states -/

/-- 10_state.md R61. -/
def Instance.slotState (x : Instance) (i : Nat) : SlotState :=
  match (x.code i).toNat with
  | 0x0 => .inactiveRx
  | 0x4 => if x.busy i then .busy else .receiveEmpty
  | 0x8 => .inactiveTx
  | 0x9 => if x.abortPending i then .abortPending else .aborted
  | 0xC => .send
  | _ => .reserved

/-- The states whose ID and payload words the host may not write (43_mb_hardware.md R224). -/
def SlotState.armed : SlotState → Bool
  | .receiveEmpty | .busy | .send | .abortPending => true
  | .inactiveRx | .inactiveTx | .aborted | .reserved => false

/-- The codes the host may write (43_mb_hardware.md R222, R244). -/
def writableCode (c : BitVec 4) : Bool :=
  match c.toNat with
  | 0x0 | 0x4 | 0x8 | 0x9 | 0xC => true
  | _ => false

/-- 43_mb_hardware.md R222: a writable code onto a slot's state, by its table; a preemption happens where the table says so, and
under `abortPreempts` also where only the pseudocode line says so, at code 9 onto Send (log 8). -/
def admission (abortPreempts : Bool) (s : SlotState) (c : BitVec 4) : Admission :=
  match s, c.toNat with
  | .inactiveRx, 0x0 => .yes | .inactiveRx, 0x4 => .yes | .inactiveRx, 0x8 => .yes | .inactiveRx, 0xC => .yes
  | .receiveEmpty, 0x0 => .yes
  | .busy, 0x0 => .preempt
  | .inactiveTx, 0x0 => .yes | .inactiveTx, 0x8 => .yes | .inactiveTx, 0x9 => .yes | .inactiveTx, 0xC => .yes
  | .send, 0x0 => .preempt | .send, 0x9 => if abortPreempts then .preempt else .yes
  | .abortPending, 0x0 => .preempt | .abortPending, 0xC => .preempt
  | .aborted, 0x0 => .yes | .aborted, 0x8 => .yes | .aborted, 0x9 => .yes | .aborted, 0xC => .yes
  | .reserved, 0x0 => .yes
  | _, _ => .no

/-! ### Completion flags (10_state.md R50) -/

/-- The hardware sets the completion flag of slot `i` (10_state.md R50). -/
def Instance.setFlag (x : Instance) (i : Nat) : Instance :=
  x.setFields { x.fields with iflag := x.fields.iflag ||| slotBit i }

/-- The host clears every flag set in `v` (40_register_interface.md R146). -/
def Instance.clearFlags (x : Instance) (v : Word) : Instance :=
  x.setFields { x.fields with iflag := x.fields.iflag &&& ~~~v }

/-- The lowest flag below `range` (44_driver_ops.md R297). -/
def firstFlag (v : Word) (range : Nat) : Option Nat := (List.range range).find? fun i => v.getLsbD i

/-! ### The interrupt request (60_exceptions.md R330, R332) -/

/-- IRQ[n] (60_exceptions.md R330). -/
def Instance.irq (x : Instance) : Bool := x.lineEnabled && (x.fields.iflag &&& x.fields.imask) != 0#32

/-- An entry for controller `n` may be taken (60_exceptions.md R332): its request is asserted, its handler does not run and
no fault is set. A selector is 8 bits (30_encoding.md R113). -/
def State.entryEnabled (s : State) (n : Nat) : Bool :=
  match s.insts[n]? with
  | none => false
  | some x => x.irq && s.fault.isNone && (s.handlers.all fun h => h.inst != n) && n < 256

/-! ### Module activity and mode -/

/-- 43_mb_hardware.md R220. -/
def Fields.running (x : Fields) : Bool := x.mdis == 0#1 && x.frzack == 0#1 && x.notrdy == 0#1 && x.synch == 1#1

/-- 60_exceptions.md R337. -/
def Fields.mode (x : Fields) : Mode :=
  if x.mdis = 1#1 then .disabled
  else if x.frzack = 1#1 then (if x.frz = 1#1 ∧ x.halt = 1#1 then .frozen else .exiting)
  else if x.frz = 1#1 ∧ x.halt = 1#1 then .freezeRequested
  else if x.notrdy = 1#1 ∨ x.synch = 0#1 then .unsynced
  else .normal

/-! ### Acceptance (43_mb_hardware.md R230 to R232) -/

/-- RTR takes part in the acceptance test only where RTR_MATCH compares it (43_mb_hardware.md R230; log 24). -/
def RtrMatch.admits (m : RtrMatch) (cw : Word) (f : Frame) : Bool :=
  match m with
  | .ignored => true
  | .compared => f.rtr == cw.getLsbD 20

/-- 43_mb_hardware.md R230. -/
def Instance.matches (x : Instance) (i : Nat) (f : Frame) : Bool :=
  f.ide == (x.ctrl i).getLsbD 21 && x.params.rtrMatch.admits (x.ctrl i) f &&
    ((x.idWord f ^^^ x.word (wordAddr x.ws i 1)) &&& x.fields.rxmgmask &&& 0x1FFFFFFF#32) == 0#32

/-- Slot `i` could take frame `f`, the lock apart (43_mb_hardware.md R232). -/
def Instance.fitsSlot (x : Instance) (i : Nat) (f : Frame) : Bool :=
  i < x.hwSlots && x.slotState i == .receiveEmpty && x.matches i f && x.bytes f ≤ capacity x.ws

/-- 43_mb_hardware.md R232. -/
def Instance.eligible (x : Instance) (i : Nat) (f : Frame) : Bool := x.fitsSlot i f && x.hidden.locked != some i

/-- The eligible slots for `f` but for `except`, ascending (43_mb_hardware.md R231, R232). -/
def Instance.eligibleSlots (x : Instance) (f : Frame) (except : Option Nat) : List Nat :=
  (List.range x.hwSlots).filter fun i => x.eligible i f && except != some i

end Sys2Proof.Machine
end

