-- ==== Sys2Proof/Machine/Access.lean ====
section
/-! DEFINITION. The accesses of the host to one controller (40_register_interface.md), each one atomic step (20_memory.md R87),
and the hardware's response to a write of a slot's code (43_mb_hardware.md R222, R223, R239 to R244). -/

namespace Sys2Proof.Machine

/-! ### Timer and flags -/

/-- A TIMER read: a drawn value, and the receive lock is released (40_register_interface.md R148; 43_mb_hardware.md R236). -/
def timerRead (d : Nat) (x : Instance) : Acc Word := .ok ((drawTimer d).setWidth 32) (x.setLocked none) 1

/-- A write-one-to-clear write (40_register_interface.md R146). -/
def flagClear (v : Word) (_ : Nat) (x : Instance) : Acc Unit := .ok () (x.clearFlags v) 0

/-! ### Fields -/

/-- 40_register_interface.md R142. -/
def fieldRead (sel : FieldSel) (d : Nat) (x : Instance) : Acc Word :=
  match sel with
  | .unnamed _ => .fault .badAccess none none
  | .named .timer => timerRead d x
  | .named f => .ok (x.fields.get f) x 0

/-- A write of MBWS clears the hidden state of every slot, the lock and the held frame (43_mb_hardware.md R248). -/
def Instance.storeField (x : Instance) (f : Field) (v : Word) : Instance :=
  match f with
  | .mbws => (x.setFields (x.fields.set .mbws v)).setHidden .idle
  | f => x.setFields (x.fields.set f v)

/-- 40_register_interface.md R143: the first fault that holds, in the order listed there; else the one field is stored. -/
def fieldWrite (sel : FieldSel) (v : Word) (_ : Nat) (x : Instance) : Acc Unit :=
  match sel with
  | .unnamed _ => .fault .badAccess none none
  | .named f =>
    if f.readOnly then .fault .readOnlyWrite none none
    else if f = .iflag then .fault .rmwOnW1C none none
    else if 2 ^ f.width ≤ v.toNat then .fault .fieldOverflow none none
    else if f = .mbws ∧ legalWordSize v.toNat = false then .fault .illegalFieldValue none none
    else if f.freezeProtected ∧ x.fields.frzack = 0#1 then .fault .freezeProtectedWrite none none
    else if f = .clksrc ∧ x.fields.mdis = 0#1 then .fault .clockSourceWhileEnabled none none
    else .ok () (x.storeField f v) 0

/-! ### Reading a message-buffer word -/

/-- A read of a busy slot's word `j`: a drawn word, its code one of BUSY_READ for the control word (43_mb_hardware.md R238). -/
def busyRead (j d : Nat) (x : Instance) : Acc Word :=
  if j = 0 then .ok (withCode (Config.draw (d + 1)) (x.params.busyRead.code (drawBool d))) x 2
  else .ok (Config.draw d) x 1

/-- 43_mb_hardware.md R235. -/
def Instance.lockOnRead (x : Instance) (i : Nat) : Instance :=
  if x.slotState i = .receiveEmpty then x.setLocked (some i)
  else if x.hidden.locked = some i then x
  else x.setLocked none

/-- 40_register_interface.md R144. A control-word read of another slot that is busy keeps the lock, as R144 and
43_mb_hardware.md R238 say, where 70_reset_and_hazards.md R363 and 92_eei_decisions.md D17 say that a read of any other slot
releases it (DEDUCED, log 30). -/
def wordRead (w : Nat) (d : Nat) (x : Instance) : Acc Word :=
  if Config.mbWords ≤ w then .fault .badAccess none (some w)
  else
    match x.slotOf w with
    | none => .ok (x.word w) x 0
    | some (i, j) =>
      if x.busy i then busyRead j d x
      else .ok (x.word w) (if j = 0 then x.lockOnRead i else x) 0

/-! ### Writing a slot's code -/

/-- The free values one preemption may take: the flag, the outcome on the bus, the slot's other words. -/
def preemptDraws (ws : Nat) : Nat := ws + 1

/-- 43_mb_hardware.md R223: the hardware action pending on slot `i` in state `s` is cancelled. The slot's other words are drawn
only where it was busy, as the pseudocode of R223 says, where 92_eei_decisions.md D15 and 93_implementation_defined.md U8 say it
of a sending and an abort-pending slot too (DEDUCED, log 29). -/
def Instance.preempt (x : Instance) (i : Nat) (s : SlotState) (d : Nat) : Instance :=
  let y :=
    match s with
    | .busy => (x.endRx i).setWords (wordAddr x.ws i 1) (fun k => Config.draw (d + 2 + k)) (x.ws - 1)
    | .send | .abortPending =>
      (if drawBool (d + 1) then x.pushBus (x.busImage i) else x).setAbortPending i false
    | _ => x
  if drawBool d then y.setFlag i else y

/-- The effect of CODE.INACTIVE_RX after the word is stored (43_mb_hardware.md R239). -/
def codeInactiveRx (i : Nat) (_ : SlotState) (x : Instance) : Instance := x.setAbortPending i false

/-- The effect of CODE.RECEIVE_EMPTY after the word is stored (43_mb_hardware.md R240): the word alone arms the slot. -/
def codeReceiveEmpty (_ : Nat) (_ : SlotState) (x : Instance) : Instance := x

/-- The effect of CODE.INACTIVE_TX after the word is stored (43_mb_hardware.md R241): no hardware step acts on the slot. -/
def codeInactiveTx (_ : Nat) (_ : SlotState) (x : Instance) : Instance := x

/-- The effect of CODE.ABORT after the word is stored (43_mb_hardware.md R242): pending from Send, inert otherwise. -/
def codeAbort (i : Nat) (s : SlotState) (x : Instance) : Instance := x.setAbortPending i (s == .send)

/-- The effect of CODE.SEND after the word is stored (43_mb_hardware.md R243). -/
def codeSend (i : Nat) (_ : SlotState) (x : Instance) : Instance := x.setAbortPending i false

/-- The rule of the written code (43_mb_hardware.md R222, last line). -/
def codeEffect (c : BitVec 4) (i : Nat) (s : SlotState) (x : Instance) : Instance :=
  match c.toNat with
  | 0x0 => codeInactiveRx i s x
  | 0x4 => codeReceiveEmpty i s x
  | 0x8 => codeInactiveTx i s x
  | 0x9 => codeAbort i s x
  | _ => codeSend i s x

/-- An admitted control-word write, after any preemption: a lock held on the slot is released, the word is stored and the
rule of its code applies (43_mb_hardware.md R222). `s` is the slot's state before the write. -/
def Instance.storeCode (x : Instance) (i : Nat) (v : Word) (s : SlotState) : Instance :=
  codeEffect (codeOf v) i s
    ((if x.hidden.locked = some i then x.setLocked none else x).setWord (wordAddr x.ws i 0) v)

/-- 43_mb_hardware.md R222. -/
def codeWrite (i : Nat) (v : Word) (d : Nat) (x : Instance) : Acc Unit :=
  if writableCode (codeOf v) then
    match admission x.params.abortPreempts (x.slotState i) (codeOf v) with
    | .no => .fault .illegalCodeTransition (some i) (some (wordAddr x.ws i 0))
    | .yes => .ok () (x.storeCode i v (x.slotState i)) 0
    | .preempt => .ok () ((x.preempt i (x.slotState i) d).storeCode i v (x.slotState i)) (preemptDraws x.ws)
  else .fault .reservedCode (some i) (some (wordAddr x.ws i 0))

/-! ### Writing a message-buffer word -/

/-- 40_register_interface.md R145. -/
def wordWrite (w : Nat) (v : Word) (d : Nat) (x : Instance) : Acc Unit :=
  if Config.mbWords ≤ w then .fault .badAccess none (some w)
  else
    match x.slotOf w with
    | none => .ok () (x.setWord w v) 0
    | some (i, j) =>
      if j = 0 then codeWrite i v d x
      else if (x.slotState i).armed then .fault .writeToArmedSlot (some i) (some w)
      else .ok () (x.setWord w v) 0

end Sys2Proof.Machine
end

