-- ==== Sys2Proof/Machine/Code.lean ====
section
/-! DEFINITION. The code commands: a host write of a control word with that code to word 0 of a slot, through the word write
of MB.WR (40_register_interface.md R145; 43_mb_hardware.md R222, R239 to R243), and the busy read (R238). The slot's
control word stands at `slot * MBWS` (10_state.md R55; log 6). -/

namespace Sys2Proof.Machine

/-- A write of `v` to word 0 of slot `slot`, as MB.WR does it (log 6). -/
def controlWrite (slot : BitVec 8) (v : Word) (d : Nat) (x : Instance) : Acc Unit :=
  wordWrite (wordAddr x.ws slot.toNat 0) v d x

/-- CODE.INACTIVE_RX (43_mb_hardware.md R239). -/
def execCodeInactiveRx (inst slot : BitVec 8) (bits : CtrlBits) (s : State) : Outcome State :=
  onInst (.codeInactiveRx inst slot bits) inst s (controlWrite slot (bits.toWord 0x0)) fun _ t =>
    t.ret (.codeInactiveRx inst slot bits) .success .none

/-- CODE.RECEIVE_EMPTY (43_mb_hardware.md R240). -/
def execCodeReceiveEmpty (inst slot : BitVec 8) (bits : CtrlBits) (s : State) : Outcome State :=
  onInst (.codeReceiveEmpty inst slot bits) inst s (controlWrite slot (bits.toWord 0x4)) fun _ t =>
    t.ret (.codeReceiveEmpty inst slot bits) .success .none

/-- CODE.INACTIVE_TX (43_mb_hardware.md R241). -/
def execCodeInactiveTx (inst slot : BitVec 8) (bits : CtrlBits) (s : State) : Outcome State :=
  onInst (.codeInactiveTx inst slot bits) inst s (controlWrite slot (bits.toWord 0x8)) fun _ t =>
    t.ret (.codeInactiveTx inst slot bits) .success .none

/-- CODE.ABORT (43_mb_hardware.md R242). -/
def execCodeAbort (inst slot : BitVec 8) (bits : CtrlBits) (s : State) : Outcome State :=
  onInst (.codeAbort inst slot bits) inst s (controlWrite slot (bits.toWord 0x9)) fun _ t =>
    t.ret (.codeAbort inst slot bits) .success .none

/-- CODE.SEND (43_mb_hardware.md R243). -/
def execCodeSend (inst slot : BitVec 8) (bits : CtrlBits) (s : State) : Outcome State :=
  onInst (.codeSend inst slot bits) inst s (controlWrite slot (bits.toWord 0xC)) fun _ t =>
    t.ret (.codeSend inst slot bits) .success .none

/-- CODE.BUSY: a read of the slot's control word; a busy slot shows one of the two busy codes, and no lock is taken
(43_mb_hardware.md R238; log 7). -/
def execCodeBusy (inst slot : BitVec 8) (s : State) : Outcome State :=
  onInst (.codeBusy inst slot) inst s (fun d x => wordRead (wordAddr x.ws slot.toNat 0) d x) fun v t =>
    t.ret (.codeBusy inst slot) .success (.word v)

end Sys2Proof.Machine
end

