-- ==== Sys2Proof/Machine/DriverInit.lean ====
section
/-! DEFINITION. FRZ.ENTER, FRZ.EXIT and INIT (44_driver_ops.md R271 to R277), one host step at a time: `s.pos.pc` is the
number of the pseudocode line that runs next (10_state.md R31; log 17). -/

namespace Sys2Proof.Machine

/-- A step that writes one field and goes on at `p` (a line `FLD.WR` of 44_driver_ops.md). -/
def fieldStep (i : Instr) (inst : BitVec 8) (f : Field) (v : Word) (p : Pos) (s : State) : Outcome State :=
  onInst i inst s (fieldWrite (.named f) v) fun _ t => t.goto i p

/-- A step that only checks the selector and goes on at `p` (line 0 of FRZ.ENTER and FRZ.EXIT). -/
def startStep (i : Instr) (inst : BitVec 8) (p : Pos) (s : State) : Outcome State :=
  onInst i inst s (look fun _ => ()) fun _ t => t.goto i p

/-- A step that starts the operation `sub` and goes on at `p` after it (log 17). -/
def callStep (i : Instr) (inst : BitVec 8) (sub : Instr) (p : Pos) (s : State) : Outcome State :=
  onInst i inst s (look fun _ => ()) fun _ t => t.call i p sub

/-- FRZ.ENTER (44_driver_ops.md R271). -/
def execFrzEnter (inst : BitVec 8) (s : State) : Outcome State :=
  let i := Instr.frzEnter inst
  let p := s.pos
  match p.pc with
  | 0 => startStep i inst { p with pc := 1 } s
  | 1 => fieldStep i inst .frz 1 { p with pc := 2 } s
  | 2 => fieldStep i inst .halt 1 { p with pc := 3 } s
  | _ => s.spinRead i p <| onInst i inst s (fieldRead (.named .frzack)) fun a t =>
      if a = 1#32 then t.ret i .success .none else t.spinAgain i p 3

/-- FRZ.EXIT (44_driver_ops.md R272): one spin iteration is the two reads of steps 3 and 4. -/
def execFrzExit (inst : BitVec 8) (s : State) : Outcome State :=
  let i := Instr.frzExit inst
  let p := s.pos
  match p.pc with
  | 0 => startStep i inst { p with pc := 1 } s
  | 1 => fieldStep i inst .halt 0 { p with pc := 2 } s
  | 2 => fieldStep i inst .frz 0 { p with pc := 3 } s
  | 3 => s.spinRead i p <| onInst i inst s (fieldRead (.named .frzack)) fun a t => t.goto i { p with pc := 4, val := a }
  | _ => onInst i inst s (fieldRead (.named .notrdy)) fun r t =>
      if p.val = 0#32 ∧ r = 0#32 then t.ret i .success .none else t.spinAgain i p 3

/-- The argument checks of INIT, in order (44_driver_ops.md R273): the timing record where they pass, none where INIT
returns Fail, the fault TimingOutOfRange where a member is too wide. -/
def initChecks (wordSize : BitVec 8) (timing : Option Timing) (_ : Nat) (x : Instance) : Acc Bool :=
  if legalWordSize wordSize.toNat then
    match timing with
    | none => .ok false x 0
    | some t => if t.inRange then .ok true x 0 else .fault .timingOutOfRange none none
  else .ok false x 0

/-- Line 3 of INIT: the write of INIT_CLKSRC (44_driver_ops.md R274). -/
def initClock (d : Nat) (x : Instance) : Acc Unit :=
  fieldWrite (.named .clksrc) (x.params.initClksrc.setWidth 32) d x

/-- Line 12 of INIT: the write of MBWS, and in the same step the driver record (44_driver_ops.md R274, R276). -/
def initGeometry (wordSize : BitVec 8) (d : Nat) (x : Instance) : Acc Unit :=
  match fieldWrite (.named .mbws) (wordSize.setWidth 32) d x with
  | .fault r slot word => .fault r slot word
  | .ok _ y used =>
    .ok () { y with driver := { y.driver with wordSize := some wordSize.toNat, slotRange := some (slotRange wordSize.toNat) } }
      used

/-- Line 13 of INIT: word `w` is zeroed; the number of words to zero in all (44_driver_ops.md R274; log 18). -/
def initClear (wordSize : BitVec 8) (w : Nat) : Nat → Instance → Acc (Nat × Unit) :=
  along (fun x => x.driver.slotRange.getD 0 * wordSize.toNat) (wordWrite w 0)

/-- INIT (44_driver_ops.md R274). -/
def execInit (inst wordSize : BitVec 8) (timing : Option Timing) (s : State) : Outcome State :=
  let i := Instr.init inst wordSize timing
  let p := s.pos
  let t := timing.getD ⟨0, 0, 0, 0, 0, 0⟩
  match p.pc with
  | 0 => onInst i inst s (initChecks wordSize timing) fun ok u =>
      if ok then u.goto i { p with pc := 1 } else u.ret i .fail .none
  | 1 => onInst i inst s (fieldRead (.named .mdis)) fun m u => u.goto i { p with pc := if m = 0#32 then 2 else 3 }
  | 2 => fieldStep i inst .mdis 1 { p with pc := 3 } s
  | 3 => onInst i inst s initClock fun _ u => u.goto i { p with pc := 4 }
  | 4 => fieldStep i inst .mdis 0 { p with pc := 5 } s
  | 5 => callStep i inst (.frzEnter inst) { p with pc := 6 } s
  | 6 => fieldStep i inst .presdiv t.presdiv { p with pc := 7 } s
  | 7 => fieldStep i inst .rjw t.rjw { p with pc := 8 } s
  | 8 => fieldStep i inst .pseg1 t.pseg1 { p with pc := 9 } s
  | 9 => fieldStep i inst .pseg2 t.pseg2 { p with pc := 10 } s
  | 10 => fieldStep i inst .propseg t.propseg { p with pc := 11 } s
  | 11 => fieldStep i inst .smp t.smp { p with pc := 12 } s
  | 12 => onInst i inst s (initGeometry wordSize) fun _ u => u.goto i { p with pc := 13, idx := 0 }
  | 13 => onInst i inst s (initClear wordSize p.idx) fun n u =>
      u.goto i (if p.idx + 1 < n.1 then { p with idx := p.idx + 1 } else { p with pc := 14 })
  | 14 => fieldStep i inst .srxdis 1 { p with pc := 15 } s
  | 15 => callStep i inst (.frzExit inst) { p with pc := 16 } s
  | _ => onInst i inst s (fieldRead (.named .synch)) fun v u => u.ret i (if v = 1#32 then .success else .fail) .none

end Sys2Proof.Machine
end

