-- ==== Sys2Proof/Machine/DriverTx.lean ====
section
/-! DEFINITION. CFGTX and SEND (44_driver_ops.md R278 to R286), one host step at a time. The word size and the slot range are
the driver record's at the step that uses them (44_driver_ops.md, notation; log 18). -/

namespace Sys2Proof.Machine

/-- `ws = D[n].wordSize` (44_driver_ops.md, notation). -/
def Instance.dws (x : Instance) : Nat := x.driver.wordSize.getD 0

/-- `cw(i)`: the word offset of slot `i`'s control word (44_driver_ops.md, notation). -/
def Instance.cw (x : Instance) (slot : BitVec 8) : Nat := wordAddr x.dws slot.toNat 0

/-- The checks of an index-bearing operation after the selector (44_driver_ops.md R270): the driver record is present, and
the slot is below its slot range. -/
def Instance.indexOk (x : Instance) (slot : BitVec 8) : Bool :=
  x.driver.wordSize.isSome && slot.toNat < x.driver.slotRange.getD 0

/-- Line 0 of an index-bearing operation: `args` are its own argument checks (44_driver_ops.md R270). -/
def indexStep (i : Instr) (inst slot : BitVec 8) (args : Instance → Bool) (s : State) : Outcome State :=
  onInst i inst s (look fun x => x.indexOk slot && args x) fun ok t =>
    if ok then t.goto i { s.pos with pc := 1 } else t.ret i .fail .none

/-- The read of word `j` of slot `slot` that a driver operation makes. -/
def slotRead (slot : BitVec 8) (j : Nat) (d : Nat) (x : Instance) : Acc Word := wordRead (x.cw slot + j) d x

/-- The write of word `j` of slot `slot` that a driver operation makes. -/
def slotWrite (slot : BitVec 8) (j : Nat) (v : Word) (d : Nat) (x : Instance) : Acc Unit := wordWrite (x.cw slot + j) v d x

/-- The same with a word that depends on the controller's parameters (00_scope.md R16). -/
def slotStore (slot : BitVec 8) (j : Nat) (v : Instance → Word) (d : Nat) (x : Instance) : Acc Unit :=
  slotWrite slot j (v x) d x

/-- The frame of CFGTX passes its checks: present, well-formed and short enough (44_driver_ops.md R278). -/
def frameOk (frame : Option FrameRec) (x : Instance) : Bool :=
  match frame.bind FrameRec.frame? with
  | none => false
  | some f => x.bytes f ≤ (x.dws - 2) * 4

/-- The codes CFGTX arms a slot from (44_driver_ops.md R278). -/
def quiescentCode (c : BitVec 4) : Bool :=
  match c.toNat with
  | 0x0 | 0x8 | 0x9 => true
  | _ => false

/-- The frame of a record that passed the checks of line 0. -/
def checkedFrame (frame : Option FrameRec) : Frame :=
  (frame.bind FrameRec.frame?).getD ⟨0, false, false, false, false, false, 0, bytes64 fun _ => 0⟩

/-- CFGTX (44_driver_ops.md R278). -/
def execCfgTx (inst slot : BitVec 8) (frame : Option FrameRec) (s : State) : Outcome State :=
  let i := Instr.cfgTx inst slot frame
  let p := s.pos
  let f := checkedFrame frame
  let count := fun x : Instance => payloadWords (x.bytes f)
  match p.pc with
  | 0 => indexStep i inst slot (frameOk frame) s
  | 1 => onInst i inst s (along count (slotRead slot 0)) fun r t =>
      if quiescentCode (codeOf r.2) then
        t.goto i { p with pc := if r.1 = 0 then 3 else 2, val := r.2, idx := 0 }
      else t.ret i .fail .none
  | 2 => onInst i inst s (along count (slotStore slot (2 + p.idx) fun x => packWord f.data (x.bytes f) 0 p.idx)) fun r t =>
      t.goto i (if p.idx + 1 < r.1 then { p with idx := p.idx + 1 } else { p with pc := 3 })
  | 3 => onInst i inst s (slotStore slot 1 fun x => x.idWord f) fun _ t => t.goto i { p with pc := 4 }
  | _ => onInst i inst s (slotWrite slot 0 (encodeControl 0xC f)) fun _ t => t.ret i .success .none

/-- SEND (44_driver_ops.md R284). What line 3 writes into the unassigned bits is a parameter (DESIGN CHOICE, log 25). -/
def execSend (inst slot : BitVec 8) (frame : Option FrameRec) (s : State) : Outcome State :=
  let i := Instr.send inst slot frame
  let p := s.pos
  match p.pc with
  | 0 => indexStep i inst slot (fun _ => frame.isSome) s
  | 1 => onInst i inst s (flagClear (slotBit slot.toNat)) fun _ t => t.goto i { p with pc := 2 }
  | 2 => onInst i inst s (slotRead slot 0) fun c t =>
      if quiescentCode (codeOf c) then t.goto i { p with pc := 6, val := c }
      else if codeOf c = 0xC#4 then t.goto i { p with pc := 3, val := c }
      else t.ret i .fail .none
  | 3 => onInst i inst s (slotStore slot 0 fun x => abortWord x.params.sendClears p.val) fun _ t =>
      t.goto i { p with pc := 4, spins := 0 }
  | 4 => s.spinRead i p <| onInst i inst s (fieldRead (.named .iflag)) fun f t =>
      if f.getLsbD slot.toNat then t.goto i { p with pc := 5 } else t.spinAgain i p 4
  | 5 => onInst i inst s (flagClear (slotBit slot.toNat)) fun _ t => t.goto i { p with pc := 6 }
  | 6 => callStep i inst (.cfgTx inst slot frame) { p with pc := 7 } s
  | _ => onInst i inst s (look fun _ => ()) fun _ t => t.ret i .success .none

end Sys2Proof.Machine
end

