-- ==== Sys2Proof/Machine/DriverIrq.lean ====
section
/-! DEFINITION. CLRFLAG, ENIRQ, REGCB and DISPATCH (44_driver_ops.md R291 to R299), one host step at a time. -/

namespace Sys2Proof.Machine

/-- CLRFLAG (44_driver_ops.md R291). -/
def execClrFlag (inst slot : BitVec 8) (s : State) : Outcome State :=
  let i := Instr.clrFlag inst slot
  match s.pos.pc with
  | 0 => indexStep i inst slot (fun _ => true) s
  | _ => onInst i inst s (flagClear (slotBit slot.toNat)) fun _ t => t.ret i .success .none

/-- ENIRQ (44_driver_ops.md R293). -/
def execEnIrq (inst slot : BitVec 8) (s : State) : Outcome State :=
  let i := Instr.enIrq inst slot
  let p := s.pos
  match p.pc with
  | 0 => indexStep i inst slot (fun _ => true) s
  | 1 => callStep i inst (.frzEnter inst) { p with pc := 2 } s
  | 2 => onInst i inst s (fieldRead (.named .imask)) fun m t => t.goto i { p with pc := 3, val := m }
  | 3 => fieldStep i inst .imask (p.val ||| slotBit slot.toNat) { p with pc := 4 } s
  | 4 => callStep i inst (.frzExit inst) { p with pc := 5 } s
  | _ => onInst i inst s (look fun _ => ()) fun _ t => t.ret i .success .none

/-- The write of the driver's callback (44_driver_ops.md R295); an absent handler writes nothing. -/
def setCallback (handler : Option Handler) (_ : Nat) (x : Instance) : Acc Bool :=
  match handler with
  | none => .ok false x 0
  | some h => .ok true { x with driver := { x.driver with callback := some h } } 0

/-- REGCB (44_driver_ops.md R295). -/
def execRegCb (inst : BitVec 8) (handler : Option Handler) (s : State) : Outcome State :=
  let i := Instr.regCb inst handler
  onInst i inst s (setCallback handler) fun ok t => t.ret i (if ok then .success else .fail) .none

/-- The body of handler `h` for slot `slot`: the host's code where it fixes one, else free (44_driver_ops.md R296; log 13).
How many free values that takes comes with it. -/
def State.bodyOf (s : State) (h : Handler) (slot : Nat) : List Instr × Nat :=
  match s.handlerCode.find? fun b => b.handler == h && b.slot == slot with
  | some b => (b.ops, 0)
  | none => (Config.callbackBody s.draws h slot, 1)

/-- What DISPATCH's read of IFLAG leads to: the lowest flag below the slot range and the callback it goes to
(44_driver_ops.md R297); the scan ignores IMASK. -/
def dispatchScan (_ : Nat) (x : Instance) : Acc (Option (Handler × Nat)) :=
  .ok (match firstFlag x.fields.iflag (x.driver.slotRange.getD 0), x.driver.callback with
    | some slot, some h => some (h, slot)
    | _, _ => none) x 0

/-- The call of `callback(slot)`: the handler's body runs next, in the running context (44_driver_ops.md R296; log 13). -/
def State.startCallback (s : State) (i : Instr) (p : Pos) (h : Handler) (slot : Nat) : State :=
  { s with draws := s.draws + (s.bodyOf h slot).2 }.goto i
    { p with pc := 2, called := some (h, slot), body := (s.bodyOf h slot).1 }

/-- DISPATCH (44_driver_ops.md R297); at step 2 the called handler's operations run one after another (R296). -/
def execDispatch (inst : BitVec 8) (s : State) : Outcome State :=
  let i := Instr.dispatch inst
  let p := s.pos
  match p.pc with
  | 0 => onInst i inst s (look fun x => x.driver.wordSize.isSome) fun ok t =>
      if ok then t.goto i { p with pc := 1 } else t.ret i .success .none
  | 1 => onInst i inst s dispatchScan fun found t =>
      match found with
      | none => t.ret i .success .none
      | some (h, slot) => t.startCallback i p h slot
  | _ => onInst i inst s (look fun _ => ()) fun _ t =>
      match p.body with
      | [] => t.ret i .success .none
      | op :: rest => t.call i { p with body := rest } op

end Sys2Proof.Machine
end

