-- ==== Sys2Proof/Machine/DriverRx.lean ====
section
/-! DEFINITION. CFGRX and RECV (44_driver_ops.md R281 to R289), one host step at a time. -/

namespace Sys2Proof.Machine

/-- The control word CFGRX arms a slot with: code 4 and RX_IDE (44_driver_ops.md R281). -/
def armRxWord (ide : Bool) : Word := (0x4#32 <<< 24) ||| ((BitVec.ofBool ide).setWidth 32 <<< 21)

/-- CFGRX (44_driver_ops.md R281). -/
def execCfgRx (inst slot : BitVec 8) (filterId filterMask : Word) (s : State) : Outcome State :=
  let i := Instr.cfgRx inst slot filterId filterMask
  let p := s.pos
  match p.pc with
  | 0 => indexStep i inst slot (fun _ => filterId.toNat < 2 ^ 29) s
  | 1 => onInst i inst s (slotRead slot 0) fun c t =>
      t.goto i { p with pc := if codeOf c = 0x0#4 then 3 else 2, val := c }
  | 2 => onInst i inst s (slotWrite slot 0 0) fun _ t => t.goto i { p with pc := 3 }
  | 3 => callStep i inst (.frzEnter inst) { p with pc := 4 } s
  | 4 => fieldStep i inst .rxmgmask filterMask { p with pc := 5 } s
  | 5 => callStep i inst (.frzExit inst) { p with pc := 6 } s
  | 6 => onInst i inst s (slotWrite slot 1 filterId) fun _ t => t.goto i { p with pc := 7 }
  | _ => onInst i inst s (slotStore slot 0 fun x => armRxWord x.params.rxIde) fun _ t => t.ret i .success .none

/-- The busy test of the driver: bit 0 of the code set, bit 3 clear (44_driver_ops.md R287). -/
def showsBusy (c : Word) : Bool := c.getLsbD 24 && !c.getLsbD 27

/-- The payload fits the slot: the capacity is that of the driver's word size (44_driver_ops.md R287). -/
def Instance.payloadFits (x : Instance) (cw : Word) : Bool := ctrlBytes x.params.dlcMap cw ≤ (x.dws - 2) * 4

/-- The payload words RECV reads: those of the control word it read (44_driver_ops.md R287). -/
def Instance.recvWords (x : Instance) (cw : Word) : Nat := payloadWords (ctrlBytes x.params.dlcMap cw)

/-- The frame RECV returns, from the words it read (44_driver_ops.md R287). -/
def Instance.recvFrame (x : Instance) (p : Pos) : Frame :=
  frameOfWords x.params.stdIdShift p.val p.idw p.words (ctrlBytes x.params.dlcMap p.val)

/-- RECV (44_driver_ops.md R287). -/
def execRecv (inst slot : BitVec 8) (s : State) : Outcome State :=
  let i := Instr.recv inst slot
  let p := s.pos
  match p.pc with
  | 0 => indexStep i inst slot (fun _ => true) s
  | 1 => s.spinRead i p <| onInst i inst s (along Instance.payloadFits (slotRead slot 0)) fun r t =>
      if showsBusy r.2 then t.spinAgain i p 1
      else if codeOf r.2 ≠ 0x4#4 then t.ret i .fail .none
      else if r.1 r.2 then t.goto i { p with pc := 2, val := r.2, ok := true }
      else t.goto i { p with pc := 4, val := r.2, ok := false }
  | 2 => onInst i inst s (along (fun x => x.recvWords p.val) (slotRead slot 1)) fun r t =>
      t.goto i { p with pc := if r.1 = 0 then 4 else 3, idw := r.2, idx := 0, words := [] }
  | 3 => onInst i inst s (along (fun x => x.recvWords p.val) (slotRead slot (2 + p.idx))) fun r t =>
      t.goto i (if p.idx + 1 < r.1 then { p with idx := p.idx + 1, words := p.words ++ [r.2] }
        else { p with pc := 4, words := p.words ++ [r.2] })
  | _ => onInst i inst s (along (fun x => x.recvFrame p) timerRead) fun r t =>
      if p.ok then t.ret i .success (.frame r.1) else t.ret i .fail .none

end Sys2Proof.Machine
end

