-- ==== Sys2Proof/Machine/RegIface.lean ====
section
/-! DEFINITION. The six register interface operations (40_register_interface.md), each one host step. -/

namespace Sys2Proof.Machine

/-- FLD.RD (40_register_interface.md R142). -/
def execFldRd (inst : BitVec 8) (field : FieldSel) (s : State) : Outcome State :=
  onInst (.fldRd inst field) inst s (fieldRead field) fun v t => t.ret (.fldRd inst field) .success (.word v)

/-- FLD.WR (40_register_interface.md R143). -/
def execFldWr (inst : BitVec 8) (field : FieldSel) (value : Word) (s : State) : Outcome State :=
  onInst (.fldWr inst field value) inst s (fieldWrite field value) fun _ t =>
    t.ret (.fldWr inst field value) .success .none

/-- MB.RD (40_register_interface.md R144). -/
def execMbRd (inst word : BitVec 8) (s : State) : Outcome State :=
  onInst (.mbRd inst word) inst s (wordRead word.toNat) fun v t => t.ret (.mbRd inst word) .success (.word v)

/-- MB.WR (40_register_interface.md R145). -/
def execMbWr (inst word : BitVec 8) (value : Word) (s : State) : Outcome State :=
  onInst (.mbWr inst word value) inst s (wordWrite word.toNat value) fun _ t =>
    t.ret (.mbWr inst word value) .success .none

/-- IFLAG.W1C (40_register_interface.md R146). -/
def execIflagW1c (inst : BitVec 8) (value : Word) (s : State) : Outcome State :=
  onInst (.iflagW1c inst value) inst s (flagClear value) fun _ t => t.ret (.iflagW1c inst value) .success .none

/-- TIMER.RD (40_register_interface.md R148). -/
def execTimerRd (inst : BitVec 8) (s : State) : Outcome State :=
  onInst (.timerRd inst) inst s timerRead fun v t => t.ret (.timerRd inst) .success (.word v)

end Sys2Proof.Machine
end

