-- ==== Sys2Proof/Machine/Dispatch.lean ====
section
/-! DEFINITION. One arm per operation of spec/opcode_table.json: the host's next step of that operation. -/

namespace Sys2Proof.Machine

def exec (i : Instr) (s : State) : Host.Outcome State Fault Refusal :=
  match i with
  | .fldRd inst field => Sys2Proof.Machine.execFldRd inst field s
  | .fldWr inst field value => Sys2Proof.Machine.execFldWr inst field value s
  | .mbRd inst word => Sys2Proof.Machine.execMbRd inst word s
  | .mbWr inst word value => Sys2Proof.Machine.execMbWr inst word value s
  | .iflagW1c inst value => Sys2Proof.Machine.execIflagW1c inst value s
  | .timerRd inst => Sys2Proof.Machine.execTimerRd inst s
  | .init inst wordSize timing => Sys2Proof.Machine.execInit inst wordSize timing s
  | .frzEnter inst => Sys2Proof.Machine.execFrzEnter inst s
  | .frzExit inst => Sys2Proof.Machine.execFrzExit inst s
  | .cfgTx inst slot frame => Sys2Proof.Machine.execCfgTx inst slot frame s
  | .cfgRx inst slot filterId filterMask => Sys2Proof.Machine.execCfgRx inst slot filterId filterMask s
  | .send inst slot frame => Sys2Proof.Machine.execSend inst slot frame s
  | .recv inst slot => Sys2Proof.Machine.execRecv inst slot s
  | .clrFlag inst slot => Sys2Proof.Machine.execClrFlag inst slot s
  | .enIrq inst slot => Sys2Proof.Machine.execEnIrq inst slot s
  | .regCb inst handler => Sys2Proof.Machine.execRegCb inst handler s
  | .dispatch inst => Sys2Proof.Machine.execDispatch inst s
  | .codeInactiveRx inst slot bits => Sys2Proof.Machine.execCodeInactiveRx inst slot bits s
  | .codeReceiveEmpty inst slot bits => Sys2Proof.Machine.execCodeReceiveEmpty inst slot bits s
  | .codeInactiveTx inst slot bits => Sys2Proof.Machine.execCodeInactiveTx inst slot bits s
  | .codeAbort inst slot bits => Sys2Proof.Machine.execCodeAbort inst slot bits s
  | .codeSend inst slot bits => Sys2Proof.Machine.execCodeSend inst slot bits s
  | .codeBusy inst slot => Sys2Proof.Machine.execCodeBusy inst slot s

end Sys2Proof.Machine
end

