-- ==== Sys2Proof/Machine/Hardware.lean ====
section
/-! DEFINITION. The steps the controller hardware takes by itself (43_mb_hardware.md R220 to R234): each answers the controller
after it, or none where its guard does not hold. -/

namespace Sys2Proof.Machine

/-! ### Freeze handshake and synchronisation -/

/-- FREEZE_ACK (43_mb_hardware.md R225). -/
def freezeAck (x : Instance) : Option Instance :=
  if x.fields.mdis = 0#1 ∧ x.fields.frz = 1#1 ∧ x.fields.halt = 1#1 ∧ x.fields.frzack = 0#1 then
    some (x.setFields { x.fields with frzack := 1#1, notrdy := 1#1, synch := 0#1 })
  else none

/-- FREEZE_EXIT (43_mb_hardware.md R226). -/
def freezeExit (x : Instance) : Option Instance :=
  if x.fields.mdis = 0#1 ∧ x.fields.frzack = 1#1 ∧ ¬(x.fields.frz = 1#1 ∧ x.fields.halt = 1#1) then
    some (x.setFields { x.fields with frzack := 0#1, notrdy := 0#1 })
  else none

/-- SYNC (43_mb_hardware.md R227). -/
def syncStep (x : Instance) : Option Instance :=
  if x.fields.mdis = 0#1 ∧ x.fields.frzack = 0#1 ∧ x.fields.notrdy = 0#1 ∧ x.fields.synch = 0#1 then
    some (x.setFields { x.fields with synch := 1#1 })
  else none

/-! ### Acceptance of a frame -/

/-- The slot that receives among the eligible ones (43_mb_hardware.md R232; RX_MATCH_ORDER). -/
def choose (order : RxMatchOrder) (pick : Nat) (slots : List Nat) : Option Nat :=
  match order with
  | .lowestIndex => slots.head?
  | .any => slots[pick % slots.length]?

/-- The effect of RX_BEGIN on a frame `f`, over the slots but `except` (43_mb_hardware.md R231, R232): an eligible slot
takes it, a slot that only the lock keeps from it holds it back, or it is dropped. -/
def Instance.accept (x : Instance) (order : RxMatchOrder) (f : Frame) (except : Option Nat) (pick : Nat) : Instance :=
  match choose order pick (x.eligibleSlots f except) with
  | some i => x.beginRx i f
  | none =>
    match x.hidden.locked with
    | some k => if x.fitsSlot k f && except != some k then x.setPendingRx (some f) else x
    | none => x

/-- Self-reception of the frame transmitted from slot `i`, in the same step (43_mb_hardware.md R231). -/
def Instance.selfReceive (x : Instance) (order : RxMatchOrder) (i : Nat) (f : Frame) (pick : Nat) : Instance :=
  if x.fields.srxdis = 0#1 then x.accept order f (some i) pick else x

/-! ### Transmission and abort -/

/-- The controller after slot `i` was transmitted or its abort resolved: code, time stamp and flag. -/
def Instance.finishTx (x : Instance) (i : Nat) (code : BitVec 4) (t : BitVec 16) : Instance :=
  (x.setWord (wordAddr x.ws i 0) (withCodeStamp (x.ctrl i) code t)).setFlag i

/-- TX_COMPLETE (43_mb_hardware.md R228). -/
def txComplete (order : RxMatchOrder) (i : Nat) (t : BitVec 16) (pick : Nat) (x : Instance) : Option Instance :=
  if x.fields.running ∧ i < x.hwSlots ∧ x.slotState i = .send then
    some (((x.pushBus (x.busImage i)).finishTx i 0x8 t).selfReceive order i (x.decodeSlot i) pick)
  else none

/-- ABORT_RESOLVE (43_mb_hardware.md R234): `sent` is possible only while running. -/
def abortResolve (order : RxMatchOrder) (i : Nat) (sent keep9 : Bool) (t : BitVec 16) (pick : Nat) (x : Instance) :
    Option Instance :=
  if x.fields.mdis = 0#1 ∧ i < x.hwSlots ∧ x.slotState i = .abortPending ∧ (sent → x.fields.running) then
    if sent then
      some ((((x.pushBus (x.busImage i)).setAbortPending i false).finishTx i 0x8 t).selfReceive order i (x.decodeSlot i) pick)
    else some ((x.setAbortPending i false).finishTx i (x.params.abortFinal.code keep9) t)
  else none

/-! ### Reception -/

/-- RX_BEGIN (43_mb_hardware.md R232): a well-formed frame of the bus, or the held frame when a slot is eligible for it. -/
def rxBegin (order : RxMatchOrder) (src : RxSource) (pick : Nat) (x : Instance) : Option Instance :=
  if x.fields.running then
    match src with
    | .bus f => if f.wellFormed then some (x.accept order f none pick) else none
    | .held =>
      match x.hidden.pendingRx with
      | none => none
      | some f =>
        if x.eligibleSlots f none = [] then none
        else some ((x.accept order f none pick).setPendingRx none)
  else none

/-- RX_COMMIT (43_mb_hardware.md R233). -/
def rxCommit (i : Nat) (t : BitVec 16) (fill : Word) (x : Instance) : Option Instance :=
  if x.fields.mdis = 0#1 ∧ i < x.hwSlots ∧ x.busy i then
    match (x.hidden.slot i).rxInflight with
    | none => none
    | some f => some (((x.writeRxImage i f t fill).endRx i).setFlag i)
  else none

/-! ### One hardware step of the system -/

/-- The system after a hardware step of controller `n`; a step that is not enabled changes nothing (log 22). -/
def State.hwStep (s : State) (n : Nat) (f : Instance → Option Instance) : State :=
  match s.insts[n]?.bind f with
  | none => s
  | some x => s.setInst n x

end Sys2Proof.Machine
end

