-- ==== Sys2Proof/Machine/Host.lean ====
section
/-! DEFINITION. Which agent moves, and what the host does next: start a request of its program, go on with the operation in
progress, or leave an interrupt handler (10_state.md R31; 60_exceptions.md R332 to R334). -/

namespace Sys2Proof.Machine

/-- The fault of a request that is no operation (30_encoding.md R118, R120). It is raised whatever controller the request names
(DESIGN CHOICE, log 5). -/
def decodeFault : DecodeError → Fault
  | .unknownOperation _ => .badAccess
  | .truncated _ => .badAccess
  | .malformedRecord _ => .badAccess
  | .reservedCode _ => .reservedCode
  | .notBusyCode _ => .badAccess

/-- The idle mainline takes the next request of its program; with none left it stays idle (log 11).
The record of a request that decodes to no operation names the request, no slot and no word (DESIGN CHOICE, log 27). -/
def State.fetch (s : State) : Outcome State :=
  match s.program with
  | [] => .next s
  | r :: rest =>
    match decode r with
    | .ok i => exec i { s with program := rest }
    | .error e => .next ({ s with program := rest }.raise (decodeFault e) (.undecoded r) none none)

/-- The host's next step (10_state.md R31): the operation in progress of the innermost handler, a return from a handler
whose DISPATCH has returned (60_exceptions.md R333), or the mainline's when no handler runs (R334). -/
def State.hostStep (s : State) : Outcome State :=
  match s.acts with
  | a :: _ => exec a.op s
  | [] =>
    match s.handlers with
    | [] => s.fetch
    | _ :: _ => .next s.leaveHandler

/-- The interrupt entry for controller `n`, where it may be taken (60_exceptions.md R332; log 22). -/
def State.irqStep (s : State) (n : Nat) : State := if s.entryEnabled n then s.enterHandler n else s

/-- One step of the agent an event names (00_scope.md R9). -/
def runEvent (e : Event) (s : State) : Outcome State :=
  match e with
  | .host => s.hostStep
  | .irqEntry n => .next (s.irqStep n)
  | .freezeAck n => .next (s.hwStep n freezeAck)
  | .freezeExit n => .next (s.hwStep n freezeExit)
  | .sync n => .next (s.hwStep n syncStep)
  | .txComplete n i t pick => .next (s.hwStep n (txComplete s.params.rxMatchOrder i t pick))
  | .abortResolve n i sent keep9 t pick =>
    .next (s.hwStep n (abortResolve s.params.rxMatchOrder i sent keep9 t pick))
  | .rxBegin n src pick => .next (s.hwStep n (rxBegin s.params.rxMatchOrder src pick))
  | .rxCommit n i t fill => .next (s.hwStep n (rxCommit i t fill))

/-- The event that comes next: the head of the schedule, or a free one where it ends (log 9). -/
def State.nextEvent (s : State) : Event :=
  match s.schedule with
  | e :: _ => e
  | [] => Config.nextEvent s.draws

/-- The state with the next event taken from the schedule, or with a free value taken (log 9). -/
def State.takeEvent (s : State) : State :=
  match s.schedule with
  | _ :: rest => { s with schedule := rest }
  | [] => { s with draws := s.draws + 1 }

/-- The state whose next step is the host's, with `r` the request it starts: what loading a program stands for (log 11). -/
def State.withRequest (s : State) (r : Request) : State :=
  { s with
    program := r :: s.program, schedule := .host :: s.schedule, mainline := [], handlers := [], fault := none }

end Sys2Proof.Machine
end

