-- ==== Sys2Proof/Machine/Step.lean ====
section
/-! DEFINITION. One step of the system, and the placing of a request so that the next step starts it. -/

namespace Sys2Proof.Machine

/-- One step: with a fault set no step is enabled (60_exceptions.md R322); else the next event's agent moves (20_memory.md
R93). -/
def step (s : State) : Host.Outcome State Fault Refusal :=
  match s.fault with
  | some f => .fault f.reason
  | none => runEvent s.nextEvent s.takeEvent

/-- The state in which the next step runs the operation of a table word (log 11). -/
def State.withFetchWord (s : State) (nbits w : Nat) : State := s.withRequest (tableRequest nbits w)

end Sys2Proof.Machine
end

