-- ==== Sys2Proof/Safety.lean ====
section
/-! DEFINITION. What claims are stated in: a run without a fault, the invariant every step keeps, the launch premises of
70_reset_and_hazards.md R352, the effects that several rules share, and what one host step of an operation may write. -/

namespace Sys2Proof.Machine

/-- No use the rules leave undefined has happened (60_exceptions.md R322). -/
def State.safe (s : State) : Prop := s.fault = none

/-- What holds of a controller in every reachable state. -/
structure Instance.Inv (x : Instance) : Prop where
  /-- The memory is in canonical form (log 2). -/
  memory : Memory.wf x.mem
  /-- A busy slot shows code 4 and holds a frame that fits it (10_state.md R56, R57; 43_mb_hardware.md R232). -/
  busySlot : ∀ i, x.busy i = true → i < x.hwSlots ∧ x.code i = 0x4#4 ∧
    ∃ f, (x.hidden.slot i).rxInflight = some f ∧ f.wellFormed = true ∧ x.bytes f ≤ capacity x.ws
  /-- A slot that is not busy holds no frame (10_state.md R57). -/
  idleSlot : ∀ i, x.busy i = false → (x.hidden.slot i).rxInflight = none
  /-- A slot with an abort pending shows code 9 (10_state.md R58). -/
  abortSlot : ∀ i, x.abortPending i = true → i < x.hwSlots ∧ x.code i = 0x9#4
  /-- The locked slot is armed to receive and not busy (43_mb_hardware.md R235). -/
  lockedSlot : ∀ k, x.hidden.locked = some k → k < x.hwSlots ∧ x.slotState k = .receiveEmpty
  /-- The held frame is one the bus can offer (43_mb_hardware.md R232). -/
  heldFrame : ∀ f, x.hidden.pendingRx = some f → f.wellFormed = true
  /-- The driver's word size is admissible (10_state.md R62). -/
  wordSize : ∀ ws, x.driver.wordSize = some ws → legalWordSize ws = true
  /-- The driver's slot range is that of its word size (10_state.md R62). -/
  range : x.driver.slotRange = x.driver.wordSize.map slotRange

/-- What holds of the system in every reachable state. -/
structure State.Inv (s : State) : Prop where
  /-- Every controller keeps its own invariant. -/
  insts : ∀ x ∈ s.insts, x.Inv
  /-- No handler is entered again while it runs (60_exceptions.md R332, R334). -/
  handlersOnce : (s.handlers.map HandlerCtx.inst).Nodup
  /-- Handlers run for controllers that exist, so nesting is at most N_INST deep (60_exceptions.md R334). -/
  handlersExist : ∀ h ∈ s.handlers, h.inst < s.insts.length

/-- QuietAtReset(n) (70_reset_and_hazards.md R352). -/
def State.QuietAtReset (s : State) (n : Nat) : Prop := ∀ x, s.insts[n]? = some x → x.fields.mdis = 1#1

/-- FlagsClearAtReset(n) (70_reset_and_hazards.md R352). -/
def State.FlagsClearAtReset (s : State) (n : Nat) : Prop :=
  ∀ x, s.insts[n]? = some x → x.fields.iflag = 0#32 ∧ x.fields.imask = 0#32

/-- The last return was an INIT of controller `n`, with result `r` (log 14). -/
def State.initReturned (s : State) (n : Nat) (r : Result) : Prop :=
  ∃ inst wordSize timing v, inst.toNat = n ∧ s.lastReturn = some ⟨.init inst wordSize timing, r, v⟩

/-- CleanAfterInit(n) of the run from `s` (70_reset_and_hazards.md R352): the first INIT of `n` that returns in it returns
Success. A run in which none returns meets it, and the first is the first to return (DESIGN CHOICE, log 28). -/
def State.CleanAfterInit (s : State) (n : Nat) : Prop :=
  ∀ k t r, core.run k s = .next t → t.initReturned n r →
    (∀ j u q, j < k → core.run j s = .next u → ¬ u.initReturned n q) → r = .success

end Sys2Proof.Machine

namespace Sys2Proof

/-! ### The controller an operation or an event names -/

/-- The selector of an operation (30_encoding.md R113). -/
def Instr.inst : Instr → BitVec 8
  | .fldRd inst _ => inst
  | .fldWr inst _ _ => inst
  | .mbRd inst _ => inst
  | .mbWr inst _ _ => inst
  | .iflagW1c inst _ => inst
  | .timerRd inst => inst
  | .init inst _ _ => inst
  | .frzEnter inst => inst
  | .frzExit inst => inst
  | .cfgTx inst _ _ => inst
  | .cfgRx inst _ _ _ => inst
  | .send inst _ _ => inst
  | .recv inst _ => inst
  | .clrFlag inst _ => inst
  | .enIrq inst _ => inst
  | .regCb inst _ => inst
  | .dispatch inst => inst
  | .codeInactiveRx inst _ _ => inst
  | .codeReceiveEmpty inst _ _ => inst
  | .codeInactiveTx inst _ _ => inst
  | .codeAbort inst _ _ => inst
  | .codeSend inst _ _ => inst
  | .codeBusy inst _ => inst

/-- The operations of one step: those of 40_register_interface.md and the code commands. -/
def Instr.primitive : Instr → Bool
  | .fldRd _ _ | .fldWr _ _ _ | .mbRd _ _ | .mbWr _ _ _ | .iflagW1c _ _ | .timerRd _ => true
  | .codeInactiveRx _ _ _ | .codeReceiveEmpty _ _ _ | .codeInactiveTx _ _ _ | .codeAbort _ _ _ | .codeSend _ _ _
  | .codeBusy _ _ => true
  | .init _ _ _ | .frzEnter _ | .frzExit _ | .cfgTx _ _ _ | .cfgRx _ _ _ _ | .send _ _ _ | .recv _ _ | .clrFlag _ _
  | .enIrq _ _ | .regCb _ _ | .dispatch _ => false

/-- The controller whose hardware or interrupt an event is for; none for the host. -/
def Event.controller : Event → Option Nat
  | .host => none
  | .irqEntry n => some n
  | .freezeAck n => some n
  | .freezeExit n => some n
  | .sync n => some n
  | .txComplete n _ _ _ => some n
  | .abortResolve n _ _ _ _ _ => some n
  | .rxBegin n _ _ => some n
  | .rxCommit n _ _ _ => some n

/-- The slot an index-bearing operation names (44_driver_ops.md R270). -/
def Instr.indexed : Instr → Option (BitVec 8)
  | .cfgTx _ slot _ | .cfgRx _ slot _ _ | .send _ slot _ | .recv _ slot | .clrFlag _ slot | .enIrq _ slot => some slot
  | .fldRd _ _ | .fldWr _ _ _ | .mbRd _ _ | .mbWr _ _ _ | .iflagW1c _ _ | .timerRd _ | .init _ _ _ | .frzEnter _
  | .frzExit _ | .regCb _ _ | .dispatch _ | .codeInactiveRx _ _ _ | .codeReceiveEmpty _ _ _ | .codeInactiveTx _ _ _
  | .codeAbort _ _ _ | .codeSend _ _ _ | .codeBusy _ _ => none

end Sys2Proof

namespace Sys2Proof.Machine

/-! ### Effects that several rules share -/

/-- `y` is `x` with word `w` holding `v` and every other word as before. -/
def Instance.WordStored (x y : Instance) (w : Nat) (v : Word) : Prop :=
  ∀ u, y.word u = if u = w then v else x.word u

/-- What an admitted control-word write of `v` to slot `i` does beside the preemption and the rule of its code
(43_mb_hardware.md R222): the word is stored, a lock held on the slot is released, and nothing else changes but whether
an abort is pending on the slot. -/
structure Instance.ControlStored (x y : Instance) (i : Nat) (v : Word) : Prop where
  words : x.WordStored y (wordAddr x.ws i 0) v
  fields : y.fields = x.fields
  lock : y.hidden.locked = if x.hidden.locked = some i then none else x.hidden.locked
  held : y.hidden.pendingRx = x.hidden.pendingRx
  others : ∀ k, k ≠ i → y.hidden.slot k = x.hidden.slot k
  reception : y.busy i = x.busy i ∧ (y.hidden.slot i).rxInflight = (x.hidden.slot i).rxInflight
  driver : y.driver = x.driver
  bus : y.busOut = x.busOut
  line : y.lineEnabled = x.lineEnabled
  params : y.params = x.params

/-- What an admitted control-word write of `v` that preempts slot `i` may do, beside whether an abort is pending there
(43_mb_hardware.md R222, R223): the frame may or may not have reached the bus, a reception is lost and only that slot's other
words change, the slot's flag may be set, a lock held on the slot is released, and the written word then stands. -/
structure Instance.Preempted (x y : Instance) (i : Nat) (v : Word) : Prop where
  written : y.word (wordAddr x.ws i 0) = v
  fields : y.fields = x.fields ∨ y.fields = { x.fields with iflag := x.fields.iflag ||| (1#32 <<< i) }
  reception : y.busy i = false ∧ (y.hidden.slot i).rxInflight = none
  others : ∀ k, k ≠ i → y.hidden.slot k = x.hidden.slot k
  held : y.hidden.pendingRx = x.hidden.pendingRx
  lock : y.hidden.locked = if x.hidden.locked = some i then none else x.hidden.locked
  driver : y.driver = x.driver
  line : y.lineEnabled = x.lineEnabled
  params : y.params = x.params
  receiving : x.slotState i = .busy → y.busOut = x.busOut ∧
    ∀ w, x.slotOf w = none ∨ (∃ k j, x.slotOf w = some (k, j) ∧ k ≠ i) → y.word w = x.word w
  sending : x.slotState i ≠ .busy → (y.busOut = x.busOut ∨ y.busOut = x.busOut ++ [x.busImage i]) ∧
    ∀ w, w ≠ wordAddr x.ws i 0 → y.word w = x.word w

/-- Slot `i` could take `f` if it were not locked (43_mb_hardware.md R230, R232); `except` is the slot that transmitted it.
RTR counts only where RTR_MATCH compares it, which is not the spec's value (log 24). -/
structure Instance.CouldTake (x : Instance) (f : Frame) (except : Option Nat) (i : Nat) : Prop where
  slot : i < x.hwSlots
  armed : x.slotState i = .receiveEmpty
  ide : f.ide = (x.word (wordAddr x.ws i 0)).getLsbD 21
  rtr : x.params.rtrMatch = .compared → f.rtr = (x.word (wordAddr x.ws i 0)).getLsbD 20
  id : (x.idWord f ^^^ x.word (wordAddr x.ws i 1)) &&& x.fields.rxmgmask &&& 0x1FFFFFFF#32 = 0#32
  fits : x.bytes f ≤ (x.ws - 2) * 4
  other : except ≠ some i

/-- The outcomes of offering `f` to the slots but `except` (43_mb_hardware.md R231, R232): an eligible slot takes it, the
lowest under LowestIndex; with none eligible, the slot that only the lock keeps from it holds it; else it is dropped. -/
def Instance.Offered (x y : Instance) (order : RxMatchOrder) (f : Frame) (except : Option Nat) : Prop :=
  (∃ i, x.CouldTake f except i ∧ x.hidden.locked ≠ some i ∧
    (order = .lowestIndex → ∀ k, x.CouldTake f except k → x.hidden.locked ≠ some k → i ≤ k) ∧ y = x.beginRx i f) ∨
  (∀ i, x.CouldTake f except i → x.hidden.locked = some i) ∧
    ((∃ k, x.hidden.locked = some k ∧ x.CouldTake f except k ∧ y = x.setPendingRx (some f)) ∨
     (∀ k, ¬ x.CouldTake f except k) ∧ y = x)

/-- No hardware step acts on slot `i` (43_mb_hardware.md R239, R241, R242): none transmits it, resolves an abort there,
finishes a reception there or begins one there. -/
def Instance.Quiet (x : Instance) (i : Nat) : Prop :=
  (∀ order t pick, txComplete order i t pick x = none) ∧
  (∀ order sent keep9 t pick, abortResolve order i sent keep9 t pick x = none) ∧
  (∀ t fill, rxCommit i t fill x = none) ∧ ∀ f except, ¬ x.CouldTake f except i

/-- The step an event names may be taken: for a hardware step its guard holds (43_mb_hardware.md), for an interrupt entry the
conditions of 60_exceptions.md R332. -/
def State.enabled (s : State) : Event → Bool
  | .host => true
  | .irqEntry n => s.entryEnabled n
  | .freezeAck n => (s.insts[n]?.bind freezeAck).isSome
  | .freezeExit n => (s.insts[n]?.bind freezeExit).isSome
  | .sync n => (s.insts[n]?.bind syncStep).isSome
  | .txComplete n i t pick => (s.insts[n]?.bind (txComplete s.params.rxMatchOrder i t pick)).isSome
  | .abortResolve n i sent keep9 t pick =>
    (s.insts[n]?.bind (abortResolve s.params.rxMatchOrder i sent keep9 t pick)).isSome
  | .rxBegin n src pick => (s.insts[n]?.bind (rxBegin s.params.rxMatchOrder src pick)).isSome
  | .rxCommit n i t fill => (s.insts[n]?.bind (rxCommit i t fill)).isSome

/-! ### How operations start and return -/

/-- A selector that names no controller ends the operation (40_register_interface.md R140; 44_driver_ops.md R270). -/
def ChecksSelector (i : Instr) (s : State) : Prop :=
  s.insts[i.inst.toNat]? = none → exec i s = .next (s.ret i .invalidInstance .none)

/-- The preamble of an index-bearing operation refuses a selector that names no controller, a driver that is not set up and
a slot not below its range (44_driver_ops.md R270). -/
def ChecksPreamble (i : Instr) (slot : BitVec 8) (s : State) : Prop :=
  s.pos.pc = 0 → ChecksSelector i s ∧ ∀ x, s.insts[i.inst.toNat]? = some x →
    x.driver.wordSize = none ∨ x.driver.slotRange.getD 0 ≤ slot.toNat → exec i s = .next (s.ret i .fail .none)

/-- After `sub`, which `i` called, `i` goes on at its position; a result of `sub` that is not Success is at once the result
of `i` (44_driver_ops.md R270). -/
def CallReturns (i sub : Instr) : Prop :=
  ∀ (s : State) (p q : Pos) (rest : List Activation) (r : Result) (v : RetVal), s.acts = ⟨sub, q⟩ :: ⟨i, p⟩ :: rest →
    (r = .success → (s.ret sub r v).acts = ⟨i, p⟩ :: rest) ∧
    (r ≠ .success → s.ret sub r v = (s.setActs (⟨i, p⟩ :: rest)).ret i r v)

/-! ### What one host step of an operation may write -/

/-- The word a step of operation `i` at position `p` stores to in controller `x`, by the expression its meaning uses; none
where it stores none. -/
def storedWord (i : Instr) (p : Pos) (x : Instance) : Option Nat :=
  match i with
  | .mbWr _ word _ => some word.toNat
  | .codeInactiveRx _ slot _ => some (wordAddr x.ws slot.toNat 0)
  | .codeReceiveEmpty _ slot _ => some (wordAddr x.ws slot.toNat 0)
  | .codeInactiveTx _ slot _ => some (wordAddr x.ws slot.toNat 0)
  | .codeAbort _ slot _ => some (wordAddr x.ws slot.toNat 0)
  | .codeSend _ slot _ => some (wordAddr x.ws slot.toNat 0)
  | .init _ _ _ => if p.pc = 13 then some p.idx else none
  | .cfgTx _ slot _ =>
    if p.pc = 2 then some (x.cw slot + (2 + p.idx))
    else if p.pc = 3 then some (x.cw slot + 1)
    else if 4 ≤ p.pc then some (x.cw slot + 0)
    else none
  | .cfgRx _ slot _ _ =>
    if p.pc = 2 then some (x.cw slot + 0)
    else if p.pc = 6 then some (x.cw slot + 1)
    else if 7 ≤ p.pc then some (x.cw slot + 0)
    else none
  | .send _ slot _ => if p.pc = 3 then some (x.cw slot + 0) else none
  | .fldRd _ _ | .fldWr _ _ _ | .mbRd _ _ | .iflagW1c _ _ | .timerRd _ | .frzEnter _ | .frzExit _ | .recv _ _
  | .clrFlag _ _ | .enIrq _ _ | .regCb _ _ | .dispatch _ | .codeBusy _ _ => none

/-- The slot whose code a step of operation `i` writes. -/
def storedSlot (i : Instr) (p : Pos) (x : Instance) : Option Nat :=
  match (storedWord i p x).bind x.slotOf with
  | some (k, 0) => some k
  | _ => none

/-- The byte offsets a step of operation `i` may change: the four bytes of the word it stores to; and where that cancels a
reception under way, the slot's bytes (43_mb_hardware.md R223). -/
def storesByte (i : Instr) (p : Pos) (x : Instance) (a : Nat) : Prop :=
  storedWord i p x = some (a / 4) ∨
    ∃ k, storedSlot i p x = some k ∧ x.slotState k = .busy ∧ x.slotOf (a / 4) = some (k, a / 4 % x.ws)

/-- The field a step of operation `i` stores to, the completion flags apart; none where it stores none. -/
def storedField (i : Instr) (p : Pos) : Option Field :=
  match i with
  | .fldWr _ (.named f) _ => some f
  | .frzEnter _ => if p.pc = 1 then some .frz else if p.pc = 2 then some .halt else none
  | .frzExit _ => if p.pc = 1 then some .halt else if p.pc = 2 then some .frz else none
  | .init _ _ _ =>
    match p.pc with
    | 2 => some .mdis | 3 => some .clksrc | 4 => some .mdis | 6 => some .presdiv | 7 => some .rjw | 8 => some .pseg1
    | 9 => some .pseg2 | 10 => some .propseg | 11 => some .smp | 12 => some .mbws | 14 => some .srxdis
    | _ => none
  | .cfgRx _ _ _ _ => if p.pc = 4 then some .rxmgmask else none
  | .enIrq _ _ => if p.pc = 3 then some .imask else none
  | .fldWr _ (.unnamed _) _ | .fldRd _ _ | .mbRd _ _ | .mbWr _ _ _ | .iflagW1c _ _ | .timerRd _ | .cfgTx _ _ _
  | .send _ _ _ | .recv _ _ | .clrFlag _ _ | .regCb _ _ | .dispatch _ | .codeInactiveRx _ _ _
  | .codeReceiveEmpty _ _ _ | .codeInactiveTx _ _ _ | .codeAbort _ _ _ | .codeSend _ _ _ | .codeBusy _ _ => none

/-- The completion flags a step of operation `i` may clear. -/
def clearedFlags (i : Instr) (p : Pos) : Word :=
  match i with
  | .iflagW1c _ v => v
  | .clrFlag _ slot => if p.pc = 0 then 0 else slotBit slot.toNat
  | .send _ slot _ => if p.pc = 1 ∨ p.pc = 5 then slotBit slot.toNat else 0
  | .fldRd _ _ | .fldWr _ _ _ | .mbRd _ _ | .mbWr _ _ _ | .timerRd _ | .init _ _ _ | .frzEnter _ | .frzExit _
  | .cfgTx _ _ _ | .cfgRx _ _ _ _ | .recv _ _ | .enIrq _ _ | .regCb _ _ | .dispatch _ | .codeInactiveRx _ _ _
  | .codeReceiveEmpty _ _ _ | .codeInactiveTx _ _ _ | .codeAbort _ _ _ | .codeSend _ _ _ | .codeBusy _ _ => 0

/-- The completion flag a step of operation `i` may set: that of the slot whose code it writes, where the write cancels
what the hardware had pending there (43_mb_hardware.md R223). -/
def settableFlags (i : Instr) (p : Pos) (x : Instance) : Word :=
  match storedSlot i p x with
  | some k =>
    match x.slotState k with
    | .busy | .send | .abortPending => slotBit k
    | .inactiveRx | .receiveEmpty | .inactiveTx | .aborted | .reserved => 0
  | none => 0

/-- A step of operation `i` reads a control word, and so may move the lock (43_mb_hardware.md R235), or reads TIMER, and so
releases it (R236), or writes a code or MBWS (R222, R248). -/
def movesLock (i : Instr) (p : Pos) : Bool :=
  match i with
  | .fldRd _ field => field = .named .timer
  | .fldWr _ field _ => field = .named .mbws
  | .mbRd _ _ | .mbWr _ _ _ | .timerRd _ => true
  | .codeInactiveRx _ _ _ | .codeReceiveEmpty _ _ _ | .codeInactiveTx _ _ _ | .codeAbort _ _ _ | .codeSend _ _ _
  | .codeBusy _ _ => true
  | .init _ _ _ => p.pc = 12 || p.pc = 13
  | .cfgTx _ _ _ => p.pc ≠ 0
  | .cfgRx _ _ _ _ => p.pc = 1 || p.pc = 2 || 6 ≤ p.pc
  | .send _ _ _ => p.pc = 2 || p.pc = 3
  | .recv _ _ => p.pc ≠ 0
  | .iflagW1c _ _ | .frzEnter _ | .frzExit _ | .clrFlag _ _ | .enIrq _ _ | .regCb _ _ | .dispatch _ => false

end Sys2Proof.Machine
end

