-- ==== Sys2Proof/Certificates/Slice0/Obligations.lean ====
section
/-! DEFINITION. The statements for the provers, family by family. -/

open Sys2Proof Sys2Proof.Machine

/-! ### Encoding -/

/-- Decoding an encoded well-formed operation gives it back: no operand bit is dropped (30_encoding.md R113, R121; the byte
layout of operands is the model's, log 4). -/
def Obligations.DecodeEncode : Prop := ∀ i : Instr, i.wellFormed = true → decode (encode i) = .ok i

/-- Lines of the programs of 95_test_vectors.md decode to the operations they are written for (30_encoding.md R111, R113,
R117; the order of an operand's bytes is log 4's). -/
def Obligations.DecodeSpecWords : Prop :=
  decode ⟨.hostOp, [0x01, 0x00, 0x11]⟩ = .ok (.fldRd 0 (.named .iflag)) ∧
  decode ⟨.hostOp, [0x05, 0x00, 0xFF, 0xFF, 0xFF, 0xFF]⟩ = .ok (.iflagW1c 0 0xFFFFFFFF) ∧
  decode ⟨.hostOp, [0x14, 0x00, 0x02, 0x00, 0x00, 0x00, 0x20, 0x00, 0x00, 0x00, 0x00]⟩ = .ok (.cfgRx 0 2 0x20000000 0) ∧
  decode ⟨.hostOp, [0x16, 0x00, 0x01]⟩ = .ok (.recv 0 1) ∧
  decode ⟨.hostOp, [0x17, 0x00, 0x00]⟩ = .ok (.clrFlag 0 0) ∧
  decode ⟨.hostOp, [0x18, 0x00, 0x01]⟩ = .ok (.enIrq 0 1) ∧
  decode ⟨.hostOp, [0x1A, 0x01]⟩ = .ok (.dispatch 1) ∧
  decode ⟨.controlWord, [0x00, 0x00, 0x62, 0x0C, 0x00, 0x00]⟩ =
    .ok (.codeSend 0 0 ⟨false, false, false, false, false, true, true, false, 2, 0⟩) ∧
  decode ⟨.controlWord, [0x00, 0x00, 0x20, 0x04, 0x00, 0x01]⟩ =
    .ok (.codeReceiveEmpty 0 1 ⟨false, false, false, false, false, false, true, false, 0, 0⟩)

/-- 30_encoding.md R120 and R117: an operation number outside R113 is refused by the fault BadAccess; the field numbers, and
that a number naming no field faults BadAccess. -/
def Obligations.Numbers : Prop :=
  (∀ (s : State) (es : List Event) (num : Byte) (operands : List Byte) (rest : List Request),
    s.fault = none → s.schedule = .host :: es → s.handlers = [] → s.mainline = [] →
    s.program = ⟨.hostOp, num :: operands⟩ :: rest →
    num.toNat ∉ [0x01, 0x02, 0x03, 0x04, 0x05, 0x06, 0x10, 0x11, 0x12, 0x13, 0x14, 0x15, 0x16, 0x17, 0x18, 0x19, 0x1A] →
    ∃ t r, step s = .next t ∧ t.insts = s.insts ∧ t.fault = some r ∧ r.reason = .badAccess ∧ step t = .fault .badAccess) ∧
  ([0, 1, 2, 3, 4, 5, 6, 7, 8, 9, 10, 11, 12, 13, 14, 15, 16, 17, 18].map decodeField =
    [.named .mdis, .named .frz, .named .halt, .named .frzack, .named .notrdy, .named .srxdis, .named .clksrc,
     .named .synch, .named .presdiv, .named .rjw, .named .pseg1, .named .pseg2, .named .propseg, .named .smp,
     .named .mbws, .named .rxmgmask, .named .imask, .named .iflag, .named .timer]) ∧
  ∀ (n : BitVec 8) (inst : BitVec 8) (v : Word) (s : State) (x : Instance), 19 ≤ n.toNat →
    s.insts[inst.toNat]? = some x →
    exec (.fldRd inst (decodeField n)) s = .next (s.raise .badAccess (.instr (.fldRd inst (.unnamed n))) none none) ∧
    exec (.fldWr inst (decodeField n) v) s = .next (s.raise .badAccess (.instr (.fldWr inst (.unnamed n) v)) none none)

/-! ### Mapper -/

/-- 41_frame_mapper.md R177 and R180: the bits of an encoded control word, the decoded fields of any word, the ID word of a
frame and the identifier of an ID word, for every STD_ID_SHIFT (by default 18); and that each encoding and its decoding
agree. -/
def Obligations.SlotWords : Prop :=
  (∀ (code : BitVec 4) (f : Frame), let w := encodeControl code f
    w.getLsbD 31 = f.edl ∧ w.getLsbD 30 = f.brs ∧ w.getLsbD 29 = f.esi ∧ w.extractLsb' 24 4 = code ∧
    w.getLsbD 22 = f.ide ∧ w.getLsbD 21 = f.ide ∧ w.getLsbD 20 = f.rtr ∧ w.extractLsb' 16 4 = f.dlc ∧
    w.getLsbD 28 = false ∧ w.getLsbD 23 = false ∧ w.extractLsb' 0 16 = 0) ∧
  (∀ w : Word, let b := CtrlBits.ofWord w
    codeOf w = w.extractLsb' 24 4 ∧ b.dlc = w.extractLsb' 16 4 ∧ b.ide = w.getLsbD 21 ∧ b.rtr = w.getLsbD 20 ∧
    b.srr = w.getLsbD 22 ∧ b.edl = w.getLsbD 31 ∧ b.brs = w.getLsbD 30 ∧ b.esi = w.getLsbD 29 ∧ b.toWord (codeOf w) = w) ∧
  (∀ (b : CtrlBits) (c : BitVec 4), CtrlBits.ofWord (b.toWord c) = b ∧ codeOf (b.toWord c) = c) ∧
  (∀ (sh : Fin 19) (f : Frame),
    (f.ide = true → encodeId sh f = f.id.setWidth 32) ∧
    (f.ide = false → encodeId sh f = (f.id.setWidth 11).setWidth 32 <<< sh.val) ∧
    (encodeId sh f).extractLsb' 29 3 = 0 ∧ (f.wellFormed = true → decodeId sh (encodeId sh f) f.ide = f.id)) ∧
  (∀ (sh : Fin 19) (w : Word), decodeId sh w true = w.extractLsb' 0 29 ∧
    decodeId sh w false = (w.extractLsb' sh.val 11).setWidth 29) ∧
  ({} : CtrlParams).stdIdShift.val = 18

/-- 41_frame_mapper.md R178, R179; 20_memory.md R80: payload byte `k` stands in word `k / 4`, most significant byte first;
the lanes past the payload are 0; unpacking reads the same places. R182 and R184: the members of the frame a slot holds,
and its image on the bus: the first bytes of its data, none of a remote frame. -/
def Obligations.PayloadBytes : Prop :=
  ∀ (data : Vector Byte 64) (nb : Nat), nb ≤ 64 →
    (pack data nb).length = (nb + 3) / 4 ∧
    (∀ k, k < 4 * ((nb + 3) / 4) →
      ((pack data nb).getD (k / 4) 0).extractLsb' (24 - 8 * (k % 4)) 8 = if k < nb then data.toList.getD k 0 else 0) ∧
    (∀ (words : List Word) (k : Nat), k < 64 →
      (unpack words nb).toList.getD k 0 = if k < nb then (words.getD (k / 4) 0).extractLsb' (24 - 8 * (k % 4)) 8 else 0) ∧
    ∀ (x : Instance) (i : Nat),
      let w := x.word (wordAddr x.ws i 0)
      let bytes := min (dlcBytes x.params.dlcMap (w.getLsbD 31) (w.extractLsb' 16 4)) ((x.ws - 2) * 4)
      let g := x.decodeSlot i
      let m := x.busImage i
      g.id = decodeId x.params.stdIdShift (x.word (wordAddr x.ws i 1)) (w.getLsbD 21) ∧
      g.ide = w.getLsbD 21 ∧ g.rtr = w.getLsbD 20 ∧ g.edl = w.getLsbD 31 ∧ g.brs = w.getLsbD 30 ∧ g.esi = w.getLsbD 29 ∧
      g.dlc = w.extractLsb' 16 4 ∧
      (∀ k, k < 64 → g.data.toList.getD k 0 =
        if k < bytes then (x.word (wordAddr x.ws i (2 + k / 4))).extractLsb' (24 - 8 * (k % 4)) 8 else 0) ∧
      m.id = g.id ∧ m.ide = g.ide ∧ m.rtr = g.rtr ∧ m.edl = g.edl ∧ m.brs = g.brs ∧ m.esi = g.esi ∧ m.dlc = g.dlc ∧
      m.data.length = (if w.getLsbD 20 = true then 0 else bytes) ∧
      ∀ k, k < m.data.length →
        m.data.getD k 0 = (x.word (wordAddr x.ws i (2 + k / 4))).extractLsb' (24 - 8 * (k % 4)) 8

/-- 41_frame_mapper.md R171, R172, R175 and R176: the slot counts, the capacities and the payload lengths (up to code 8 under
every DLC_MAP, above it under the spec's), and the place of a word;
the words of a slot lie in the memory and two slots share none (R173, R186). -/
def Obligations.Geometry : Prop :=
  [4, 5, 6, 7, 8, 9, 10, 11, 12, 13, 14, 15, 16, 17, 18].map slotRange =
    [32, 25, 21, 18, 16, 14, 12, 11, 10, 9, 9, 8, 8, 7, 7] ∧
  [4, 5, 6, 7, 8, 9, 10, 11, 12, 13, 14, 15, 16, 17, 18].map capacity =
    [8, 12, 16, 20, 24, 28, 32, 36, 40, 44, 48, 52, 56, 60, 64] ∧
  (∀ ws, slotRange ws = 512 / (ws * 4) ∧ capacity ws = (ws - 2) * 4) ∧
  (∀ (m : DlcMap) (edl : Bool) (d : BitVec 4), d.toNat ≤ 8 → dlcBytes m edl d = d.toNat) ∧
  [0x9, 0xA, 0xB, 0xC, 0xD, 0xE, 0xF].map (dlcBytes {} false) = [8, 8, 8, 8, 8, 8, 8] ∧
  [0x9, 0xA, 0xB, 0xC, 0xD, 0xE, 0xF].map (dlcBytes {} true) = [12, 16, 20, 24, 32, 48, 64] ∧
  ∀ ws i j : Nat, 4 ≤ ws → ws ≤ 18 → i < slotRange ws → j < ws →
    wordAddr ws i j = i * ws + j ∧ wordAddr ws i j ≤ 127 ∧
    ∀ k l, k < slotRange ws → l < ws → k ≠ i → wordAddr ws k l ≠ wordAddr ws i j

/-! ### The host context -/

/-- When the host starts a request, the step is `exec` of the operation it decodes to (10_state.md R31); placing a table
word makes the next step that (log 11). -/
def Obligations.StepRunsDecoded : Prop :=
  (∀ (s : State) (es : List Event) (r : Request) (rest : List Request) (i : Instr),
    s.fault = none → s.schedule = .host :: es → s.handlers = [] → s.mainline = [] → s.program = r :: rest →
    decode r = .ok i → step s = exec i { s with schedule := es, program := rest }) ∧
  ∀ (s : State) (nbits w : Nat) (i : Instr), decodeTableWord nbits w = some i →
    step (s.withFetchWord nbits w) = exec i { s with mainline := [], handlers := [], fault := none }

/-- The host goes on with the operation in progress of the innermost handler or of the mainline (10_state.md R31); a handler
whose DISPATCH has returned is left (60_exceptions.md R333); the mainline does nothing while a handler runs (R334); an idle
host with nothing to run changes nothing (log 11). -/
def Obligations.StepContinues : Prop :=
  ∀ (s : State) (es : List Event), s.fault = none → s.schedule = .host :: es →
    (∀ a as, s.acts = a :: as → step s = exec a.op { s with schedule := es }) ∧
    (∀ h hs, s.handlers = h :: hs → h.acts = [] → step s = .next { s with schedule := es, handlers := hs }) ∧
    (∀ t, s.handlers ≠ [] → step s = .next t → t.mainline = s.mainline ∧ t.program = s.program) ∧
    (s.handlers = [] → s.mainline = [] → s.program = [] → step s = .next { s with schedule := es })

/-- 60_exceptions.md R322: with a fault set no step is enabled, for ever; and the step that raises one writes no controller,
no position and no return (40_register_interface.md R141). -/
def Obligations.FaultStops : Prop :=
  (∀ (s : State) (r : FaultRecord) (k : Nat), s.fault = some r → step s = .fault r.reason ∧
    core.run (k + 1) s = .fault r.reason) ∧
  ∀ (s t : State), step s = .next t → s.fault = none ∧ (t.fault ≠ none →
    t.insts = s.insts ∧ t.mainline = s.mainline ∧ t.handlers = s.handlers ∧ t.lastReturn = s.lastReturn)

/-- Every operation of every state answers a next state: it acts, returns a result or raises a fault there
(60_exceptions.md R320, R322); none is refused. -/
def Obligations.ExecAnswersNext : Prop := ∀ (i : Instr) (s : State), ∃ t, exec i s = .next t

/-- 70_reset_and_hazards.md R351: the fields and the words are the reset's draws, and everything else is as the table says,
whatever the draws. -/
def Obligations.ResetState : Prop :=
  (∀ (rs : List ResetDraw) (n : Nat) (r : ResetDraw), rs[n]? = some r → ∃ x, (State.resetWith rs).insts[n]? = some x ∧
    x.fields = r.fields ∧ x.mem = r.mem ∧
    (∀ i, x.busy i = false ∧ x.abortPending i = false ∧ (x.hidden.slot i).rxInflight = none) ∧
    x.hidden.pendingRx = none ∧ x.hidden.locked = none ∧ x.driver.wordSize = none ∧ x.driver.slotRange = none ∧
    x.driver.callback = none ∧ x.busOut = []) ∧
  (∀ rs : List ResetDraw, (State.resetWith rs).insts.length = rs.length ∧ (State.resetWith rs).mainline = [] ∧
    (State.resetWith rs).handlers = [] ∧ (State.resetWith rs).fault = none) ∧
  ∃ r : ResetDraw, State.reset = State.resetWith [r]

/-- The invariant holds at reset, whatever the draws of the fields (70_reset_and_hazards.md R351), memory being in the
model's canonical form (log 2). -/
def Obligations.ResetInvariant : Prop :=
  State.reset.Inv ∧ ∀ rs : List ResetDraw, (∀ r ∈ rs, Memory.wf r.mem) → (State.resetWith rs).Inv

/-- Every step of every agent keeps the invariant: a busy slot shows code 4 and holds a frame, a slot with an abort pending
shows code 9 (10_state.md R56 to R58), the locked slot is armed and not busy (43_mb_hardware.md R235), the slot range is
that of the word size (10_state.md R62), no handler is entered again while it runs (60_exceptions.md R334), and memory
keeps its canonical form (log 2). -/
def Obligations.StepKeepsInvariant : Prop := ∀ s t : State, s.Inv → step s = .next t → t.Inv

/-- 20_memory.md R95: a step of one controller writes no other controller, and what it does there and to the host context
does not depend on any other controller. -/
def Obligations.InstancesIndependent : Prop :=
  (∀ (i : Instr) (s t : State) (l : List Instance), exec i s = .next t →
    (∀ m, m ≠ i.inst.toNat → t.insts[m]? = s.insts[m]?) ∧ t.insts.length = s.insts.length ∧
    (l[i.inst.toNat]? = s.insts[i.inst.toNat]? → ∃ u, exec i { s with insts := l } = .next u ∧
      u.insts[i.inst.toNat]? = t.insts[i.inst.toNat]? ∧ { u with insts := [] } = { t with insts := [] })) ∧
  ∀ (e : Event) (n : Nat) (s t : State) (l : List Instance), e.controller = some n → runEvent e s = .next t →
    (∀ m, m ≠ n → t.insts[m]? = s.insts[m]?) ∧ t.insts.length = s.insts.length ∧
    (l[n]? = s.insts[n]? → ∃ u, runEvent e { s with insts := l } = .next u ∧ u.insts[n]? = t.insts[n]? ∧
      { u with insts := [] } = { t with insts := [] })

/-- 40_register_interface.md R140: a selector that names no controller returns InvalidInstance and changes no controller;
so do the driver operations at their start (44_driver_ops.md R270). -/
def Obligations.InvalidInstance : Prop :=
  ∀ (i : Instr) (s : State), s.insts[i.inst.toNat]? = none → (i.primitive = true ∨ s.pos.pc = 0) →
    exec i s = .next (s.ret i .invalidInstance .none) ∧ (s.ret i .invalidInstance .none).insts = s.insts

/-! ### Fields -/

/-- 40_register_interface.md R142: FLD.RD of a named field returns its value, zero-extended, and changes nothing; of TIMER it
is a TIMER read; of another number it faults. -/
def Obligations.FldRd : Prop :=
  (∀ (inst : BitVec 8) (f : FieldSel) (s : State), ChecksSelector (.fldRd inst f) s) ∧
  ∀ (inst : BitVec 8) (s : State) (x : Instance), s.insts[inst.toNat]? = some x →
    (∀ f : Field, f ≠ .timer →
      exec (.fldRd inst (.named f)) s = .next (s.ret (.fldRd inst (.named f)) .success (.word (x.fields.get f))) ∧
      (x.fields.get f).toNat < 2 ^ f.width) ∧
    (∃ t : BitVec 16, exec (.fldRd inst (.named .timer)) s =
      .next ((s.commit inst.toNat (x.setLocked none) 1).ret (.fldRd inst (.named .timer)) .success
        (.word (t.setWidth 32)))) ∧
    ∀ n : BitVec 8, exec (.fldRd inst (.unnamed n)) s =
      .next (s.raise .badAccess (.instr (.fldRd inst (.unnamed n))) none none)

/-- 40_register_interface.md R143: the faults of FLD.WR in their order, and with none of them the field holds the value and
nothing else of the controller changes, but for the hidden state that a write of MBWS clears (43_mb_hardware.md R248). -/
def Obligations.FldWr : Prop :=
  (∀ (inst : BitVec 8) (f : FieldSel) (v : Word) (s : State), ChecksSelector (.fldWr inst f v) s) ∧
  ∀ (inst : BitVec 8) (v : Word) (s : State) (x : Instance), s.insts[inst.toNat]? = some x →
    (∀ n : BitVec 8, exec (.fldWr inst (.unnamed n) v) s =
      .next (s.raise .badAccess (.instr (.fldWr inst (.unnamed n) v)) none none)) ∧
    ∀ f : Field, let i := Instr.fldWr inst (.named f) v
      if f ∈ [.frzack, .notrdy, .synch, .timer] then exec i s = .next (s.raise .readOnlyWrite (.instr i) none none)
      else if f = .iflag then exec i s = .next (s.raise .rmwOnW1C (.instr i) none none)
      else if 2 ^ f.width ≤ v.toNat then exec i s = .next (s.raise .fieldOverflow (.instr i) none none)
      else if f = .mbws ∧ (v.toNat < 4 ∨ 18 < v.toNat) then
        exec i s = .next (s.raise .illegalFieldValue (.instr i) none none)
      else if f ∈ [.srxdis, .presdiv, .rjw, .pseg1, .pseg2, .propseg, .smp, .mbws, .rxmgmask, .imask] ∧
          x.fields.frzack = 0 then
        exec i s = .next (s.raise .freezeProtectedWrite (.instr i) none none)
      else if f = .clksrc ∧ x.fields.mdis = 0 then
        exec i s = .next (s.raise .clockSourceWhileEnabled (.instr i) none none)
      else ∃ y, exec i s = .next ((s.setInst inst.toNat y).ret i .success .none) ∧ y.fields.get f = v ∧
        (∀ g, g ≠ f → y.fields.get g = x.fields.get g) ∧ y.mem = x.mem ∧ y.driver = x.driver ∧ y.busOut = x.busOut ∧
        y.lineEnabled = x.lineEnabled ∧ y.params = x.params ∧
        (f ≠ .mbws → y.hidden = x.hidden) ∧
        (f = .mbws → y.hidden.locked = none ∧ y.hidden.pendingRx = none ∧
          ∀ k, y.busy k = false ∧ (y.hidden.slot k).rxInflight = none ∧ y.abortPending k = false)

/-- 10_state.md R53, R39: whatever the step, a freeze-protected field changes only while FRZACK = 1, and CLKSRC only while
MDIS = 1. -/
def Obligations.ProtectedFields : Prop :=
  ∀ (s t : State) (n : Nat) (x y : Instance), step s = .next t → s.insts[n]? = some x → t.insts[n]? = some y →
    (∀ f ∈ [Field.srxdis, .presdiv, .rjw, .pseg1, .pseg2, .propseg, .smp, .mbws, .rxmgmask, .imask],
      y.fields.get f ≠ x.fields.get f → x.fields.frzack = 1) ∧
    (y.fields.clksrc ≠ x.fields.clksrc → x.fields.mdis = 1)

/-- 10_state.md R36, R37, R40: only FREEZE_ACK and FREEZE_EXIT of that controller move FRZACK and NOTRDY, and only FREEZE_ACK
and SYNC move SYNCH; no host step does. -/
def Obligations.StatusFields : Prop :=
  ∀ (s t : State) (n : Nat) (x y : Instance), step s = .next t → s.insts[n]? = some x → t.insts[n]? = some y →
    (x.fields.frzack = 0 → y.fields.frzack = 1 → s.nextEvent = .freezeAck n) ∧
    (x.fields.frzack = 1 → y.fields.frzack = 0 → s.nextEvent = .freezeExit n) ∧
    (x.fields.notrdy = 0 → y.fields.notrdy = 1 → s.nextEvent = .freezeAck n) ∧
    (x.fields.notrdy = 1 → y.fields.notrdy = 0 → s.nextEvent = .freezeExit n) ∧
    (x.fields.synch = 0 → y.fields.synch = 1 → s.nextEvent = .sync n) ∧
    (x.fields.synch = 1 → y.fields.synch = 0 → s.nextEvent = .freezeAck n)

/-- 10_state.md R33 to R50, 60_exceptions.md R331, R342: every field the host writes changes in host steps only, so no
hardware step wakes a disabled controller; a flag is cleared by the host only, and set only by a completion of its slot or
in a host step (which one, and that a preemption does it there, says MemoryAndFieldFrame); no step writes a parameter. -/
def Obligations.HostFields : Prop :=
  ∀ (s t : State) (n : Nat) (x y : Instance), step s = .next t → s.insts[n]? = some x → t.insts[n]? = some y →
    (∀ f : Field, f ∉ [.frzack, .notrdy, .synch, .iflag] → y.fields.get f ≠ x.fields.get f → s.nextEvent = .host) ∧
    (y.driver ≠ x.driver → s.nextEvent = .host) ∧ y.params = x.params ∧ y.lineEnabled = x.lineEnabled ∧
    ∀ i : Nat, (x.fields.iflag.getLsbD i = true → y.fields.iflag.getLsbD i = false → s.nextEvent = .host) ∧
      (x.fields.iflag.getLsbD i = false → y.fields.iflag.getLsbD i = true → s.nextEvent = .host ∨
        (∃ d p, s.nextEvent = .txComplete n i d p) ∨ (∃ a k d p, s.nextEvent = .abortResolve n i a k d p) ∨
        ∃ d l, s.nextEvent = .rxCommit n i d l)

/-! ### Message-buffer words -/

/-- 40_register_interface.md R144, 43_mb_hardware.md R235 and R238: what MB.RD returns and what it does to the lock; a
busy read keeps it (where 70_reset_and_hazards.md R363 and 92_eei_decisions.md D17 say otherwise: log 30). -/
def Obligations.MbRd : Prop :=
  (∀ (inst word : BitVec 8) (s : State), ChecksSelector (.mbRd inst word) s) ∧
  ∀ (inst word : BitVec 8) (s : State) (x : Instance), s.insts[inst.toNat]? = some x → let i := Instr.mbRd inst word
    (127 < word.toNat → exec i s = .next (s.raise .badAccess (.instr i) none (some word.toNat))) ∧
    (word.toNat ≤ 127 → x.slotOf word.toNat = none →
      exec i s = .next (s.ret i .success (.word (x.word word.toNat)))) ∧
    ∀ k j, x.slotOf word.toNat = some (k, j) →
      (x.busy k = true → ∃ v u, exec i s = .next ((s.commit inst.toNat x u).ret i .success (.word v)) ∧
        (j = 0 → codeOf v = 0x1 ∨ codeOf v = 0x5)) ∧
      (x.busy k = false → j ≠ 0 → exec i s = .next (s.ret i .success (.word (x.word word.toNat)))) ∧
      (x.busy k = false → j = 0 → exec i s = .next ((s.setInst inst.toNat (x.setLocked
        (if x.slotState k = .receiveEmpty then some k else if x.hidden.locked = some k then some k else none))).ret i
          .success (.word (x.word word.toNat))))

/-- 43_mb_hardware.md R224, with the words above 127 and outside every slot (40_register_interface.md R145): a write to the ID
or a payload word is refused in an armed slot and stored elsewhere. -/
def Obligations.MbWrPlain : Prop :=
  ∀ (inst word : BitVec 8) (v : Word) (s : State) (x : Instance), s.insts[inst.toNat]? = some x → Memory.wf x.mem →
    let i := Instr.mbWr inst word v
    let stored := ∃ y, exec i s = .next ((s.setInst inst.toNat y).ret i .success .none) ∧ x.WordStored y word.toNat v ∧
      y.fields = x.fields ∧ y.hidden = x.hidden ∧ y.driver = x.driver ∧ y.busOut = x.busOut ∧
      y.lineEnabled = x.lineEnabled ∧ y.params = x.params
    (127 < word.toNat → exec i s = .next (s.raise .badAccess (.instr i) none (some word.toNat))) ∧
    (word.toNat ≤ 127 → x.slotOf word.toNat = none → stored) ∧
    ∀ k j, x.slotOf word.toNat = some (k, j) → j ≠ 0 →
      (x.slotState k ∈ [.receiveEmpty, .busy, .send, .abortPending] →
        exec i s = .next (s.raise .writeToArmedSlot (.instr i) (some k) (some word.toNat))) ∧
      (x.slotState k ∈ [.inactiveRx, .inactiveTx, .aborted, .reserved] → stored)

/-- 43_mb_hardware.md R244 with the table of R222: a control-word write whose code is no command, or whose code the slot's
state does not admit, faults and writes nothing; the table's other entries are admitted. -/
def Obligations.CodeAdmission : Prop :=
  ∀ (inst word : BitVec 8) (v : Word) (s : State) (x : Instance) (k : Nat), s.insts[inst.toNat]? = some x →
    x.slotOf word.toNat = some (k, 0) → let i := Instr.mbWr inst word v
    if codeOf v ∉ [0x0, 0x4, 0x8, 0x9, 0xC] then
      exec i s = .next (s.raise .reservedCode (.instr i) (some k) (some word.toNat))
    else if (x.slotState k, codeOf v) ∈
        ([(.inactiveRx, 0x9), (.receiveEmpty, 0x4), (.receiveEmpty, 0x8), (.receiveEmpty, 0x9), (.receiveEmpty, 0xC),
          (.busy, 0x4), (.busy, 0x8), (.busy, 0x9), (.busy, 0xC), (.inactiveTx, 0x4), (.send, 0x4), (.send, 0x8),
          (.send, 0xC), (.abortPending, 0x4), (.abortPending, 0x8), (.abortPending, 0x9), (.aborted, 0x4),
          (.reserved, 0x4), (.reserved, 0x8), (.reserved, 0x9), (.reserved, 0xC)] : List (SlotState × BitVec 4)) then
      exec i s = .next (s.raise .illegalCodeTransition (.instr i) (some k) (some word.toNat))
    else ∃ y u, exec i s = .next ((s.commit inst.toNat y u).ret i .success .none)

/-- The code commands are MB.WR of their control word to word 0 of the slot, for every slot index: same controllers, same
free values, same result, same fault (43_mb_hardware.md section 8; 40_register_interface.md R145; log 6). -/
def Obligations.CodeCommandsAreMbWr : Prop :=
  ∀ (inst slot : BitVec 8) (b : CtrlBits) (s : State) (x : Instance), s.fault = none →
    s.insts[inst.toNat]? = some x →
    ∀ p ∈ [(Instr.codeInactiveRx inst slot b, 0x0#4), (Instr.codeReceiveEmpty inst slot b, 0x4#4),
        (Instr.codeInactiveTx inst slot b, 0x8#4), (Instr.codeAbort inst slot b, 0x9#4), (Instr.codeSend inst slot b, 0xC#4)],
      (127 < slot.toNat * x.ws → exec p.1 s = .next (s.raise .badAccess (.instr p.1) none (some (slot.toNat * x.ws)))) ∧
      (slot.toNat * x.ws ≤ 127 →
        let m := Instr.mbWr inst (BitVec.ofNat 8 (slot.toNat * x.ws)) (b.toWord p.2)
        (∀ y u, exec m s = .next ((s.commit inst.toNat y u).ret m .success .none) →
          exec p.1 s = .next ((s.commit inst.toNat y u).ret p.1 .success .none)) ∧
        ∀ r k w, exec m s = .next (s.raise r (.instr m) k w) → exec p.1 s = .next (s.raise r (.instr p.1) k w))

/-- 43_mb_hardware.md R239: after CODE.INACTIVE_RX, admitted from every state, the slot is InactiveRx with no abort pending
and no hardware step acts on it; but for a preemption nothing else changes. -/
def Obligations.CodeInactiveRx : Prop :=
  ∀ (inst slot : BitVec 8) (b : CtrlBits) (s : State) (x : Instance), s.insts[inst.toNat]? = some x → x.Inv →
    slot.toNat < x.hwSlots → let i := Instr.codeInactiveRx inst slot b
    ∃ y u, exec i s = .next ((s.commit inst.toNat y u).ret i .success .none) ∧
      y.word (wordAddr x.ws slot.toNat 0) = b.toWord 0x0 ∧ y.slotState slot.toNat = .inactiveRx ∧
      y.abortPending slot.toNat = false ∧ y.hidden.locked ≠ some slot.toNat ∧ y.Quiet slot.toNat ∧
      (x.slotState slot.toNat ∉ [.busy, .send, .abortPending] → u = 0 ∧ x.ControlStored y slot.toNat (b.toWord 0x0))

/-- 43_mb_hardware.md R240 and R241: CODE.RECEIVE_EMPTY arms an InactiveRx slot, its ID word and its IDE bit the filter (R230,
RTR_MATCH = Ignored); CODE.INACTIVE_TX makes an InactiveRx, InactiveTx or Aborted slot InactiveTx, on which no hardware step
acts; each is refused from any other state. -/
def Obligations.CodeArmReceiveAndInactiveTx : Prop :=
  ∀ (inst slot : BitVec 8) (b : CtrlBits) (s : State) (x : Instance), s.insts[inst.toNat]? = some x → x.Inv →
    slot.toNat < x.hwSlots →
    let r := Instr.codeReceiveEmpty inst slot b
    let i := Instr.codeInactiveTx inst slot b
    (if x.slotState slot.toNat = .inactiveRx then
      ∃ y, exec r s = .next ((s.setInst inst.toNat y).ret r .success .none) ∧ y.slotState slot.toNat = .receiveEmpty ∧
        x.ControlStored y slot.toNat (b.toWord 0x4) ∧
        (x.params.rtrMatch = .ignored → ∀ f, y.CouldTake f none slot.toNat ↔ f.ide = b.ide ∧
          (x.idWord f ^^^ y.word (wordAddr x.ws slot.toNat 1)) &&& y.fields.rxmgmask &&& 0x1FFFFFFF#32 = 0#32 ∧
          x.bytes f ≤ (x.ws - 2) * 4)
    else exec r s = .next (s.raise .illegalCodeTransition (.instr r) (some slot.toNat)
      (some (wordAddr x.ws slot.toNat 0)))) ∧
    if x.slotState slot.toNat ∈ [.inactiveRx, .inactiveTx, .aborted] then
      ∃ y, exec i s = .next ((s.setInst inst.toNat y).ret i .success .none) ∧ y.slotState slot.toNat = .inactiveTx ∧
        x.ControlStored y slot.toNat (b.toWord 0x8) ∧ y.Quiet slot.toNat
    else exec i s = .next (s.raise .illegalCodeTransition (.instr i) (some slot.toNat)
      (some (wordAddr x.ws slot.toNat 0)))

/-- 43_mb_hardware.md R242: CODE.ABORT makes a Send slot AbortPending, so that ABORT_RESOLVE is enabled once MDIS = 0 (R234);
onto InactiveTx or Aborted it is inert and no hardware step follows; elsewhere it is refused. That the request of a Send
slot preempts first under `abortPreempts` (R222's pseudocode line) and preempts nothing without it (R222's table) is the
model's reading of two texts that differ, log 8. -/
def Obligations.CodeAbort : Prop :=
  ∀ (inst slot : BitVec 8) (b : CtrlBits) (s : State) (x : Instance), s.insts[inst.toNat]? = some x → x.Inv →
    slot.toNat < x.hwSlots → let i := Instr.codeAbort inst slot b
    let k := slot.toNat
    if x.slotState k ∈ [.send, .inactiveTx, .aborted] then
      ∃ y u, exec i s = .next ((s.commit inst.toNat y u).ret i .success .none) ∧
        y.slotState k = (if x.slotState k = .send then .abortPending else .aborted) ∧
        (x.slotState k = .send → x.params.abortPreempts = true → x.Preempted y k (b.toWord 0x9)) ∧
        (x.slotState k ≠ .send ∨ x.params.abortPreempts = false → u = 0 ∧ x.ControlStored y k (b.toWord 0x9)) ∧
        (x.slotState k = .send → y.fields.mdis = 0 → ∀ o k9 d p, (abortResolve o k false k9 d p y).isSome = true) ∧
        (x.slotState k ≠ .send → y.Quiet k)
    else exec i s = .next (s.raise .illegalCodeTransition (.instr i) (some k) (some (wordAddr x.ws k 0)))

/-- 43_mb_hardware.md R243: CODE.SEND arms an InactiveRx, InactiveTx or Aborted slot, or an AbortPending one with a
preemption, so that TX_COMPLETE is enabled while running; from any other state it is refused. -/
def Obligations.CodeSend : Prop :=
  ∀ (inst slot : BitVec 8) (b : CtrlBits) (s : State) (x : Instance), s.insts[inst.toNat]? = some x → x.Inv →
    slot.toNat < x.hwSlots → let i := Instr.codeSend inst slot b
    if x.slotState slot.toNat ∈ [.inactiveRx, .inactiveTx, .aborted, .abortPending] then
      ∃ y u, exec i s = .next ((s.commit inst.toNat y u).ret i .success .none) ∧
        y.slotState slot.toNat = .send ∧ (x.slotState slot.toNat = .abortPending → x.Preempted y slot.toNat (b.toWord 0xC)) ∧
        y.abortPending slot.toNat = false ∧
        (x.slotState slot.toNat ≠ .abortPending → u = 0 ∧ x.ControlStored y slot.toNat (b.toWord 0xC)) ∧
        (y.fields.running = true → ∀ o d p, (txComplete o slot.toNat d p y).isSome = true)
    else exec i s = .next (s.raise .illegalCodeTransition (.instr i) (some slot.toNat)
      (some (wordAddr x.ws slot.toNat 0)))

/-- 43_mb_hardware.md R223 with R222: code 0 onto a Busy, Send or AbortPending slot and code 0xC onto an AbortPending one
preempt: the frame may or may not have reached the bus, a reception is lost and only that slot's other words change, the
slot's flag may be set, a lock held on the slot is released, the written word stands, and no abort is pending there. The
other words change where R223's pseudocode draws them (where 92_eei_decisions.md D15 says more: log 29). -/
def Obligations.Preemption : Prop :=
  ∀ (inst slot : BitVec 8) (b : CtrlBits) (s : State) (x : Instance), s.insts[inst.toNat]? = some x → x.Inv →
    slot.toNat < x.hwSlots → ∀ (i : Instr) (c : BitVec 4),
    (i = .codeInactiveRx inst slot b ∧ c = 0x0 ∧ x.slotState slot.toNat ∈ [.busy, .send, .abortPending] ∨
      i = .codeSend inst slot b ∧ c = 0xC ∧ x.slotState slot.toNat = .abortPending) →
    ∃ y u, exec i s = .next ((s.commit inst.toNat y u).ret i .success .none) ∧
      x.Preempted y slot.toNat (b.toWord c) ∧ y.abortPending slot.toNat = false

/-- CODE.BUSY (43_mb_hardware.md R238): a read of a busy slot's control word shows code 1 or 5 and changes nothing; of a slot
that is not busy it is MB.RD's, its lock that of R235; and so past the slots. That the row is such a read is the model's
(log 7). -/
def Obligations.CodeBusy : Prop :=
  ∀ (inst slot : BitVec 8) (s : State) (x : Instance), s.insts[inst.toNat]? = some x → let i := Instr.codeBusy inst slot
    let k := slot.toNat
    (k < x.hwSlots → x.busy k = true →
      ∃ v u, exec i s = .next ((s.commit inst.toNat x u).ret i .success (.word v)) ∧ (codeOf v = 0x1 ∨ codeOf v = 0x5)) ∧
    (k < x.hwSlots → x.busy k = false → exec i s = .next ((s.setInst inst.toNat (x.setLocked
      (if x.slotState k = .receiveEmpty then some k else if x.hidden.locked = some k then some k else none))).ret i
        .success (.word (x.word (wordAddr x.ws k 0))))) ∧
    (x.hwSlots ≤ k → k * x.ws ≤ 127 → exec i s = .next (s.ret i .success (.word (x.word (wordAddr x.ws k 0))))) ∧
    (127 < k * x.ws → exec i s = .next (s.raise .badAccess (.instr i) none (some (k * x.ws))))

/-! ### Flags and timer -/

/-- 40_register_interface.md R146 and R148: IFLAG.W1C clears exactly the flags set in its operand; TIMER.RD, which
FLD.RD of TIMER is as well, returns a value of 16 bits and releases the lock. -/
def Obligations.FlagsAndTimer : Prop :=
  (∀ (inst : BitVec 8) (v : Word) (s : State), ChecksSelector (.iflagW1c inst v) s ∧ ChecksSelector (.timerRd inst) s) ∧
  ∀ (inst : BitVec 8) (v : Word) (s : State) (x : Instance), s.insts[inst.toNat]? = some x →
    exec (.iflagW1c inst v) s = .next ((s.setInst inst.toNat
      (x.setFields { x.fields with iflag := x.fields.iflag &&& ~~~v })).ret (.iflagW1c inst v) .success .none) ∧
    ∃ t : BitVec 16, ∀ i ∈ [Instr.timerRd inst, .fldRd inst (.named .timer)], exec i s =
      .next ((s.commit inst.toNat (x.setLocked none) 1).ret i .success (.word (t.setWidth 32)))

/-! ### Hardware steps -/

/-- A scheduled step that is not enabled changes nothing: the model's choice (log 22). -/
def Obligations.NotEnabled : Prop :=
  ∀ (s : State) (e : Event) (es : List Event), s.fault = none → s.schedule = e :: es → s.enabled e = false →
    step s = .next { s with schedule := es }

/-- 43_mb_hardware.md R225, R226, R227: the guards and the effects of FREEZE_ACK, FREEZE_EXIT and SYNC. -/
def Obligations.Handshake : Prop :=
  ∀ (s : State) (es : List Event) (n : Nat) (x : Instance), s.fault = none → s.insts[n]? = some x →
    let u := { s with schedule := es }
    let ack := x.fields.mdis = 0 ∧ x.fields.frz = 1 ∧ x.fields.halt = 1 ∧ x.fields.frzack = 0
    let exit := x.fields.mdis = 0 ∧ x.fields.frzack = 1 ∧ ¬(x.fields.frz = 1 ∧ x.fields.halt = 1)
    let sync := x.fields.mdis = 0 ∧ x.fields.frzack = 0 ∧ x.fields.notrdy = 0 ∧ x.fields.synch = 0
    (s.enabled (.freezeAck n) = true ↔ ack) ∧ (s.enabled (.freezeExit n) = true ↔ exit) ∧
    (s.enabled (.sync n) = true ↔ sync) ∧
    (s.schedule = .freezeAck n :: es → ack → step s = .next
      (u.setInst n { x with fields := { x.fields with frzack := 1, notrdy := 1, synch := 0 } })) ∧
    (s.schedule = .freezeExit n :: es → exit → step s = .next
      (u.setInst n { x with fields := { x.fields with frzack := 0, notrdy := 0 } })) ∧
    (s.schedule = .sync n :: es → sync → step s = .next
      (u.setInst n { x with fields := { x.fields with synch := 1 } }))

/-- 43_mb_hardware.md R228 with R231: a transmission: the frame on the bus, code 8 and the time stamp, the flag; and with
SRXDIS = 0 the frame is offered to the other slots in the same step. -/
def Obligations.TxComplete : Prop :=
  ∀ (s : State) (es : List Event) (n i : Nat) (d : BitVec 16) (pick : Nat) (x : Instance), s.fault = none →
    s.insts[n]? = some x → Memory.wf x.mem →
    let guard := x.fields.running = true ∧ i < x.hwSlots ∧ x.slotState i = .send
    (s.enabled (.txComplete n i d pick) = true ↔ guard) ∧
    (s.schedule = .txComplete n i d pick :: es → guard →
      ∃ z y, step s = .next ({ s with schedule := es }.setInst n y) ∧
        x.WordStored z (wordAddr x.ws i 0)
          ((x.word (wordAddr x.ws i 0) &&& ~~~0x0F00FFFF#32) ||| (0x8#32 <<< 24) ||| d.setWidth 32) ∧
        z.fields = { x.fields with iflag := x.fields.iflag ||| (1#32 <<< i) } ∧
        z.busOut = x.busOut ++ [x.busImage i] ∧ z.hidden = x.hidden ∧ z.driver = x.driver ∧
        z.lineEnabled = x.lineEnabled ∧ z.params = x.params ∧ (x.fields.srxdis = 1 → y = z) ∧
        (x.fields.srxdis = 0 → z.Offered y s.params.rxMatchOrder (x.decodeSlot i) (some i)))

/-- 43_mb_hardware.md R234: an abort resolves as a transmission, only while running, or without one with a code of ABORT_FINAL (8 or
9); the flag is set and no abort is pending after it. -/
def Obligations.AbortResolve : Prop :=
  ∀ (s : State) (es : List Event) (n i : Nat) (sent keep9 : Bool) (d : BitVec 16) (pick : Nat) (x : Instance),
    s.fault = none → s.insts[n]? = some x → Memory.wf x.mem →
    let guard := x.fields.mdis = 0 ∧ i < x.hwSlots ∧ x.slotState i = .abortPending ∧ (sent = true → x.fields.running = true)
    (s.enabled (.abortResolve n i sent keep9 d pick) = true ↔ guard) ∧
    (s.schedule = .abortResolve n i sent keep9 d pick :: es → guard →
      ∃ z y, step s = .next ({ s with schedule := es }.setInst n y) ∧
        x.WordStored z (wordAddr x.ws i 0) ((x.word (wordAddr x.ws i 0) &&& ~~~0x0F00FFFF#32) |||
          ((if sent = false ∧ (x.params.abortFinal = .only9 ∨ x.params.abortFinal = .either ∧ keep9 = true) then 0x9#32
            else 0x8#32) <<< 24) ||| d.setWidth 32) ∧
        z.fields = { x.fields with iflag := x.fields.iflag ||| (1#32 <<< i) } ∧
        z.busOut = (if sent = true then x.busOut ++ [x.busImage i] else x.busOut) ∧
        z.abortPending i = false ∧ (∀ k, k ≠ i → z.hidden.slot k = x.hidden.slot k) ∧
        z.hidden.locked = x.hidden.locked ∧ z.hidden.pendingRx = x.hidden.pendingRx ∧ z.driver = x.driver ∧
        z.lineEnabled = x.lineEnabled ∧ z.params = x.params ∧
        (sent = false ∨ x.fields.srxdis = 1 → y = z) ∧
        (sent = true → x.fields.srxdis = 0 → z.Offered y s.params.rxMatchOrder (x.decodeSlot i) (some i)))

/-- 43_mb_hardware.md R232 with R230: a frame of the bus is offered to the slots while running; the held frame enters an
eligible slot and is held no longer, and waits while there is none. -/
def Obligations.RxBegin : Prop :=
  ∀ (s : State) (es : List Event) (n pick : Nat) (x : Instance), s.fault = none → s.insts[n]? = some x →
    let u := { s with schedule := es }
    (∀ f, f.wellFormed = true →
      (s.enabled (.rxBegin n (.bus f) pick) = true ↔ x.fields.running = true) ∧
      (s.schedule = .rxBegin n (.bus f) pick :: es → x.fields.running = true →
        ∃ y, step s = .next (u.setInst n y) ∧ x.Offered y s.params.rxMatchOrder f none)) ∧
    (s.enabled (.rxBegin n .held pick) = true ↔ x.fields.running = true ∧
      ∃ f i, x.hidden.pendingRx = some f ∧ x.CouldTake f none i ∧ x.hidden.locked ≠ some i) ∧
    (s.schedule = .rxBegin n .held pick :: es →
      ∀ f i, x.fields.running = true → x.hidden.pendingRx = some f → x.CouldTake f none i → x.hidden.locked ≠ some i →
        ∃ k, x.CouldTake f none k ∧ x.hidden.locked ≠ some k ∧
          (s.params.rxMatchOrder = .lowestIndex → k ≤ i) ∧
          step s = .next (u.setInst n ((x.beginRx k f).setPendingRx none)))

/-- 43_mb_hardware.md R233 with 41_frame_mapper.md R183: the end of a reception writes the ID word, the payload words and the
control word of the slot, the byte lanes past the payload from the draw, sets the flag and frees the slot. The control word
and the ID word are R183's own formulas (where 92_eei_decisions.md D24 says otherwise of bits 28 and 23 and of ID bits
31:29: log 26). -/
def Obligations.RxCommit : Prop :=
  ∀ (s : State) (es : List Event) (n i : Nat) (d : BitVec 16) (fill : Word) (x : Instance), s.fault = none →
    s.insts[n]? = some x → x.Inv →
    (s.enabled (.rxCommit n i d fill) = true ↔ x.fields.mdis = 0 ∧ x.busy i = true) ∧
    (s.schedule = .rxCommit n i d fill :: es → ∀ f, x.fields.mdis = 0 → x.busy i = true →
      (x.hidden.slot i).rxInflight = some f →
      ∃ y, step s = .next ({ s with schedule := es }.setInst n y) ∧
        y.word (wordAddr x.ws i 0) = (encodeControl 0x4 f &&& ~~~0x0000FFFF#32) ||| d.setWidth 32 ∧
        y.word (wordAddr x.ws i 1) = x.idWord f ∧
        (∀ k, k < 4 * ((x.bytes f + 3) / 4) →
          (y.word (wordAddr x.ws i (2 + k / 4))).extractLsb' (24 - 8 * (k % 4)) 8 =
            if k < x.bytes f then f.data.toList.getD k 0 else fill.extractLsb' (24 - 8 * (k % 4)) 8) ∧
        (∀ w, (∀ j, j < 2 + (x.bytes f + 3) / 4 → w ≠ wordAddr x.ws i j) → y.word w = x.word w) ∧
        y.fields = { x.fields with iflag := x.fields.iflag ||| (1#32 <<< i) } ∧ y.busy i = false ∧
        (y.hidden.slot i).rxInflight = none ∧ (∀ k, k ≠ i → y.hidden.slot k = x.hidden.slot k) ∧
        y.hidden.locked = x.hidden.locked ∧ y.hidden.pendingRx = x.hidden.pendingRx ∧ y.driver = x.driver ∧
        y.busOut = x.busOut ∧ y.lineEnabled = x.lineEnabled ∧ y.params = x.params)

/-- 43_mb_hardware.md R220: with MDIS = 1 no hardware step is enabled; TX_COMPLETE, RX_BEGIN and a transmitting ABORT_RESOLVE
are enabled only while running. -/
def Obligations.ModuleActivity : Prop :=
  ∀ (s : State) (e : Event) (n : Nat) (x : Instance), e.controller = some n → e ≠ .irqEntry n → s.insts[n]? = some x →
    (x.fields.running = true ↔ x.fields.mdis = 0 ∧ x.fields.frzack = 0 ∧ x.fields.notrdy = 0 ∧ x.fields.synch = 1) ∧
    (x.fields.mdis = 1 → s.enabled e = false) ∧
    (x.fields.running = false → (∃ i d p, e = .txComplete n i d p) ∨ (∃ r p, e = .rxBegin n r p) ∨
      (∃ i k d p, e = .abortResolve n i true k d p) → s.enabled e = false)

/-- 43_mb_hardware.md R237 with R239, R241 and R242: no hardware step acts on a slot that is InactiveRx, InactiveTx, Aborted
or Reserved: its words, its state and its flag stay. -/
def Obligations.QuietSlots : Prop :=
  ∀ (s t : State) (e : Event) (n : Nat) (x y : Instance) (i j : Nat), e.controller = some n → runEvent e s = .next t →
    s.insts[n]? = some x → t.insts[n]? = some y → x.Inv → i < x.hwSlots → j < x.ws →
    x.slotState i ∈ [.inactiveRx, .inactiveTx, .aborted, .reserved] →
    y.word (wordAddr x.ws i j) = x.word (wordAddr x.ws i j) ∧ y.slotState i = x.slotState i ∧
      y.fields.iflag.getLsbD i = x.fields.iflag.getLsbD i

/-! ### The interrupt -/

/-- 60_exceptions.md R330 and R332: the request is a function of the controller's state; an entry is taken between two host
steps when it is asserted and the controller's handler does not run: the position that runs is kept, DISPATCH starts at
its step 0, and nothing else changes. -/
def Obligations.Interrupt : Prop :=
  (∀ (s : State) (n : Nat), s.fault ≠ none → s.enabled (.irqEntry n) = false) ∧
  (∀ x : Instance, x.irq = true ↔
    x.lineEnabled = true ∧ ∃ i, i < 32 ∧ x.fields.iflag.getLsbD i = true ∧ x.fields.imask.getLsbD i = true) ∧
  ∀ (s : State) (es : List Event) (n : Nat) (x : Instance), s.fault = none → s.schedule = .irqEntry n :: es →
    s.insts[n]? = some x → n < 256 →
    (s.enabled (.irqEntry n) = true ↔ x.irq = true ∧ (∀ h ∈ s.handlers, h.inst ≠ n)) ∧
    (x.irq = true → (∀ h ∈ s.handlers, h.inst ≠ n) → ∃ t, step s = .next t ∧
      t = { s with schedule := es, handlers := ⟨n, [⟨.dispatch (BitVec.ofNat 8 n), {}⟩]⟩ :: s.handlers } ∧
      t.acts = [⟨.dispatch (BitVec.ofNat 8 n), {}⟩] ∧ t.pos.pc = 0)

/-! ### Driver operations: each line of 44_driver_ops.md is one host step -/

/-- 44_driver_ops.md R270: the preamble of the driver operations, and that a sub-operation's result other than Success is at
once the result of the operation that called it. -/
def Obligations.Preamble : Prop :=
  (∀ (i : Instr) (s : State), i.primitive = false → s.pos.pc = 0 → s.insts[i.inst.toNat]? = none →
    exec i s = .next (s.ret i .invalidInstance .none)) ∧
  (∀ (i : Instr) (s : State) (x : Instance) (slot : BitVec 8), s.pos.pc = 0 → s.insts[i.inst.toNat]? = some x →
    i.indexed = some slot → x.driver.wordSize = none ∨ x.driver.slotRange.getD 0 ≤ slot.toNat →
    exec i s = .next (s.ret i .fail .none)) ∧
  ∀ (s : State) (a b : Activation) (rest : List Activation) (r : Result) (v : RetVal), s.acts = a :: b :: rest →
    (∀ n, b.op ≠ .dispatch n) → r ≠ .success → s.ret a.op r v = (s.setActs (b :: rest)).ret b.op r v

/-- 44_driver_ops.md R271: the lines of FRZ.ENTER, its spin, and Timeout after `k` reads of a budget of `k` (00_scope.md
R20). -/
def Obligations.FrzEnter : Prop :=
  (∀ (inst : BitVec 8) (s : State), s.pos.pc = 0 → ChecksSelector (.frzEnter inst) s) ∧
  ∀ (inst : BitVec 8) (s : State) (x : Instance), s.insts[inst.toNat]? = some x → let i := Instr.frzEnter inst
    let p := s.pos
    (p.pc = 0 → exec i s = .next (s.goto i { p with pc := 1 })) ∧
    (p.pc = 1 → exec i s = .next ((s.setInst inst.toNat (x.setFields { x.fields with frz := 1 })).goto i
      { p with pc := 2 })) ∧
    (p.pc = 2 → exec i s = .next ((s.setInst inst.toNat (x.setFields { x.fields with halt := 1 })).goto i
      { p with pc := 3 })) ∧
    (p.pc = 3 → x.fields.frzack = 1 → (∀ k, s.params.spinBudget = .bounded k → p.spins < k) →
      exec i s = .next (s.ret i .success .none)) ∧
    (p.pc = 3 → x.fields.frzack = 0 → s.params.spinBudget = .unbounded →
      exec i s = .next (s.goto i { p with pc := 3, spins := p.spins + 1 })) ∧
    (∀ k, p.pc = 3 → x.fields.frzack = 0 → s.params.spinBudget = .bounded k → exec i s =
      .next (if p.spins + 1 < k then s.goto i { p with pc := 3, spins := p.spins + 1 } else s.ret i .timeout .none))

/-- 44_driver_ops.md R272: the lines of FRZ.EXIT; one iteration of its spin is the reads of lines 3 and 4. -/
def Obligations.FrzExit : Prop :=
  (∀ (inst : BitVec 8) (s : State), s.pos.pc = 0 → ChecksSelector (.frzExit inst) s) ∧
  ∀ (inst : BitVec 8) (s : State) (x : Instance), s.insts[inst.toNat]? = some x → let i := Instr.frzExit inst
    let p := s.pos
    (p.pc = 0 → exec i s = .next (s.goto i { p with pc := 1 })) ∧
    (p.pc = 1 → exec i s = .next ((s.setInst inst.toNat (x.setFields { x.fields with halt := 0 })).goto i
      { p with pc := 2 })) ∧
    (p.pc = 2 → exec i s = .next ((s.setInst inst.toNat (x.setFields { x.fields with frz := 0 })).goto i
      { p with pc := 3 })) ∧
    (p.pc = 3 → (∀ k, s.params.spinBudget = .bounded k → p.spins < k) →
      exec i s = .next (s.goto i { p with pc := 4, val := x.fields.frzack.setWidth 32 })) ∧
    (p.pc = 4 → p.val = 0 → x.fields.notrdy = 0 → exec i s = .next (s.ret i .success .none)) ∧
    (p.pc = 4 → p.val ≠ 0 ∨ x.fields.notrdy = 1 → s.params.spinBudget = .unbounded →
      exec i s = .next (s.goto i { p with pc := 3, spins := p.spins + 1 })) ∧
    (∀ k, p.pc = 4 → p.val ≠ 0 ∨ x.fields.notrdy = 1 → s.params.spinBudget = .bounded k → exec i s =
      .next (if p.spins + 1 < k then s.goto i { p with pc := 3, spins := p.spins + 1 } else s.ret i .timeout .none))

/-- 44_driver_ops.md R273 with 42_bit_timing.md R203: the argument checks of INIT in their order, before any access. -/
def Obligations.InitChecks : Prop :=
  ∀ (inst wordSize : BitVec 8) (timing : Option Timing) (s : State) (x : Instance), s.insts[inst.toNat]? = some x →
    s.pos.pc = 0 → let i := Instr.init inst wordSize timing
    if wordSize.toNat < 4 ∨ 18 < wordSize.toNat then exec i s = .next (s.ret i .fail .none)
    else match timing with
      | none => exec i s = .next (s.ret i .fail .none)
      | some t =>
        if t.presdiv.toNat < 2 ^ 8 ∧ t.rjw.toNat < 2 ^ 2 ∧ t.pseg1.toNat < 2 ^ 3 ∧ t.pseg2.toNat < 2 ^ 3 ∧
            t.propseg.toNat < 2 ^ 3 ∧ t.smp.toNat < 2 ^ 1 then
          exec i s = .next (s.goto i { s.pos with pc := 1 })
        else exec i s = .next (s.raise .timingOutOfRange (.instr i) none none)

/-- 44_driver_ops.md R274 and R276: lines 1 to 16 of INIT, for arguments that passed its checks; a freeze-protected line finds
FRZACK = 1 and line 3 finds MDIS = 1, as they do in a run. Line 3 writes INIT_CLKSRC (by default 0). That the calls of lines
5 and 15 are host steps of their own is the model's (log 17), and so is that line 13 reads the driver record as it stands
(log 18). -/
def Obligations.InitLines : Prop :=
  (∀ (inst wordSize : BitVec 8) (timing : Option Timing), CallReturns (.init inst wordSize timing) (.frzEnter inst) ∧
    CallReturns (.init inst wordSize timing) (.frzExit inst)) ∧
  ∀ (inst wordSize : BitVec 8) (t : Timing) (s : State) (x : Instance), s.insts[inst.toNat]? = some x → x.Inv →
    4 ≤ wordSize.toNat → wordSize.toNat ≤ 18 → t.inRange = true → let i := Instr.init inst wordSize (some t)
    let p := s.pos
    let wrote := fun (f : Fields) (pc : Nat) =>
      exec i s = .next ((s.setInst inst.toNat (x.setFields f)).goto i { p with pc := pc })
    (p.pc = 1 → exec i s = .next (s.goto i { p with pc := if x.fields.mdis = 0 then 2 else 3 })) ∧
    (p.pc = 2 → wrote { x.fields with mdis := 1 } 3) ∧
    (p.pc = 3 → x.fields.mdis = 1 → wrote { x.fields with clksrc := x.params.initClksrc } 4) ∧
    (p.pc = 4 → wrote { x.fields with mdis := 0 } 5) ∧
    (p.pc = 5 → exec i s = .next (s.call i { p with pc := 6 } (.frzEnter inst))) ∧
    (x.fields.frzack = 1 →
      (p.pc = 6 → wrote { x.fields with presdiv := t.presdiv.setWidth 8 } 7) ∧
      (p.pc = 7 → wrote { x.fields with rjw := t.rjw.setWidth 2 } 8) ∧
      (p.pc = 8 → wrote { x.fields with pseg1 := t.pseg1.setWidth 3 } 9) ∧
      (p.pc = 9 → wrote { x.fields with pseg2 := t.pseg2.setWidth 3 } 10) ∧
      (p.pc = 10 → wrote { x.fields with propseg := t.propseg.setWidth 3 } 11) ∧
      (p.pc = 11 → wrote { x.fields with smp := t.smp.setWidth 1 } 12) ∧
      (p.pc = 12 → exec i s = .next ((s.setInst inst.toNat
        { x with fields := { x.fields with mbws := wordSize.setWidth 5 }, hidden := .idle,
                 driver := { x.driver with wordSize := some wordSize.toNat,
                                           slotRange := some (512 / (wordSize.toNat * 4)) } }).goto i
        { p with pc := 13, idx := 0 })) ∧
      (p.pc = 14 → wrote { x.fields with srxdis := 1 } 15)) ∧
    (p.pc = 13 → p.idx ≤ 127 →
      let q := if p.idx + 1 < x.driver.slotRange.getD 0 * wordSize.toNat then { p with idx := p.idx + 1 }
        else { p with pc := 14 }
      (∀ k, x.slotOf p.idx = some (k, 0) → ∃ y u, exec i s = .next ((s.commit inst.toNat y u).goto i q) ∧
        y.word p.idx = 0 ∧ y.slotState k = .inactiveRx) ∧
      (x.slotOf p.idx = none ∨ (∃ k j, x.slotOf p.idx = some (k, j) ∧ j ≠ 0 ∧ x.slotState k = .inactiveRx) →
        ∃ y, exec i s = .next ((s.setInst inst.toNat y).goto i q) ∧ x.WordStored y p.idx 0 ∧ y.fields = x.fields ∧
          y.hidden = x.hidden)) ∧
    (p.pc = 15 → exec i s = .next (s.call i { p with pc := 16 } (.frzExit inst))) ∧
    (p.pc = 16 → exec i s = .next (s.ret i (if x.fields.synch = 1 then .success else .fail) .none))

/-- 44_driver_ops.md R278: the lines of CFGTX. A read or a write of a word is that of MB.RD or MB.WR (`wordRead`,
`wordWrite`), its fault the line's fault. That the record of that fault names CFGTX, neither the access of the line nor a
caller, is the model's choice (log 27); so is that each line takes the driver record's word size as it stands, an absent
one as 0 (log 18). -/
def Obligations.CfgTx : Prop :=
  (∀ (inst slot : BitVec 8) (frame : Option FrameRec) (s : State), ChecksPreamble (.cfgTx inst slot frame) slot s) ∧
  ∀ (inst slot : BitVec 8) (frame : Option FrameRec) (s : State) (x : Instance), s.insts[inst.toNat]? = some x →
    let i := Instr.cfgTx inst slot frame
    let p := s.pos
    (p.pc = 0 → ∀ ws R, x.driver.wordSize = some ws → x.driver.slotRange = some R → slot.toNat < R →
      (frame = none → exec i s = .next (s.ret i .fail .none)) ∧
      ∀ r, frame = some r →
        if r.dlc.toNat ≤ 15 ∧ r.id.toNat < (if r.ide = true then 2 ^ 29 else 2 ^ 11) ∧
            dlcBytes x.params.dlcMap r.edl (r.dlc.setWidth 4) ≤ (ws - 2) * 4 then exec i s = .next (s.goto i { p with pc := 1 })
        else exec i s = .next (s.ret i .fail .none)) ∧
    (∀ r f, frame = some r → r.frame? = some f →
      let w := x.driver.wordSize.getD 0 * slot.toNat
      let P := (x.bytes f + 3) / 4
      (p.pc = 1 → ∀ c y u, wordRead w s.draws x = .ok c y u → exec i s = .next (
        if c.extractLsb' 24 4 ∈ [0x0#4, 0x8#4, 0x9#4] then
          (s.commit inst.toNat y u).goto i { p with pc := if P = 0 then 3 else 2, val := c, idx := 0 }
        else (s.commit inst.toNat y u).ret i .fail .none)) ∧
      (p.pc = 2 → ∀ y u, wordWrite (w + 2 + p.idx) ((pack f.data (x.bytes f)).getD p.idx 0) s.draws x = .ok () y u →
        p.idx < P → exec i s = .next ((s.commit inst.toNat y u).goto i
          (if p.idx + 1 < P then { p with idx := p.idx + 1 } else { p with pc := 3 }))) ∧
      (p.pc = 3 → ∀ y u, wordWrite (w + 1) (x.idWord f) s.draws x = .ok () y u →
        exec i s = .next ((s.commit inst.toNat y u).goto i { p with pc := 4 })) ∧
      (p.pc = 4 → ∀ y u, wordWrite w (encodeControl 0xC f) s.draws x = .ok () y u →
        exec i s = .next ((s.commit inst.toNat y u).ret i .success .none)) ∧
      ∀ e k a, (p.pc = 1 ∧ wordRead w s.draws x = .fault e k a) ∨
          (p.pc = 2 ∧ p.idx < P ∧
            wordWrite (w + 2 + p.idx) ((pack f.data (x.bytes f)).getD p.idx 0) s.draws x = .fault e k a) ∨
          (p.pc = 3 ∧ wordWrite (w + 1) (x.idWord f) s.draws x = .fault e k a) ∨
          (p.pc = 4 ∧ wordWrite w (encodeControl 0xC f) s.draws x = .fault e k a) →
        exec i s = .next (s.raise e (.instr i) k a))

/-- 44_driver_ops.md R278, R279, R290 with 41_frame_mapper.md R185: CFGTX of a frame that fits, into a quiescent slot of an
initialised controller, run without other steps: it returns Success, the slot is Send, decoding its words gives the frame
back, and nothing outside the slot changes but that its control-word read leaves no slot locked (43_mb_hardware.md R235).
The schedule, the loaded program and the count of steps are the model's (logs 9, 11, 17). -/
def Obligations.CfgTxRoundTrip : Prop :=
  ∀ (inst slot : BitVec 8) (r : FrameRec) (f : Frame) (s : State) (es : List Event) (rest : List Request) (x : Instance),
    s.fault = none → s.handlers = [] → s.mainline = [] → s.program = encode (.cfgTx inst slot (some r)) :: rest →
    s.schedule = List.replicate ((x.bytes f + 3) / 4 + 4) .host ++ es → s.insts[inst.toNat]? = some x → x.Inv →
    x.driver.wordSize = some x.ws → slot.toNat < x.hwSlots → r.frame? = some f → x.bytes f ≤ (x.ws - 2) * 4 →
    x.slotState slot.toNat ∈ [.inactiveRx, .inactiveTx, .aborted] →
    ∃ t y, core.run ((x.bytes f + 3) / 4 + 4) s = .next t ∧ t.insts = s.insts.set inst.toNat y ∧ t.mainline = [] ∧
      t.handlers = [] ∧ t.fault = none ∧ t.program = rest ∧ t.schedule = es ∧
      t.lastReturn = some ⟨.cfgTx inst slot (some r), .success, .none⟩ ∧ y.slotState slot.toNat = .send ∧
      (let g := y.decodeSlot slot.toNat;
        g.id = f.id ∧ g.ide = f.ide ∧ g.rtr = f.rtr ∧ g.edl = f.edl ∧ g.brs = f.brs ∧ g.esi = f.esi ∧ g.dlc = f.dlc ∧
        ∀ k, k < x.bytes f → g.data.toList.getD k 0 = f.data.toList.getD k 0) ∧
      (∀ w, (∀ j, x.slotOf w ≠ some (slot.toNat, j)) → y.word w = x.word w) ∧ y.fields = x.fields ∧
      (∀ k, y.hidden.slot k = x.hidden.slot k) ∧ y.hidden.locked = none ∧ y.hidden.pendingRx = x.hidden.pendingRx ∧
      y.busOut = x.busOut ∧ y.driver = x.driver ∧ y.lineEnabled = x.lineEnabled ∧ y.params = x.params

/-- 44_driver_ops.md R281: the lines of CFGRX, the word that arms the slot with IDE = RX_IDE (by default 1); a word access that
faults is the line's fault. The model's are: that a call is a host step of its own (log 17), that the fault record names
CFGRX (log 27), and that each line takes the driver record's word size as it stands, an absent one as 0 (log 18). -/
def Obligations.CfgRx : Prop :=
  (∀ (inst slot : BitVec 8) (filterId filterMask : Word) (s : State),
    ChecksPreamble (.cfgRx inst slot filterId filterMask) slot s ∧
    CallReturns (.cfgRx inst slot filterId filterMask) (.frzEnter inst) ∧
    CallReturns (.cfgRx inst slot filterId filterMask) (.frzExit inst)) ∧
  ∀ (inst slot : BitVec 8) (filterId filterMask : Word) (s : State) (x : Instance), s.insts[inst.toNat]? = some x →
    let i := Instr.cfgRx inst slot filterId filterMask
    let p := s.pos
    let w := x.driver.wordSize.getD 0 * slot.toNat
    let arm : Word := if x.params.rxIde = true then 0x04200000 else 0x04000000
    (p.pc = 0 → ∀ ws R, x.driver.wordSize = some ws → x.driver.slotRange = some R → slot.toNat < R → exec i s = .next
      (if 2 ^ 29 ≤ filterId.toNat then s.ret i .fail .none else s.goto i { p with pc := 1 })) ∧
    (p.pc = 1 → ∀ c y u, wordRead w s.draws x = .ok c y u → exec i s = .next ((s.commit inst.toNat y u).goto i
      { p with pc := if c.extractLsb' 24 4 = 0x0#4 then 3 else 2, val := c })) ∧
    (p.pc = 2 → ∀ y u, wordWrite w 0x00000000 s.draws x = .ok () y u →
      exec i s = .next ((s.commit inst.toNat y u).goto i { p with pc := 3 })) ∧
    (p.pc = 3 → exec i s = .next (s.call i { p with pc := 4 } (.frzEnter inst))) ∧
    (p.pc = 4 → x.fields.frzack = 1 → exec i s = .next ((s.setInst inst.toNat
      (x.setFields { x.fields with rxmgmask := filterMask })).goto i { p with pc := 5 })) ∧
    (p.pc = 5 → exec i s = .next (s.call i { p with pc := 6 } (.frzExit inst))) ∧
    (p.pc = 6 → ∀ y u, wordWrite (w + 1) filterId s.draws x = .ok () y u →
      exec i s = .next ((s.commit inst.toNat y u).goto i { p with pc := 7 })) ∧
    (p.pc = 7 → ∀ y u, wordWrite w arm s.draws x = .ok () y u →
      exec i s = .next ((s.commit inst.toNat y u).ret i .success .none)) ∧
    ∀ e k a, (p.pc = 1 ∧ wordRead w s.draws x = .fault e k a) ∨ (p.pc = 2 ∧ wordWrite w 0x00000000 s.draws x = .fault e k a) ∨
        (p.pc = 6 ∧ wordWrite (w + 1) filterId s.draws x = .fault e k a) ∨
        (p.pc = 7 ∧ wordWrite w arm s.draws x = .fault e k a) →
      exec i s = .next (s.raise e (.instr i) k a)

/-- 44_driver_ops.md R281 with 43_mb_hardware.md R225 and R226: CFGRX into an InactiveRx slot of an initialised controller that
is not frozen, run with the two handshake steps where its spins wait for them: it returns Success, the slot is ReceiveEmpty
with the filter, the mask is set, the controller has left freeze unsynchronised, and nothing else of the memory, of the
fields and of the bus changes. The schedule, the loaded program and the count of steps are the model's (logs 9, 11, 17);
a slot in another state is CfgRx's line 2. -/
def Obligations.CfgRxRun : Prop :=
  ∀ (inst slot : BitVec 8) (filterId filterMask : Word) (s : State) (es : List Event) (rest : List Request) (x : Instance),
    let n := inst.toNat
    let i := Instr.cfgRx inst slot filterId filterMask
    let events := List.replicate 6 Event.host ++ [.freezeAck n] ++ List.replicate 6 .host ++ [.freezeExit n] ++
      List.replicate 4 .host
    s.fault = none → s.handlers = [] → s.mainline = [] → s.program = encode i :: rest → s.schedule = events ++ es →
    s.params.spinBudget = .unbounded → s.insts[n]? = some x → x.Inv → x.fields.mdis = 0 → x.fields.frzack = 0 →
    x.driver.wordSize = some x.ws → slot.toNat < x.hwSlots → x.slotState slot.toNat = .inactiveRx →
    filterId.toNat < 2 ^ 29 →
    ∃ t y, core.run events.length s = .next t ∧ t.insts = s.insts.set n y ∧ t.mainline = [] ∧ t.handlers = [] ∧
      t.fault = none ∧ t.program = rest ∧ t.schedule = es ∧ t.lastReturn = some ⟨i, .success, .none⟩ ∧
      y.slotState slot.toNat = .receiveEmpty ∧
      y.word (wordAddr x.ws slot.toNat 0) = (if x.params.rxIde = true then 0x04200000 else 0x04000000) ∧
      y.word (wordAddr x.ws slot.toNat 1) = filterId ∧
      (∀ w, w ≠ wordAddr x.ws slot.toNat 0 → w ≠ wordAddr x.ws slot.toNat 1 → y.word w = x.word w) ∧
      y.fields = { x.fields with frz := 0, halt := 0, frzack := 0, notrdy := 0, synch := 0, rxmgmask := filterMask } ∧
      (∀ k, y.hidden.slot k = x.hidden.slot k) ∧ y.hidden.locked = none ∧ y.hidden.pendingRx = x.hidden.pendingRx ∧
      y.driver = x.driver ∧ y.busOut = x.busOut ∧ y.lineEnabled = x.lineEnabled ∧ y.params = x.params

/-- 44_driver_ops.md R284 and R285: the lines of SEND; line 3 writes the word that was read with its code changed to 9 and
DLC, IDE, SRR, RTR, EDL, BRS and ESI kept, its unassigned bits 0 under `sendClears` (30_encoding.md R111, R119) and as read
without it (R284); that both readings stand is the model's choice (log 25). A word access that faults is the line's fault.
The model's are too: that a call and the last return are host steps of their own (log 17), that the fault record names SEND
(log 27), and that each line takes the driver record's word size as it stands, an absent one as 0 (log 18). -/
def Obligations.Send : Prop :=
  (∀ (inst slot : BitVec 8) (frame : Option FrameRec) (s : State), ChecksPreamble (.send inst slot frame) slot s ∧
    CallReturns (.send inst slot frame) (.cfgTx inst slot frame)) ∧
  (∀ (clears : Bool) (v : Word), let r := CtrlBits.ofWord v
    codeOf (abortWord clears v) = 0x9#4 ∧ CtrlBits.ofWord (abortWord clears v) =
      if clears = true then { r with un28 := false, un23 := false, low := 0 } else r) ∧
  ∀ (inst slot : BitVec 8) (frame : Option FrameRec) (s : State) (x : Instance), s.insts[inst.toNat]? = some x →
    let i := Instr.send inst slot frame
    let p := s.pos
    let w := x.driver.wordSize.getD 0 * slot.toNat
    let cleared := x.setFields { x.fields with iflag := x.fields.iflag &&& ~~~(1#32 <<< slot.toNat) }
    let back := abortWord x.params.sendClears p.val
    (p.pc = 0 → ∀ ws R, x.driver.wordSize = some ws → x.driver.slotRange = some R → slot.toNat < R → exec i s = .next
      (if frame = none then s.ret i .fail .none else s.goto i { p with pc := 1 })) ∧
    (p.pc = 1 → exec i s = .next ((s.setInst inst.toNat cleared).goto i { p with pc := 2 })) ∧
    (p.pc = 2 → ∀ c y u, wordRead w s.draws x = .ok c y u → exec i s = .next
      (if c.extractLsb' 24 4 ∈ [0x0#4, 0x8#4, 0x9#4] then
        (s.commit inst.toNat y u).goto i { p with pc := 6, val := c }
      else if c.extractLsb' 24 4 = 0xC#4 then (s.commit inst.toNat y u).goto i { p with pc := 3, val := c }
      else (s.commit inst.toNat y u).ret i .fail .none)) ∧
    (p.pc = 3 → ∀ y u, wordWrite w back s.draws x = .ok () y u →
      exec i s = .next ((s.commit inst.toNat y u).goto i { p with pc := 4, spins := 0 })) ∧
    (p.pc = 4 → x.fields.iflag.getLsbD slot.toNat = true → (∀ k, s.params.spinBudget = .bounded k → p.spins < k) →
      exec i s = .next (s.goto i { p with pc := 5 })) ∧
    (p.pc = 4 → x.fields.iflag.getLsbD slot.toNat = false → s.params.spinBudget = .unbounded →
      exec i s = .next (s.goto i { p with pc := 4, spins := p.spins + 1 })) ∧
    (∀ k, p.pc = 4 → x.fields.iflag.getLsbD slot.toNat = false → s.params.spinBudget = .bounded k → exec i s =
      .next (if p.spins + 1 < k then s.goto i { p with pc := 4, spins := p.spins + 1 } else s.ret i .timeout .none)) ∧
    (p.pc = 5 → exec i s = .next ((s.setInst inst.toNat cleared).goto i { p with pc := 6 })) ∧
    (p.pc = 6 → exec i s = .next (s.call i { p with pc := 7 } (.cfgTx inst slot frame))) ∧
    (p.pc = 7 → exec i s = .next (s.ret i .success .none)) ∧
    ∀ e k a, (p.pc = 2 ∧ wordRead w s.draws x = .fault e k a) ∨
        (p.pc = 3 ∧ wordWrite w back s.draws x = .fault e k a) →
      exec i s = .next (s.raise e (.instr i) k a)

/-- 44_driver_ops.md R287: the lines of RECV. -/
def Obligations.Recv : Prop :=
  (∀ (inst slot : BitVec 8) (s : State), ChecksPreamble (.recv inst slot) slot s) ∧
  ∀ (inst slot : BitVec 8) (s : State) (x : Instance), s.insts[inst.toNat]? = some x →
    let i := Instr.recv inst slot
    let p := s.pos
    let w := x.driver.wordSize.getD 0 * slot.toNat
    let P := (ctrlBytes x.params.dlcMap p.val + 3) / 4
    (p.pc = 0 → ∀ ws R, x.driver.wordSize = some ws → x.driver.slotRange = some R → slot.toNat < R →
      exec i s = .next (s.goto i { p with pc := 1 })) ∧
    (p.pc = 1 → (∀ k, s.params.spinBudget = .bounded k → p.spins < k) → ∀ c y u, wordRead w s.draws x = .ok c y u →
      let v := s.commit inst.toNat y u
      (c.getLsbD 24 = true → c.getLsbD 27 = false → s.params.spinBudget = .unbounded →
        exec i s = .next (v.goto i { p with pc := 1, spins := p.spins + 1 })) ∧
      (∀ k, c.getLsbD 24 = true → c.getLsbD 27 = false → s.params.spinBudget = .bounded k → exec i s =
        .next (if p.spins + 1 < k then v.goto i { p with pc := 1, spins := p.spins + 1 } else v.ret i .timeout .none)) ∧
      (¬(c.getLsbD 24 = true ∧ c.getLsbD 27 = false) → c.extractLsb' 24 4 ≠ 0x4#4 →
        exec i s = .next (v.ret i .fail .none)) ∧
      (c.extractLsb' 24 4 = 0x4#4 → exec i s = .next
        (if (x.driver.wordSize.getD 0 - 2) * 4 < dlcBytes x.params.dlcMap (c.getLsbD 31) (c.extractLsb' 16 4) then
          v.goto i { p with pc := 4, val := c, ok := false }
        else v.goto i { p with pc := 2, val := c, ok := true }))) ∧
    (p.pc = 2 → ∀ d y u, wordRead (w + 1) s.draws x = .ok d y u → exec i s = .next ((s.commit inst.toNat y u).goto i
      { p with pc := if P = 0 then 4 else 3, idw := d, idx := 0, words := [] })) ∧
    (p.pc = 3 → ∀ d y u, wordRead (w + (2 + p.idx)) s.draws x = .ok d y u → exec i s =
      .next ((s.commit inst.toNat y u).goto i (if p.idx + 1 < P then
        { p with idx := p.idx + 1, words := p.words ++ [d] } else { p with pc := 4, words := p.words ++ [d] }))) ∧
    (p.pc = 4 → exec i s = .next ((s.commit inst.toNat (x.setLocked none) 1).ret i
      (if p.ok = true then .success else .fail)
      (if p.ok = true then .frame
        { id := decodeId x.params.stdIdShift p.idw (p.val.getLsbD 21), ide := p.val.getLsbD 21, rtr := p.val.getLsbD 20,
          edl := p.val.getLsbD 31, brs := p.val.getLsbD 30, esi := p.val.getLsbD 29, dlc := p.val.extractLsb' 16 4,
          data := unpack p.words (ctrlBytes x.params.dlcMap p.val) } else .none)))

/-- 44_driver_ops.md R287, R288 with 43_mb_hardware.md R233: the end of a reception and then RECV of the slot, run without
other steps: RECV returns Success with the frame that was received, its bytes past the payload 0, and the lock is
released. The schedule, the loaded program and the count of steps are the model's (logs 9, 11, 17). -/
def Obligations.ReceiveRoundTrip : Prop :=
  ∀ (inst slot : BitVec 8) (f : Frame) (d : BitVec 16) (fill : Word) (s : State) (es : List Event) (rest : List Request)
    (x : Instance),
    s.fault = none → s.handlers = [] → s.mainline = [] → s.program = encode (.recv inst slot) :: rest →
    s.params.spinBudget = .unbounded →
    s.schedule = .rxCommit inst.toNat slot.toNat d fill :: List.replicate ((x.bytes f + 3) / 4 + 4) .host ++ es →
    s.insts[inst.toNat]? = some x → x.Inv → x.driver.wordSize = some x.ws → x.fields.mdis = 0 →
    x.busy slot.toNat = true → (x.hidden.slot slot.toNat).rxInflight = some f →
    ∃ t g, core.run ((x.bytes f + 3) / 4 + 5) s = .next t ∧ t.mainline = [] ∧ t.program = rest ∧ t.schedule = es ∧
      t.lastReturn = some ⟨.recv inst slot, .success, .frame g⟩ ∧
      { g with data := f.data } = f ∧
      (∀ k, k < 64 → g.data.toList.getD k 0 = if k < x.bytes f then f.data.toList.getD k 0 else 0) ∧
      ∃ y, t.insts[inst.toNat]? = some y ∧ y.hidden.locked = none ∧ y.slotState slot.toNat = .receiveEmpty ∧
        y.fields.iflag.getLsbD slot.toNat = true

/-- 44_driver_ops.md R291 and R292: CLRFLAG clears the slot's flag and no other; with the flag already 0 it changes no
controller. -/
def Obligations.ClrFlag : Prop :=
  (∀ (inst slot : BitVec 8) (s : State), ChecksPreamble (.clrFlag inst slot) slot s) ∧
  ∀ (inst slot : BitVec 8) (s : State) (x : Instance), s.insts[inst.toNat]? = some x →
    let i := Instr.clrFlag inst slot
    (s.pos.pc = 0 → ∀ ws R, x.driver.wordSize = some ws → x.driver.slotRange = some R → slot.toNat < R →
      exec i s = .next (s.goto i { s.pos with pc := 1 })) ∧
    (s.pos.pc = 1 → ∃ y, exec i s = .next ((s.setInst inst.toNat y).ret i .success .none) ∧
      y = x.setFields { x.fields with iflag := y.fields.iflag } ∧
      (∀ k, k < 32 → y.fields.iflag.getLsbD k = (x.fields.iflag.getLsbD k && decide (k ≠ slot.toNat))) ∧
      (x.fields.iflag.getLsbD slot.toNat = false → y = x))

/-- 44_driver_ops.md R293: the lines of ENIRQ: the mask bit is set inside the freeze bracket. That a call and the last return
are host steps of their own is log 17's. -/
def Obligations.EnIrq : Prop :=
  (∀ (inst slot : BitVec 8) (s : State), ChecksPreamble (.enIrq inst slot) slot s ∧
    CallReturns (.enIrq inst slot) (.frzEnter inst) ∧ CallReturns (.enIrq inst slot) (.frzExit inst)) ∧
  ∀ (inst slot : BitVec 8) (s : State) (x : Instance), s.insts[inst.toNat]? = some x →
    let i := Instr.enIrq inst slot
    let p := s.pos
    (p.pc = 0 → ∀ ws R, x.driver.wordSize = some ws → x.driver.slotRange = some R → slot.toNat < R →
      exec i s = .next (s.goto i { p with pc := 1 })) ∧
    (p.pc = 1 → exec i s = .next (s.call i { p with pc := 2 } (.frzEnter inst))) ∧
    (p.pc = 2 → exec i s = .next (s.goto i { p with pc := 3, val := x.fields.imask })) ∧
    (p.pc = 3 → x.fields.frzack = 1 → exec i s = .next ((s.setInst inst.toNat
      (x.setFields { x.fields with imask := p.val ||| (1#32 <<< slot.toNat) })).goto i { p with pc := 4 })) ∧
    (p.pc = 4 → exec i s = .next (s.call i { p with pc := 5 } (.frzExit inst))) ∧
    (p.pc = 5 → exec i s = .next (s.ret i .success .none))

/-- 44_driver_ops.md R295: REGCB replaces the callback, before INIT or after it; an absent handler is a Fail. -/
def Obligations.RegCb : Prop :=
  (∀ (inst : BitVec 8) (h : Option Handler) (s : State), ChecksSelector (.regCb inst h) s) ∧
  ∀ (inst : BitVec 8) (s : State) (x : Instance), s.insts[inst.toNat]? = some x →
    (∀ h : Handler, exec (.regCb inst (some h)) s = .next ((s.setInst inst.toNat
      { x with driver := { x.driver with callback := some h } }).ret (.regCb inst (some h)) .success .none)) ∧
    exec (.regCb inst none) s = .next (s.ret (.regCb inst none) .fail .none)

/-- 44_driver_ops.md R297 and R296: DISPATCH passes the lowest flag below the slot range to the callback, whatever IMASK is;
the callback's operations run one after another, and DISPATCH returns Success after them (that they are steps of DISPATCH,
and where the body comes from, is logs 13 and 17); with no wordSize, no flag or no callback it returns Success at once. -/
def Obligations.Dispatch : Prop :=
  (∀ (inst : BitVec 8) (s : State), s.pos.pc = 0 → ChecksSelector (.dispatch inst) s) ∧
  ∀ (inst : BitVec 8) (s : State) (x : Instance), s.insts[inst.toNat]? = some x →
    let i := Instr.dispatch inst
    let p := s.pos
    let R := x.driver.slotRange.getD 0
    (p.pc = 0 → exec i s = .next
      (if x.driver.wordSize = none then s.ret i .success .none else s.goto i { p with pc := 1 })) ∧
    (p.pc = 1 → (∀ k, k < R → x.fields.iflag.getLsbD k = false) ∨ x.driver.callback = none →
      exec i s = .next (s.ret i .success .none)) ∧
    (p.pc = 1 → ∀ h k, x.driver.callback = some h → k < R → x.fields.iflag.getLsbD k = true →
      (∀ j, j < k → x.fields.iflag.getLsbD j = false) → ∃ ops u, exec i s =
        .next ({ s with draws := u }.goto i { p with pc := 2, called := some (h, k), body := ops }) ∧
        ∀ b, s.handlerCode.find? (fun c => c.handler == h && c.slot == k) = some b → ops = b.ops) ∧
    (p.pc = 2 → p.body = [] → exec i s = .next (s.ret i .success .none)) ∧
    (p.pc = 2 → ∀ op rest, p.body = op :: rest → exec i s = .next (s.call i { p with body := rest } op))

/-- 70_reset_and_hazards.md R353 with 44_driver_ops.md R274 and 42_bit_timing.md R204: INIT from a disabled controller, run
with the three handshake steps where its spins and its last read wait for them: it returns Success, the fields are as R353
lists them with CLKSRC the INIT_CLKSRC (by default 0), every word of the slots is 0, every slot is InactiveRx and the words
past the slots are as before. IFLAG is left open: a slot cancelled at line 13 may set its flag (R277, R223), where R353 has
IFLAG unchanged. The schedule, the loaded program and the count of steps are the model's (logs 9, 11, 17). -/
def Obligations.InitRun : Prop :=
  ∀ (inst wordSize : BitVec 8) (t : Timing) (s : State) (es : List Event) (rest : List Request) (x : Instance),
    let n := inst.toNat
    let R := 512 / (wordSize.toNat * 4)
    let events := List.replicate 8 Event.host ++ [.freezeAck n] ++ List.replicate (8 + R * wordSize.toNat + 5) .host ++
      [.freezeExit n] ++ List.replicate 2 .host ++ [.sync n, .host]
    s.fault = none → s.handlers = [] → s.mainline = [] → s.program = encode (.init inst wordSize (some t)) :: rest →
    s.schedule = events ++ es → s.insts[n]? = some x → x.Inv → x.fields.mdis = 1 → s.params.spinBudget = .unbounded →
    4 ≤ wordSize.toNat → wordSize.toNat ≤ 18 → t.inRange = true →
    ∃ u y, core.run events.length s = .next u ∧ u.insts = s.insts.set n y ∧ u.mainline = [] ∧ u.fault = none ∧
      u.program = rest ∧ u.schedule = es ∧ u.lastReturn = some ⟨.init inst wordSize (some t), .success, .none⟩ ∧
      y.driver = { x.driver with wordSize := some wordSize.toNat, slotRange := some R } ∧ y.hidden = .idle ∧
      y.fields = { x.fields with
        mdis := 0, frz := 0, halt := 0, frzack := 0, notrdy := 0, synch := 1, srxdis := 1, clksrc := x.params.initClksrc,
        presdiv := t.presdiv.setWidth 8, rjw := t.rjw.setWidth 2, pseg1 := t.pseg1.setWidth 3,
        pseg2 := t.pseg2.setWidth 3, propseg := t.propseg.setWidth 3, smp := t.smp.setWidth 1,
        mbws := wordSize.setWidth 5, iflag := y.fields.iflag } ∧
      y.lineEnabled = x.lineEnabled ∧ y.params = x.params ∧
      (∀ w, w < R * wordSize.toNat → y.word w = 0) ∧
      (∀ w, R * wordSize.toNat ≤ w → y.word w = x.word w) ∧ ∀ i, i < R → y.slotState i = .inactiveRx

/-! ### What a host step leaves as it was -/

/-- FRAME of every operation, memory and flags: a step of operation `i` changes no byte but those of the word it stores to
(and of the slot whose reception that cancels), no field but the one it stores to, and no flag but those its operand
clears or its preemption may set (40_register_interface.md R142 to R148; 43_mb_hardware.md R222, R223; 44_driver_ops.md). -/
def Obligations.MemoryAndFieldFrame : Prop :=
  ∀ (i : Instr) (s t : State) (x y : Instance), exec i s = .next t → s.insts[i.inst.toNat]? = some x →
    t.insts[i.inst.toNat]? = some y → x.Inv →
    (∀ a, ¬ storesByte i s.pos x a → y.mem.byte a = x.mem.byte a) ∧
    (∀ f : Field, f ≠ .iflag → storedField i s.pos ≠ some f → y.fields.get f = x.fields.get f) ∧
    ∀ k, (clearedFlags i s.pos).getLsbD k = false → (settableFlags i s.pos x).getLsbD k = false →
      y.fields.iflag.getLsbD k = x.fields.iflag.getLsbD k

/-- FRAME of every operation, the rest of the controller: the hidden state of a slot changes only where its code is written
or MBWS is, the held frame only where MBWS is, the lock only by a control-word access, a TIMER read or MBWS; the driver
record only by INIT and REGCB; the bus output grows by at most the frame of the slot whose code is written. -/
def Obligations.HiddenAndDriverFrame : Prop :=
  ∀ (i : Instr) (s t : State) (x y : Instance), exec i s = .next t → s.insts[i.inst.toNat]? = some x →
    t.insts[i.inst.toNat]? = some y →
    (∀ k, storedSlot i s.pos x ≠ some k → storedField i s.pos ≠ some .mbws → y.hidden.slot k = x.hidden.slot k) ∧
    (storedField i s.pos ≠ some .mbws → y.hidden.pendingRx = x.hidden.pendingRx) ∧
    (movesLock i s.pos = false → y.hidden.locked = x.hidden.locked) ∧
    (y.driver.callback ≠ x.driver.callback → ∃ h, i = .regCb i.inst (some h)) ∧
    (y.driver.wordSize ≠ x.driver.wordSize ∨ y.driver.slotRange ≠ x.driver.slotRange →
      ∃ w c, i = .init i.inst w c ∧ s.pos.pc = 12) ∧
    (y.busOut = x.busOut ∨ ∃ k, storedSlot i s.pos x = some k ∧ y.busOut = x.busOut ++ [x.busImage k]) ∧
    y.lineEnabled = x.lineEnabled ∧ y.params = x.params

/-- FRAME of every operation, the host context: a host step changes no parameter, no host code, no request not yet started,
no schedule, and no position but the running one (60_exceptions.md R332, R334). -/
def Obligations.HostContextFrame : Prop :=
  ∀ (i : Instr) (s t : State), exec i s = .next t →
    t.params = s.params ∧ t.handlerCode = s.handlerCode ∧ t.program = s.program ∧ t.schedule = s.schedule ∧
    t.handlers.tail = s.handlers.tail ∧ t.handlers.map HandlerCtx.inst = s.handlers.map HandlerCtx.inst ∧
    (s.handlers ≠ [] → t.mainline = s.mainline) ∧ s.draws ≤ t.draws
end

