-- ==== Sys2Proof/Laws/Bits.lean ====
section
/-! SUPPORT. What the word builders put at each bit: control words, the bytes of a word, replaced codes. -/

namespace Sys2Proof

/-- Bit `i` of a control word (30_encoding.md R111). -/
theorem CtrlBits.toWord_getLsbD (b : CtrlBits) (c : BitVec 4) (i : Nat) (hi : i < 32) :
    (b.toWord c).getLsbD i =
      if i < 16 then b.low.getLsbD i
      else if i < 20 then b.dlc.getLsbD (i - 16)
      else if i = 20 then b.rtr else if i = 21 then b.ide else if i = 22 then b.srr else if i = 23 then b.un23
      else if i < 28 then c.getLsbD (i - 24)
      else if i = 28 then b.un28 else if i = 29 then b.esi else if i = 30 then b.brs else b.edl := by
  unfold CtrlBits.toWord
  simp only [BitVec.getLsbD_append, BitVec.getLsbD_ofBool]
  interval_cases i <;> simp

/-- The code of a built control word. -/
@[simp] theorem codeOf_toWord (b : CtrlBits) (c : BitVec 4) : codeOf (b.toWord c) = c := by
  apply BitVec.eq_of_getLsbD_eq
  intro i hi
  unfold codeOf
  rw [BitVec.getLsbD_extractLsb', b.toWord_getLsbD c _ (by omega)]
  interval_cases i <;> simp

/-- A word is its four bytes, least significant first (log 4). -/
theorem wordAt_append (l r : List Byte) (v : Word) : wordAt (l ++ (wordBytes v ++ r)) l.length = v := by
  apply BitVec.eq_of_getLsbD_eq
  intro i hi
  have h (k : Nat) (hk : k < 4) : byteAt (l ++ (wordBytes v ++ r)) (l.length + k) = v.extractLsb' (8 * k) 8 := by
    interval_cases k <;> simp [byteAt, wordBytes, List.getD_eq_getElem?_getD]
  have h0 := h 0 (by omega)
  rw [Nat.add_zero] at h0
  unfold wordAt
  rw [h 3 (by omega), h 2 (by omega), h 1 (by omega), h0]
  simp only [BitVec.getLsbD_append, BitVec.getLsbD_extractLsb']
  interval_cases i <;> rfl

end Sys2Proof

namespace Sys2Proof.Machine

/-- The four bytes of a word, most significant first, are the word (20_memory.md R80). -/
theorem wordByte_join (v : Word) : wordByte v 0 ++ wordByte v 1 ++ wordByte v 2 ++ wordByte v 3 = v := by
  apply BitVec.eq_of_getLsbD_eq
  intro i hi
  unfold wordByte
  simp only [BitVec.getLsbD_append, BitVec.getLsbD_extractLsb']
  interval_cases i <;> rfl

/-- Byte `k` of four joined bytes. -/
theorem wordByte_append (a b c d : Byte) (k : Nat) (hk : k < 4) :
    wordByte (a ++ b ++ c ++ d) k = [a, b, c, d].getD k 0 := by
  apply BitVec.eq_of_getLsbD_eq
  intro i hi
  unfold wordByte
  simp only [BitVec.getLsbD_extractLsb', BitVec.getLsbD_append]
  interval_cases k <;> interval_cases i <;> rfl

/-- The code of a word whose code was replaced (44_driver_ops.md R285). -/
@[simp] theorem codeOf_withCode (w : Word) (c : BitVec 4) : codeOf (withCode w c) = c := by
  apply BitVec.eq_of_getLsbD_eq
  intro i hi
  simp only [codeOf, withCode, BitVec.getLsbD_extractLsb', BitVec.getLsbD_or, BitVec.getLsbD_and, BitVec.getLsbD_not,
    BitVec.getLsbD_shiftLeft, BitVec.getLsbD_setWidth]
  interval_cases i <;> simp

/-- The code of SEND's abort write (44_driver_ops.md R285). -/
@[simp] theorem codeOf_abortWord (b : Bool) (w : Word) : codeOf (abortWord b w) = 0x9#4 := codeOf_withCode _ _

/-- The code of a word after a hardware transmission step (43_mb_hardware.md R228). -/
@[simp] theorem codeOf_withCodeStamp (w : Word) (c : BitVec 4) (t : BitVec 16) : codeOf (withCodeStamp w c t) = c := by
  apply BitVec.eq_of_getLsbD_eq
  intro i hi
  simp only [codeOf, withCodeStamp, BitVec.getLsbD_extractLsb', BitVec.getLsbD_or, BitVec.getLsbD_and,
    BitVec.getLsbD_not, BitVec.getLsbD_shiftLeft, BitVec.getLsbD_setWidth]
  interval_cases i <;> simp

end Sys2Proof.Machine
end

