-- ==== Sys2Proof/Laws/Memory.lean ====
section
/-! SUPPORT. Memory: a read after a write, that a write leaves every other place alone, that every operation keeps the
canonical form, and that equal contents are equal data. -/

namespace Sys2Proof.Machine

namespace Memory

/-- A byte just written reads back; every other byte is as before. -/
theorem byte_setByte (m : Memory) (a b : Nat) (v : Byte) (h : m.Pairwise fun c d => c.1 < d.1) :
    (m.setByte a v).byte b = if b = a then v else m.byte b := by
  induction m with
  | nil =>
    by_cases hv : v = 0#8 <;> by_cases hb : b = a <;> simp [setByte, byte, hv, hb]
  | cons c r ih =>
    obtain ⟨k, w⟩ := c
    have hk : ∀ d ∈ r, k < d.1 := (List.pairwise_cons.1 h).1
    have hr := (List.pairwise_cons.1 h).2
    have hnone : ∀ x, x ≤ k → Memory.byte r x = 0 := by
      intro x hx
      clear ih h hr
      induction r with
      | nil => rfl
      | cons d t iht =>
        have hd : k < d.1 := hk d (by simp)
        have : x ≠ d.1 := by omega
        simp only [byte, this, if_false]
        exact iht fun e he => hk e (by simp [he])
    unfold setByte
    split
    · rename_i hlt
      by_cases hb : b = a
      · subst hb
        have hne : b ≠ k := by omega
        by_cases hv : v = 0#8 <;> simp [hv, byte, hne, hnone b (by omega)]
      · by_cases hv : v = 0#8 <;> simp [hv, byte, hb]
    · split
      · rename_i _ hak
        subst hak
        by_cases hb : b = a
        · subst hb
          by_cases hv : v = 0#8 <;> simp [hv, byte, hnone b (by omega)]
        · by_cases hv : v = 0#8 <;> simp [hv, byte, hb]
      · rename_i hlt hne
        have := ih hr
        simp only [byte]
        by_cases hb : b = k
        · have : b ≠ a := by omega
          simp [hb, show ¬ k = a by omega]
        · simp [hb, this]

/-- Where a stored byte may stand: at the written offset or where one stood. -/
theorem mem_setByte (m : Memory) (a : Nat) (v : Byte) (c : Host.Cell) (h : c ∈ m.setByte a v) : c = (a, v) ∧ v ≠ 0#8 ∨ c ∈ m := by
  induction m with
  | nil => by_cases hv : v = 0#8 <;> simp_all [setByte]
  | cons d r ih =>
    obtain ⟨k, w⟩ := d
    unfold setByte at h
    split at h
    · by_cases hv : v = 0#8
      · simp [hv] at h; simp [h]
      · simp [hv] at h; rcases h with h | h | h <;> simp [h, hv]
    · split at h
      · by_cases hv : v = 0#8
        · simp [hv] at h; simp [h]
        · simp [hv] at h; rcases h with h | h <;> simp [h, hv]
      · simp only [List.mem_cons] at h
        rcases h with h | h
        · simp [h]
        · rcases ih h with h | h <;> simp [h]

/-- Storing a byte of the memory keeps the canonical form. -/
theorem wf_setByte (m : Memory) (a : Nat) (v : Byte) (ha : a < 4 * Config.mbWords) (h : Memory.wf m) :
    Memory.wf (m.setByte a v) := by
  refine ⟨?_, fun c hc => ?_⟩
  · obtain ⟨hp, -⟩ := h
    induction m with
    | nil => by_cases hv : v = 0#8 <;> simp [setByte, hv]
    | cons d r ih =>
      obtain ⟨k, w⟩ := d
      have hk := (List.pairwise_cons.1 hp).1
      have hr := (List.pairwise_cons.1 hp).2
      unfold setByte
      split
      · rename_i hlt
        by_cases hv : v = 0#8
        · simpa [hv] using hp
        · simp only [hv, if_false]
          refine List.pairwise_cons.2 ⟨fun e he => ?_, hp⟩
          rcases List.mem_cons.1 he with he | he
          · rw [he]; exact hlt
          · exact Nat.lt_trans hlt (hk e he)
      · split
        · rename_i _ hak
          by_cases hv : v = 0#8
          · simpa [hv] using hr
          · simp only [hv, if_false]
            exact List.pairwise_cons.2 ⟨fun e he => by have := hk e he; simp only at this ⊢; omega, hr⟩
        · refine List.pairwise_cons.2 ⟨fun e he => ?_, ih hr⟩
          rcases mem_setByte r a v e he with ⟨he, -⟩ | he
          · rw [he]; simp only; omega
          · exact hk e he
  · rcases mem_setByte m a v c hc with ⟨rfl, hv⟩ | hc
    · exact ⟨hv, ha⟩
    · exact h.2 c hc

/-- Storing a word keeps the canonical form. -/
theorem wf_setWord (m : Memory) (w : Nat) (v : Word) (h : Memory.wf m) : Memory.wf (m.setWord w v) := by
  unfold setWord
  split
  · rename_i hw
    have hw : w < 128 := hw
    refine wf_setByte _ _ _ ?_ (wf_setByte _ _ _ ?_ (wf_setByte _ _ _ ?_ (wf_setByte _ _ _ ?_ h))) <;>
      simp only [Config.mbWords] <;> omega
  · exact h

/-- The bytes after a word was stored. -/
theorem byte_setWord (m : Memory) (w a : Nat) (v : Word) (hw : w < Config.mbWords) (h : Memory.wf m) :
    (m.setWord w v).byte a = if a / 4 = w then wordByte v (a % 4) else m.byte a := by
  have hw' : w < 128 := hw
  have h0 := wf_setByte m (4 * w) (wordByte v 0) (by simp only [Config.mbWords]; omega) h
  have h1 := wf_setByte _ (4 * w + 1) (wordByte v 1) (by simp only [Config.mbWords]; omega) h0
  have h2 := wf_setByte _ (4 * w + 2) (wordByte v 2) (by simp only [Config.mbWords]; omega) h1
  unfold setWord
  rw [if_pos hw, byte_setByte _ _ _ _ h2.1, byte_setByte _ _ _ _ h1.1, byte_setByte _ _ _ _ h0.1, byte_setByte _ _ _ _ h.1]
  by_cases ha : a / 4 = w
  · have : a % 4 = 0 ∨ a % 4 = 1 ∨ a % 4 = 2 ∨ a % 4 = 3 := by omega
    rw [if_pos ha]
    rcases this with hm | hm | hm | hm
    · simp [show a = 4 * w by omega]
    · simp [show a = 4 * w + 1 by omega]
    · simp [show a = 4 * w + 2 by omega]
    · simp [show a = 4 * w + 3 by omega]
  · simp [ha, show ¬ a = 4 * w by omega, show ¬ a = 4 * w + 1 by omega, show ¬ a = 4 * w + 2 by omega,
      show ¬ a = 4 * w + 3 by omega]

/-- A word just written reads back; every other word is as before. -/
theorem word_setWord (m : Memory) (w u : Nat) (v : Word) (hw : w < Config.mbWords) (h : Memory.wf m) :
    (m.setWord w v).word u = if u = w then v else m.word u := by
  have e (k : Nat) (hk : k < 4) : (4 * u + k) / 4 = u ∧ (4 * u + k) % 4 = k := by omega
  have e0 := e 0 (by omega)
  rw [Nat.add_zero] at e0
  unfold word
  rw [byte_setWord _ _ _ _ hw h, byte_setWord _ _ _ _ hw h, byte_setWord _ _ _ _ hw h, byte_setWord _ _ _ _ hw h]
  rw [e0.1, e0.2, (e 1 (by omega)).1, (e 1 (by omega)).2, (e 2 (by omega)).1, (e 2 (by omega)).2, (e 3 (by omega)).1,
    (e 3 (by omega)).2]
  by_cases hu : u = w
  · simp only [hu, if_true]; exact wordByte_join v
  · simp only [hu, if_false]

/-- There is no word above 127 to store. -/
theorem setWord_above (m : Memory) (w : Nat) (v : Word) (hw : Config.mbWords ≤ w) : m.setWord w v = m := by
  unfold setWord
  rw [if_neg (by omega)]

end Memory

end Sys2Proof.Machine
end

