-- ==== Sys2Proof/Laws/State.lean ====
section
/-! SUPPORT. One lemma per field per update: what each named update of a controller and of the system leaves and gives, so
that no later proof unfolds a record update. -/

namespace Sys2Proof.Machine

/-! ### Updates of a controller -/

@[simp] theorem Instance.setWord_fields (x : Instance) (w : Nat) (v : Word) : (x.setWord w v).fields = x.fields := rfl
@[simp] theorem Instance.setWord_mem (x : Instance) (w : Nat) (v : Word) :
    (x.setWord w v).mem = x.mem.setWord w v := rfl
@[simp] theorem Instance.setWord_hidden (x : Instance) (w : Nat) (v : Word) : (x.setWord w v).hidden = x.hidden := rfl
@[simp] theorem Instance.setWord_driver (x : Instance) (w : Nat) (v : Word) : (x.setWord w v).driver = x.driver := rfl
@[simp] theorem Instance.setWord_busOut (x : Instance) (w : Nat) (v : Word) : (x.setWord w v).busOut = x.busOut := rfl
@[simp] theorem Instance.setWord_lineEnabled (x : Instance) (w : Nat) (v : Word) :
    (x.setWord w v).lineEnabled = x.lineEnabled := rfl
@[simp] theorem Instance.setWord_params (x : Instance) (w : Nat) (v : Word) :
    (x.setWord w v).params = x.params := rfl

@[simp] theorem Instance.setFields_fields (x : Instance) (f : Fields) : (x.setFields f).fields = f := rfl
@[simp] theorem Instance.setFields_mem (x : Instance) (f : Fields) : (x.setFields f).mem = x.mem := rfl
@[simp] theorem Instance.setFields_hidden (x : Instance) (f : Fields) : (x.setFields f).hidden = x.hidden := rfl
@[simp] theorem Instance.setFields_driver (x : Instance) (f : Fields) : (x.setFields f).driver = x.driver := rfl
@[simp] theorem Instance.setFields_busOut (x : Instance) (f : Fields) : (x.setFields f).busOut = x.busOut := rfl
@[simp] theorem Instance.setFields_lineEnabled (x : Instance) (f : Fields) :
    (x.setFields f).lineEnabled = x.lineEnabled := rfl
@[simp] theorem Instance.setFields_params (x : Instance) (f : Fields) :
    (x.setFields f).params = x.params := rfl

@[simp] theorem Instance.setHidden_fields (x : Instance) (h : Hidden) : (x.setHidden h).fields = x.fields := rfl
@[simp] theorem Instance.setHidden_mem (x : Instance) (h : Hidden) : (x.setHidden h).mem = x.mem := rfl
@[simp] theorem Instance.setHidden_hidden (x : Instance) (h : Hidden) : (x.setHidden h).hidden = h := rfl
@[simp] theorem Instance.setHidden_driver (x : Instance) (h : Hidden) : (x.setHidden h).driver = x.driver := rfl
@[simp] theorem Instance.setHidden_busOut (x : Instance) (h : Hidden) : (x.setHidden h).busOut = x.busOut := rfl
@[simp] theorem Instance.setHidden_lineEnabled (x : Instance) (h : Hidden) :
    (x.setHidden h).lineEnabled = x.lineEnabled := rfl
@[simp] theorem Instance.setHidden_params (x : Instance) (h : Hidden) :
    (x.setHidden h).params = x.params := rfl

@[simp] theorem Instance.setSlot_fields (x : Instance) (i : Nat) (v : SlotHidden) :
    (x.setSlot i v).fields = x.fields := rfl
@[simp] theorem Instance.setSlot_mem (x : Instance) (i : Nat) (v : SlotHidden) : (x.setSlot i v).mem = x.mem := rfl
@[simp] theorem Instance.setSlot_hidden (x : Instance) (i : Nat) (v : SlotHidden) :
    (x.setSlot i v).hidden = x.hidden.setSlot i v := rfl
@[simp] theorem Instance.setSlot_driver (x : Instance) (i : Nat) (v : SlotHidden) :
    (x.setSlot i v).driver = x.driver := rfl
@[simp] theorem Instance.setSlot_busOut (x : Instance) (i : Nat) (v : SlotHidden) :
    (x.setSlot i v).busOut = x.busOut := rfl
@[simp] theorem Instance.setSlot_lineEnabled (x : Instance) (i : Nat) (v : SlotHidden) :
    (x.setSlot i v).lineEnabled = x.lineEnabled := rfl
@[simp] theorem Instance.setSlot_params (x : Instance) (i : Nat) (v : SlotHidden) :
    (x.setSlot i v).params = x.params := rfl

@[simp] theorem Instance.setAbortPending_fields (x : Instance) (i : Nat) (b : Bool) :
    (x.setAbortPending i b).fields = x.fields := rfl
@[simp] theorem Instance.setAbortPending_mem (x : Instance) (i : Nat) (b : Bool) :
    (x.setAbortPending i b).mem = x.mem := rfl
@[simp] theorem Instance.setAbortPending_hidden (x : Instance) (i : Nat) (b : Bool) :
    (x.setAbortPending i b).hidden = x.hidden.setSlot i { x.hidden.slot i with abortPending := b } := rfl
@[simp] theorem Instance.setAbortPending_driver (x : Instance) (i : Nat) (b : Bool) :
    (x.setAbortPending i b).driver = x.driver := rfl
@[simp] theorem Instance.setAbortPending_busOut (x : Instance) (i : Nat) (b : Bool) :
    (x.setAbortPending i b).busOut = x.busOut := rfl
@[simp] theorem Instance.setAbortPending_lineEnabled (x : Instance) (i : Nat) (b : Bool) :
    (x.setAbortPending i b).lineEnabled = x.lineEnabled := rfl
@[simp] theorem Instance.setAbortPending_params (x : Instance) (i : Nat) (b : Bool) :
    (x.setAbortPending i b).params = x.params := rfl

@[simp] theorem Instance.beginRx_fields (x : Instance) (i : Nat) (f : Frame) :
    (x.beginRx i f).fields = x.fields := rfl
@[simp] theorem Instance.beginRx_mem (x : Instance) (i : Nat) (f : Frame) : (x.beginRx i f).mem = x.mem := rfl
@[simp] theorem Instance.beginRx_hidden (x : Instance) (i : Nat) (f : Frame) :
    (x.beginRx i f).hidden = x.hidden.setSlot i { x.hidden.slot i with busy := true, rxInflight := some f } := rfl
@[simp] theorem Instance.beginRx_driver (x : Instance) (i : Nat) (f : Frame) :
    (x.beginRx i f).driver = x.driver := rfl
@[simp] theorem Instance.beginRx_busOut (x : Instance) (i : Nat) (f : Frame) :
    (x.beginRx i f).busOut = x.busOut := rfl
@[simp] theorem Instance.beginRx_lineEnabled (x : Instance) (i : Nat) (f : Frame) :
    (x.beginRx i f).lineEnabled = x.lineEnabled := rfl
@[simp] theorem Instance.beginRx_params (x : Instance) (i : Nat) (f : Frame) :
    (x.beginRx i f).params = x.params := rfl

@[simp] theorem Instance.endRx_fields (x : Instance) (i : Nat) : (x.endRx i).fields = x.fields := rfl
@[simp] theorem Instance.endRx_mem (x : Instance) (i : Nat) : (x.endRx i).mem = x.mem := rfl
@[simp] theorem Instance.endRx_hidden (x : Instance) (i : Nat) :
    (x.endRx i).hidden = x.hidden.setSlot i { x.hidden.slot i with busy := false, rxInflight := none } := rfl
@[simp] theorem Instance.endRx_driver (x : Instance) (i : Nat) : (x.endRx i).driver = x.driver := rfl
@[simp] theorem Instance.endRx_busOut (x : Instance) (i : Nat) : (x.endRx i).busOut = x.busOut := rfl
@[simp] theorem Instance.endRx_lineEnabled (x : Instance) (i : Nat) : (x.endRx i).lineEnabled = x.lineEnabled := rfl
@[simp] theorem Instance.endRx_params (x : Instance) (i : Nat) : (x.endRx i).params = x.params := rfl

@[simp] theorem Instance.setLocked_fields (x : Instance) (l : Option Nat) : (x.setLocked l).fields = x.fields := rfl
@[simp] theorem Instance.setLocked_mem (x : Instance) (l : Option Nat) : (x.setLocked l).mem = x.mem := rfl
@[simp] theorem Instance.setLocked_hidden (x : Instance) (l : Option Nat) :
    (x.setLocked l).hidden = { x.hidden with locked := l } := rfl
@[simp] theorem Instance.setLocked_driver (x : Instance) (l : Option Nat) : (x.setLocked l).driver = x.driver := rfl
@[simp] theorem Instance.setLocked_busOut (x : Instance) (l : Option Nat) : (x.setLocked l).busOut = x.busOut := rfl
@[simp] theorem Instance.setLocked_lineEnabled (x : Instance) (l : Option Nat) :
    (x.setLocked l).lineEnabled = x.lineEnabled := rfl
@[simp] theorem Instance.setLocked_params (x : Instance) (l : Option Nat) :
    (x.setLocked l).params = x.params := rfl

@[simp] theorem Instance.setPendingRx_fields (x : Instance) (f : Option Frame) :
    (x.setPendingRx f).fields = x.fields := rfl
@[simp] theorem Instance.setPendingRx_mem (x : Instance) (f : Option Frame) : (x.setPendingRx f).mem = x.mem := rfl
@[simp] theorem Instance.setPendingRx_hidden (x : Instance) (f : Option Frame) :
    (x.setPendingRx f).hidden = { x.hidden with pendingRx := f } := rfl
@[simp] theorem Instance.setPendingRx_driver (x : Instance) (f : Option Frame) :
    (x.setPendingRx f).driver = x.driver := rfl
@[simp] theorem Instance.setPendingRx_busOut (x : Instance) (f : Option Frame) :
    (x.setPendingRx f).busOut = x.busOut := rfl
@[simp] theorem Instance.setPendingRx_lineEnabled (x : Instance) (f : Option Frame) :
    (x.setPendingRx f).lineEnabled = x.lineEnabled := rfl
@[simp] theorem Instance.setPendingRx_params (x : Instance) (f : Option Frame) :
    (x.setPendingRx f).params = x.params := rfl

@[simp] theorem Instance.pushBus_fields (x : Instance) (f : BusFrame) : (x.pushBus f).fields = x.fields := rfl
@[simp] theorem Instance.pushBus_mem (x : Instance) (f : BusFrame) : (x.pushBus f).mem = x.mem := rfl
@[simp] theorem Instance.pushBus_hidden (x : Instance) (f : BusFrame) : (x.pushBus f).hidden = x.hidden := rfl
@[simp] theorem Instance.pushBus_driver (x : Instance) (f : BusFrame) : (x.pushBus f).driver = x.driver := rfl
@[simp] theorem Instance.pushBus_busOut (x : Instance) (f : BusFrame) : (x.pushBus f).busOut = x.busOut ++ [f] := rfl
@[simp] theorem Instance.pushBus_lineEnabled (x : Instance) (f : BusFrame) :
    (x.pushBus f).lineEnabled = x.lineEnabled := rfl
@[simp] theorem Instance.pushBus_params (x : Instance) (f : BusFrame) :
    (x.pushBus f).params = x.params := rfl

@[simp] theorem Instance.setFlag_fields (x : Instance) (i : Nat) :
    (x.setFlag i).fields = { x.fields with iflag := x.fields.iflag ||| slotBit i } := rfl
@[simp] theorem Instance.setFlag_mem (x : Instance) (i : Nat) : (x.setFlag i).mem = x.mem := rfl
@[simp] theorem Instance.setFlag_hidden (x : Instance) (i : Nat) : (x.setFlag i).hidden = x.hidden := rfl
@[simp] theorem Instance.setFlag_driver (x : Instance) (i : Nat) : (x.setFlag i).driver = x.driver := rfl
@[simp] theorem Instance.setFlag_busOut (x : Instance) (i : Nat) : (x.setFlag i).busOut = x.busOut := rfl
@[simp] theorem Instance.setFlag_lineEnabled (x : Instance) (i : Nat) :
    (x.setFlag i).lineEnabled = x.lineEnabled := rfl
@[simp] theorem Instance.setFlag_params (x : Instance) (i : Nat) :
    (x.setFlag i).params = x.params := rfl

@[simp] theorem Instance.clearFlags_fields (x : Instance) (v : Word) :
    (x.clearFlags v).fields = { x.fields with iflag := x.fields.iflag &&& ~~~v } := rfl
@[simp] theorem Instance.clearFlags_mem (x : Instance) (v : Word) : (x.clearFlags v).mem = x.mem := rfl
@[simp] theorem Instance.clearFlags_hidden (x : Instance) (v : Word) : (x.clearFlags v).hidden = x.hidden := rfl
@[simp] theorem Instance.clearFlags_driver (x : Instance) (v : Word) : (x.clearFlags v).driver = x.driver := rfl
@[simp] theorem Instance.clearFlags_busOut (x : Instance) (v : Word) : (x.clearFlags v).busOut = x.busOut := rfl
@[simp] theorem Instance.clearFlags_lineEnabled (x : Instance) (v : Word) :
    (x.clearFlags v).lineEnabled = x.lineEnabled := rfl
@[simp] theorem Instance.clearFlags_params (x : Instance) (v : Word) :
    (x.clearFlags v).params = x.params := rfl

/-! ### Lock and held frame of the hidden state -/

@[simp] theorem Hidden.setSlot_locked (h : Hidden) (i : Nat) (v : SlotHidden) : (h.setSlot i v).locked = h.locked := rfl
@[simp] theorem Hidden.setSlot_pendingRx (h : Hidden) (i : Nat) (v : SlotHidden) :
    (h.setSlot i v).pendingRx = h.pendingRx := rfl

/-- The hidden state of a slot index after one of them was replaced. -/
theorem Hidden.slot_setSlot (h : Hidden) (i j : Nat) (v : SlotHidden) (hi : i < 32) :
    (h.setSlot i v).slot j = if j = i then v else h.slot j := by
  unfold Hidden.slot Hidden.setSlot
  simp only [List.getD_eq_getElem?_getD, Vector.toList_setIfInBounds, List.getElem?_set, Vector.length_toList]
  by_cases hj : j = i
  · simp [hj, hi]
  · simp [hj, show ¬ i = j by omega]

/-- After reset every slot index is idle. -/
@[simp] theorem Hidden.slot_idle (i : Nat) : Hidden.idle.slot i = {} := by
  unfold Hidden.slot Hidden.idle
  by_cases hi : i < 32
  · interval_cases i <;> rfl
  · simp [List.getD_eq_getElem?_getD, hi]

@[simp] theorem Hidden.idle_locked : Hidden.idle.locked = none := rfl
@[simp] theorem Hidden.idle_pendingRx : Hidden.idle.pendingRx = none := rfl

/-! ### What a word read, the slot view and the state of a slot depend on -/

@[simp] theorem Instance.setWord_ws (x : Instance) (w : Nat) (v : Word) : (x.setWord w v).ws = x.ws := rfl
@[simp] theorem Instance.setWord_hwSlots (x : Instance) (w : Nat) (v : Word) :
    (x.setWord w v).hwSlots = x.hwSlots := rfl
@[simp] theorem Instance.setWord_busy (x : Instance) (w : Nat) (v : Word) (k : Nat) :
    (x.setWord w v).busy k = x.busy k := rfl
@[simp] theorem Instance.setWord_abortPending (x : Instance) (w : Nat) (v : Word) (k : Nat) :
    (x.setWord w v).abortPending k = x.abortPending k := rfl
@[simp] theorem Instance.setFields_word (x : Instance) (f : Fields) (u : Nat) :
    (x.setFields f).word u = x.word u := rfl
@[simp] theorem Instance.setHidden_word (x : Instance) (h : Hidden) (u : Nat) :
    (x.setHidden h).word u = x.word u := rfl
@[simp] theorem Instance.setHidden_ws (x : Instance) (h : Hidden) : (x.setHidden h).ws = x.ws := rfl
@[simp] theorem Instance.setHidden_hwSlots (x : Instance) (h : Hidden) : (x.setHidden h).hwSlots = x.hwSlots := rfl
@[simp] theorem Instance.setHidden_ctrl (x : Instance) (h : Hidden) (k : Nat) :
    (x.setHidden h).ctrl k = x.ctrl k := rfl
@[simp] theorem Instance.setHidden_code (x : Instance) (h : Hidden) (k : Nat) :
    (x.setHidden h).code k = x.code k := rfl
@[simp] theorem Instance.setSlot_word (x : Instance) (i : Nat) (v : SlotHidden) (u : Nat) :
    (x.setSlot i v).word u = x.word u := rfl
@[simp] theorem Instance.setSlot_ws (x : Instance) (i : Nat) (v : SlotHidden) : (x.setSlot i v).ws = x.ws := rfl
@[simp] theorem Instance.setSlot_hwSlots (x : Instance) (i : Nat) (v : SlotHidden) :
    (x.setSlot i v).hwSlots = x.hwSlots := rfl
@[simp] theorem Instance.setSlot_ctrl (x : Instance) (i : Nat) (v : SlotHidden) (k : Nat) :
    (x.setSlot i v).ctrl k = x.ctrl k := rfl
@[simp] theorem Instance.setSlot_code (x : Instance) (i : Nat) (v : SlotHidden) (k : Nat) :
    (x.setSlot i v).code k = x.code k := rfl
@[simp] theorem Instance.setAbortPending_word (x : Instance) (i : Nat) (b : Bool) (u : Nat) :
    (x.setAbortPending i b).word u = x.word u := rfl
@[simp] theorem Instance.setAbortPending_ws (x : Instance) (i : Nat) (b : Bool) :
    (x.setAbortPending i b).ws = x.ws := rfl
@[simp] theorem Instance.setAbortPending_hwSlots (x : Instance) (i : Nat) (b : Bool) :
    (x.setAbortPending i b).hwSlots = x.hwSlots := rfl
@[simp] theorem Instance.setAbortPending_ctrl (x : Instance) (i : Nat) (b : Bool) (k : Nat) :
    (x.setAbortPending i b).ctrl k = x.ctrl k := rfl
@[simp] theorem Instance.setAbortPending_code (x : Instance) (i : Nat) (b : Bool) (k : Nat) :
    (x.setAbortPending i b).code k = x.code k := rfl
@[simp] theorem Instance.beginRx_word (x : Instance) (i : Nat) (f : Frame) (u : Nat) :
    (x.beginRx i f).word u = x.word u := rfl
@[simp] theorem Instance.beginRx_ws (x : Instance) (i : Nat) (f : Frame) : (x.beginRx i f).ws = x.ws := rfl
@[simp] theorem Instance.beginRx_hwSlots (x : Instance) (i : Nat) (f : Frame) :
    (x.beginRx i f).hwSlots = x.hwSlots := rfl
@[simp] theorem Instance.beginRx_ctrl (x : Instance) (i : Nat) (f : Frame) (k : Nat) :
    (x.beginRx i f).ctrl k = x.ctrl k := rfl
@[simp] theorem Instance.beginRx_code (x : Instance) (i : Nat) (f : Frame) (k : Nat) :
    (x.beginRx i f).code k = x.code k := rfl
@[simp] theorem Instance.endRx_word (x : Instance) (i : Nat) (u : Nat) : (x.endRx i).word u = x.word u := rfl
@[simp] theorem Instance.endRx_ws (x : Instance) (i : Nat) : (x.endRx i).ws = x.ws := rfl
@[simp] theorem Instance.endRx_hwSlots (x : Instance) (i : Nat) : (x.endRx i).hwSlots = x.hwSlots := rfl
@[simp] theorem Instance.endRx_ctrl (x : Instance) (i : Nat) (k : Nat) : (x.endRx i).ctrl k = x.ctrl k := rfl
@[simp] theorem Instance.endRx_code (x : Instance) (i : Nat) (k : Nat) : (x.endRx i).code k = x.code k := rfl
@[simp] theorem Instance.setLocked_word (x : Instance) (l : Option Nat) (u : Nat) :
    (x.setLocked l).word u = x.word u := rfl
@[simp] theorem Instance.setLocked_ws (x : Instance) (l : Option Nat) : (x.setLocked l).ws = x.ws := rfl
@[simp] theorem Instance.setLocked_hwSlots (x : Instance) (l : Option Nat) :
    (x.setLocked l).hwSlots = x.hwSlots := rfl
@[simp] theorem Instance.setLocked_ctrl (x : Instance) (l : Option Nat) (k : Nat) :
    (x.setLocked l).ctrl k = x.ctrl k := rfl
@[simp] theorem Instance.setLocked_code (x : Instance) (l : Option Nat) (k : Nat) :
    (x.setLocked l).code k = x.code k := rfl
@[simp] theorem Instance.setPendingRx_word (x : Instance) (f : Option Frame) (u : Nat) :
    (x.setPendingRx f).word u = x.word u := rfl
@[simp] theorem Instance.setPendingRx_ws (x : Instance) (f : Option Frame) : (x.setPendingRx f).ws = x.ws := rfl
@[simp] theorem Instance.setPendingRx_hwSlots (x : Instance) (f : Option Frame) :
    (x.setPendingRx f).hwSlots = x.hwSlots := rfl
@[simp] theorem Instance.setPendingRx_ctrl (x : Instance) (f : Option Frame) (k : Nat) :
    (x.setPendingRx f).ctrl k = x.ctrl k := rfl
@[simp] theorem Instance.setPendingRx_code (x : Instance) (f : Option Frame) (k : Nat) :
    (x.setPendingRx f).code k = x.code k := rfl
@[simp] theorem Instance.pushBus_word (x : Instance) (f : BusFrame) (u : Nat) : (x.pushBus f).word u = x.word u := rfl
@[simp] theorem Instance.pushBus_ws (x : Instance) (f : BusFrame) : (x.pushBus f).ws = x.ws := rfl
@[simp] theorem Instance.pushBus_hwSlots (x : Instance) (f : BusFrame) : (x.pushBus f).hwSlots = x.hwSlots := rfl
@[simp] theorem Instance.pushBus_ctrl (x : Instance) (f : BusFrame) (k : Nat) : (x.pushBus f).ctrl k = x.ctrl k := rfl
@[simp] theorem Instance.pushBus_code (x : Instance) (f : BusFrame) (k : Nat) : (x.pushBus f).code k = x.code k := rfl
@[simp] theorem Instance.setFlag_word (x : Instance) (i : Nat) (u : Nat) : (x.setFlag i).word u = x.word u := rfl
@[simp] theorem Instance.setFlag_ws (x : Instance) (i : Nat) : (x.setFlag i).ws = x.ws := rfl
@[simp] theorem Instance.setFlag_hwSlots (x : Instance) (i : Nat) : (x.setFlag i).hwSlots = x.hwSlots := rfl
@[simp] theorem Instance.setFlag_ctrl (x : Instance) (i : Nat) (k : Nat) : (x.setFlag i).ctrl k = x.ctrl k := rfl
@[simp] theorem Instance.setFlag_code (x : Instance) (i : Nat) (k : Nat) : (x.setFlag i).code k = x.code k := rfl
@[simp] theorem Instance.clearFlags_word (x : Instance) (v : Word) (u : Nat) :
    (x.clearFlags v).word u = x.word u := rfl
@[simp] theorem Instance.clearFlags_ws (x : Instance) (v : Word) : (x.clearFlags v).ws = x.ws := rfl
@[simp] theorem Instance.clearFlags_hwSlots (x : Instance) (v : Word) : (x.clearFlags v).hwSlots = x.hwSlots := rfl
@[simp] theorem Instance.clearFlags_ctrl (x : Instance) (v : Word) (k : Nat) :
    (x.clearFlags v).ctrl k = x.ctrl k := rfl
@[simp] theorem Instance.clearFlags_code (x : Instance) (v : Word) (k : Nat) :
    (x.clearFlags v).code k = x.code k := rfl

/-! ### Updates of the system -/

@[simp] theorem State.setInst_insts (s : State) (n : Nat) (x : Instance) :
    (s.setInst n x).insts = s.insts.set n x := rfl
@[simp] theorem State.setInst_mainline (s : State) (n : Nat) (x : Instance) :
    (s.setInst n x).mainline = s.mainline := rfl
@[simp] theorem State.setInst_handlers (s : State) (n : Nat) (x : Instance) :
    (s.setInst n x).handlers = s.handlers := rfl
@[simp] theorem State.setInst_fault (s : State) (n : Nat) (x : Instance) : (s.setInst n x).fault = s.fault := rfl
@[simp] theorem State.setInst_params (s : State) (n : Nat) (x : Instance) : (s.setInst n x).params = s.params := rfl
@[simp] theorem State.setInst_program (s : State) (n : Nat) (x : Instance) :
    (s.setInst n x).program = s.program := rfl
@[simp] theorem State.setInst_handlerCode (s : State) (n : Nat) (x : Instance) :
    (s.setInst n x).handlerCode = s.handlerCode := rfl
@[simp] theorem State.setInst_lastReturn (s : State) (n : Nat) (x : Instance) :
    (s.setInst n x).lastReturn = s.lastReturn := rfl
@[simp] theorem State.setInst_schedule (s : State) (n : Nat) (x : Instance) :
    (s.setInst n x).schedule = s.schedule := rfl
@[simp] theorem State.setInst_draws (s : State) (n : Nat) (x : Instance) : (s.setInst n x).draws = s.draws := rfl

@[simp] theorem State.commit_insts (s : State) (n : Nat) (x : Instance) (used : Nat) :
    (s.commit n x used).insts = s.insts.set n x := rfl
@[simp] theorem State.commit_mainline (s : State) (n : Nat) (x : Instance) (used : Nat) :
    (s.commit n x used).mainline = s.mainline := rfl
@[simp] theorem State.commit_handlers (s : State) (n : Nat) (x : Instance) (used : Nat) :
    (s.commit n x used).handlers = s.handlers := rfl
@[simp] theorem State.commit_fault (s : State) (n : Nat) (x : Instance) (used : Nat) :
    (s.commit n x used).fault = s.fault := rfl
@[simp] theorem State.commit_params (s : State) (n : Nat) (x : Instance) (used : Nat) :
    (s.commit n x used).params = s.params := rfl
@[simp] theorem State.commit_program (s : State) (n : Nat) (x : Instance) (used : Nat) :
    (s.commit n x used).program = s.program := rfl
@[simp] theorem State.commit_handlerCode (s : State) (n : Nat) (x : Instance) (used : Nat) :
    (s.commit n x used).handlerCode = s.handlerCode := rfl
@[simp] theorem State.commit_lastReturn (s : State) (n : Nat) (x : Instance) (used : Nat) :
    (s.commit n x used).lastReturn = s.lastReturn := rfl
@[simp] theorem State.commit_schedule (s : State) (n : Nat) (x : Instance) (used : Nat) :
    (s.commit n x used).schedule = s.schedule := rfl
@[simp] theorem State.commit_draws (s : State) (n : Nat) (x : Instance) (used : Nat) :
    (s.commit n x used).draws = s.draws + used := rfl

@[simp] theorem State.raise_insts (s : State) (r : Fault) (op : FaultOp) (slot word : Option Nat) :
    (s.raise r op slot word).insts = s.insts := rfl
@[simp] theorem State.raise_mainline (s : State) (r : Fault) (op : FaultOp) (slot word : Option Nat) :
    (s.raise r op slot word).mainline = s.mainline := rfl
@[simp] theorem State.raise_handlers (s : State) (r : Fault) (op : FaultOp) (slot word : Option Nat) :
    (s.raise r op slot word).handlers = s.handlers := rfl
@[simp] theorem State.raise_fault (s : State) (r : Fault) (op : FaultOp) (slot word : Option Nat) :
    (s.raise r op slot word).fault = some ⟨r, op, slot, word⟩ := rfl
@[simp] theorem State.raise_params (s : State) (r : Fault) (op : FaultOp) (slot word : Option Nat) :
    (s.raise r op slot word).params = s.params := rfl
@[simp] theorem State.raise_program (s : State) (r : Fault) (op : FaultOp) (slot word : Option Nat) :
    (s.raise r op slot word).program = s.program := rfl
@[simp] theorem State.raise_handlerCode (s : State) (r : Fault) (op : FaultOp) (slot word : Option Nat) :
    (s.raise r op slot word).handlerCode = s.handlerCode := rfl
@[simp] theorem State.raise_lastReturn (s : State) (r : Fault) (op : FaultOp) (slot word : Option Nat) :
    (s.raise r op slot word).lastReturn = s.lastReturn := rfl
@[simp] theorem State.raise_schedule (s : State) (r : Fault) (op : FaultOp) (slot word : Option Nat) :
    (s.raise r op slot word).schedule = s.schedule := rfl
@[simp] theorem State.raise_draws (s : State) (r : Fault) (op : FaultOp) (slot word : Option Nat) :
    (s.raise r op slot word).draws = s.draws := rfl

@[simp] theorem State.enterHandler_insts (s : State) (n : Nat) : (s.enterHandler n).insts = s.insts := rfl
@[simp] theorem State.enterHandler_mainline (s : State) (n : Nat) : (s.enterHandler n).mainline = s.mainline := rfl
@[simp] theorem State.enterHandler_handlers (s : State) (n : Nat) :
    (s.enterHandler n).handlers = ⟨n, [⟨.dispatch (BitVec.ofNat 8 n), {}⟩]⟩ :: s.handlers := rfl
@[simp] theorem State.enterHandler_fault (s : State) (n : Nat) : (s.enterHandler n).fault = s.fault := rfl
@[simp] theorem State.enterHandler_params (s : State) (n : Nat) : (s.enterHandler n).params = s.params := rfl
@[simp] theorem State.enterHandler_program (s : State) (n : Nat) : (s.enterHandler n).program = s.program := rfl
@[simp] theorem State.enterHandler_handlerCode (s : State) (n : Nat) :
    (s.enterHandler n).handlerCode = s.handlerCode := rfl
@[simp] theorem State.enterHandler_lastReturn (s : State) (n : Nat) :
    (s.enterHandler n).lastReturn = s.lastReturn := rfl
@[simp] theorem State.enterHandler_schedule (s : State) (n : Nat) : (s.enterHandler n).schedule = s.schedule := rfl
@[simp] theorem State.enterHandler_draws (s : State) (n : Nat) : (s.enterHandler n).draws = s.draws := rfl

@[simp] theorem State.leaveHandler_insts (s : State) : (s.leaveHandler).insts = s.insts := rfl
@[simp] theorem State.leaveHandler_mainline (s : State) : (s.leaveHandler).mainline = s.mainline := rfl
@[simp] theorem State.leaveHandler_handlers (s : State) : (s.leaveHandler).handlers = s.handlers.tail := rfl
@[simp] theorem State.leaveHandler_fault (s : State) : (s.leaveHandler).fault = s.fault := rfl
@[simp] theorem State.leaveHandler_params (s : State) : (s.leaveHandler).params = s.params := rfl
@[simp] theorem State.leaveHandler_program (s : State) : (s.leaveHandler).program = s.program := rfl
@[simp] theorem State.leaveHandler_handlerCode (s : State) : (s.leaveHandler).handlerCode = s.handlerCode := rfl
@[simp] theorem State.leaveHandler_lastReturn (s : State) : (s.leaveHandler).lastReturn = s.lastReturn := rfl
@[simp] theorem State.leaveHandler_schedule (s : State) : (s.leaveHandler).schedule = s.schedule := rfl
@[simp] theorem State.leaveHandler_draws (s : State) : (s.leaveHandler).draws = s.draws := rfl

@[simp] theorem State.setActs_insts (s : State) (a : List Activation) :
    (s.setActs a).insts = s.insts := by unfold State.setActs; split <;> rfl
@[simp] theorem State.setActs_fault (s : State) (a : List Activation) :
    (s.setActs a).fault = s.fault := by unfold State.setActs; split <;> rfl
@[simp] theorem State.setActs_params (s : State) (a : List Activation) :
    (s.setActs a).params = s.params := by unfold State.setActs; split <;> rfl
@[simp] theorem State.setActs_program (s : State) (a : List Activation) :
    (s.setActs a).program = s.program := by unfold State.setActs; split <;> rfl
@[simp] theorem State.setActs_handlerCode (s : State) (a : List Activation) :
    (s.setActs a).handlerCode = s.handlerCode := by unfold State.setActs; split <;> rfl
@[simp] theorem State.setActs_lastReturn (s : State) (a : List Activation) :
    (s.setActs a).lastReturn = s.lastReturn := by unfold State.setActs; split <;> rfl
@[simp] theorem State.setActs_schedule (s : State) (a : List Activation) :
    (s.setActs a).schedule = s.schedule := by unfold State.setActs; split <;> rfl
@[simp] theorem State.setActs_draws (s : State) (a : List Activation) :
    (s.setActs a).draws = s.draws := by unfold State.setActs; split <;> rfl

@[simp] theorem State.goto_insts (s : State) (i : Instr) (p : Pos) :
    (s.goto i p).insts = s.insts := by simp [State.goto]
@[simp] theorem State.goto_fault (s : State) (i : Instr) (p : Pos) :
    (s.goto i p).fault = s.fault := by simp [State.goto]
@[simp] theorem State.goto_params (s : State) (i : Instr) (p : Pos) :
    (s.goto i p).params = s.params := by simp [State.goto]
@[simp] theorem State.goto_program (s : State) (i : Instr) (p : Pos) :
    (s.goto i p).program = s.program := by simp [State.goto]
@[simp] theorem State.goto_handlerCode (s : State) (i : Instr) (p : Pos) :
    (s.goto i p).handlerCode = s.handlerCode := by simp [State.goto]
@[simp] theorem State.goto_lastReturn (s : State) (i : Instr) (p : Pos) :
    (s.goto i p).lastReturn = s.lastReturn := by simp [State.goto]
@[simp] theorem State.goto_schedule (s : State) (i : Instr) (p : Pos) :
    (s.goto i p).schedule = s.schedule := by simp [State.goto]
@[simp] theorem State.goto_draws (s : State) (i : Instr) (p : Pos) :
    (s.goto i p).draws = s.draws := by simp [State.goto]

@[simp] theorem State.call_insts (s : State) (i : Instr) (p : Pos) (sub : Instr) :
    (s.call i p sub).insts = s.insts := by simp [State.call]
@[simp] theorem State.call_fault (s : State) (i : Instr) (p : Pos) (sub : Instr) :
    (s.call i p sub).fault = s.fault := by simp [State.call]
@[simp] theorem State.call_params (s : State) (i : Instr) (p : Pos) (sub : Instr) :
    (s.call i p sub).params = s.params := by simp [State.call]
@[simp] theorem State.call_program (s : State) (i : Instr) (p : Pos) (sub : Instr) :
    (s.call i p sub).program = s.program := by simp [State.call]
@[simp] theorem State.call_handlerCode (s : State) (i : Instr) (p : Pos) (sub : Instr) :
    (s.call i p sub).handlerCode = s.handlerCode := by simp [State.call]
@[simp] theorem State.call_lastReturn (s : State) (i : Instr) (p : Pos) (sub : Instr) :
    (s.call i p sub).lastReturn = s.lastReturn := by simp [State.call]
@[simp] theorem State.call_schedule (s : State) (i : Instr) (p : Pos) (sub : Instr) :
    (s.call i p sub).schedule = s.schedule := by simp [State.call]
@[simp] theorem State.call_draws (s : State) (i : Instr) (p : Pos) (sub : Instr) :
    (s.call i p sub).draws = s.draws := by simp [State.call]

@[simp] theorem State.ret_insts (s : State) (i : Instr) (r : Result) (v : RetVal) :
    (s.ret i r v).insts = s.insts := by cases r <;> simp [State.ret]
@[simp] theorem State.ret_fault (s : State) (i : Instr) (r : Result) (v : RetVal) :
    (s.ret i r v).fault = s.fault := by cases r <;> simp [State.ret]
@[simp] theorem State.ret_params (s : State) (i : Instr) (r : Result) (v : RetVal) :
    (s.ret i r v).params = s.params := by cases r <;> simp [State.ret]
@[simp] theorem State.ret_program (s : State) (i : Instr) (r : Result) (v : RetVal) :
    (s.ret i r v).program = s.program := by cases r <;> simp [State.ret]
@[simp] theorem State.ret_handlerCode (s : State) (i : Instr) (r : Result) (v : RetVal) :
    (s.ret i r v).handlerCode = s.handlerCode := by cases r <;> simp [State.ret]
@[simp] theorem State.ret_schedule (s : State) (i : Instr) (r : Result) (v : RetVal) :
    (s.ret i r v).schedule = s.schedule := by cases r <;> simp [State.ret]
@[simp] theorem State.ret_draws (s : State) (i : Instr) (r : Result) (v : RetVal) :
    (s.ret i r v).draws = s.draws := by cases r <;> simp [State.ret]

@[simp] theorem State.spinAgain_insts (s : State) (i : Instr) (p : Pos) (pc : Nat) :
    (s.spinAgain i p pc).insts = s.insts := by unfold State.spinAgain; split <;> simp
@[simp] theorem State.spinAgain_fault (s : State) (i : Instr) (p : Pos) (pc : Nat) :
    (s.spinAgain i p pc).fault = s.fault := by unfold State.spinAgain; split <;> simp
@[simp] theorem State.spinAgain_params (s : State) (i : Instr) (p : Pos) (pc : Nat) :
    (s.spinAgain i p pc).params = s.params := by unfold State.spinAgain; split <;> simp
@[simp] theorem State.spinAgain_program (s : State) (i : Instr) (p : Pos) (pc : Nat) :
    (s.spinAgain i p pc).program = s.program := by unfold State.spinAgain; split <;> simp
@[simp] theorem State.spinAgain_handlerCode (s : State) (i : Instr) (p : Pos) (pc : Nat) :
    (s.spinAgain i p pc).handlerCode = s.handlerCode := by unfold State.spinAgain; split <;> simp
@[simp] theorem State.spinAgain_schedule (s : State) (i : Instr) (p : Pos) (pc : Nat) :
    (s.spinAgain i p pc).schedule = s.schedule := by unfold State.spinAgain; split <;> simp
@[simp] theorem State.spinAgain_draws (s : State) (i : Instr) (p : Pos) (pc : Nat) :
    (s.spinAgain i p pc).draws = s.draws := by unfold State.spinAgain; split <;> simp

@[simp] theorem State.hwStep_mainline (s : State) (n : Nat) (f : Instance → Option Instance) :
    (s.hwStep n f).mainline = s.mainline := by
  unfold State.hwStep; split <;> rfl
@[simp] theorem State.hwStep_handlers (s : State) (n : Nat) (f : Instance → Option Instance) :
    (s.hwStep n f).handlers = s.handlers := by
  unfold State.hwStep; split <;> rfl
@[simp] theorem State.hwStep_fault (s : State) (n : Nat) (f : Instance → Option Instance) :
    (s.hwStep n f).fault = s.fault := by
  unfold State.hwStep; split <;> rfl
@[simp] theorem State.hwStep_params (s : State) (n : Nat) (f : Instance → Option Instance) :
    (s.hwStep n f).params = s.params := by
  unfold State.hwStep; split <;> rfl
@[simp] theorem State.hwStep_program (s : State) (n : Nat) (f : Instance → Option Instance) :
    (s.hwStep n f).program = s.program := by
  unfold State.hwStep; split <;> rfl
@[simp] theorem State.hwStep_handlerCode (s : State) (n : Nat) (f : Instance → Option Instance) :
    (s.hwStep n f).handlerCode = s.handlerCode := by
  unfold State.hwStep; split <;> rfl
@[simp] theorem State.hwStep_lastReturn (s : State) (n : Nat) (f : Instance → Option Instance) :
    (s.hwStep n f).lastReturn = s.lastReturn := by
  unfold State.hwStep; split <;> rfl
@[simp] theorem State.hwStep_schedule (s : State) (n : Nat) (f : Instance → Option Instance) :
    (s.hwStep n f).schedule = s.schedule := by
  unfold State.hwStep; split <;> rfl
@[simp] theorem State.hwStep_draws (s : State) (n : Nat) (f : Instance → Option Instance) :
    (s.hwStep n f).draws = s.draws := by
  unfold State.hwStep; split <;> rfl

@[simp] theorem State.irqStep_insts (s : State) (n : Nat) :
    (s.irqStep n).insts = s.insts := by
  unfold State.irqStep; split <;> rfl
@[simp] theorem State.irqStep_mainline (s : State) (n : Nat) :
    (s.irqStep n).mainline = s.mainline := by
  unfold State.irqStep; split <;> rfl
@[simp] theorem State.irqStep_fault (s : State) (n : Nat) :
    (s.irqStep n).fault = s.fault := by
  unfold State.irqStep; split <;> rfl
@[simp] theorem State.irqStep_params (s : State) (n : Nat) :
    (s.irqStep n).params = s.params := by
  unfold State.irqStep; split <;> rfl
@[simp] theorem State.irqStep_program (s : State) (n : Nat) :
    (s.irqStep n).program = s.program := by
  unfold State.irqStep; split <;> rfl
@[simp] theorem State.irqStep_handlerCode (s : State) (n : Nat) :
    (s.irqStep n).handlerCode = s.handlerCode := by
  unfold State.irqStep; split <;> rfl
@[simp] theorem State.irqStep_lastReturn (s : State) (n : Nat) :
    (s.irqStep n).lastReturn = s.lastReturn := by
  unfold State.irqStep; split <;> rfl
@[simp] theorem State.irqStep_schedule (s : State) (n : Nat) :
    (s.irqStep n).schedule = s.schedule := by
  unfold State.irqStep; split <;> rfl
@[simp] theorem State.irqStep_draws (s : State) (n : Nat) :
    (s.irqStep n).draws = s.draws := by
  unfold State.irqStep; split <;> rfl

@[simp] theorem State.takeEvent_insts (s : State) :
    s.takeEvent.insts = s.insts := by
  unfold State.takeEvent; split <;> rfl
@[simp] theorem State.takeEvent_mainline (s : State) :
    s.takeEvent.mainline = s.mainline := by
  unfold State.takeEvent; split <;> rfl
@[simp] theorem State.takeEvent_handlers (s : State) :
    s.takeEvent.handlers = s.handlers := by
  unfold State.takeEvent; split <;> rfl
@[simp] theorem State.takeEvent_fault (s : State) :
    s.takeEvent.fault = s.fault := by
  unfold State.takeEvent; split <;> rfl
@[simp] theorem State.takeEvent_params (s : State) :
    s.takeEvent.params = s.params := by
  unfold State.takeEvent; split <;> rfl
@[simp] theorem State.takeEvent_program (s : State) :
    s.takeEvent.program = s.program := by
  unfold State.takeEvent; split <;> rfl
@[simp] theorem State.takeEvent_handlerCode (s : State) :
    s.takeEvent.handlerCode = s.handlerCode := by
  unfold State.takeEvent; split <;> rfl
@[simp] theorem State.takeEvent_lastReturn (s : State) :
    s.takeEvent.lastReturn = s.lastReturn := by
  unfold State.takeEvent; split <;> rfl

/-! ### The running context -/

@[simp] theorem State.setActs_acts (s : State) (a : List Activation) : (s.setActs a).acts = a := by
  unfold State.setActs State.acts
  cases s.handlers <;> rfl

/-- Replacing the operations in progress keeps which handlers run. -/
@[simp] theorem State.setActs_handlerInsts (s : State) (a : List Activation) :
    (s.setActs a).handlers.map HandlerCtx.inst = s.handlers.map HandlerCtx.inst := by
  unfold State.setActs
  split <;> simp_all

@[simp] theorem State.commit_acts (s : State) (n : Nat) (x : Instance) (used : Nat) : (s.commit n x used).acts = s.acts := rfl
@[simp] theorem State.commit_pos (s : State) (n : Nat) (x : Instance) (used : Nat) : (s.commit n x used).pos = s.pos := rfl
@[simp] theorem State.raise_acts (s : State) (r : Fault) (op : FaultOp) (slot word : Option Nat) :
    (s.raise r op slot word).acts = s.acts := rfl

@[simp] theorem State.goto_acts (s : State) (i : Instr) (p : Pos) : (s.goto i p).acts = ⟨i, p⟩ :: s.acts.tail := by
  simp [State.goto]

@[simp] theorem State.goto_pos (s : State) (i : Instr) (p : Pos) : (s.goto i p).pos = p := by
  simp [State.pos]

@[simp] theorem State.call_acts (s : State) (i : Instr) (p : Pos) (sub : Instr) :
    (s.call i p sub).acts = ⟨sub, {}⟩ :: ⟨i, p⟩ :: s.acts.tail := by
  simp [State.call]

/-- An operation that returns Success resumes the one that called it. -/
@[simp] theorem State.ret_success_acts (s : State) (i : Instr) (v : RetVal) : (s.ret i .success v).acts = s.acts.tail := by
  simp only [State.ret]
  exact State.setActs_acts s s.acts.tail

/-- An operation that returns anything else takes its callers with it (44_driver_ops.md R270). -/
theorem State.ret_other_acts (s : State) (i : Instr) (r : Result) (v : RetVal) (h : r ≠ .success) :
    (s.ret i r v).acts = (unwind i s.acts.tail).2 := by
  cases r <;> first | exact absurd rfl h | exact State.setActs_acts s _

/-- What an operation that returns leaves to be seen (60_exceptions.md R320). -/
@[simp] theorem State.ret_success_lastReturn (s : State) (i : Instr) (v : RetVal) :
    (s.ret i .success v).lastReturn = some ⟨i, .success, v⟩ := rfl

@[simp] theorem State.goto_handlerInsts (s : State) (i : Instr) (p : Pos) :
    (s.goto i p).handlers.map HandlerCtx.inst = s.handlers.map HandlerCtx.inst := by simp [State.goto]

@[simp] theorem State.call_handlerInsts (s : State) (i : Instr) (p : Pos) (sub : Instr) :
    (s.call i p sub).handlers.map HandlerCtx.inst = s.handlers.map HandlerCtx.inst := by simp [State.call]

@[simp] theorem State.ret_handlerInsts (s : State) (i : Instr) (r : Result) (v : RetVal) :
    (s.ret i r v).handlers.map HandlerCtx.inst = s.handlers.map HandlerCtx.inst := by
  cases r <;> simp [State.ret]

@[simp] theorem State.spinAgain_handlerInsts (s : State) (i : Instr) (p : Pos) (pc : Nat) :
    (s.spinAgain i p pc).handlers.map HandlerCtx.inst = s.handlers.map HandlerCtx.inst := by
  unfold State.spinAgain; split <;> simp

end Sys2Proof.Machine
end

