-- ==== Sys2Proof/Laws/Slots.lean ====
section
/-! SUPPORT. The slot view (10_state.md R55): which words a slot has, that slots do not meet, and what a stored word changes
in the view of the slots. -/

namespace Sys2Proof.Machine

/-- A slot exists only while MBWS is legal (43_mb_hardware.md R221). -/
theorem Instance.hwSlots_pos (x : Instance) (i : Nat) (h : i < x.hwSlots) :
    4 ≤ x.ws ∧ x.ws ≤ 18 ∧ x.hwSlots = 128 / x.ws := by
  by_cases hl : legalWordSize x.ws = true
  · have he : x.hwSlots = 128 / x.ws := by unfold Instance.hwSlots; rw [if_pos hl]
    simp only [legalWordSize, Config.wsMin, Config.wsMax, Bool.and_eq_true, decide_eq_true_eq] at hl
    exact ⟨hl.1, hl.2, he⟩
  · unfold Instance.hwSlots at h
    rw [if_neg hl] at h
    omega

/-- There are at most 32 hardware slots (92_eei_decisions.md D4). -/
theorem Instance.hwSlots_le (x : Instance) : x.hwSlots ≤ 32 := by
  by_cases h : 0 < x.hwSlots
  · obtain ⟨h4, -, he⟩ := x.hwSlots_pos 0 h
    rw [he]
    exact Nat.le_trans (Nat.div_le_div_left h4 (by omega)) (by decide)
  · omega

/-- The words of a hardware slot lie in the memory (41_frame_mapper.md R173). -/
theorem Instance.wordAddr_lt (x : Instance) (i j : Nat) (hi : i < x.hwSlots) (hj : j < x.ws) :
    wordAddr x.ws i j < Config.mbWords := by
  obtain ⟨-, -, he⟩ := x.hwSlots_pos i hi
  have h1 : (i + 1) * x.ws ≤ 128 := by
    have : i + 1 ≤ 128 / x.ws := by omega
    exact Nat.le_trans (Nat.mul_le_mul_right _ this) (Nat.div_mul_le_self 128 x.ws)
  rw [Nat.succ_mul] at h1
  simp only [wordAddr, Config.mbWords]
  omega

/-- Word `j` of slot `i` lies in slot `i` (10_state.md R55). -/
theorem Instance.slotOf_wordAddr (x : Instance) (i j : Nat) (hi : i < x.hwSlots) (hj : j < x.ws) :
    x.slotOf (wordAddr x.ws i j) = some (i, j) := by
  have hw : 0 < x.ws := by omega
  have hd : (i * x.ws + j) / x.ws = i := by
    rw [Nat.add_comm, Nat.add_mul_div_right _ _ hw, Nat.div_eq_of_lt hj, Nat.zero_add]
  have hm : (i * x.ws + j) % x.ws = j := by
    rw [Nat.add_comm, Nat.add_mul_mod_self_right, Nat.mod_eq_of_lt hj]
  unfold Instance.slotOf wordAddr
  rw [hd, hm, if_pos hi]

/-- A word that lies in a slot is a word of that slot (10_state.md R55). -/
theorem Instance.slotOf_some (x : Instance) (w i j : Nat) (h : x.slotOf w = some (i, j)) :
    i < x.hwSlots ∧ j < x.ws ∧ w = wordAddr x.ws i j := by
  unfold Instance.slotOf at h
  split at h
  · rename_i hi
    obtain ⟨rfl, rfl⟩ : w / x.ws = i ∧ w % x.ws = j := by simpa using h
    obtain ⟨h4, -, -⟩ := x.hwSlots_pos _ hi
    exact ⟨hi, Nat.mod_lt _ (by omega), by rw [wordAddr, Nat.mul_comm]; exact (Nat.div_add_mod w x.ws).symm⟩
  · exact absurd h (by simp)

/-- A word that lies in no slot is no word of any slot (20_memory.md R91). -/
theorem Instance.slotOf_none (x : Instance) (w i j : Nat) (h : x.slotOf w = none) (hi : i < x.hwSlots) (hj : j < x.ws) :
    w ≠ wordAddr x.ws i j := by
  rintro rfl
  rw [x.slotOf_wordAddr i j hi hj] at h
  exact absurd h (by simp)

/-- Words of slots are equal only in the same slot at the same place (41_frame_mapper.md R186). -/
theorem Instance.wordAddr_inj (x : Instance) (i j k l : Nat) (hi : i < x.hwSlots) (hj : j < x.ws) (hk : k < x.hwSlots)
    (hl : l < x.ws) (h : wordAddr x.ws i j = wordAddr x.ws k l) : i = k ∧ j = l := by
  have := x.slotOf_wordAddr i j hi hj
  rw [h, x.slotOf_wordAddr k l hk hl] at this
  simpa [eq_comm] using this

/-- A stored word reads back; every other word is as before (10_state.md R54). -/
theorem Instance.word_setWord (x : Instance) (w u : Nat) (v : Word) (hw : w < Config.mbWords) (h : Memory.wf x.mem) :
    (x.setWord w v).word u = if u = w then v else x.word u :=
  Memory.word_setWord x.mem w u v hw h

/-- Storing a word keeps the canonical form. -/
theorem Instance.setWord_wf (x : Instance) (w : Nat) (v : Word) (h : Memory.wf x.mem) : Memory.wf (x.setWord w v).mem :=
  Memory.wf_setWord x.mem w v h

/-- Storing several words keeps the canonical form. -/
theorem Instance.setWords_wf (x : Instance) (base : Nat) (f : Nat → Word) (k : Nat) (h : Memory.wf x.mem) :
    Memory.wf (x.setWords base f k).mem := by
  induction k with
  | zero => exact h
  | succ k ih => exact Instance.setWord_wf _ _ _ ih

/-- Storing several words changes only memory. -/
theorem Instance.setWords_eq (x : Instance) (base : Nat) (f : Nat → Word) (k : Nat) :
    x.setWords base f k = { x with mem := (x.setWords base f k).mem } := by
  induction k with
  | zero => rfl
  | succ k ih =>
    show Instance.setWord _ _ _ = _
    rw [ih]
    rfl

@[simp] theorem Instance.setWords_fields (x : Instance) (base : Nat) (f : Nat → Word) (k : Nat) :
    (x.setWords base f k).fields = x.fields := by
  rw [Instance.setWords_eq]

@[simp] theorem Instance.setWords_hidden (x : Instance) (base : Nat) (f : Nat → Word) (k : Nat) :
    (x.setWords base f k).hidden = x.hidden := by
  rw [Instance.setWords_eq]

@[simp] theorem Instance.setWords_driver (x : Instance) (base : Nat) (f : Nat → Word) (k : Nat) :
    (x.setWords base f k).driver = x.driver := by
  rw [Instance.setWords_eq]

@[simp] theorem Instance.setWords_busOut (x : Instance) (base : Nat) (f : Nat → Word) (k : Nat) :
    (x.setWords base f k).busOut = x.busOut := by
  rw [Instance.setWords_eq]

@[simp] theorem Instance.setWords_lineEnabled (x : Instance) (base : Nat) (f : Nat → Word) (k : Nat) :
    (x.setWords base f k).lineEnabled = x.lineEnabled := by
  rw [Instance.setWords_eq]

@[simp] theorem Instance.setWords_params (x : Instance) (base : Nat) (f : Nat → Word) (k : Nat) :
    (x.setWords base f k).params = x.params := by
  rw [Instance.setWords_eq]

@[simp] theorem Instance.setWords_ws (x : Instance) (base : Nat) (f : Nat → Word) (k : Nat) :
    (x.setWords base f k).ws = x.ws := by
  rw [Instance.setWords_eq]; rfl

@[simp] theorem Instance.setWords_hwSlots (x : Instance) (base : Nat) (f : Nat → Word) (k : Nat) :
    (x.setWords base f k).hwSlots = x.hwSlots := by
  rw [Instance.setWords_eq]; rfl

/-- The words after several were stored. -/
theorem Instance.word_setWords (x : Instance) (base : Nat) (f : Nat → Word) (k u : Nat) (hk : base + k ≤ Config.mbWords)
    (h : Memory.wf x.mem) :
    (x.setWords base f k).word u = if base ≤ u ∧ u < base + k then f (u - base) else x.word u := by
  induction k with
  | zero => simp only [Instance.setWords]; rw [if_neg (by omega)]
  | succ k ih =>
    show (Instance.setWord _ _ _).word u = _
    rw [Instance.word_setWord _ _ _ _ (by omega) (x.setWords_wf base f k h), ih (by omega)]
    by_cases hu : u = base + k
    · rw [if_pos hu, if_pos (by omega), hu, Nat.add_sub_cancel_left]
    · rw [if_neg hu]
      by_cases hb : base ≤ u ∧ u < base + k
      · rw [if_pos hb, if_pos (by omega)]
      · rw [if_neg hb, if_neg (by omega)]

end Sys2Proof.Machine
end

