-- ==== Sys2Proof/Laws/Access.lean ====
section
/-! SUPPORT. One lemma for each access of the host, saying everything it can do. -/

namespace Sys2Proof.Machine

/-! ### One host step on a controller -/

/-- A selector that names no controller (40_register_interface.md R140). -/
theorem onInst_absent {α : Type} {i : Instr} {inst : BitVec 8} {s : State} {f : Nat → Instance → Acc α}
    {k : α → State → State} (h : s.insts[inst.toNat]? = none) :
    onInst i inst s f k = .next (s.ret i .invalidInstance .none) := by
  simp only [onInst, h]

/-- An access that succeeds. -/
theorem onInst_ok {α : Type} {i : Instr} {inst : BitVec 8} {s : State} {f : Nat → Instance → Acc α}
    {k : α → State → State} {x y : Instance} {a : α} {u : Nat} (h : s.insts[inst.toNat]? = some x)
    (hf : f s.draws x = .ok a y u) : onInst i inst s f k = .next (k a (s.commit inst.toNat y u)) := by
  simp only [onInst, h, hf]

/-- An access that raises a fault (40_register_interface.md R141). -/
theorem onInst_fault {α : Type} {i : Instr} {inst : BitVec 8} {s : State} {f : Nat → Instance → Acc α}
    {k : α → State → State} {x : Instance} {r : Fault} {sl w : Option Nat} (h : s.insts[inst.toNat]? = some x)
    (hf : f s.draws x = .fault r sl w) : onInst i inst s f k = .next (s.raise r (.instr i) sl w) := by
  simp only [onInst, h, hf]

/-- Everything one host step on a controller can answer. -/
theorem onInst_cases {α : Type} (i : Instr) (inst : BitVec 8) (s : State) (f : Nat → Instance → Acc α)
    (k : α → State → State) :
    onInst i inst s f k = .next (s.ret i .invalidInstance .none) ∧ s.insts[inst.toNat]? = none ∨
    (∃ x a y u, s.insts[inst.toNat]? = some x ∧ f s.draws x = .ok a y u ∧
      onInst i inst s f k = .next (k a (s.commit inst.toNat y u))) ∨
    ∃ x r sl w, s.insts[inst.toNat]? = some x ∧ f s.draws x = .fault r sl w ∧
      onInst i inst s f k = .next (s.raise r (.instr i) sl w) := by
  cases h : s.insts[inst.toNat]? with
  | none => exact .inl ⟨onInst_absent h, rfl⟩
  | some x =>
    cases hf : f s.draws x with
    | ok a y u => exact .inr (.inl ⟨x, a, y, u, rfl, hf, onInst_ok h hf⟩)
    | fault r sl w => exact .inr (.inr ⟨x, r, sl, w, rfl, hf, onInst_fault h hf⟩)

/-- A spin's read is the read itself, or Timeout where the budget is used up (00_scope.md R20). -/
theorem State.spinRead_cases (s : State) (i : Instr) (p : Pos) (read : Outcome State) :
    s.spinRead i p read = read ∨ s.spinRead i p read = .next (s.ret i .timeout .none) := by
  unfold State.spinRead
  split <;> simp

/-! ### Field accesses -/

/-- FLD.RD of a field that holds a value changes nothing (40_register_interface.md R142). -/
theorem fieldRead_named (f : Field) (d : Nat) (x : Instance) (h : f ≠ .timer) :
    fieldRead (.named f) d x = .ok (x.fields.get f) x 0 := by
  cases f <;> first | exact absurd rfl h | rfl

/-- What a field read answers (40_register_interface.md R142). -/
theorem fieldRead_ok (sel : FieldSel) (d : Nat) (x y : Instance) (v : Word) (u : Nat)
    (h : fieldRead sel d x = .ok v y u) : y = x ∨ y = x.setLocked none := by
  cases sel with
  | unnamed n => exact absurd h (by simp [fieldRead])
  | named f =>
    by_cases hf : f = .timer
    · subst hf
      simp only [fieldRead, timerRead, Acc.ok.injEq] at h
      exact .inr h.2.1.symm
    · rw [fieldRead_named f d x hf, Acc.ok.injEq] at h
      exact .inl h.2.1.symm

/-- A field write succeeds exactly when none of its faults holds, and then stores the field
(40_register_interface.md R143). -/
theorem fieldWrite_ok (sel : FieldSel) (v : Word) (d : Nat) (x y : Instance) (u : Nat) :
    fieldWrite sel v d x = .ok () y u ↔
      ∃ f, sel = .named f ∧ f.readOnly = false ∧ f ≠ .iflag ∧ v.toNat < 2 ^ f.width ∧
        (f = .mbws → legalWordSize v.toNat = true) ∧ (f.freezeProtected = true → x.fields.frzack ≠ 0#1) ∧
        (f = .clksrc → x.fields.mdis ≠ 0#1) ∧ y = x.storeField f v ∧ u = 0 := by
  cases sel with
  | unnamed n => simp [fieldWrite]
  | named f =>
    unfold fieldWrite
    simp only
    split_ifs with h1 h2 h3 h4 h5 h6
    · simp [h1]
    · simp [h2]
    · simp; omega
    · simp [h4.1, h4.2]
    · simp [h5.1, h5.2]
    · simp [h6.1, h6.2]
    · simp only [Acc.ok.injEq, true_and, FieldSel.named.injEq, exists_eq_left']
      simp only [not_and, Bool.not_eq_false, Bool.not_eq_true, Nat.not_le] at h1 h3 h4 h5 h6
      constructor
      · rintro ⟨rfl, rfl⟩
        exact ⟨h1, h2, h3, h4, h5, h6, rfl, rfl⟩
      · rintro ⟨-, -, -, -, -, -, rfl, rfl⟩
        exact ⟨rfl, rfl⟩

/-! ### Word accesses -/

/-- A read of word 0 of a slot moves the lock only (43_mb_hardware.md R235). -/
theorem Instance.lockOnRead_eq (x : Instance) (i : Nat) :
    x.lockOnRead i = x.setLocked (if x.slotState i = .receiveEmpty then some i
      else if x.hidden.locked = some i then some i else none) := by
  unfold Instance.lockOnRead
  split
  · rfl
  · split
    · rename_i h
      simp only [Instance.setLocked, Instance.setHidden, ← h]
    · rfl

/-- What a word read answers (40_register_interface.md R144). -/
theorem wordRead_ok (w d : Nat) (x y : Instance) (v : Word) (u : Nat) (h : wordRead w d x = .ok v y u) :
    w < Config.mbWords ∧ (y = x ∨ ∃ i, x.slotOf w = some (i, 0) ∧ x.busy i = false ∧ y = x.lockOnRead i) := by
  unfold wordRead at h
  split at h
  · exact absurd h (by simp)
  · rename_i hw
    refine ⟨by omega, ?_⟩
    split at h
    · rw [Acc.ok.injEq] at h; exact .inl h.2.1.symm
    · rename_i i j hs
      split at h
      · unfold busyRead at h
        split at h <;> rw [Acc.ok.injEq] at h <;> exact .inl h.2.1.symm
      · rename_i hb
        rw [Acc.ok.injEq] at h
        split at h
        · rename_i hj
          subst hj
          exact .inr ⟨i, hs, by simpa using hb, h.2.1.symm⟩
        · exact .inl h.2.1.symm

/-- What an access with a value computed beside it answers. -/
theorem along_ok {α β : Type} (g : Instance → β) (f : Nat → Instance → Acc α) (d : Nat) (x y : Instance) (r : β × α)
    (u : Nat) : along g f d x = .ok r y u ↔ f d x = .ok r.2 y u ∧ r.1 = g x := by
  unfold along
  cases f d x with
  | fault k sl w => simp
  | ok a z v =>
    simp only [Acc.ok.injEq]
    constructor
    · rintro ⟨rfl, rfl, rfl⟩; exact ⟨⟨rfl, rfl, rfl⟩, rfl⟩
    · rintro ⟨⟨rfl, rfl, rfl⟩, h⟩; exact ⟨by rw [← h], rfl, rfl⟩

/-- A code write is admitted or refused by the table, and an admitted one stores the word (43_mb_hardware.md R222). -/
theorem codeWrite_ok (i : Nat) (v : Word) (d : Nat) (x y : Instance) (u : Nat) :
    codeWrite i v d x = .ok () y u ↔
      writableCode (codeOf v) = true ∧
        (admission x.params.abortPreempts (x.slotState i) (codeOf v) = .yes ∧ y = x.storeCode i v (x.slotState i) ∧ u = 0 ∨
         admission x.params.abortPreempts (x.slotState i) (codeOf v) = .preempt ∧
          y = (x.preempt i (x.slotState i) d).storeCode i v (x.slotState i) ∧ u = preemptDraws x.ws) := by
  unfold codeWrite
  split
  · rename_i hw
    simp only [hw, true_and]
    split <;> rename_i ha <;> simp only [ha, Acc.ok.injEq, reduceCtorEq, false_and, true_and, or_false, false_or]
    · exact ⟨fun ⟨a, b⟩ => ⟨a.symm, b.symm⟩, fun ⟨a, b⟩ => ⟨a.symm, b.symm⟩⟩
    · exact ⟨fun ⟨a, b⟩ => ⟨a.symm, b.symm⟩, fun ⟨a, b⟩ => ⟨a.symm, b.symm⟩⟩
  · rename_i hw
    simp [hw]

/-- What a word write answers (40_register_interface.md R145). -/
theorem wordWrite_ok (w : Nat) (v : Word) (d : Nat) (x y : Instance) (u : Nat) (h : wordWrite w v d x = .ok () y u) :
    w < Config.mbWords ∧
      (x.slotOf w = none ∧ y = x.setWord w v ∧ u = 0 ∨
       (∃ i, x.slotOf w = some (i, 0) ∧ codeWrite i v d x = .ok () y u) ∨
       ∃ i j, x.slotOf w = some (i, j) ∧ j ≠ 0 ∧ (x.slotState i).armed = false ∧ y = x.setWord w v ∧ u = 0) := by
  unfold wordWrite at h
  split at h
  · exact absurd h (by simp)
  · rename_i hw
    refine ⟨by omega, ?_⟩
    split at h
    · rename_i hs
      rw [Acc.ok.injEq] at h
      exact .inl ⟨hs, h.2.1.symm, h.2.2.symm⟩
    · rename_i i j hs
      split at h
      · rename_i hj
        subst hj
        exact .inr (.inl ⟨i, hs, h⟩)
      · rename_i hj
        split at h
        · exact absurd h (by simp)
        · rename_i ha
          rw [Acc.ok.injEq] at h
          exact .inr (.inr ⟨i, j, hs, hj, by simpa using ha, h.2.1.symm, h.2.2.symm⟩)

end Sys2Proof.Machine
end

