-- ==== Sys2Proof/Laws/Effects.lean ====
section
/-! SUPPORT. What a code write, a preemption and the acceptance of a frame do, each said once. -/

namespace Sys2Proof.Machine

/-! ### Hidden state of one slot -/

/-- The hidden state of a slot just replaced; every other slot is as before. -/
theorem Hidden.slot_setSlot_iff (h : Hidden) (i k : Nat) (v : SlotHidden) :
    (h.setSlot i v).slot k = if k = i ∧ i < 32 then v else h.slot k := by
  simp only [Hidden.slot, Hidden.setSlot, Vector.toList_setIfInBounds, List.getD_eq_getElem?_getD, List.getElem?_set]
  by_cases hk : i = k
  · subst hk
    by_cases hi : i < 32
    · simp [hi]
    · have : h.slots.toList.length ≤ i := by simp; omega
      simp [hi]
  · simp [hk, show ¬ k = i from fun h => hk h.symm]

/-- Slot indices above 31 have no hidden state to hold. -/
theorem Hidden.slot_above (h : Hidden) (i : Nat) (hi : 32 ≤ i) : h.slot i = {} := by
  have : h.slots.toList.length ≤ i := by simp; omega
  simp only [Hidden.slot, List.getD_eq_getElem?_getD, List.getElem?_eq_none this, Option.getD_none]

/-! ### Views after a stored word -/

/-- The control words after one was stored. -/
theorem Instance.ctrl_setWord (x : Instance) (i k : Nat) (v : Word) (hi : i < x.hwSlots) (hk : k < x.hwSlots)
    (h : Memory.wf x.mem) : (x.setWord (wordAddr x.ws i 0) v).ctrl k = if k = i then v else x.ctrl k := by
  have h4 := (x.hwSlots_pos i hi).1
  unfold Instance.ctrl
  rw [x.setWord_ws, x.word_setWord _ _ _ (x.wordAddr_lt i 0 hi (by omega)) h]
  by_cases hki : k = i
  · simp [hki]
  · rw [if_neg hki, if_neg fun e => hki (x.wordAddr_inj k 0 i 0 hk (by omega) hi (by omega) e).1]

/-- A stored word that is no control word leaves every control word. -/
theorem Instance.ctrl_setWord_other (x : Instance) (w k : Nat) (v : Word) (hk : wordAddr x.ws k 0 ≠ w)
    (h : Memory.wf x.mem) : (x.setWord w v).ctrl k = x.ctrl k := by
  unfold Instance.ctrl
  rw [x.setWord_ws]
  by_cases hw : w < Config.mbWords
  · rw [x.word_setWord _ _ _ hw h, if_neg hk]
  · have : x.setWord w v = x := by
      unfold Instance.setWord
      rw [Memory.setWord_above _ _ _ (by omega)]
    rw [this]

/-- The state of a slot is a function of its code and of its hidden state (10_state.md R61). -/
theorem Instance.slotState_congr (x y : Instance) (i : Nat) (hc : y.code i = x.code i) (hb : y.busy i = x.busy i)
    (ha : y.abortPending i = x.abortPending i) : y.slotState i = x.slotState i := by
  unfold Instance.slotState
  rw [hc, hb, ha]

/-- What each state says of the code (10_state.md R61). -/
theorem Instance.slotState_code (x : Instance) (i : Nat) :
    (x.slotState i = .inactiveRx ↔ x.code i = 0x0#4) ∧
    (x.slotState i = .receiveEmpty ↔ x.code i = 0x4#4 ∧ x.busy i = false) ∧
    (x.slotState i = .busy ↔ x.code i = 0x4#4 ∧ x.busy i = true) ∧
    (x.slotState i = .inactiveTx ↔ x.code i = 0x8#4) ∧
    (x.slotState i = .abortPending ↔ x.code i = 0x9#4 ∧ x.abortPending i = true) ∧
    (x.slotState i = .aborted ↔ x.code i = 0x9#4 ∧ x.abortPending i = false) ∧
    (x.slotState i = .send ↔ x.code i = 0xC#4) := by
  unfold Instance.slotState
  generalize x.code i = c
  generalize x.busy i = b
  generalize x.abortPending i = a
  revert c
  cases a <;> cases b <;> decide

/-! ### Preemption (43_mb_hardware.md R223) -/

@[simp] theorem Instance.preempt_driver (x : Instance) (i : Nat) (s : SlotState) (d : Nat) :
    (x.preempt i s d).driver = x.driver := by
  unfold Instance.preempt
  cases s <;> dsimp only <;> repeat' split
  all_goals simp

@[simp] theorem Instance.preempt_lineEnabled (x : Instance) (i : Nat) (s : SlotState) (d : Nat) :
    (x.preempt i s d).lineEnabled = x.lineEnabled := by
  unfold Instance.preempt
  cases s <;> dsimp only <;> repeat' split
  all_goals simp

@[simp] theorem Instance.preempt_params (x : Instance) (i : Nat) (s : SlotState) (d : Nat) :
    (x.preempt i s d).params = x.params := by
  unfold Instance.preempt
  cases s <;> dsimp only <;> repeat' split
  all_goals simp

@[simp] theorem Instance.preempt_locked (x : Instance) (i : Nat) (s : SlotState) (d : Nat) :
    (x.preempt i s d).hidden.locked = x.hidden.locked := by
  unfold Instance.preempt
  cases s <;> dsimp only <;> repeat' split
  all_goals simp

@[simp] theorem Instance.preempt_pendingRx (x : Instance) (i : Nat) (s : SlotState) (d : Nat) :
    (x.preempt i s d).hidden.pendingRx = x.hidden.pendingRx := by
  unfold Instance.preempt
  cases s <;> dsimp only <;> repeat' split
  all_goals simp

/-- A preemption may set the slot's flag and writes no other field. -/
theorem Instance.preempt_fields (x : Instance) (i : Nat) (s : SlotState) (d : Nat) :
    (x.preempt i s d).fields = if drawBool d then { x.fields with iflag := x.fields.iflag ||| slotBit i } else x.fields := by
  unfold Instance.preempt
  by_cases h : drawBool d <;> by_cases h' : drawBool (d + 1) <;> cases s <;> simp [h, h']

@[simp] theorem Instance.preempt_ws (x : Instance) (i : Nat) (s : SlotState) (d : Nat) : (x.preempt i s d).ws = x.ws := by
  unfold Instance.ws
  rw [x.preempt_fields]
  split <;> rfl

@[simp] theorem Instance.preempt_hwSlots (x : Instance) (i : Nat) (s : SlotState) (d : Nat) :
    (x.preempt i s d).hwSlots = x.hwSlots := by
  unfold Instance.hwSlots
  rw [x.preempt_ws]

/-- A preemption may put the slot's frame on the bus, of a slot that sends. -/
theorem Instance.preempt_busOut (x : Instance) (i : Nat) (s : SlotState) (d : Nat) :
    (x.preempt i s d).busOut =
      if (s = .send ∨ s = .abortPending) ∧ drawBool (d + 1) = true then x.busOut ++ [x.busImage i] else x.busOut := by
  unfold Instance.preempt
  by_cases h : drawBool d <;> by_cases h' : drawBool (d + 1) <;> cases s <;> simp [h, h']

/-- The hidden state of a slot after a preemption. -/
theorem Instance.preempt_slot (x : Instance) (i k : Nat) (s : SlotState) (d : Nat) :
    (x.preempt i s d).hidden.slot k =
      if k = i ∧ i < 32 then
        (match s with
        | .busy => { x.hidden.slot i with busy := false, rxInflight := none }
        | .send | .abortPending => { x.hidden.slot i with abortPending := false }
        | _ => x.hidden.slot i)
      else x.hidden.slot k := by
  unfold Instance.preempt
  by_cases h : drawBool d <;> by_cases h' : drawBool (d + 1) <;> by_cases hk : k = i ∧ i < 32 <;> cases s <;>
    simp [h, h', hk, Hidden.slot_setSlot_iff]

/-- A preemption writes the words of a busy slot behind its control word and no other word. -/
theorem Instance.preempt_word (x : Instance) (i u : Nat) (s : SlotState) (d : Nat) (hi : i < x.hwSlots)
    (h : Memory.wf x.mem) (hu : s ≠ .busy ∨ ∀ j, 1 ≤ j → j < x.ws → u ≠ wordAddr x.ws i j) :
    (x.preempt i s d).word u = x.word u := by
  have key : s = .busy → ((x.endRx i).setWords (wordAddr x.ws i 1) (fun k => Config.draw (d + 2 + k)) (x.ws - 1)).word u =
      x.word u := by
    intro hs
    have h4 := (x.hwSlots_pos i hi).1
    have hl := x.wordAddr_lt i (x.ws - 1) hi (by omega)
    simp only [wordAddr] at hl ⊢
    rw [(x.endRx i).word_setWords _ _ _ _ (by omega) h, if_neg, Instance.endRx_word]
    rintro ⟨h1, h2⟩
    rcases hu with hu | hu
    · exact hu hs
    · exact hu (u - i * x.ws) (by omega) (by omega) (by simp only [wordAddr]; omega)
  unfold Instance.preempt
  by_cases h1 : drawBool d <;> by_cases h2 : drawBool (d + 1) <;> cases s <;> simp_all

/-- A preemption keeps the canonical form. -/
theorem Instance.preempt_wf (x : Instance) (i : Nat) (s : SlotState) (d : Nat) (h : Memory.wf x.mem) :
    Memory.wf (x.preempt i s d).mem := by
  have key := (x.endRx i).setWords_wf (wordAddr x.ws i 1) (fun k => Config.draw (d + 2 + k)) (x.ws - 1) h
  have e : (x.preempt i s d).mem = x.mem ∨ (x.preempt i s d).mem =
      ((x.endRx i).setWords (wordAddr x.ws i 1) (fun k => Config.draw (d + 2 + k)) (x.ws - 1)).mem := by
    unfold Instance.preempt
    by_cases h1 : drawBool d <;> by_cases h2 : drawBool (d + 1) <;> cases s <;> simp [h1, h2]
  rcases e with e | e <;> rw [e]
  · exact h
  · exact key

/-! ### An admitted control-word write (43_mb_hardware.md R222, R239 to R243) -/

/-- The rule of a code leaves everything but whether an abort is pending on the slot. -/
theorem codeEffect_eq (c : BitVec 4) (i : Nat) (s : SlotState) (x : Instance) :
    codeEffect c i s x = x ∨ ∃ b, codeEffect c i s x = x.setAbortPending i b := by
  unfold codeEffect
  split
  · exact .inr ⟨_, rfl⟩
  · exact .inl rfl
  · exact .inl rfl
  · exact .inr ⟨_, rfl⟩
  · exact .inr ⟨_, rfl⟩

/-- Whether an abort is pending after the rule of a code. -/
theorem codeEffect_abortPending (c : BitVec 4) (i : Nat) (s : SlotState) (x : Instance) (hi : i < 32) :
    (codeEffect c i s x).abortPending i =
      if c = 0x4#4 ∨ c = 0x8#4 then x.abortPending i else if c = 0x9#4 then s == .send else false := by
  have key (b : Bool) : (x.setAbortPending i b).abortPending i = b := by
    simp [Instance.abortPending, Hidden.slot_setSlot_iff, hi]
  unfold codeEffect
  split <;> rename_i hc
  · have : c = 0x0#4 := BitVec.eq_of_toNat_eq hc
    subst this; exact key _
  · have : c = 0x4#4 := BitVec.eq_of_toNat_eq hc
    subst this; rfl
  · have : c = 0x8#4 := BitVec.eq_of_toNat_eq hc
    subst this; rfl
  · have : c = 0x9#4 := BitVec.eq_of_toNat_eq hc
    subst this; exact key _
  · rename_i h4 h8 h9
    rw [if_neg, if_neg]
    · exact key _
    · rintro rfl; exact hc rfl
    · rintro (rfl | rfl)
      · exact h8 rfl
      · exact h9 rfl

/-- What an admitted control-word write does. -/
theorem Instance.storeCode_stored (x : Instance) (i : Nat) (v : Word) (s : SlotState) (hi : i < x.hwSlots)
    (h : Memory.wf x.mem) : x.ControlStored (x.storeCode i v s) i v := by
  have h4 := (x.hwSlots_pos i hi).1
  have hw := x.wordAddr_lt i 0 hi (by omega)
  have key (y : Instance) (hy : y = (if x.hidden.locked = some i then x.setLocked none else x).setWord (wordAddr x.ws i 0) v) :
      x.ControlStored y i v := by
    have hm : y.mem = x.mem.setWord (wordAddr x.ws i 0) v := by rw [hy]; split <;> rfl
    refine ⟨fun u => ?_, ?_, ?_, ?_, ?_, ?_, ?_, ?_, ?_, ?_⟩
    · unfold Instance.word
      rw [hm]
      exact Memory.word_setWord x.mem _ _ v hw h
    all_goals (rw [hy]; split <;> first | rfl | (intros; rfl) | (constructor <;> rfl))
  have hk := key _ rfl
  unfold Instance.storeCode
  rcases codeEffect_eq (codeOf v) i s
      ((if x.hidden.locked = some i then x.setLocked none else x).setWord (wordAddr x.ws i 0) v) with e | ⟨b, e⟩ <;> rw [e]
  · exact hk
  · refine ⟨hk.words, hk.fields, hk.lock, hk.held, fun k hki => ?_, ?_, hk.driver, hk.bus, hk.line, hk.params⟩
    · rw [Instance.setAbortPending_hidden, Hidden.slot_setSlot_iff, if_neg fun e => hki e.1]
      exact hk.others k hki
    · unfold Instance.busy
      rw [Instance.setAbortPending_hidden, Hidden.slot_setSlot_iff]
      split
      · exact hk.reception
      · exact hk.reception

/-- Whether an abort is pending after an admitted control-word write. -/
theorem Instance.storeCode_abortPending (x : Instance) (i : Nat) (v : Word) (s : SlotState) (hi : i < x.hwSlots) :
    (x.storeCode i v s).abortPending i =
      if codeOf v = 0x4#4 ∨ codeOf v = 0x8#4 then x.abortPending i else if codeOf v = 0x9#4 then s == .send else false := by
  unfold Instance.storeCode
  rw [codeEffect_abortPending _ _ _ _ (Nat.lt_of_lt_of_le hi x.hwSlots_le)]
  have e : ((if x.hidden.locked = some i then x.setLocked none else x).setWord (wordAddr x.ws i 0) v).abortPending i =
      x.abortPending i := by
    split <;> rfl
  rw [e]

/-- The code of a slot after an admitted control-word write. -/
theorem Instance.storeCode_code (x : Instance) (i : Nat) (v : Word) (s : SlotState) (hi : i < x.hwSlots)
    (h : Memory.wf x.mem) : (x.storeCode i v s).code i = codeOf v := by
  have hs := x.storeCode_stored i v s hi h
  have hw : (x.storeCode i v s).ws = x.ws := by unfold Instance.ws; rw [hs.fields]
  unfold Instance.code Instance.ctrl
  rw [hw, hs.words, if_pos rfl]

/-! ### Acceptance (43_mb_hardware.md R230 to R232) -/

/-- RTR counts only where RTR_MATCH compares it (43_mb_hardware.md R230). -/
theorem RtrMatch.admits_iff (m : RtrMatch) (cw : Word) (f : Frame) :
    m.admits cw f = true ↔ (m = .compared → f.rtr = cw.getLsbD 20) := by
  cases m <;> simp [RtrMatch.admits]

/-- The model's test of a slot is the spec's (43_mb_hardware.md R230, R232). -/
theorem Instance.couldTake_iff (x : Instance) (f : Frame) (e : Option Nat) (i : Nat) :
    x.CouldTake f e i ↔ x.fitsSlot i f = true ∧ e ≠ some i := by
  constructor
  · rintro ⟨h1, h2, h3, hr, h4, h5, h6⟩
    refine ⟨?_, h6⟩
    simp only [Instance.fitsSlot, Instance.matches, Bool.and_eq_true, decide_eq_true_eq, beq_iff_eq, RtrMatch.admits_iff]
    exact ⟨⟨⟨h1, h2⟩, ⟨h3, hr⟩, h4⟩, h5⟩
  · rintro ⟨h, h6⟩
    simp only [Instance.fitsSlot, Instance.matches, Bool.and_eq_true, decide_eq_true_eq, beq_iff_eq, RtrMatch.admits_iff] at h
    obtain ⟨⟨⟨h1, h2⟩, ⟨h3, hr⟩, h4⟩, h5⟩ := h
    exact ⟨h1, h2, h3, hr, h4, h5, h6⟩

/-- The eligible slots are those that could take the frame and are not locked. -/
theorem Instance.mem_eligibleSlots (x : Instance) (f : Frame) (e : Option Nat) (i : Nat) :
    i ∈ x.eligibleSlots f e ↔ x.CouldTake f e i ∧ x.hidden.locked ≠ some i := by
  rw [x.couldTake_iff]
  simp only [Instance.eligibleSlots, Instance.eligible, List.mem_filter, List.mem_range, Bool.and_eq_true, bne_iff_ne,
    ne_eq]
  constructor
  · rintro ⟨-, ⟨h1, h2⟩, h3⟩; exact ⟨⟨h1, h3⟩, h2⟩
  · rintro ⟨⟨h1, h3⟩, h2⟩
    refine ⟨?_, ⟨h1, h2⟩, h3⟩
    simp only [Instance.fitsSlot, Bool.and_eq_true, decide_eq_true_eq] at h1
    exact h1.1.1.1

/-- The eligible slots are listed in ascending order. -/
theorem Instance.eligibleSlots_sorted (x : Instance) (f : Frame) (e : Option Nat) :
    (x.eligibleSlots f e).Pairwise (· < ·) :=
  List.Pairwise.filter _ List.pairwise_lt_range

/-- What is chosen is one of the slots; under LowestIndex none is below it; and one is chosen unless there is none. -/
theorem choose_cases (order : RxMatchOrder) (pick : Nat) (l : List Nat) (hl : l.Pairwise (· < ·)) :
    choose order pick l = none ∧ l = [] ∨
      ∃ i, choose order pick l = some i ∧ i ∈ l ∧ (order = .lowestIndex → ∀ k ∈ l, i ≤ k) := by
  cases l with
  | nil => left; cases order <;> simp [choose]
  | cons a r =>
    right
    cases order with
    | lowestIndex =>
      refine ⟨a, rfl, by simp, fun _ k hk => ?_⟩
      rcases List.mem_cons.1 hk with rfl | hk
      · exact Nat.le_refl _
      · exact Nat.le_of_lt ((List.pairwise_cons.1 hl).1 k hk)
    | any =>
      have hp : pick % (a :: r).length < (a :: r).length := Nat.mod_lt _ (by simp)
      exact ⟨(a :: r)[pick % (a :: r).length], List.getElem?_eq_getElem hp, List.getElem_mem hp, fun h => absurd h (by simp)⟩

/-- Offering a frame has the outcomes of 43_mb_hardware.md R232 and no other. -/
theorem Instance.accept_offered (x : Instance) (order : RxMatchOrder) (f : Frame) (e : Option Nat) (pick : Nat) :
    x.Offered (x.accept order f e pick) order f e := by
  unfold Instance.accept
  rcases choose_cases order pick _ (x.eligibleSlots_sorted f e) with ⟨h, hn⟩ | ⟨i, h, hi, hl⟩ <;> rw [h]
  · right
    have hall : ∀ i, x.CouldTake f e i → x.hidden.locked = some i := by
      intro i hi
      by_contra hc
      have := (x.mem_eligibleSlots f e i).2 ⟨hi, hc⟩
      rw [hn] at this
      simp at this
    refine ⟨hall, ?_⟩
    cases hk : x.hidden.locked with
    | none =>
      right
      exact ⟨fun k hc => by have := hall k hc; rw [hk] at this; simp at this, rfl⟩
    | some k =>
      simp only [Bool.and_eq_true, bne_iff_ne]
      by_cases hc : x.CouldTake f e k
      · left
        refine ⟨k, rfl, hc, ?_⟩
        rw [if_pos ((x.couldTake_iff f e k).1 hc)]
      · right
        refine ⟨fun j hj => ?_, ?_⟩
        · have := hall j hj
          rw [hk] at this
          obtain rfl : k = j := by simpa using this
          exact hc hj
        · rw [if_neg fun h => hc ((x.couldTake_iff f e k).2 h)]
  · left
    have hi' := (x.mem_eligibleSlots f e i).1 hi
    exact ⟨i, hi'.1, hi'.2, fun ho k hk hlk => hl ho k ((x.mem_eligibleSlots f e k).2 ⟨hk, hlk⟩), rfl⟩

end Sys2Proof.Machine
end

