-- ==== Sys2Proof/Laws/Host.lean ====
section
/-! SUPPORT. Everything one host step of an operation can do to the controllers: `exec_access` says it once for all
operations, and `step_cases` for every agent. -/

namespace Sys2Proof.Machine

/-- One access of a host step of operation `i` at position `p`, taking controller `x` to `y`: one constructor per access
of 40_register_interface.md, and the two writes of the driver record. -/
inductive HostAccess (i : Instr) (p : Pos) (d : Nat) (x y : Instance) : Prop where
  | none (h : y = x)
  | unlock (hm : movesLock i p = true) (h : y = x.setLocked .none)
  | read (hm : movesLock i p = true) (w : Nat) (v : Word) (u : Nat) (h : wordRead w d x = .ok v y u)
  | field (f : Field) (v : Word) (u : Nat) (hf : storedField i p = some f) (hm : f = .mbws → movesLock i p = true)
      (h : fieldWrite (.named f) v d x = .ok () y u)
  | flags (v : Word) (hv : clearedFlags i p = v) (h : y = x.clearFlags v)
  | word (hm : movesLock i p = true) (w : Nat) (v : Word) (u : Nat) (hw : storedWord i p x = some w)
      (h : wordWrite w v d x = .ok () y u)
  | geometry (hm : movesLock i p = true) (ws : BitVec 8) (u : Nat) (hi : ∃ w c, i = .init i.inst w c ∧ p.pc = 12)
      (h : initGeometry ws d x = .ok () y u)
  | callback (h : Handler) (hi : i = .regCb i.inst (some h))
      (hy : y = { x with driver := { x.driver with callback := some h } })

/-- What a host step does to the controllers: nothing, or one access to the controller the operation names. -/
def Accessed (i : Instr) (s t : State) : Prop :=
  t.insts = s.insts ∨
    ∃ x y, s.insts[i.inst.toNat]? = some x ∧ t.insts = s.insts.set i.inst.toNat y ∧ HostAccess i s.pos s.draws x y

/-- A step on a controller does what its access does. -/
theorem onInst_accessed {α : Type} {i : Instr} {s t : State} {f : Nat → Instance → Acc α} {k : α → State → State}
    (h : onInst i i.inst s f k = .next t) (hf : ∀ x a y u, f s.draws x = .ok a y u → HostAccess i s.pos s.draws x y)
    (hk : ∀ a u, (k a u).insts = u.insts) : Accessed i s t := by
  rcases onInst_cases i i.inst s f k with ⟨e, -⟩ | ⟨x, a, y, u, hx, ha, e⟩ | ⟨x, r, sl, w, -, -, e⟩ <;>
    rw [e] at h <;> injection h with h <;> subst h
  · exact .inl (by simp)
  · exact .inr ⟨x, y, hx, by rw [hk]; rfl, hf x a y u ha⟩
  · exact .inl (by simp)

/-- A spin's read does what the read does, or nothing. -/
theorem spinRead_accessed {i : Instr} {s t : State} {p : Pos} {read : Outcome State}
    (h : s.spinRead i p read = .next t) (hr : read = .next t → Accessed i s t) : Accessed i s t := by
  rcases s.spinRead_cases i p read with e | e <;> rw [e] at h
  · exact hr h
  · injection h with h
    subst h
    exact .inl (by simp)

/-- A check or a pure computation touches nothing. -/
theorem look_access {α : Type} {i : Instr} {p : Pos} {d u : Nat} {f : Instance → α} {x y : Instance} {a : α}
    (h : look f d x = .ok a y u) : HostAccess i p d x y := by
  unfold look at h
  rw [Acc.ok.injEq] at h
  exact .none h.2.1.symm

/-- A read of a field but TIMER touches nothing. -/
theorem fieldRead_access {i : Instr} {p : Pos} {d u : Nat} {f : Field} {x y : Instance} {v : Word} (hf : f ≠ .timer)
    (h : fieldRead (.named f) d x = .ok v y u) : HostAccess i p d x y := by
  rw [fieldRead_named f d x hf, Acc.ok.injEq] at h
  exact .none h.2.1.symm

/-- A write of flags. -/
theorem flagClear_access {i : Instr} {p : Pos} {d u : Nat} {v : Word} {x y : Instance} (hv : clearedFlags i p = v)
    (h : flagClear v d x = .ok () y u) : HostAccess i p d x y := by
  unfold flagClear at h
  rw [Acc.ok.injEq] at h
  exact .flags v hv h.2.1.symm

/-- A read of TIMER. -/
theorem timerRead_access {i : Instr} {p : Pos} {d u : Nat} {v : Word} {x y : Instance} (hm : movesLock i p = true)
    (h : timerRead d x = .ok v y u) : HostAccess i p d x y := by
  unfold timerRead at h
  rw [Acc.ok.injEq] at h
  exact .unlock hm h.2.1.symm

/-- A write of a field but MBWS. -/
theorem fieldWrite_access {i : Instr} {p : Pos} {d u : Nat} {f : Field} {v : Word} {x y : Instance}
    (h : fieldWrite (.named f) v d x = .ok () y u) (hf : storedField i p = some f) (hm : f ≠ .mbws) :
    HostAccess i p d x y :=
  .field f v u hf (fun e => absurd e hm) h

/-- Every host step of every operation is one access, or none (40_register_interface.md; 44_driver_ops.md header). -/
theorem exec_access (i : Instr) (s t : State) (h : exec i s = .next t) : Accessed i s t := by
  cases i with
  | fldRd inst field =>
    simp only [exec, execFldRd] at h
    refine onInst_accessed h (fun x a y u ha => ?_) fun _ _ => by simp
    cases field with
    | unnamed n => exact absurd ha (by simp [fieldRead])
    | named f =>
      by_cases hf : f = .timer
      · subst hf; exact timerRead_access (by simp [movesLock]) ha
      · exact fieldRead_access hf ha
  | fldWr inst field value =>
    simp only [exec, execFldWr] at h
    refine onInst_accessed h (fun x a y u ha => ?_) fun _ _ => by simp
    cases field with
    | unnamed n => exact absurd ha (by simp [fieldWrite])
    | named f => exact .field f value u rfl (fun e => by simp [movesLock, e]) ha
  | mbRd inst word =>
    simp only [exec, execMbRd] at h
    exact onInst_accessed h (fun x a y u ha => .read rfl _ _ _ ha) fun _ _ => by simp
  | mbWr inst word value =>
    simp only [exec, execMbWr] at h
    exact onInst_accessed h (fun x a y u ha => .word rfl _ _ _ rfl ha) fun _ _ => by simp
  | iflagW1c inst value =>
    simp only [exec, execIflagW1c] at h
    exact onInst_accessed h (fun x a y u ha => flagClear_access rfl ha) fun _ _ => by simp
  | timerRd inst =>
    simp only [exec, execTimerRd] at h
    exact onInst_accessed h (fun x a y u ha => timerRead_access rfl ha) fun _ _ => by simp
  | init inst wordSize timing =>
    simp only [exec, execInit] at h
    split at h <;> rename_i hpc
    all_goals try (exact onInst_accessed h (fun x a y u ha =>
      fieldWrite_access ha (by simp only [storedField, hpc]) (by decide)) fun _ _ => by simp)
    · refine onInst_accessed h (fun x a y u ha => ?_) fun _ _ => by split <;> simp
      unfold initChecks at ha
      repeat' split at ha
      all_goals first
        | (rw [Acc.ok.injEq] at ha; exact .none ha.2.1.symm)
        | exact absurd ha (by simp)
    · exact onInst_accessed h (fun x a y u ha => fieldRead_access (by simp) ha) fun _ _ => by simp
    · exact onInst_accessed h (fun x a y u ha => look_access ha) fun _ _ => by simp
    · exact onInst_accessed h (fun x a y u ha => .geometry (by simp [movesLock, hpc]) _ _ ⟨_, _, rfl, hpc⟩ ha)
        fun _ _ => by simp
    · refine onInst_accessed h (fun x a y u ha => ?_) fun _ _ => by simp
      exact .word (by simp [movesLock, hpc]) _ _ _ (by simp [storedWord, hpc]) ((along_ok ..).1 ha).1
    · exact onInst_accessed h (fun x a y u ha => look_access ha) fun _ _ => by simp
    · exact onInst_accessed h (fun x a y u ha => fieldRead_access (by simp) ha) fun _ _ => by simp
  | frzEnter inst =>
    simp only [exec, execFrzEnter] at h
    split at h <;> rename_i hpc
    · exact onInst_accessed h (fun x a y u ha => look_access ha) fun _ _ => by simp
    · exact onInst_accessed h (fun x a y u ha => fieldWrite_access ha (by simp [storedField, hpc]) (by decide))
        fun _ _ => by simp
    · exact onInst_accessed h (fun x a y u ha => fieldWrite_access ha (by simp [storedField, hpc]) (by decide))
        fun _ _ => by simp
    · exact spinRead_accessed h fun h => onInst_accessed h (fun x a y u ha => fieldRead_access (by simp) ha)
        fun _ _ => by split <;> simp
  | frzExit inst =>
    simp only [exec, execFrzExit] at h
    split at h <;> rename_i hpc
    · exact onInst_accessed h (fun x a y u ha => look_access ha) fun _ _ => by simp
    · exact onInst_accessed h (fun x a y u ha => fieldWrite_access ha (by simp [storedField, hpc]) (by decide))
        fun _ _ => by simp
    · exact onInst_accessed h (fun x a y u ha => fieldWrite_access ha (by simp [storedField, hpc]) (by decide))
        fun _ _ => by simp
    · exact spinRead_accessed h fun h => onInst_accessed h (fun x a y u ha => fieldRead_access (by simp) ha)
        fun _ _ => by simp
    · exact onInst_accessed h (fun x a y u ha => fieldRead_access (by simp) ha) fun _ _ => by split <;> simp
  | cfgTx inst slot frame =>
    simp only [exec, execCfgTx] at h
    split at h <;> rename_i hpc
    · exact onInst_accessed h (fun x a y u ha => look_access ha) fun _ _ => by split <;> simp
    · exact onInst_accessed h (fun x a y u ha => .read (by simp [movesLock, hpc]) _ _ _ ((along_ok ..).1 ha).1)
        fun _ _ => by split <;> simp
    · exact onInst_accessed h (fun x a y u ha => .word (by simp [movesLock, hpc]) _ _ _ (by simp [storedWord, hpc])
        ((along_ok ..).1 ha).1) fun _ _ => by simp
    · exact onInst_accessed h (fun x a y u ha => .word (by simp [movesLock, hpc]) _ _ _ (by simp [storedWord, hpc]) ha)
        fun _ _ => by simp
    · rename_i h1 h2 h3
      have h0 : s.pos.pc ≠ 0 ∧ s.pos.pc ≠ 1 ∧ s.pos.pc ≠ 2 ∧ s.pos.pc ≠ 3 := ⟨h1, h2, h3, hpc⟩
      exact onInst_accessed h (fun x a y u ha => .word (by simp [movesLock]; omega) _ _ _
        (by simp only [storedWord]; split_ifs <;> first | rfl | omega) ha) fun _ _ => by simp
  | cfgRx inst slot filterId filterMask =>
    simp only [exec, execCfgRx] at h
    split at h <;> rename_i hpc
    · exact onInst_accessed h (fun x a y u ha => look_access ha) fun _ _ => by split <;> simp
    · exact onInst_accessed h (fun x a y u ha => .read (by simp [movesLock, hpc]) _ _ _ ha) fun _ _ => by simp
    · exact onInst_accessed h (fun x a y u ha => .word (by simp [movesLock, hpc]) _ _ _ (by simp [storedWord, hpc]) ha)
        fun _ _ => by simp
    · exact onInst_accessed h (fun x a y u ha => look_access ha) fun _ _ => by simp
    · exact onInst_accessed h (fun x a y u ha => fieldWrite_access ha (by simp [storedField, hpc]) (by decide))
        fun _ _ => by simp
    · exact onInst_accessed h (fun x a y u ha => look_access ha) fun _ _ => by simp
    · exact onInst_accessed h (fun x a y u ha => .word (by simp [movesLock, hpc]) _ _ _ (by simp [storedWord, hpc]) ha)
        fun _ _ => by simp
    · rename_i h1 h2 h3 h4 h5 h6
      have h0 : s.pos.pc ≠ 0 ∧ s.pos.pc ≠ 1 ∧ s.pos.pc ≠ 2 ∧ s.pos.pc ≠ 3 ∧ s.pos.pc ≠ 4 ∧ s.pos.pc ≠ 5 ∧ s.pos.pc ≠ 6 :=
        ⟨h1, h2, h3, h4, h5, h6, hpc⟩
      exact onInst_accessed h (fun x a y u ha => .word (by simp [movesLock]; omega) _ _ _
        (by simp only [storedWord]; split_ifs <;> first | rfl | omega) ha) fun _ _ => by simp
  | send inst slot frame =>
    simp only [exec, execSend] at h
    split at h <;> rename_i hpc
    · exact onInst_accessed h (fun x a y u ha => look_access ha) fun _ _ => by split <;> simp
    · exact onInst_accessed h (fun x a y u ha => flagClear_access (by simp [clearedFlags, hpc]) ha) fun _ _ => by simp
    · exact onInst_accessed h (fun x a y u ha => .read (by simp [movesLock, hpc]) _ _ _ ha) fun _ _ => by
        split
        · simp
        · split <;> simp
    · exact onInst_accessed h (fun x a y u ha => .word (by simp [movesLock, hpc]) _ _ _ (by simp [storedWord, hpc]) ha)
        fun _ _ => by simp
    · exact spinRead_accessed h fun h => onInst_accessed h (fun x a y u ha => fieldRead_access (by simp) ha)
        fun _ _ => by split <;> simp
    · exact onInst_accessed h (fun x a y u ha => flagClear_access (by simp [clearedFlags, hpc]) ha) fun _ _ => by simp
    · exact onInst_accessed h (fun x a y u ha => look_access ha) fun _ _ => by simp
    · exact onInst_accessed h (fun x a y u ha => look_access ha) fun _ _ => by simp
  | recv inst slot =>
    simp only [exec, execRecv] at h
    split at h <;> rename_i hpc
    · exact onInst_accessed h (fun x a y u ha => look_access ha) fun _ _ => by split <;> simp
    · refine spinRead_accessed h fun h => onInst_accessed h (fun x a y u ha => ?_) fun _ _ => by
        split
        · simp
        · split
          · simp
          · split <;> simp
      exact .read (by simp [movesLock, hpc]) _ _ _ ((along_ok ..).1 ha).1
    · exact onInst_accessed h (fun x a y u ha => .read (by simp [movesLock, hpc]) _ _ _ ((along_ok ..).1 ha).1)
        fun _ _ => by simp
    · exact onInst_accessed h (fun x a y u ha => .read (by simp [movesLock, hpc]) _ _ _ ((along_ok ..).1 ha).1)
        fun _ _ => by simp
    · exact onInst_accessed h (fun x a y u ha => timerRead_access (by simp [movesLock]; omega) ((along_ok ..).1 ha).1)
        fun _ _ => by split <;> simp
  | clrFlag inst slot =>
    simp only [exec, execClrFlag] at h
    split at h <;> rename_i hpc
    · exact onInst_accessed h (fun x a y u ha => look_access ha) fun _ _ => by split <;> simp
    · exact onInst_accessed h (fun x a y u ha => flagClear_access (by simp only [clearedFlags]; rw [if_neg hpc]) ha)
        fun _ _ => by simp
  | enIrq inst slot =>
    simp only [exec, execEnIrq] at h
    split at h <;> rename_i hpc
    · exact onInst_accessed h (fun x a y u ha => look_access ha) fun _ _ => by split <;> simp
    · exact onInst_accessed h (fun x a y u ha => look_access ha) fun _ _ => by simp
    · exact onInst_accessed h (fun x a y u ha => fieldRead_access (by simp) ha) fun _ _ => by simp
    · exact onInst_accessed h (fun x a y u ha => fieldWrite_access ha (by simp [storedField, hpc]) (by decide))
        fun _ _ => by simp
    · exact onInst_accessed h (fun x a y u ha => look_access ha) fun _ _ => by simp
    · exact onInst_accessed h (fun x a y u ha => look_access ha) fun _ _ => by simp
  | regCb inst handler =>
    simp only [exec, execRegCb] at h
    refine onInst_accessed h (fun x a y u ha => ?_) fun _ _ => by simp
    cases handler with
    | none => simp only [setCallback, Acc.ok.injEq] at ha; exact .none ha.2.1.symm
    | some c => simp only [setCallback, Acc.ok.injEq] at ha; exact .callback c rfl ha.2.1.symm
  | dispatch inst =>
    simp only [exec, execDispatch] at h
    split at h <;> rename_i hpc
    · exact onInst_accessed h (fun x a y u ha => look_access ha) fun _ _ => by split <;> simp
    · refine onInst_accessed h (fun x a y u ha => ?_) fun _ _ => ?_
      · simp only [dispatchScan, Acc.ok.injEq] at ha; exact .none ha.2.1.symm
      · split
        · simp
        · simp [State.startCallback]
    · exact onInst_accessed h (fun x a y u ha => look_access ha) fun _ _ => by split <;> simp
  | codeInactiveRx inst slot bits =>
    simp only [exec, execCodeInactiveRx] at h
    exact onInst_accessed h (fun x a y u ha => .word rfl _ _ _ rfl ha) fun _ _ => by simp
  | codeReceiveEmpty inst slot bits =>
    simp only [exec, execCodeReceiveEmpty] at h
    exact onInst_accessed h (fun x a y u ha => .word rfl _ _ _ rfl ha) fun _ _ => by simp
  | codeInactiveTx inst slot bits =>
    simp only [exec, execCodeInactiveTx] at h
    exact onInst_accessed h (fun x a y u ha => .word rfl _ _ _ rfl ha) fun _ _ => by simp
  | codeAbort inst slot bits =>
    simp only [exec, execCodeAbort] at h
    exact onInst_accessed h (fun x a y u ha => .word rfl _ _ _ rfl ha) fun _ _ => by simp
  | codeSend inst slot bits =>
    simp only [exec, execCodeSend] at h
    exact onInst_accessed h (fun x a y u ha => .word rfl _ _ _ rfl ha) fun _ _ => by simp
  | codeBusy inst slot =>
    simp only [exec, execCodeBusy] at h
    exact onInst_accessed h (fun x a y u ha => .read rfl _ _ _ ha) fun _ _ => by simp

end Sys2Proof.Machine
end

