-- ==== Sys2Proof/Laws/PerInstr.lean ====
section
/-! SUPPORT. For every operation: what it encodes to lies in its own row of spec/opcode_table.json. -/

namespace Sys2Proof.Laws.TableRow

/-- A row of spec/opcode_table.json: its format, its mask and its match. -/
structure Row where
  format : ReqFormat
  mask : Word
  value : Word

/-- The row of a host operation of number `num` (30_encoding.md R113). -/
def hostRow (num : Byte) : Row := ⟨.hostOp, 0x000000FF, num.setWidth 32⟩

/-- The row of a code command (30_encoding.md R115, R119). -/
def codeRow (code : BitVec 4) : Row := ⟨.controlWord, 0x0F000000, code.setWidth 32 <<< 24⟩

/-- The row of an operation, as the table gives it. -/
def row : Instr → Row
  | .fldRd _ _ => hostRow 0x01
  | .fldWr _ _ _ => hostRow 0x02
  | .mbRd _ _ => hostRow 0x03
  | .mbWr _ _ _ => hostRow 0x04
  | .iflagW1c _ _ => hostRow 0x05
  | .timerRd _ => hostRow 0x06
  | .init _ _ _ => hostRow 0x10
  | .frzEnter _ => hostRow 0x11
  | .frzExit _ => hostRow 0x12
  | .cfgTx _ _ _ => hostRow 0x13
  | .cfgRx _ _ _ _ => hostRow 0x14
  | .send _ _ _ => hostRow 0x15
  | .recv _ _ => hostRow 0x16
  | .clrFlag _ _ => hostRow 0x17
  | .enIrq _ _ => hostRow 0x18
  | .regCb _ _ => hostRow 0x19
  | .dispatch _ => hostRow 0x1A
  | .codeInactiveRx _ _ _ => codeRow 0x0
  | .codeReceiveEmpty _ _ _ => codeRow 0x4
  | .codeInactiveTx _ _ _ => codeRow 0x8
  | .codeAbort _ _ _ => codeRow 0x9
  | .codeSend _ _ _ => codeRow 0xC
  | .codeBusy _ _ => ⟨.controlWordRead, 0x0B000000, 0x01000000⟩

/-- The request an operation encodes to has its row's format, and its first bits are those of the row. -/
def Statement (i : Instr) : Prop :=
  (encode i).format = (row i).format ∧ wordAt (encode i).bytes 0 &&& (row i).mask = (row i).value

/-- A host operation's first byte is its number. -/
theorem host {i : Instr} (num : Byte) (operands : List Byte) (he : encode i = hostRequest num operands)
    (hr : row i = hostRow num) : Statement i := by
  have h (k : Nat) (hk : k < 32) : (0x000000FF#32).getLsbD k = decide (k < 8) := by interval_cases k <;> rfl
  unfold Statement
  rw [he, hr]
  refine ⟨rfl, BitVec.eq_of_getLsbD_eq fun k hk => ?_⟩
  show (wordAt (num :: operands) 0 &&& 0x000000FF#32).getLsbD k = (num.setWidth 32).getLsbD k
  simp only [wordAt, byteAt, List.getD_cons_zero, BitVec.getLsbD_and, BitVec.getLsbD_append, h k hk,
    BitVec.getLsbD_setWidth, hk, decide_true, Bool.true_and]
  by_cases h8 : k < 8
  · simp [h8]
  · simp [h8, BitVec.getLsbD_of_ge _ _ (by omega : 8 ≤ k)]

/-- A code command's word carries its code. -/
theorem code {i : Instr} (inst slot : BitVec 8) (b : CtrlBits) (c : BitVec 4)
    (he : encode i = controlRequest inst slot (b.toWord c)) (hr : row i = codeRow c) : Statement i := by
  have h (k : Nat) (hk : k < 32) : (0x0F000000#32).getLsbD k = (decide (24 ≤ k) && decide (k < 28)) := by
    interval_cases k <;> rfl
  have e : wordAt (controlRequest inst slot (b.toWord c)).bytes 0 = b.toWord c := wordAt_append [] [inst, slot] _
  unfold Statement
  rw [he, hr, e]
  refine ⟨rfl, BitVec.eq_of_getLsbD_eq fun k hk => ?_⟩
  show (b.toWord c &&& 0x0F000000#32).getLsbD k = (c.setWidth 32 <<< 24).getLsbD k
  simp only [BitVec.getLsbD_and, b.toWord_getLsbD c k hk, h k hk, BitVec.getLsbD_shiftLeft, BitVec.getLsbD_setWidth]
  interval_cases k <;> simp

theorem fldRd (inst : BitVec 8) (field : FieldSel) : Statement (.fldRd inst field) := host _ _ rfl rfl
theorem fldWr (inst : BitVec 8) (field : FieldSel) (value : Word) : Statement (.fldWr inst field value) := host _ _ rfl rfl
theorem mbRd (inst word : BitVec 8) : Statement (.mbRd inst word) := host _ _ rfl rfl
theorem mbWr (inst word : BitVec 8) (value : Word) : Statement (.mbWr inst word value) := host _ _ rfl rfl
theorem iflagW1c (inst : BitVec 8) (value : Word) : Statement (.iflagW1c inst value) := host _ _ rfl rfl
theorem timerRd (inst : BitVec 8) : Statement (.timerRd inst) := host _ _ rfl rfl
theorem init (inst wordSize : BitVec 8) (timing : Option Timing) : Statement (.init inst wordSize timing) :=
  host _ _ rfl rfl
theorem frzEnter (inst : BitVec 8) : Statement (.frzEnter inst) := host _ _ rfl rfl
theorem frzExit (inst : BitVec 8) : Statement (.frzExit inst) := host _ _ rfl rfl
theorem cfgTx (inst slot : BitVec 8) (frame : Option FrameRec) : Statement (.cfgTx inst slot frame) := host _ _ rfl rfl
theorem cfgRx (inst slot : BitVec 8) (filterId filterMask : Word) : Statement (.cfgRx inst slot filterId filterMask) :=
  host _ _ rfl rfl
theorem send (inst slot : BitVec 8) (frame : Option FrameRec) : Statement (.send inst slot frame) := host _ _ rfl rfl
theorem recv (inst slot : BitVec 8) : Statement (.recv inst slot) := host _ _ rfl rfl
theorem clrFlag (inst slot : BitVec 8) : Statement (.clrFlag inst slot) := host _ _ rfl rfl
theorem enIrq (inst slot : BitVec 8) : Statement (.enIrq inst slot) := host _ _ rfl rfl
theorem regCb (inst : BitVec 8) (handler : Option Handler) : Statement (.regCb inst handler) := host _ _ rfl rfl
theorem dispatch (inst : BitVec 8) : Statement (.dispatch inst) := host _ _ rfl rfl
theorem codeInactiveRx (inst slot : BitVec 8) (bits : CtrlBits) : Statement (.codeInactiveRx inst slot bits) :=
  code _ _ _ _ rfl rfl
theorem codeReceiveEmpty (inst slot : BitVec 8) (bits : CtrlBits) : Statement (.codeReceiveEmpty inst slot bits) :=
  code _ _ _ _ rfl rfl
theorem codeInactiveTx (inst slot : BitVec 8) (bits : CtrlBits) : Statement (.codeInactiveTx inst slot bits) :=
  code _ _ _ _ rfl rfl
theorem codeAbort (inst slot : BitVec 8) (bits : CtrlBits) : Statement (.codeAbort inst slot bits) := code _ _ _ _ rfl rfl
theorem codeSend (inst slot : BitVec 8) (bits : CtrlBits) : Statement (.codeSend inst slot bits) := code _ _ _ _ rfl rfl
theorem codeBusy (inst slot : BitVec 8) : Statement (.codeBusy inst slot) := by
  have e := wordAt_append [] [inst, slot] 0x01000000
  rw [List.nil_append, List.length_nil] at e
  unfold Statement
  simp only [encode, row]
  refine ⟨trivial, ?_⟩
  rw [e]
  decide

end Sys2Proof.Laws.TableRow
end

