-- ==== Sys2Proof/Laws/Step.lean ====
section
/-! SUPPORT. Everything one step of any agent can do to the controllers and to the host context. -/

namespace Sys2Proof.Machine

/-! ### Replacing one controller -/

/-- A controller after one was replaced. -/
theorem getElem?_set_cases {α : Type} (l : List α) (n m : Nat) (y : α) (x : α) (hx : l[n]? = some x) :
    (l.set n y)[m]? = if m = n then some y else l[m]? := by
  have hn : n < l.length := by
    by_contra h
    rw [List.getElem?_eq_none (by omega)] at hx
    simp at hx
  rw [List.getElem?_set]
  by_cases hm : n = m
  · subst hm; simp [hn]
  · rw [if_neg hm, if_neg fun h => hm h.symm]

/-- Replacing a controller by itself changes nothing. -/
theorem State.setInst_self (s : State) (n : Nat) (x : Instance) (h : s.insts[n]? = some x) : s.setInst n x = s := by
  unfold State.setInst
  have : s.insts.set n x = s.insts := by
    apply List.ext_getElem?
    intro m
    rw [getElem?_set_cases s.insts n m x x h]
    split
    · rename_i hm; rw [hm, h]
    · rfl
  rw [this]

/-- With no free value taken, committing a controller is replacing it. -/
@[simp] theorem State.commit_zero (s : State) (n : Nat) (x : Instance) : s.commit n x 0 = s.setInst n x := rfl

/-! ### Hardware steps -/

/-- The effect of a hardware event on its controller; none for the host and for an interrupt entry. -/
def hardware (order : RxMatchOrder) : Event → Option (Instance → Option Instance)
  | .host => none
  | .irqEntry _ => none
  | .freezeAck _ => some freezeAck
  | .freezeExit _ => some freezeExit
  | .sync _ => some syncStep
  | .txComplete _ i t pick => some (txComplete order i t pick)
  | .abortResolve _ i sent keep9 t pick => some (abortResolve order i sent keep9 t pick)
  | .rxBegin _ src pick => some (rxBegin order src pick)
  | .rxCommit _ i t fill => some (rxCommit i t fill)

/-- A hardware event runs its effect on its controller. -/
theorem runEvent_hardware (e : Event) (s : State) (n : Nat) (hc : e.controller = some n) (hi : e ≠ .irqEntry n) :
    ∃ f, hardware s.params.rxMatchOrder e = some f ∧ runEvent e s = .next (s.hwStep n f) := by
  cases e <;> simp only [Event.controller, Option.some.injEq, reduceCtorEq] at hc <;> subst hc
  · exact absurd rfl hi
  all_goals exact ⟨_, rfl, rfl⟩

/-- A hardware step replaces its controller where it is enabled, and else changes nothing (log 22). -/
theorem State.hwStep_cases (s : State) (n : Nat) (f : Instance → Option Instance) :
    s.hwStep n f = s ∧ (∀ x, s.insts[n]? = some x → f x = none) ∨
      ∃ x y, s.insts[n]? = some x ∧ f x = some y ∧ s.hwStep n f = s.setInst n y := by
  unfold State.hwStep
  cases hx : s.insts[n]? with
  | none => left; exact ⟨rfl, fun x h => absurd h (by simp)⟩
  | some x =>
    cases hf : f x with
    | none => left; exact ⟨by simp [hf], fun z h => by
        obtain rfl : x = z := by simpa using h
        exact hf⟩
    | some y => right; exact ⟨x, y, rfl, hf, by simp [hf]⟩

/-! ### One step -/

/-- Everything the host's next step can be (10_state.md R31; 60_exceptions.md R333). -/
theorem State.hostStep_cases (s : State) :
    (∃ a as, s.acts = a :: as ∧ s.hostStep = exec a.op s) ∨
    (∃ h hs, s.handlers = h :: hs ∧ h.acts = [] ∧ s.hostStep = .next s.leaveHandler) ∨
    s.handlers = [] ∧ s.mainline = [] ∧ (s.program = [] ∧ s.hostStep = .next s ∨
      ∃ r rest, s.program = r :: rest ∧ ((∃ i, decode r = .ok i ∧ s.hostStep = exec i { s with program := rest }) ∨
        ∃ e, decode r = .error e ∧
          s.hostStep = .next ({ s with program := rest }.raise (decodeFault e) (.undecoded r) none none))) := by
  unfold State.hostStep
  cases ha : s.acts with
  | cons a as => exact .inl ⟨a, as, rfl, rfl⟩
  | nil =>
    right
    cases hh : s.handlers with
    | cons h hs =>
      left
      refine ⟨h, hs, rfl, ?_, rfl⟩
      simpa [State.acts, hh] using ha
    | nil =>
      right
      refine ⟨rfl, by simpa [State.acts, hh] using ha, ?_⟩
      simp only [State.fetch]
      cases hp : s.program with
      | nil => exact .inl ⟨rfl, rfl⟩
      | cons r rest =>
        right
        refine ⟨r, rest, rfl, ?_⟩
        cases hd : decode r with
        | ok i => exact .inl ⟨i, rfl, by simp [hd, hh]⟩
        | error e => exact .inr ⟨e, rfl, by simp [hd, hh]⟩

/-- A step with no fault set is the step of the next event's agent. -/
theorem step_next {s t : State} (h : step s = .next t) : s.fault = none ∧ runEvent s.nextEvent s.takeEvent = .next t := by
  unfold step at h
  cases hf : s.fault with
  | some r => rw [hf] at h; exact absurd h (by simp)
  | none => rw [hf] at h; exact ⟨rfl, h⟩

/-- What any step does to the controllers: nothing; one access of one operation by the host; or the effect of one hardware
event on its controller. -/
theorem step_insts {s t : State} (h : step s = .next t) :
    t.insts = s.insts ∨
    (s.nextEvent = .host ∧ ∃ i u x y, u.insts = s.insts ∧ exec i u = .next t ∧ s.insts[i.inst.toNat]? = some x ∧
      t.insts = s.insts.set i.inst.toNat y ∧ HostAccess i u.pos u.draws x y) ∨
    ∃ n f x y, s.nextEvent.controller = some n ∧ hardware s.params.rxMatchOrder s.nextEvent = some f ∧
      s.insts[n]? = some x ∧ f x = some y ∧ t.insts = s.insts.set n y := by
  obtain ⟨-, h⟩ := step_next h
  have ex (i : Instr) (u : State) (hu : u.insts = s.insts) (he : exec i u = .next t) (hn : s.nextEvent = .host) :
      t.insts = s.insts ∨ (s.nextEvent = .host ∧ ∃ i u x y, u.insts = s.insts ∧ exec i u = .next t ∧
        s.insts[i.inst.toNat]? = some x ∧ t.insts = s.insts.set i.inst.toNat y ∧ HostAccess i u.pos u.draws x y) := by
    rcases exec_access i u t he with ht | ⟨x, y, hx, ht, ha⟩
    · left; rw [ht, hu]
    · right; exact ⟨hn, i, u, x, y, hu, he, hu ▸ hx, by rw [ht, hu], ha⟩
  cases hc : s.nextEvent.controller with
  | none =>
    have hn : s.nextEvent = .host := by cases he : s.nextEvent <;> simp_all [Event.controller]
    rw [hn] at h
    simp only [runEvent] at h
    rcases s.takeEvent.hostStep_cases with ⟨a, as, -, e⟩ | ⟨g, gs, -, -, e⟩ | ⟨-, -, ⟨-, e⟩ | ⟨r, rest, -, ⟨i, -, e⟩ | ⟨_, -, e⟩⟩⟩ <;>
      rw [e] at h
    · exact (ex _ _ (by simp) h hn).imp id .inl
    · injection h with h; subst h; left; simp
    · injection h with h; subst h; left; simp
    · exact (ex _ _ (by simp) h hn).imp id .inl
    · injection h with h; subst h; left; simp
  | some n =>
    by_cases hi : s.nextEvent = .irqEntry n
    · rw [hi] at h
      simp only [runEvent] at h
      injection h with h
      subst h
      left; simp
    · obtain ⟨f, hf, he⟩ := runEvent_hardware s.nextEvent s.takeEvent n hc hi
      rw [he] at h
      injection h with h
      rcases s.takeEvent.hwStep_cases n f with ⟨e, -⟩ | ⟨x, y, hx, hy, e⟩ <;> rw [e] at h <;> subst h
      · left; simp
      · right; right
        exact ⟨n, f, x, y, rfl, by simpa using hf, by simpa using hx, hy, by simp⟩

end Sys2Proof.Machine
end

