-- ==== Sys2Proof/Tests/Slice0.lean ====
section
/-! SUPPORT. The model's own tests: ill-formed terms, words written out from the encodings, one-step tests with results from
95_test_vectors.md (V numbers), and a witness for the hypotheses of every statement. -/

namespace Sys2Proof.Tests

open Sys2Proof.Machine

/-! ### Helpers -/

/-- A memory of a few words, the others 0. -/
def words (l : List (Nat × Word)) : Memory := l.foldl (fun m p => m.setWord p.1 p.2) []

/-- The fields of a controller that runs with four words a slot. -/
def running : Fields := { ResetDraw.named.fields with mdis := 0, synch := 1, srxdis := 1, mbws := 4 }

/-- The fields of a frozen controller with four words a slot. -/
def frozen : Fields :=
  { ResetDraw.named.fields with mdis := 0, frz := 1, halt := 1, frzack := 1, notrdy := 1, mbws := 4 }

/-- A controller whose driver is set up with four words a slot. -/
def ctl (f : Fields) (l : List (Nat × Word)) : Instance :=
  { Instance.resetWith ⟨f, words l⟩ with driver := { wordSize := some 4, slotRange := some 32, callback := some 7 } }

/-- One controller, and an idle host. -/
def sys (x : Instance) : State := { State.reset with insts := [x] }

/-- One controller, and operation `i` in progress at `p`. -/
def sysAt (x : Instance) (i : Instr) (p : Pos) : State := { sys x with mainline := [⟨i, p⟩] }

/-- One controller, and one event that comes next. -/
def sysEv (x : Instance) (e : Event) : State := { sys x with schedule := [e] }

/-- A spin budget. -/
def budget (b : SpinBudget) (s : State) : State := { s with params := { s.params with spinBudget := b } }

/-- What `f` reads off controller 0 and off the last return, where a step answers a next state. -/
def outcome {α : Type} (o : Outcome State) (f : Instance → α) : Option (α × Option (Result × RetVal) × Option Fault) :=
  match o with
  | .next t => t.insts[0]?.map fun x =>
      (f x, t.lastReturn.map fun r => (r.result, r.value), t.fault.map FaultRecord.reason)
  | _ => none

/-- The frame F1 of 95_test_vectors.md. -/
def recF1 : FrameRec :=
  { id := 0x123, ide := true, rtr := false, edl := false, brs := false, esi := false, dlc := 2,
    data := bytes64 fun k => [0xAA, 0xBB].getD k 0 }

/-- A frame that matches an ID word of 0x123 with IDE 1. -/
def frameF1 : Frame := checkedFrame (some recF1)

/-- A slot that receives: word 0 of slot 0 is 0x04200000, its ID word 0x123. -/
def armedCtl (f : Fields) : Instance := ctl { f with rxmgmask := 0x1FFFFFFF } [(0, 0x04200000), (1, 0x123)]

/-- The same with the reception of F1 under way. -/
def busyCtl (f : Fields) : Instance := (armedCtl f).beginRx 0 frameF1

/-- A slot whose transmission is being aborted. -/
def abortCtl (f : Fields) : Instance := (ctl f [(0, 0x09620000), (1, 0x123), (2, 0xAABB0000)]).setAbortPending 0 true

/-- A slot that sends F1. -/
def sendCtl (f : Fields) : Instance := ctl f [(0, 0x0C620000), (1, 0x123), (2, 0xAABB0000)]

/-- The same under the pseudocode line of 43_mb_hardware.md R222, where an abort request preempts (log 8). -/
def sendCtlPreempting (f : Fields) : Instance := { sendCtl f with params := { abortPreempts := true } }

/-- A timing record whose members are the largest that fit (V82). -/
def timing82 : Timing := ⟨255, 3, 7, 7, 7, 1⟩

/-- No other bit of a control word set. -/
def noBits : CtrlBits := CtrlBits.ofWord 0

/-- A controller with idle hidden state keeps the invariant. -/
theorem inv_ctl (f : Fields) (l : List (Nat × Word)) (h : Memory.wf (words l)) : (ctl f l).Inv := by
  have hb (i : Nat) : (ctl f l).busy i = false := by show (Hidden.idle.slot i).busy = false; simp
  have ha (i : Nat) : (ctl f l).abortPending i = false := by show (Hidden.idle.slot i).abortPending = false; simp
  exact
    { memory := h
      busySlot := fun i hi => by rw [hb] at hi; simp at hi
      idleSlot := fun i _ => by show (Hidden.idle.slot i).rxInflight = none; simp
      abortSlot := fun i hi => by rw [ha] at hi; simp at hi
      lockedSlot := fun k hk => by simp [ctl, Instance.resetWith] at hk
      heldFrame := fun g hg => by simp [ctl, Instance.resetWith] at hg
      wordSize := fun ws hw => by obtain rfl : 4 = ws := by simpa [ctl] using hw
                                  decide
      range := rfl }

/-- The state of one controller and a host without handlers keeps the invariant. -/
theorem inv_sys (x : Instance) (h : x.Inv) (i : Instr) (p : Pos) (es : List Event) :
    ({ sysAt x i p with schedule := es } : State).Inv :=
  { insts := fun y hy => by obtain rfl : y = x := by simpa [sysAt, sys] using hy
                            exact h
    handlersOnce := List.nodup_nil
    handlersExist := fun g hg => absurd hg List.not_mem_nil }

/-- A controller whose reception is under way keeps the invariant. -/
theorem inv_busyCtl : (busyCtl running).Inv := by
  have hs (i : Nat) : (busyCtl running).hidden.slot i =
      if i = 0 ∧ 0 < 32 then { Hidden.idle.slot 0 with busy := true, rxInflight := some frameF1 } else Hidden.idle.slot i :=
    Hidden.slot_setSlot_iff _ 0 i _
  exact
    { memory := by decide
      busySlot := fun i hi => by
        unfold Instance.busy at hi
        rw [hs] at hi
        by_cases h0 : i = 0
        · subst h0
          exact ⟨by decide, by decide, frameF1, by decide, by decide, by decide⟩
        · rw [if_neg fun h => h0 h.1] at hi; simp at hi
      idleSlot := fun i hi => by
        unfold Instance.busy at hi
        rw [hs] at hi ⊢
        by_cases h0 : i = 0
        · subst h0; simp at hi
        · rw [if_neg fun h => h0 h.1]; simp
      abortSlot := fun i hi => by
        unfold Instance.abortPending at hi
        rw [hs] at hi
        by_cases h0 : i = 0
        · subst h0; simp at hi
        · rw [if_neg fun h => h0 h.1] at hi; simp at hi
      lockedSlot := fun k hk => by simp [busyCtl, armedCtl, ctl, Instance.resetWith] at hk
      heldFrame := fun g hg => by simp [busyCtl, armedCtl, ctl, Instance.resetWith] at hg
      wordSize := fun ws hw => by
        obtain rfl : 4 = ws := by simpa [busyCtl, armedCtl, ctl] using hw
        decide
      range := rfl }

/-- A controller with an abort pending keeps the invariant. -/
theorem inv_abortCtl : (abortCtl running).Inv := by
  have hs (i : Nat) : (abortCtl running).hidden.slot i =
      if i = 0 ∧ 0 < 32 then { Hidden.idle.slot 0 with abortPending := true } else Hidden.idle.slot i :=
    Hidden.slot_setSlot_iff _ 0 i _
  exact
    { memory := by decide
      busySlot := fun i hi => by
        unfold Instance.busy at hi
        rw [hs] at hi
        by_cases h0 : i = 0
        · subst h0; simp at hi
        · rw [if_neg fun h => h0 h.1] at hi; simp at hi
      idleSlot := fun i _ => by
        rw [hs]
        by_cases h0 : i = 0
        · subst h0; simp
        · rw [if_neg fun h => h0 h.1]; simp
      abortSlot := fun i hi => by
        unfold Instance.abortPending at hi
        rw [hs] at hi
        by_cases h0 : i = 0
        · subst h0; exact ⟨by decide, by decide⟩
        · rw [if_neg fun h => h0 h.1] at hi; simp at hi
      lockedSlot := fun k hk => by simp [abortCtl, ctl, Instance.resetWith] at hk
      heldFrame := fun g hg => by simp [abortCtl, ctl, Instance.resetWith] at hg
      wordSize := fun ws hw => by
        obtain rfl : 4 = ws := by simpa [abortCtl, ctl] using hw
        decide
      range := rfl }

/-! ### WellFormed refuses ill-formed terms -/

theorem test_illformed_fldRd : (Instr.fldRd 0 (.unnamed 18)).wellFormed = false := by decide
theorem test_illformed_fldWr : (Instr.fldWr 0 (.unnamed 0) 1).wellFormed = false := by decide
theorem test_wellformed_unnamed : (Instr.fldRd 0 (.unnamed 19)).wellFormed = true := by decide

/-! ### Words written out from 30_encoding.md R111, R113, R115, R117 -/

theorem test_decode_fldRd : decode ⟨.hostOp, [0x01, 0x00, 0x03]⟩ = .ok (.fldRd 0 (.named .frzack)) := by decide
theorem test_decode_fldRd_unnamed : decode ⟨.hostOp, [0x01, 0x00, 0x13]⟩ = .ok (.fldRd 0 (.unnamed 19)) := by decide
theorem test_decode_fldWr :
    decode ⟨.hostOp, [0x02, 0x00, 0x08, 0x00, 0x01, 0x00, 0x00]⟩ = .ok (.fldWr 0 (.named .presdiv) 256) := by decide
theorem test_decode_mbRd : decode ⟨.hostOp, [0x03, 0x00, 0x80]⟩ = .ok (.mbRd 0 128) := by decide
theorem test_decode_mbWr :
    decode ⟨.hostOp, [0x04, 0x00, 0x7E, 0xEF, 0xBE, 0xAD, 0xDE]⟩ = .ok (.mbWr 0 126 0xDEADBEEF) := by decide
theorem test_decode_iflagW1c :
    decode ⟨.hostOp, [0x05, 0x00, 0x01, 0x00, 0x00, 0x80]⟩ = .ok (.iflagW1c 0 0x80000001) := by decide
theorem test_decode_timerRd : decode ⟨.hostOp, [0x06, 0x02]⟩ = .ok (.timerRd 2) := by decide
theorem test_decode_init :
    decode ⟨.hostOp, [0x10, 0x00, 0x04, 0x01] ++ [0xFF, 0, 0, 0] ++ [3, 0, 0, 0] ++ [7, 0, 0, 0] ++ [7, 0, 0, 0] ++
      [7, 0, 0, 0] ++ [1, 0, 0, 0]⟩ = .ok (.init 0 4 (some timing82)) := by decide
theorem test_decode_init_absent :
    decode ⟨.hostOp, [0x10, 0x00, 0x04] ++ List.replicate 25 0⟩ = .ok (.init 0 4 none) := by decide
theorem test_decode_frzEnter : decode ⟨.hostOp, [0x11, 0x01]⟩ = .ok (.frzEnter 1) := by decide
theorem test_decode_frzExit : decode ⟨.hostOp, [0x12, 0x01]⟩ = .ok (.frzExit 1) := by decide
theorem test_decode_cfgTx :
    decode ⟨.hostOp, [0x13, 0x00, 0x1F, 0x01, 0x23, 0x01, 0x00, 0x00, 0x01, 0x02, 0xAA, 0xBB] ++ List.replicate 62 0⟩ =
      .ok (.cfgTx 0 31 (some recF1)) := by decide
theorem test_decode_cfgRx :
    decode ⟨.hostOp, [0x14, 0x00, 0x01, 0x00, 0xDE, 0xBC, 0x1A, 0x00, 0xFF, 0xFF, 0x1F]⟩ =
      .ok (.cfgRx 0 1 0x1ABCDE00 0x1FFFFF00) := by decide
theorem test_decode_send :
    decode ⟨.hostOp, [0x15, 0x00, 0x00] ++ List.replicate 71 0⟩ = .ok (.send 0 0 none) := by decide
theorem test_decode_recv : decode ⟨.hostOp, [0x16, 0x00, 0x02]⟩ = .ok (.recv 0 2) := by decide
theorem test_decode_clrFlag : decode ⟨.hostOp, [0x17, 0x00, 0x20]⟩ = .ok (.clrFlag 0 32) := by decide
theorem test_decode_enIrq : decode ⟨.hostOp, [0x18, 0x00, 0x03]⟩ = .ok (.enIrq 0 3) := by decide
theorem test_decode_regCb : decode ⟨.hostOp, [0x19, 0x00, 0x01, 0x07]⟩ = .ok (.regCb 0 (some 7)) := by decide
theorem test_decode_dispatch : decode ⟨.hostOp, [0x1A, 0x00]⟩ = .ok (.dispatch 0) := by decide
theorem test_decode_codeInactiveRx :
    decode ⟨.controlWord, [0x00, 0x00, 0x00, 0x00, 0x00, 0x00]⟩ = .ok (.codeInactiveRx 0 0 noBits) := by decide
theorem test_decode_codeReceiveEmpty :
    decode ⟨.controlWord, [0x00, 0x00, 0x20, 0x04, 0x00, 0x01]⟩ =
      .ok (.codeReceiveEmpty 0 1 { noBits with ide := true }) := by decide
theorem test_decode_codeInactiveTx :
    decode ⟨.controlWord, [0x34, 0x12, 0x62, 0x08, 0x00, 0x00]⟩ =
      .ok (.codeInactiveTx 0 0 { noBits with srr := true, ide := true, dlc := 2, low := 0x1234 }) := by decide
theorem test_decode_codeAbort :
    decode ⟨.controlWord, [0x00, 0x00, 0x90, 0x19, 0x00, 0x02]⟩ =
      .ok (.codeAbort 0 2 { noBits with un28 := true, un23 := true, rtr := true }) := by decide
theorem test_decode_codeSend :
    decode ⟨.controlWord, [0x00, 0x00, 0x6F, 0xCC, 0x00, 0x00]⟩ =
      .ok (.codeSend 0 0 { noBits with edl := true, brs := true, srr := true, ide := true, dlc := 15 }) := by decide
theorem test_decode_codeSend_esi :
    decode ⟨.controlWord, [0x00, 0x00, 0x68, 0x2C, 0x00, 0x00]⟩ =
      .ok (.codeSend 0 0 { noBits with esi := true, srr := true, ide := true, dlc := 8 }) := by decide
theorem test_decode_codeBusy :
    decode ⟨.controlWordRead, [0x78, 0x56, 0x34, 0xF5, 0x00, 0x01]⟩ = .ok (.codeBusy 0 1) := by decide
/-- R118, R120: a written code that is no command, and a number outside the table. -/
theorem test_decode_refused :
    decode ⟨.controlWord, [0x00, 0x00, 0x00, 0x05, 0x00, 0x00]⟩ = .error (.reservedCode 5) ∧
    decode ⟨.controlWord, [0x00, 0x00, 0x00, 0x0A, 0x00, 0x00]⟩ = .error (.reservedCode 10) ∧
    decode ⟨.hostOp, [0x07, 0x00]⟩ = .error (.unknownOperation 7) ∧
    decode ⟨.hostOp, [0x1B, 0x00]⟩ = .error (.unknownOperation 27) ∧
    decode ⟨.controlWordRead, [0x00, 0x00, 0x00, 0x09, 0x00, 0x00]⟩ = .error (.notBusyCode 9) := by decide

/-! ### The mapper (V50 to V74) -/

theorem test_V50_control : encodeControl 0xC frameF1 = 0x0C620000 := by decide
theorem test_V54_control : encodeControl 0xC { frameF1 with edl := true, brs := true, dlc := 15 } = 0xCC6F0000 := by decide
theorem test_V58_id : encodeId 18 { frameF1 with id := 0x7FF, ide := false } = 0x1FFC0000 := by decide
theorem test_V60_id : decodeId 18 0xFFFFFFFF true = 0x1FFFFFFF ∧ decodeId 18 0x0004FFFF false = 0x001 := by decide
theorem test_V62_pack : pack (bytes64 fun k => [0x11, 0x22, 0x33, 0x44, 0x55].getD k 0) 5 = [0x11223344, 0x55000000] := by
  decide
theorem test_V65_unpack : (unpack [0xDEADBEEF] 3).toList.take 5 = [0xDE, 0xAD, 0xBE, 0, 0] := by decide
theorem test_V67_dlc :
    dlcBytes {} false 9 = 8 ∧ dlcBytes {} true 9 = 12 ∧ dlcBytes {} true 13 = 32 ∧ dlcBytes {} true 15 = 64 := by decide
/-- The abort write of a word with every unassigned bit set, as 30_encoding.md R119 and as 44_driver_ops.md R284 have it. -/
theorem test_R119_abortWord :
    abortWord true 0x1CE2ABCD = 0x09620000 ∧ abortWord false 0x1CE2ABCD = 0x19E2ABCD ∧
    (Instance.resetWith .named).params.sendClears = true := by decide
/-- The places of 93_implementation_defined.md I4. -/
theorem test_I4_layout :
    let l := State.reset.params.regLayout
    l.fieldAt 0 .mdis = some (0, 31) ∧ l.fieldAt 0 .rjw = some (4, 22) ∧ l.fieldAt 0 .iflag = some (0x30, 0) ∧
    l.fieldAt 0 .mbws = none ∧ l.wordAt 0 127 = some 0x27C ∧ l.wordAt 1 0 = none := by decide
/-- The values of 00_scope.md R16 stand in a controller after reset. -/
theorem test_R16_values :
    let p := (Instance.resetWith .named).params
    [p.busyRead.code true, p.busyRead.code false] = [0x1, 0x5] ∧ [p.abortFinal.code false, p.abortFinal.code true] = [8, 9] ∧
    p.rtrMatch = .ignored ∧ p.stdIdShift = 18 ∧ p.rxIde = true ∧ p.initClksrc = 0 ∧ (Instance.resetWith .named).lineEnabled = true ∧
    State.reset.params.spinBudget = .unbounded ∧ State.reset.params.rxMatchOrder = .any := by decide
theorem test_V71_geometry : slotRange 18 = 7 ∧ capacity 18 = 64 ∧ slotRange 4 = 32 ∧ wordAddr 5 24 4 = 124 := by decide

/-! ### The register interface (V1 to V44) -/

theorem test_V1_fldRd : outcome (exec (.fldRd 0 (.named .frzack)) (sys (ctl frozen []))) (·.fields.frzack) =
    some (1, some (.success, .word 1), none) := by decide
theorem test_V2_fldRd : (match exec (.fldRd 1 (.named .mdis)) State.reset with
    | .next t => t.lastReturn.map Return.result
    | _ => none) = some .invalidInstance := by decide
theorem test_V17_fldWr :
    outcome (exec (.fldWr 0 (.named .imask) 0x80000001) (sys (ctl { frozen with imask := 1 } []))) (·.fields.imask) =
      some (0x80000001, some (.success, .none), none) := by decide
theorem test_V7_fldWr : outcome (exec (.fldWr 0 (.named .srxdis) 2) (sys (ctl running []))) (·.fields.srxdis) =
    some (1, none, some .fieldOverflow) := by decide
theorem test_V21_mbRd : outcome (exec (.mbRd 0 0) (sys (armedCtl running))) (·.hidden.locked) =
    some (some 0, some (.success, .word 0x04200000), none) := by decide
theorem test_V22_mbRd : outcome (exec (.mbRd 0 8) (sys ((ctl running [(4, 0x04000000)]).setLocked (some 1)))) (·.hidden.locked) =
    some (none, some (.success, .word 0), none) := by decide
theorem test_V29_mbWr : outcome (exec (.mbWr 0 126 0xDEADBEEF) (sys (ctl { running with mbws := 5 } []))) (·.word 126) =
    some (0xDEADBEEF, some (.success, .none), none) := by decide
theorem test_V27_mbWr : outcome (exec (.mbWr 0 1 0) (sys (armedCtl running))) (·.word 1) =
    some (0x123, none, some .writeToArmedSlot) := by decide
theorem test_V40_iflagW1c : outcome (exec (.iflagW1c 0 1) (sys (ctl { running with iflag := 5 } []))) (·.fields.iflag) =
    some (4, some (.success, .none), none) := by decide
theorem test_V43_iflagW1c : outcome (exec (.iflagW1c 0 2) (sys (ctl { running with iflag := 4 } []))) (·.fields.iflag) =
    some (4, some (.success, .none), none) := by decide
/-- V44: the value is free, so only the lock is tested. -/
theorem test_V44_timerRd : (match exec (.timerRd 0) (sys ((ctl running []).setLocked (some 3))) with
    | .next t => t.insts.map (·.hidden.locked)
    | _ => []) = [none] := by decide

/-! ### The code commands (V90 to V107) -/

theorem test_V94_codeInactiveRx :
    outcome (exec (.codeInactiveRx 0 0 noBits) (sys ((armedCtl running).setLocked (some 0))))
      (fun x => (x.slotState 0, x.hidden.locked)) = some ((.inactiveRx, none), some (.success, .none), none) := by decide
theorem test_V104_codeInactiveRx :
    outcome (exec (.codeInactiveRx 0 0 noBits) (sys (ctl running [(0, 0x0F000000)]))) (·.slotState 0) =
      some (.inactiveRx, some (.success, .none), none) := by decide
theorem test_V26_codeReceiveEmpty :
    outcome (exec (.codeReceiveEmpty 0 1 { noBits with ide := true }) (sys (ctl running [])))
      (fun x => (x.slotState 1, x.word 4)) = some ((.receiveEmpty, 0x04200000), some (.success, .none), none) := by decide
theorem test_V96_codeReceiveEmpty :
    outcome (exec (.codeReceiveEmpty 0 0 noBits) (sys (busyCtl running))) (·.slotState 0) =
      some (.busy, none, some .illegalCodeTransition) := by decide
theorem test_V92_codeInactiveTx :
    outcome (exec (.codeInactiveTx 0 0 noBits) (sys (ctl running []))) (·.slotState 0) =
      some (.inactiveTx, some (.success, .none), none) := by decide
theorem test_V97_codeAbort :
    outcome (exec (.codeAbort 0 0 { noBits with srr := true, ide := true, dlc := 2 }) (sys (sendCtl running)))
      (fun x => (x.slotState 0, x.word 0)) = some ((.abortPending, 0x09620000), some (.success, .none), none) := by decide
theorem test_V100_codeAbort :
    outcome (exec (.codeAbort 0 0 noBits) (sys (ctl running [(0, 0x08000000)]))) (fun x => (x.slotState 0, x.fields.iflag)) =
      some ((.aborted, 0), some (.success, .none), none) := by decide
theorem test_V90_codeSend :
    outcome (exec (.codeSend 0 0 { noBits with srr := true, ide := true, dlc := 2 }) (sys (ctl running []))) (·.slotState 0) =
      some (.send, some (.success, .none), none) := by decide
theorem test_V98_codeSend :
    outcome (exec (.codeSend 0 0 noBits) (sys (sendCtl running))) (·.slotState 0) =
      some (.send, none, some .illegalCodeTransition) := by decide
/-- V24: a busy slot is not locked by the read. -/
theorem test_V24_codeBusy : (match exec (.codeBusy 0 0) (sys (busyCtl running)) with
    | .next t => t.insts.map fun x => (x.slotState 0, x.hidden.locked)
    | _ => []) = [(.busy, none)] := by decide

/-! ### The driver operations (V80 to V170) -/

/-- What a step of an operation leads to: the line that runs next, or the result. -/
def line (o : Outcome State) : Option (List Nat × Option Result) :=
  match o with
  | .next t => some (t.mainline.map (·.pos.pc), t.lastReturn.map Return.result)
  | _ => none

theorem test_V84_init : line (exec (.init 0 19 (some ⟨256, 0, 0, 0, 0, 0⟩)) State.reset) = some ([], some .fail) := by decide
theorem test_V82_init :
    outcome (exec (.init 0 4 (some timing82)) (sysAt (ctl frozen []) (.init 0 4 (some timing82)) { pc := 6 }))
      (·.fields.presdiv) = some (255, none, none) := by decide
theorem test_frzEnter_line2 :
    outcome (exec (.frzEnter 0) (sysAt (ctl { running with frz := 1 } []) (.frzEnter 0) { pc := 2 })) (·.fields.halt) =
      some (1, none, none) := by decide
theorem test_frzExit_line4 :
    line (exec (.frzExit 0) (sysAt (ctl running []) (.frzExit 0) { pc := 4, val := 0 })) = some ([], some .success) := by
  decide
theorem test_V142_cfgTx :
    line (exec (.cfgTx 0 0 (some { recF1 with id := 0x800, ide := false, dlc := 1 })) (sys (ctl running []))) =
      some ([], some .fail) := by decide
theorem test_V140_cfgTx :
    outcome (exec (.cfgTx 0 0 (some recF1)) (sysAt (ctl running []) (.cfgTx 0 0 (some recF1)) { pc := 2 })) (·.word 2) =
      some (0xAABB0000, none, none) := by decide
theorem test_V152_cfgRx : line (exec (.cfgRx 0 1 0x20000000 0) (sys (ctl running []))) = some ([], some .fail) := by decide
theorem test_V150_cfgRx :
    outcome (exec (.cfgRx 0 1 0x1ABCDE00 0x1FFFFF00) (sysAt (ctl running []) (.cfgRx 0 1 0x1ABCDE00 0x1FFFFF00) { pc := 7 }))
      (·.word 4) = some (0x04200000, some (.success, .none), none) := by decide
theorem test_V158_send : line (exec (.send 0 0 none) (sys (ctl running []))) = some ([], some .fail) := by decide
theorem test_V156_send :
    outcome (exec (.send 0 0 (some recF1))
      (sysAt (sendCtl running) (.send 0 0 (some recF1)) { pc := 3, val := 0x0C620000 }))
      (fun x => (x.word 0, x.slotState 0)) = some ((0x09620000, .abortPending), none, none) := by decide
theorem test_V162_recv :
    line (exec (.recv 0 2) (sysAt (ctl running []) (.recv 0 2) { pc := 1 })) = some ([], some .fail) := by decide
theorem test_V163_recv :
    outcome (exec (.recv 0 1) (sysAt (ctl running [(4, 0x84090000)]) (.recv 0 1) { pc := 1 })) (·.hidden.locked) =
      some (some 1, none, none) ∧
    line (exec (.recv 0 1) (sysAt (ctl running [(4, 0x84090000)]) (.recv 0 1) { pc := 1 })) = some ([4], none) := by decide
theorem test_V165_clrFlag :
    outcome (exec (.clrFlag 0 1) (sysAt (ctl { running with iflag := 6 } []) (.clrFlag 0 1) { pc := 1 })) (·.fields.iflag) =
      some (4, some (.success, .none), none) := by decide
theorem test_V166_clrFlag : line (exec (.clrFlag 0 32) (sys (ctl running []))) = some ([], some .fail) := by decide
theorem test_V167_enIrq :
    outcome (exec (.enIrq 0 3) (sysAt (ctl { frozen with imask := 1 } []) (.enIrq 0 3) { pc := 3, val := 1 })) (·.fields.imask) =
      some (9, none, none) := by decide
theorem test_V168_regCb : outcome (exec (.regCb 0 (some 9)) (sys (ctl running []))) (·.driver.callback) =
    some (some 9, some (.success, .none), none) := by decide
theorem test_V169_regCb : outcome (exec (.regCb 0 none) (sys (ctl running []))) (·.driver.callback) =
    some (some 7, some (.fail, .none), none) := by decide
/-- V170: the lowest flag goes to the callback. -/
theorem test_V170_dispatch :
    (match exec (.dispatch 0) (sysAt (ctl { running with iflag := 0xA } []) (.dispatch 0) { pc := 1 }) with
    | .next t => t.mainline.map (·.pos.called)
    | _ => []) = [some (7, 1)] := by decide

/-! ### Hardware steps (V110 to V130) -/

theorem test_V110_freezeAck :
    outcome (step (sysEv (ctl { running with frz := 1, halt := 1 } []) (.freezeAck 0)))
      (fun x => (x.fields.frzack, x.fields.notrdy, x.fields.synch)) = some ((1, 1, 0), none, none) := by decide
theorem test_V116_txComplete :
    outcome (step (sysEv (sendCtl running) (.txComplete 0 0 0x1234 0))) (fun x => [x.word 0, x.fields.iflag]) =
      some ([0x08621234, 1], none, none) := by decide
theorem test_V116_bus :
    outcome (step (sysEv (sendCtl running) (.txComplete 0 0 0x1234 0))) (fun x => x.busOut.map (·.data)) =
      some ([[0xAA, 0xBB]], none, none) := by decide
theorem test_V119_abortResolve :
    outcome (step (sysEv (abortCtl running) (.abortResolve 0 0 true false 0 0)))
      (fun x => (x.word 0, x.slotState 0, x.busOut.length)) = some ((0x08620000, .inactiveTx, 1), none, none) := by decide
theorem test_V121_rxBegin :
    outcome (step (sysEv (armedCtl running) (.rxBegin 0 (.bus frameF1) 0))) (·.slotState 0) =
      some (.busy, none, none) := by decide
theorem test_V128_rxCommit :
    outcome (step (sysEv (busyCtl running) (.rxCommit 0 0 0x42 0)))
      (fun x => [x.word 0, x.word 1, x.word 2, x.fields.iflag]) =
        some ([0x04620042, 0x123, 0xAABB0000, 1], none, none) := by decide

/-! ### Reset and the fetch -/

theorem test_reset_memory : State.reset.insts.map (fun x => x.mem) = [[]] := rfl
theorem test_fetch_timerRd :
    step (State.reset.withFetchWord 8 0x06) = exec (.timerRd 0) { State.reset with program := [] } := rfl
theorem test_fetch_codeSend :
    step (State.reset.withFetchWord 32 0x0C620000) =
      exec (.codeSend 0 0 { noBits with srr := true, ide := true, dlc := 2 }) { State.reset with program := [] } := rfl

/-! ### Witnesses: for every statement with hypotheses, data that meets them, clause by clause at a boundary -/

theorem witness_DecodeEncode :
    (Instr.fldRd 255 (.unnamed 19)).wellFormed = true ∧ (Instr.fldWr 0 (.unnamed 255) 0xFFFFFFFF).wellFormed = true ∧
    (Instr.fldRd 0 (.named .timer)).wellFormed = true := by decide

theorem witness_Numbers :
    (∀ num ∈ [0x00#8, 0x07#8, 0x0F#8, 0x1B#8, 0xFF#8],
      let s : State := { State.reset with schedule := [.host], program := [⟨.hostOp, [num]⟩] }
      s.fault = none ∧ s.schedule = .host :: [] ∧ s.handlers = [] ∧ s.mainline = [] ∧
      s.program = ⟨.hostOp, num :: []⟩ :: [] ∧
      num.toNat ∉ [0x01, 0x02, 0x03, 0x04, 0x05, 0x06, 0x10, 0x11, 0x12, 0x13, 0x14, 0x15, 0x16, 0x17, 0x18, 0x19, 0x1A]) ∧
    (∀ n ∈ [19#8, 255#8], 19 ≤ n.toNat ∧ State.reset.insts[(0 : BitVec 8).toNat]? = some (.resetWith .named)) := by decide

theorem witness_SlotWords :
    ({ frameF1 with id := 0x1FFFFFFF } : Frame).ide = true ∧ ({ frameF1 with id := 0x1FFFFFFF } : Frame).wellFormed = true ∧
    ({ frameF1 with id := 0x7FF, ide := false } : Frame).ide = false ∧
    ({ frameF1 with id := 0x7FF, ide := false } : Frame).wellFormed = true := by decide

theorem witness_PayloadBytes : 64 ≤ 64 ∧ 63 < 4 * ((64 + 3) / 4) ∧ 1 ≤ 64 ∧ 3 < 4 * ((1 + 3) / 4) ∧ 63 < 64 := by decide

theorem witness_Geometry :
    (4 ≤ 4 ∧ 4 ≤ 18 ∧ 31 < slotRange 4 ∧ 3 < 4) ∧ (4 ≤ 18 ∧ 18 ≤ 18 ∧ 6 < slotRange 18 ∧ 17 < 18) ∧ 0 < slotRange 18 ∧
    (8 : BitVec 4).toNat ≤ 8 := by decide

theorem witness_StepRunsDecoded :
    (∃ i, decode ⟨.hostOp, [0x1A, 0x01]⟩ = .ok i) ∧
    (let s : State := { State.reset with schedule := [.host], program := [⟨.hostOp, [0x1A, 0x01]⟩] }
     s.fault = none ∧ s.schedule = .host :: [] ∧ s.handlers = [] ∧ s.mainline = [] ∧
     s.program = ⟨.hostOp, [0x1A, 0x01]⟩ :: []) ∧
    decodeTableWord 8 0x1A = some (.dispatch 0) ∧ (decodeTableWord 32 0xFCFFFFFF).isSome = true ∧
    (decodeTableWord 32 0x01000000).isSome = true := ⟨⟨.dispatch 1, by decide⟩, by decide, by decide, by decide, by decide⟩

/-- A host inside a handler whose DISPATCH has returned. -/
def returned : State := { sysEv (ctl running []) .host with handlers := [⟨0, []⟩] }

theorem witness_StepContinues :
    (let s : State := { sysAt (ctl running []) (.clrFlag 0 0) { pc := 1 } with schedule := [.host] }
     s.fault = none ∧ s.schedule = .host :: [] ∧ s.acts = [⟨.clrFlag 0 0, { pc := 1 }⟩]) ∧
    (returned.fault = none ∧ returned.schedule = .host :: [] ∧ returned.handlers = [⟨0, []⟩] ∧
      ∃ t, step returned = .next t) ∧
    (let s := sysEv (ctl running []) .host
     s.fault = none ∧ s.schedule = .host :: [] ∧ s.handlers = [] ∧ s.mainline = [] ∧ s.program = []) :=
  ⟨by decide, ⟨rfl, rfl, rfl, _, rfl⟩, by decide⟩

theorem witness_FaultStops :
    (∃ r, ((sys (ctl running [])).raise .badAccess (.instr (.mbRd 0 128)) none (some 128)).fault = some r) ∧
    (∃ t, step { sysAt (ctl running []) (.mbRd 0 128) {} with schedule := [.host] } = .next t ∧ t.fault ≠ none) ∧
    ∃ t, step (sysEv (ctl running []) .host) = .next t :=
  ⟨⟨_, rfl⟩, ⟨_, rfl, fun h => by cases h⟩, _, rfl⟩

theorem witness_ResetState :
    [ResetDraw.named][0]? = some ResetDraw.named ∧
    [ResetDraw.named, ⟨running, words [(127, 0xFFFFFFFF)]⟩][1]? = some ⟨running, words [(127, 0xFFFFFFFF)]⟩ := by decide

theorem witness_ResetInvariant : ∀ r ∈ [ResetDraw.named, ⟨running, words [(0, 1), (127, 0xFFFFFFFF)]⟩], Memory.wf r.mem := by
  decide

theorem witness_StepKeepsInvariant :
    (∃ s t : State, s.Inv ∧ s.schedule = [.host] ∧ step s = .next t) ∧
    ∃ s t : State, s.Inv ∧ s.schedule = [.rxCommit 0 0 0x42 0] ∧ step s = .next t :=
  ⟨⟨{ sysAt (ctl running []) (.mbWr 0 0 0x04000000) {} with schedule := [.host] }, _,
      inv_sys _ (inv_ctl running [] (by decide)) _ _ _, rfl, rfl⟩,
    ⟨{ sysAt (busyCtl running) (.clrFlag 0 0) {} with schedule := [.rxCommit 0 0 0x42 0] }, _,
      inv_sys _ inv_busyCtl _ _ _, rfl, rfl⟩⟩

theorem witness_InstancesIndependent :
    (∃ t, exec (.mbWr 1 0 0x04000000) { sys (ctl running []) with insts := [ctl running [], ctl frozen []] } = .next t) ∧
    ([armedCtl running, ctl frozen []] : List Instance)[(Instr.mbWr 1 0 0x04000000).inst.toNat]? =
      ([ctl running [], ctl frozen []] : List Instance)[(Instr.mbWr 1 0 0x04000000).inst.toNat]? ∧
    (Event.freezeAck 1).controller = some 1 ∧ (Event.irqEntry 0).controller = some 0 ∧
    ∃ t, runEvent (.freezeAck 1) { sys (ctl running []) with insts := [ctl running [], ctl frozen []] } = .next t :=
  ⟨⟨_, rfl⟩, rfl, rfl, rfl, _, rfl⟩

theorem witness_InvalidInstance :
    State.reset.insts[(Instr.fldRd 1 (.named .mdis)).inst.toNat]? = none ∧ (Instr.fldRd 1 (.named .mdis)).primitive = true ∧
    State.reset.insts[(Instr.send 255 0 none).inst.toNat]? = none ∧ State.reset.pos.pc = 0 := by decide

/-- The hypotheses of `ChecksSelector` and `ChecksPreamble`. -/
theorem witness_ChecksPreamble :
    (State.reset.insts[(Instr.recv 1 0).inst.toNat]? = none ∧ State.reset.pos.pc = 0) ∧
    ((Instance.resetWith .named).driver.wordSize = none ∧ State.reset.insts[0]? = some (.resetWith .named)) ∧
    ((ctl running []).driver.slotRange.getD 0 ≤ (32 : BitVec 8).toNat ∧ (sys (ctl running [])).pos.pc = 0) := by decide

/-- The hypotheses of `CallReturns`. -/
theorem witness_CallReturns :
    ({ sys (ctl running []) with mainline := [⟨.frzEnter 0, { pc := 3 }⟩, ⟨.enIrq 0 0, { pc := 2 }⟩] } : State).acts =
      ⟨.frzEnter 0, { pc := 3 }⟩ :: ⟨.enIrq 0 0, { pc := 2 }⟩ :: [] ∧ Result.timeout ≠ .success := by decide

/-- The hypothesis that the selector names a controller, as most statements have it. -/
theorem witness_selector (x : Instance) : (sys x).insts[(0 : BitVec 8).toNat]? = some x := rfl

/-- The same with an operation in progress. -/
theorem witness_selector_at (x : Instance) (i : Instr) (p : Pos) :
    (sysAt x i p).insts[(0 : BitVec 8).toNat]? = some x ∧ (sysAt x i p).pos = p := ⟨rfl, rfl⟩

theorem witness_FldRd : (sys (ctl frozen [])).insts[(0 : BitVec 8).toNat]? = some (ctl frozen []) ∧ Field.mbws ≠ .timer :=
  ⟨rfl, by decide⟩

/-- V1 to V18: one value for each branch of FLD.WR, where the branches meet. -/
theorem witness_FldWr :
    (sys (ctl frozen [])).insts[(0 : BitVec 8).toNat]? = some (ctl frozen []) ∧
    Field.timer ∈ [Field.frzack, .notrdy, .synch, .timer] ∧ 2 ^ Field.mbws.width ≤ (32 : Word).toNat ∧
    (¬ 2 ^ Field.mbws.width ≤ (31 : Word).toNat ∧ 18 < (19 : Word).toNat) ∧ (3 : Word).toNat < 4 ∧
    (¬ ((18 : Word).toNat < 4 ∨ 18 < (18 : Word).toNat) ∧ (ctl running []).fields.frzack = 0) ∧
    (ctl frozen []).fields.frzack ≠ 0 ∧ (ctl frozen []).fields.mdis = 0 ∧
    (Instance.resetWith .named).fields.mdis ≠ 0 := by decide

theorem witness_ProtectedFields :
    ∃ t y, step { sysAt (ctl frozen []) (.fldWr 0 (.named .imask) 1) {} with schedule := [.host] } = .next t ∧
      t.insts[0]? = some y ∧ y.fields.get .imask ≠ (ctl frozen []).fields.get .imask := ⟨_, _, rfl, rfl, by decide⟩

theorem witness_StatusFields :
    ∃ t y, step (sysEv (ctl { running with frz := 1, halt := 1 } []) (.freezeAck 0)) = .next t ∧ t.insts[0]? = some y ∧
      y.fields.frzack = 1 ∧ y.fields.notrdy = 1 ∧ y.fields.synch = 0 := ⟨_, _, rfl, rfl, by decide⟩

theorem witness_StatusFields_exit :
    (∃ t y, step (sysEv (ctl { frozen with halt := 0 } []) (.freezeExit 0)) = .next t ∧ t.insts[0]? = some y ∧
      y.fields.frzack = 0 ∧ y.fields.notrdy = 0) ∧
    ∃ t y, step (sysEv (ctl { running with synch := 0 } []) (.sync 0)) = .next t ∧ t.insts[0]? = some y ∧
      y.fields.synch = 1 := ⟨⟨_, _, rfl, rfl, by decide⟩, _, _, rfl, rfl, by decide⟩

theorem witness_HostFields :
    (∃ t y, step { sysAt (ctl running []) (.fldWr 0 (.named .mdis) 1) {} with schedule := [.host] } = .next t ∧
      t.insts[0]? = some y ∧ y.fields.get .mdis ≠ running.get .mdis) ∧
    (∃ t y, step { sysAt (ctl running []) (.regCb 0 (some 9)) {} with schedule := [.host] } = .next t ∧
      t.insts[0]? = some y ∧ y.driver ≠ (ctl running []).driver) ∧
    (∃ t y, step { sysAt (ctl { running with iflag := 1 } []) (.iflagW1c 0 1) {} with schedule := [.host] } = .next t ∧
      t.insts[0]? = some y ∧ y.fields.iflag.getLsbD 0 = false) ∧
    ∃ t y, step (sysEv (busyCtl running) (.rxCommit 0 0 0 0)) = .next t ∧ t.insts[0]? = some y ∧
      y.fields.iflag.getLsbD 0 = true :=
  ⟨⟨_, _, rfl, rfl, by decide⟩, ⟨_, _, rfl, rfl, by decide⟩, ⟨_, _, rfl, rfl, by decide⟩, _, _, rfl, rfl, by decide⟩

theorem witness_MbRd :
    (sys (busyCtl running)).insts[(0 : BitVec 8).toNat]? = some (busyCtl running) ∧ 127 < (128 : BitVec 8).toNat ∧
    ((127 : BitVec 8).toNat ≤ 127 ∧ (ctl { running with mbws := 5 } []).slotOf 127 = none) ∧
    ((busyCtl running).slotOf 0 = some (0, 0) ∧ (busyCtl running).busy 0 = true) ∧
    ((busyCtl running).slotOf 1 = some (0, 1) ∧ (armedCtl running).busy 0 = false) ∧
    (armedCtl running).slotOf 127 = some (31, 3) := by decide

theorem witness_MbWrPlain :
    (sys (armedCtl running)).insts[(0 : BitVec 8).toNat]? = some (armedCtl running) ∧ Memory.wf (armedCtl running).mem ∧
    127 < (128 : BitVec 8).toNat ∧ (ctl { running with mbws := 5 } []).slotOf 125 = none ∧
    (armedCtl running).slotOf 1 = some (0, 1) ∧ (armedCtl running).slotState 0 = .receiveEmpty ∧
    (armedCtl running).slotOf 127 = some (31, 3) ∧ (armedCtl running).slotState 31 = .inactiveRx := by decide

theorem witness_CodeAdmission :
    (sys (armedCtl running)).insts[(0 : BitVec 8).toNat]? = some (armedCtl running) ∧
    (armedCtl running).slotOf 0 = some (0, 0) ∧ (armedCtl running).slotOf 124 = some (31, 0) ∧
    codeOf 0x01000000 = 0x1 ∧ codeOf 0x0B000000 = 0xB ∧ codeOf 0x0C000000 = 0xC := by decide

theorem witness_CodeCommandsAreMbWr :
    (sys (armedCtl running)).fault = none ∧ (sys (armedCtl running)).insts[(0 : BitVec 8).toNat]? = some (armedCtl running) ∧
    127 < (32 : BitVec 8).toNat * (armedCtl running).ws ∧ (31 : BitVec 8).toNat * (armedCtl running).ws ≤ 127 ∧
    (∃ y u, exec (.mbWr 0 124 0x04000000) (sys (armedCtl running)) =
      .next (((sys (armedCtl running)).commit 0 y u).ret (.mbWr 0 124 0x04000000) .success .none)) ∧
    ∃ r k w, exec (.mbWr 0 0 0x0C000000) (sys (armedCtl running)) =
      .next ((sys (armedCtl running)).raise r (.instr (.mbWr 0 0 0x0C000000)) k w) :=
  ⟨rfl, rfl, by decide, by decide, ⟨_, _, rfl⟩, _, _, _, rfl⟩

/-- Hypotheses of `Obligations.CodeInactiveRx` and of the code commands: a controller that keeps the invariant, the last slot,
and a slot in each state the rules tell apart. -/
theorem witness_CodeInactiveRx :
    (∀ l, Memory.wf (words l) → (ctl running l).Inv) ∧ (31 : BitVec 8).toNat < (ctl running []).hwSlots ∧
    (ctl running []).slotState 31 = .inactiveRx ∧ (ctl running [(124, 0x08000000)]).slotState 31 = .inactiveTx ∧
    (ctl running [(124, 0x04000000)]).slotState 31 = .receiveEmpty ∧ (ctl running [(124, 0x09000000)]).slotState 31 = .aborted ∧
    (ctl running [(124, 0x0C000000)]).slotState 31 = .send ∧ (ctl running [(124, 0x0F000000)]).slotState 31 = .reserved ∧
    Memory.wf (words [(124, 0x0F000000)]) := ⟨fun l h => inv_ctl running l h, by decide⟩

theorem witness_CodeArmReceiveAndInactiveTx :
    (ctl running []).Inv ∧ (0 : BitVec 8).toNat < (ctl running []).hwSlots ∧ (ctl running []).slotState 0 = .inactiveRx ∧
    (armedCtl running).slotState 0 ≠ .inactiveRx ∧ (sys (ctl running [])).insts[(0 : BitVec 8).toNat]? = some (ctl running []) :=
  ⟨inv_ctl running [] (by decide), by decide⟩

theorem witness_CodeAbort :
    (sendCtl running).Inv ∧ (0 : BitVec 8).toNat < (sendCtl running).hwSlots ∧ (sendCtl running).slotState 0 = .send ∧
    (sendCtl running).fields.mdis = 0 ∧ (ctl running []).slotState 0 ∉ [SlotState.send, .inactiveTx, .aborted] ∧
    (sendCtl running).params.abortPreempts = false ∧ (sendCtlPreempting running).params.abortPreempts = true ∧
    (sendCtlPreempting running).slotState 0 = .send ∧
    (ctl running [(0, 0x08000000)]).slotState 0 = .inactiveTx := ⟨inv_ctl running _ (by decide), by decide⟩

theorem witness_CodeSend :
    (abortCtl running).Inv ∧ (0 : BitVec 8).toNat < (abortCtl running).hwSlots ∧
    (abortCtl running).slotState 0 = .abortPending ∧ running.running = true ∧ (ctl running []).slotState 0 = .inactiveRx ∧
    (sendCtl running).slotState 0 = .send := ⟨inv_abortCtl, by decide⟩

theorem witness_Preemption :
    ((busyCtl running).Inv ∧ (0 : BitVec 8).toNat < (busyCtl running).hwSlots ∧ (busyCtl running).slotState 0 = .busy) ∧
    (abortCtl running).Inv ∧ (0 : BitVec 8).toNat < (abortCtl running).hwSlots ∧
      (abortCtl running).slotState 0 = .abortPending ∧ (sendCtl running).slotState 0 = .send ∧
      (sendCtl running).Inv :=
  ⟨⟨inv_busyCtl, by decide⟩, inv_abortCtl, by decide, by decide, by decide, inv_ctl running _ (by decide)⟩

theorem witness_CodeBusy :
    ((0 : BitVec 8).toNat < (busyCtl running).hwSlots ∧ (busyCtl running).busy 0 = true) ∧
    ((31 : BitVec 8).toNat < (busyCtl running).hwSlots ∧ (busyCtl running).busy 31 = false) ∧
    ((ctl { running with mbws := 5 } []).hwSlots ≤ (25 : BitVec 8).toNat ∧
      (25 : BitVec 8).toNat * (ctl { running with mbws := 5 } []).ws ≤ 127) ∧
    127 < (32 : BitVec 8).toNat * (busyCtl running).ws := by decide

theorem witness_FlagsAndTimer : (sys (ctl running [])).insts[(0 : BitVec 8).toNat]? = some (ctl running []) := rfl

theorem witness_NotEnabled :
    (∀ e ∈ [Event.freezeAck 0, .sync 0, .irqEntry 0, .txComplete 0 0 0 0, .rxCommit 0 0 0 0, .rxBegin 0 .held 0],
      (sysEv (ctl frozen []) e).fault = none ∧ (sysEv (ctl frozen []) e).schedule = e :: [] ∧
      (sysEv (ctl frozen []) e).enabled e = false) := by decide

theorem witness_Handshake :
    (∀ e ∈ [Event.freezeAck 0, .freezeExit 0, .sync 0], (sysEv (ctl frozen []) e).fault = none ∧
      (sysEv (ctl frozen []) e).insts[0]? = some (ctl frozen []) ∧ (sysEv (ctl frozen []) e).schedule = e :: []) ∧
    (let x := (ctl { running with frz := 1, halt := 1 } []).fields
     x.mdis = 0 ∧ x.frz = 1 ∧ x.halt = 1 ∧ x.frzack = 0) ∧
    (let x := (ctl { frozen with halt := 0 } []).fields
     x.mdis = 0 ∧ x.frzack = 1 ∧ ¬(x.frz = 1 ∧ x.halt = 1)) ∧
    (let x := (ctl { running with synch := 0 } []).fields
     x.mdis = 0 ∧ x.frzack = 0 ∧ x.notrdy = 0 ∧ x.synch = 0) := by decide

theorem witness_TxComplete :
    ((sysEv (sendCtl running) (.txComplete 0 0 0x1234 0)).fault = none ∧
      (sysEv (sendCtl running) (.txComplete 0 0 0x1234 0)).insts[0]? = some (sendCtl running) ∧
      Memory.wf (sendCtl running).mem ∧ (sendCtl running).fields.running = true ∧ 0 < (sendCtl running).hwSlots ∧
      (sendCtl running).slotState 0 = .send ∧ (sendCtl running).fields.srxdis = 1) ∧
    (sendCtl { running with srxdis := 0 }).fields.srxdis = 0 ∧ (sendCtl frozen).fields.running = false := by decide

theorem witness_AbortResolve :
    ((sysEv (abortCtl running) (.abortResolve 0 0 true false 0 0)).fault = none ∧
      (sysEv (abortCtl running) (.abortResolve 0 0 true false 0 0)).insts[0]? = some (abortCtl running) ∧
      Memory.wf (abortCtl running).mem ∧ (abortCtl running).fields.mdis = 0 ∧ 0 < (abortCtl running).hwSlots ∧
      (abortCtl running).slotState 0 = .abortPending ∧ (abortCtl running).fields.running = true) ∧
    ((abortCtl frozen).fields.mdis = 0 ∧ (abortCtl frozen).slotState 0 = .abortPending ∧
      (abortCtl frozen).fields.running = false) ∧
    (sendCtl running).slotState 0 ≠ .abortPending := by decide

/-- A locked slot that holds a frame back, then unlocked (V45, V126). -/
def heldCtl : Instance := (armedCtl running).setPendingRx (some frameF1)

theorem witness_RxBegin :
    (running.running = true ∧ frameF1.wellFormed = true) ∧
    (heldCtl.hidden.pendingRx = some frameF1 ∧ heldCtl.hidden.locked ≠ some 0 ∧ heldCtl.CouldTake frameF1 none 0) ∧
    (sysEv heldCtl (.rxBegin 0 .held 0)).insts[0]? = some heldCtl :=
  ⟨by decide, ⟨rfl, by decide, by decide, by decide, by decide, by decide, by decide, by decide, by decide⟩, rfl⟩

theorem witness_RxCommit :
    (busyCtl running).Inv ∧ (busyCtl running).fields.mdis = 0 ∧ (busyCtl running).busy 0 = true ∧
    ((busyCtl running).hidden.slot 0).rxInflight = some frameF1 ∧
    (sysEv (busyCtl running) (.rxCommit 0 0 0x42 0)).insts[0]? = some (busyCtl running) ∧
    (armedCtl running).busy 0 = false ∧ (busyCtl { running with mdis := 1 }).fields.mdis = 1 := ⟨inv_busyCtl, by decide⟩

theorem witness_ModuleActivity :
    (Event.txComplete 0 0 0 0).controller = some 0 ∧ Event.txComplete 0 0 0 0 ≠ .irqEntry 0 ∧
    (sys (ctl ResetDraw.named.fields [])).insts[0]? = some (ctl ResetDraw.named.fields []) ∧
    ResetDraw.named.fields.mdis = 1 ∧ frozen.running = false := by decide

theorem witness_QuietSlots :
    (busyCtl running).Inv ∧ 31 < (busyCtl running).hwSlots ∧ 3 < (busyCtl running).ws ∧
    (busyCtl running).slotState 31 = .inactiveRx ∧ (Event.rxCommit 0 0 0x42 0).controller = some 0 ∧
    ∃ t, runEvent (.rxCommit 0 0 0x42 0) (sys (busyCtl running)) = .next t :=
  ⟨inv_busyCtl, by decide, by decide, by decide, rfl, _, rfl⟩

theorem witness_Interrupt :
    (let x := ctl { running with iflag := 0x80000000, imask := 0x80000000 } []
     x.irq = true ∧ (sysEv x (.irqEntry 0)).fault = none ∧ (sysEv x (.irqEntry 0)).insts[0]? = some x ∧ 0 < 256 ∧
     ∀ h ∈ (sysEv x (.irqEntry 0)).handlers, h.inst ≠ 0) ∧
    ((sys (ctl running [])).raise .badAccess (.instr (.mbRd 0 128)) none (some 128)).fault ≠ none := by decide

theorem witness_Preamble :
    ((Instr.recv 1 0).primitive = false ∧ State.reset.pos.pc = 0 ∧ State.reset.insts[(Instr.recv 1 0).inst.toNat]? = none) ∧
    ((Instr.recv 0 32).indexed = some 32 ∧ (ctl running []).driver.slotRange.getD 0 ≤ (32 : BitVec 8).toNat ∧
      (Instance.resetWith .named).driver.wordSize = none) ∧
    (∀ n, (Instr.send 0 0 none) ≠ .dispatch n) ∧ Result.fail ≠ .success ∧
    ({ sys (ctl running []) with mainline := [⟨.cfgTx 0 0 none, {}⟩, ⟨.send 0 0 none, { pc := 7 }⟩] } : State).acts =
      ⟨.cfgTx 0 0 none, {}⟩ :: ⟨.send 0 0 none, { pc := 7 }⟩ :: [] :=
  ⟨by decide, by decide, fun n h => (by cases h), by decide, rfl⟩

/-- The spin's hypotheses: a budget of one with no read made, an unbounded budget, and FRZACK as the clauses ask. -/
theorem witness_FrzEnter :
    (∀ pc ≤ 3, (sysAt (ctl running []) (.frzEnter 0) { pc := pc }).insts[(0 : BitVec 8).toNat]? = some (ctl running []) ∧
      (sysAt (ctl running []) (.frzEnter 0) { pc := pc }).pos.pc = pc) ∧
    running.frzack = 0 ∧ frozen.frzack = 1 ∧
    (∀ k, (budget (.bounded 1) (sys (ctl frozen []))).params.spinBudget = .bounded k → 0 < k) ∧
    (budget (.bounded 1) (sys (ctl frozen []))).params.spinBudget = .bounded 1 ∧
    (sys (ctl frozen [])).params.spinBudget = .unbounded :=
  ⟨by decide, rfl, rfl, fun k h => by cases h; decide, rfl, rfl⟩

theorem witness_FrzExit :
    (∀ pc ≤ 4, (sysAt (ctl running []) (.frzExit 0) { pc := pc }).insts[(0 : BitVec 8).toNat]? = some (ctl running []) ∧
      (sysAt (ctl running []) (.frzExit 0) { pc := pc }).pos.pc = pc) ∧
    (sysAt (ctl running []) (.frzExit 0) { pc := 4, val := 1 }).pos.val ≠ 0 ∧ running.notrdy = 0 ∧ frozen.notrdy = 1 ∧
    (∀ k, (budget (.bounded 1) (sys (ctl frozen []))).params.spinBudget = .bounded k → 0 < k) :=
  ⟨by decide, by decide, rfl, rfl, fun k h => by cases h; decide⟩

theorem witness_InitChecks :
    (sys (ctl running [])).insts[(0 : BitVec 8).toNat]? = some (ctl running []) ∧ (sys (ctl running [])).pos.pc = 0 ∧
    (3 : BitVec 8).toNat < 4 ∧ 18 < (19 : BitVec 8).toNat ∧
    ¬ ((4 : BitVec 8).toNat < 4 ∨ 18 < (4 : BitVec 8).toNat) ∧ ¬ ((18 : BitVec 8).toNat < 4 ∨ 18 < (18 : BitVec 8).toNat) := by
  decide

theorem witness_InitLines :
    (∀ l, Memory.wf (words l) → (ctl frozen l).Inv) ∧ 4 ≤ (4 : BitVec 8).toNat ∧ (18 : BitVec 8).toNat ≤ 18 ∧
    timing82.inRange = true ∧ frozen.frzack = 1 ∧ ResetDraw.named.fields.mdis = 1 ∧
    (∀ pc ≤ 16, (sysAt (ctl frozen []) (.init 0 4 (some timing82)) { pc := pc }).pos.pc = pc) ∧
    (sysAt (ctl frozen []) (.init 0 4 (some timing82)) { pc := 13, idx := 127 }).pos.idx ≤ 127 ∧
    (ctl frozen []).slotOf 124 = some (31, 0) ∧ (ctl frozen []).slotOf 127 = some (31, 3) ∧
    (ctl frozen []).slotState 31 = .inactiveRx ∧ (ctl { frozen with mbws := 5 } []).slotOf 125 = none :=
  ⟨fun l h => inv_ctl frozen l h, by decide⟩

theorem witness_CfgTx :
    ((ctl running []).driver.wordSize = some 4 ∧ (ctl running []).driver.slotRange = some 32 ∧ (31 : BitVec 8).toNat < 32) ∧
    (∀ pc ≤ 4, (sysAt (ctl running []) (.cfgTx 0 31 (some recF1)) { pc := pc }).pos.pc = pc) ∧
    recF1.frame? = some frameF1 ∧ 0 < ((ctl running []).bytes frameF1 + 3) / 4 ∧
    (∃ c y u, wordRead 124 0 (ctl running []) = .ok c y u) ∧ (∃ y u, wordWrite 126 0 0 (ctl running []) = .ok () y u) ∧
    (∃ y u, wordWrite 125 0x123 0 (ctl running []) = .ok () y u) ∧
    (∃ y u, wordWrite 124 0x0C620000 0 (ctl running []) = .ok () y u) ∧
    (∃ e k a, wordRead 128 0 (ctl running []) = .fault e k a) ∧ ∃ e k a, wordWrite 1 0 0 (armedCtl running) = .fault e k a :=
  ⟨by decide, by decide, by decide, by decide, ⟨_, _, _, rfl⟩, ⟨_, _, rfl⟩, ⟨_, _, rfl⟩, ⟨_, _, rfl⟩, ⟨_, _, _, rfl⟩, _, _, _,
    rfl⟩

theorem witness_CfgTxRoundTrip :
    let s : State := { sys (ctl running []) with
      program := [encode (.cfgTx 0 31 (some recF1))], schedule := List.replicate 5 .host }
    s.fault = none ∧ s.handlers = [] ∧ s.mainline = [] ∧ s.program = encode (.cfgTx 0 31 (some recF1)) :: [] ∧
    s.schedule = List.replicate (((ctl running []).bytes frameF1 + 3) / 4 + 4) .host ++ [] ∧
    s.insts[(0 : BitVec 8).toNat]? = some (ctl running []) ∧ (ctl running []).Inv ∧
    (ctl running []).driver.wordSize = some (ctl running []).ws ∧ (31 : BitVec 8).toNat < (ctl running []).hwSlots ∧
    recF1.frame? = some frameF1 ∧ (ctl running []).bytes frameF1 ≤ ((ctl running []).ws - 2) * 4 ∧
    (ctl running []).slotState 31 = .inactiveRx :=
  ⟨rfl, rfl, rfl, rfl, by decide, rfl, inv_ctl running [] (by decide), by decide, by decide, by decide, by decide, by decide⟩

theorem witness_CfgRx :
    (∀ pc ≤ 7, (sysAt (ctl frozen []) (.cfgRx 0 31 0x1FFFFFFF 0) { pc := pc }).pos.pc = pc) ∧
    (0x1FFFFFFF : Word).toNat < 2 ^ 29 ∧ 2 ^ 29 ≤ (0x20000000 : Word).toNat ∧ frozen.frzack = 1 ∧
    (∃ c y u, wordRead 124 0 (ctl frozen []) = .ok c y u) ∧
    (∃ y u, wordWrite 124 0 0 (ctl frozen [(124, 0x08000000)]) = .ok () y u) ∧
    (∃ y u, wordWrite 125 0x1FFFFFFF 0 (ctl frozen []) = .ok () y u) ∧
    (∃ y u, wordWrite 124 0x04200000 0 (ctl frozen []) = .ok () y u) ∧ (∃ e k a, wordRead 128 0 (ctl frozen []) = .fault e k a) ∧
    (∃ e k a, wordWrite 128 0 0 (ctl frozen []) = .fault e k a) ∧
    (∃ e k a, wordWrite 1 0x1FFFFFFF 0 (armedCtl frozen) = .fault e k a) ∧
    ∃ e k a, wordWrite 0 0x04200000 0 (armedCtl frozen) = .fault e k a :=
  ⟨by decide, by decide, by decide, rfl, ⟨_, _, _, rfl⟩, ⟨_, _, rfl⟩, ⟨_, _, rfl⟩, ⟨_, _, rfl⟩, ⟨_, _, _, rfl⟩, ⟨_, _, _, rfl⟩,
    ⟨_, _, _, rfl⟩, _, _, _, rfl⟩

theorem witness_CfgRxRun :
    let x := ctl running []
    let events := List.replicate 6 Event.host ++ [.freezeAck 0] ++ List.replicate 6 .host ++ [.freezeExit 0] ++
      List.replicate 4 .host
    let s : State := { sys x with program := [encode (.cfgRx 0 31 0x1FFFFFFF 0)], schedule := events }
    s.fault = none ∧ s.handlers = [] ∧ s.mainline = [] ∧ s.program = encode (.cfgRx 0 31 0x1FFFFFFF 0) :: [] ∧
    s.schedule = events ++ [] ∧ s.params.spinBudget = .unbounded ∧ s.insts[(0 : BitVec 8).toNat]? = some x ∧ x.Inv ∧
    x.fields.mdis = 0 ∧ x.fields.frzack = 0 ∧ x.driver.wordSize = some x.ws ∧ (31 : BitVec 8).toNat < x.hwSlots ∧
    x.slotState 31 = .inactiveRx ∧ (0x1FFFFFFF : Word).toNat < 2 ^ 29 :=
  ⟨rfl, rfl, rfl, rfl, (List.append_nil _).symm, rfl, rfl, inv_ctl running [] (by decide), rfl, rfl, by decide, by decide,
    by decide, by decide⟩

theorem witness_Send :
    (∀ pc ≤ 7, (sysAt (sendCtl running) (.send 0 0 (some recF1)) { pc := pc }).pos.pc = pc) ∧
    ((sendCtl running).driver.wordSize = some 4 ∧ (sendCtl running).driver.slotRange = some 32) ∧
    (∃ c y u, wordRead 0 0 (sendCtl running) = .ok c y u) ∧
    (∃ y u, wordWrite 0 (abortWord (sendCtl running).params.sendClears 0x0C620000) 0 (sendCtl running) = .ok () y u) ∧
    ((sendCtl { running with iflag := 1 }).fields.iflag.getLsbD 0 = true ∧
      (sendCtl running).fields.iflag.getLsbD 0 = false) ∧
    (∀ k, (budget (.bounded 1) (sys (sendCtl running))).params.spinBudget = .bounded k → 0 < k) ∧
    (sys (sendCtl running)).params.spinBudget = .unbounded ∧ (∃ e k a, wordRead 128 0 (sendCtl running) = .fault e k a) ∧
    ∃ e k a, wordWrite 0 (abortWord (armedCtl running).params.sendClears 0x0C620000) 0 (armedCtl running) = .fault e k a :=
  ⟨by decide, by decide, ⟨_, _, _, rfl⟩, ⟨_, _, rfl⟩, by decide, fun k h => by cases h; decide, rfl, ⟨_, _, _, rfl⟩, _, _, _, rfl⟩

theorem witness_Recv :
    (∀ pc ≤ 4, (sysAt (armedCtl running) (.recv 0 0) { pc := pc }).pos.pc = pc) ∧
    ((armedCtl running).driver.wordSize = some 4 ∧ (armedCtl running).driver.slotRange = some 32) ∧
    (∃ c y u, wordRead 0 0 (armedCtl running) = .ok c y u ∧ c.extractLsb' 24 4 = 0x4#4) ∧
    (∃ c y u, wordRead 8 0 (armedCtl running) = .ok c y u ∧ c.extractLsb' 24 4 ≠ 0x4#4 ∧ c.getLsbD 24 = false) ∧
    (∃ c y u, wordRead 0 0 (busyCtl running) = .ok c y u) ∧ (∃ d y u, wordRead 1 0 (armedCtl running) = .ok d y u) ∧
    ∃ d y u, wordRead 3 0 (armedCtl running) = .ok d y u :=
  ⟨by decide, by decide, ⟨_, _, _, rfl, by decide⟩, ⟨_, _, _, rfl, by decide, by decide⟩, ⟨_, _, _, rfl⟩, ⟨_, _, _, rfl⟩, _, _, _,
    rfl⟩

theorem witness_ReceiveRoundTrip :
    let s : State := { sys (busyCtl running) with
      program := [encode (.recv 0 0)], schedule := .rxCommit 0 0 0x42 0 :: List.replicate 5 .host }
    s.fault = none ∧ s.handlers = [] ∧ s.mainline = [] ∧ s.program = encode (.recv 0 0) :: [] ∧
    s.params.spinBudget = .unbounded ∧
    s.schedule = .rxCommit (0 : BitVec 8).toNat (0 : BitVec 8).toNat 0x42 0 ::
      List.replicate (((busyCtl running).bytes frameF1 + 3) / 4 + 4) .host ++ [] ∧
    s.insts[(0 : BitVec 8).toNat]? = some (busyCtl running) ∧ (busyCtl running).Inv ∧
    (busyCtl running).driver.wordSize = some (busyCtl running).ws ∧ (busyCtl running).fields.mdis = 0 ∧
    (busyCtl running).busy 0 = true ∧ ((busyCtl running).hidden.slot 0).rxInflight = some frameF1 :=
  ⟨rfl, rfl, rfl, rfl, rfl, by decide, rfl, inv_busyCtl, by decide, by decide, by decide, by decide⟩

theorem witness_ClrFlag :
    (∀ pc ≤ 1, (sysAt (ctl running []) (.clrFlag 0 31) { pc := pc }).pos.pc = pc) ∧
    ((ctl running []).driver.wordSize = some 4 ∧ (ctl running []).driver.slotRange = some 32 ∧ (31 : BitVec 8).toNat < 32) ∧
    (ctl running []).fields.iflag.getLsbD 31 = false ∧ (ctl { running with iflag := 0x80000000 } []).fields.iflag.getLsbD 31 = true := by
  decide

theorem witness_EnIrq :
    (∀ pc ≤ 5, (sysAt (ctl frozen []) (.enIrq 0 31) { pc := pc }).pos.pc = pc) ∧ frozen.frzack = 1 ∧
    (ctl frozen []).driver.wordSize = some 4 ∧ (ctl frozen []).driver.slotRange = some 32 ∧ (31 : BitVec 8).toNat < 32 := by
  decide

theorem witness_RegCb : (sys (ctl running [])).insts[(0 : BitVec 8).toNat]? = some (ctl running []) := rfl

theorem witness_Dispatch :
    (∀ pc ≤ 2, (sysAt (ctl running []) (.dispatch 0) { pc := pc }).pos.pc = pc) ∧
    ((Instance.resetWith .named).driver.callback = none) ∧
    (let x := ctl { running with iflag := 0x80000000 } []
     x.driver.callback = some 7 ∧ 31 < x.driver.slotRange.getD 0 ∧ x.fields.iflag.getLsbD 31 = true ∧
     ∀ j, j < 31 → x.fields.iflag.getLsbD j = false) ∧
    (sysAt (ctl running []) (.dispatch 0) { pc := 2, body := [.clrFlag 0 1] }).pos.body = .clrFlag 0 1 :: [] ∧
    ([⟨7, 31, [.recv 0 31]⟩] : List HandlerBody).find? (fun c => c.handler == 7 && c.slot == 31) =
      some ⟨7, 31, [.recv 0 31]⟩ := by decide

theorem witness_InitRun :
    let x := ctl ResetDraw.named.fields []
    let R := 512 / ((18 : BitVec 8).toNat * 4)
    let events := List.replicate 8 Event.host ++ [.freezeAck 0] ++ List.replicate (8 + R * (18 : BitVec 8).toNat + 5) .host ++
      [.freezeExit 0] ++ List.replicate 2 .host ++ [.sync 0, .host]
    let s : State := { sys x with program := [encode (.init 0 18 (some timing82))], schedule := events }
    s.fault = none ∧ s.handlers = [] ∧ s.mainline = [] ∧ s.program = encode (.init 0 18 (some timing82)) :: [] ∧
    s.schedule = events ++ [] ∧ s.insts[(0 : BitVec 8).toNat]? = some x ∧ x.Inv ∧ x.fields.mdis = 1 ∧
    s.params.spinBudget = .unbounded ∧ 4 ≤ (18 : BitVec 8).toNat ∧ (18 : BitVec 8).toNat ≤ 18 ∧ timing82.inRange = true :=
  ⟨rfl, rfl, rfl, rfl, (List.append_nil _).symm, rfl, inv_ctl _ [] (by decide), rfl, rfl, by decide, by decide, by decide⟩

theorem witness_MemoryAndFieldFrame :
    (armedCtl running).Inv ∧ (∃ t y, exec (.mbWr 0 0 0) (sys (armedCtl running)) = .next t ∧
      (sys (armedCtl running)).insts[(Instr.mbWr 0 0 0).inst.toNat]? = some (armedCtl running) ∧
      t.insts[(Instr.mbWr 0 0 0).inst.toNat]? = some y) ∧
    ¬ storesByte (.mbWr 0 0 0) (sys (armedCtl running)).pos (armedCtl running) 4 ∧
    storedField (.mbWr 0 0 0) {} ≠ some .mbws ∧ (clearedFlags (.mbWr 0 0 0) {}).getLsbD 31 = false ∧
    (settableFlags (.mbWr 0 0 0) {} (armedCtl running)).getLsbD 0 = false := by
  refine ⟨inv_ctl _ _ (by decide), ⟨_, _, rfl, rfl, rfl⟩, ?_, by decide, by decide, by decide⟩
  rintro (h | ⟨k, -, hb, h⟩)
  · exact absurd h (by decide)
  · have hk : k = 0 := congrArg Prod.fst (Option.some.inj h).symm
    subst hk
    exact absurd hb (by decide)

theorem witness_HiddenAndDriverFrame :
    (∃ t y, exec (.mbWr 0 0 0) (sys (armedCtl running)) = .next t ∧
      (sys (armedCtl running)).insts[(Instr.mbWr 0 0 0).inst.toNat]? = some (armedCtl running) ∧
      t.insts[(Instr.mbWr 0 0 0).inst.toNat]? = some y) ∧
    storedSlot (.mbWr 0 0 0) {} (armedCtl running) ≠ some 1 ∧ storedField (.mbWr 0 0 0) {} ≠ some .mbws ∧
    movesLock (.clrFlag 0 0) {} = false :=
  ⟨⟨_, _, rfl, rfl, rfl⟩, by decide⟩

theorem witness_HostContextFrame :
    (∃ t, exec (.clrFlag 0 0) (sys (ctl running [])) = .next t) ∧ returned.handlers ≠ [] ∧
    ∃ t, exec (.clrFlag 0 0) returned = .next t := ⟨⟨_, rfl⟩, by decide, _, rfl⟩

end Sys2Proof.Tests
end

section
/-! Proofs about the scope (00_scope.md): which agent moves, and what a step does that its guard does not allow. -/

namespace Sys2Proof.Machine

/-- With no fault set, a step runs the head of the schedule on the state that has the rest (00_scope.md R9; log 9). -/
theorem step_scheduled {s : State} {e : Event} {es : List Event} (hf : s.fault = none) (hs : s.schedule = e :: es) :
    step s = runEvent e { s with schedule := es } := by
  simp only [step, hf, State.nextEvent, State.takeEvent, hs]

/-- The schedule has no part in a guard. -/
@[simp] theorem State.enabled_schedule (s : State) (es : List Event) (e : Event) :
    { s with schedule := es }.enabled e = s.enabled e := by
  cases e <;> rfl

/-- A hardware step without an outcome changes nothing (log 22). -/
theorem State.hwStep_of_not_enabled {s : State} {n : Nat} {f : Instance → Option Instance}
    (h : (s.insts[n]?.bind f).isSome = false) : s.hwStep n f = s := by
  have hnone : s.insts[n]?.bind f = none := by simpa using h
  simp only [State.hwStep, hnone]

/-- An interrupt entry that may not be taken changes nothing (60_exceptions.md R332; log 22). -/
theorem State.irqStep_of_not_enabled {s : State} {n : Nat} (h : s.entryEnabled n = false) : s.irqStep n = s := by
  simp [State.irqStep, h]

/-- An event that is not enabled leaves the state as it is. The host's event always is; every other one is an interrupt entry
or a hardware step, and tests its guard itself. -/
theorem runEvent_of_not_enabled {s : State} {e : Event} (h : s.enabled e = false) : runEvent e s = .next s := by
  cases e with
  | host => cases h
  | irqEntry n => exact congrArg Host.Outcome.next (State.irqStep_of_not_enabled h)
  | _ => exact congrArg Host.Outcome.next (State.hwStep_of_not_enabled h)

end Sys2Proof.Machine

open Sys2Proof.Machine

/-- Settles O32: the event is taken from the schedule, and running it where its guard fails leaves the state as it is. -/
theorem notEnabled : Obligations.NotEnabled := by
  intro s e es hfault hsched hdis
  rw [step_scheduled hfault hsched]
  exact runEvent_of_not_enabled (by rw [State.enabled_schedule, hdis])

end

section
/-! Proofs about the host context (10_state.md R31, R64): what of it any operation keeps, and what the host does next. -/

namespace Sys2Proof.Machine

/-! ### What a host step keeps of the host context -/

/-- From `s` to `t` the parameters, the host's code, the requests not yet started, the schedule, which handlers run and every
position but the running one stay, and free values are only taken (60_exceptions.md R332, R334). -/
structure State.ContextKept (s t : State) : Prop where
  params : t.params = s.params
  handlerCode : t.handlerCode = s.handlerCode
  program : t.program = s.program
  schedule : t.schedule = s.schedule
  outer : t.handlers.tail = s.handlers.tail
  handlers : t.handlers.map HandlerCtx.inst = s.handlers.map HandlerCtx.inst
  mainline : s.handlers ≠ [] → t.mainline = s.mainline
  draws : s.draws ≤ t.draws

theorem State.ContextKept.trans {s t u : State} (h : s.ContextKept t) (g : t.ContextKept u) : s.ContextKept u where
  params := g.params.trans h.params
  handlerCode := g.handlerCode.trans h.handlerCode
  program := g.program.trans h.program
  schedule := g.schedule.trans h.schedule
  outer := g.outer.trans h.outer
  handlers := g.handlers.trans h.handlers
  mainline hs := (g.mainline fun ht => hs (by simpa [ht] using h.handlers)).trans (h.mainline hs)
  draws := Nat.le_trans h.draws g.draws

theorem State.contextKept_setActs (s : State) (a : List Activation) : s.ContextKept (s.setActs a) := by
  refine ⟨by simp, by simp, by simp, by simp, ?_, by simp, fun h => ?_, by simp⟩ <;> unfold State.setActs
  · split <;> simp_all
  · split <;> simp_all

@[simp] theorem State.contextKept_commit (s : State) (n : Nat) (x : Instance) (used : Nat) :
    s.ContextKept (s.commit n x used) :=
  ⟨rfl, rfl, rfl, rfl, rfl, rfl, fun _ => rfl, Nat.le_add_right _ _⟩

@[simp] theorem State.contextKept_raise (s : State) (r : Fault) (op : FaultOp) (slot word : Option Nat) :
    s.ContextKept (s.raise r op slot word) :=
  ⟨rfl, rfl, rfl, rfl, rfl, rfl, fun _ => rfl, Nat.le_refl _⟩

@[simp] theorem State.contextKept_goto (s : State) (i : Instr) (p : Pos) : s.ContextKept (s.goto i p) :=
  s.contextKept_setActs _

@[simp] theorem State.contextKept_call (s : State) (i : Instr) (p : Pos) (sub : Instr) : s.ContextKept (s.call i p sub) :=
  s.contextKept_setActs _

@[simp] theorem State.contextKept_ret (s : State) (i : Instr) (r : Result) (v : RetVal) : s.ContextKept (s.ret i r v) := by
  have returned (a : List Activation) (l : Option Return) : s.ContextKept { s.setActs a with lastReturn := l } :=
    { s.contextKept_setActs a with }
  cases r <;> exact returned _ _

@[simp] theorem State.contextKept_spinAgain (s : State) (i : Instr) (p : Pos) (pc : Nat) :
    s.ContextKept (s.spinAgain i p pc) := by
  unfold State.spinAgain
  split <;> simp

@[simp] theorem State.contextKept_startCallback (s : State) (i : Instr) (p : Pos) (h : Handler) (slot : Nat) :
    s.ContextKept (s.startCallback i p h slot) :=
  have drawn : s.ContextKept { s with draws := s.draws + (s.bodyOf h slot).2 } :=
    ⟨rfl, rfl, rfl, rfl, rfl, rfl, fun _ => rfl, Nat.le_add_right _ _⟩
  drawn.trans (State.contextKept_goto _ _ _)

/-- An operation that goes on in one of two ways keeps what both keep. -/
@[simp] theorem State.contextKept_ite {s t u : State} {c : Prop} [Decidable c] :
    s.ContextKept (if c then t else u) ↔ (c → s.ContextKept t) ∧ (¬c → s.ContextKept u) := by
  split <;> simp [*]

/-- Whatever next state `o` answers from `s` keeps the host context. -/
def State.Keeps (s : State) (o : Outcome State) : Prop := ∀ t, o = .next t → s.ContextKept t

/-- A step on a controller keeps what the way it goes on keeps. -/
theorem onInst_keeps {α : Type} {i : Instr} {inst : BitVec 8} {s : State} {f : Nat → Instance → Acc α}
    {k : α → State → State} (hk : ∀ a (u : State), u.ContextKept (k a u)) : s.Keeps (onInst i inst s f k) := by
  intro t h
  rcases onInst_cases i inst s f k with ⟨e, -⟩ | ⟨x, a, y, u, -, -, e⟩ | ⟨x, r, sl, w, -, -, e⟩ <;>
    rw [e] at h <;> injection h with h <;> subst h
  · simp
  · exact (s.contextKept_commit _ y u).trans (hk a _)
  · simp

theorem spinRead_keeps {s : State} {i : Instr} {p : Pos} {read : Outcome State} (h : s.Keeps read) :
    s.Keeps (s.spinRead i p read) := by
  rcases s.spinRead_cases i p read with e | e <;> rw [e]
  · exact h
  · rintro _ ⟨⟩
    simp

/-- Every operation keeps the host context but for the running position. -/
theorem exec_keeps (i : Instr) (s : State) : s.Keeps (exec i s) := by
  cases i with
  | init =>
    simp only [exec, execInit]
    split <;> exact onInst_keeps fun _ _ => by simp
  | frzEnter =>
    simp only [exec, execFrzEnter]
    split
    case h_4 => exact spinRead_keeps (onInst_keeps fun _ _ => by simp)
    all_goals exact onInst_keeps fun _ _ => by simp
  | frzExit =>
    simp only [exec, execFrzExit]
    split
    case h_4 => exact spinRead_keeps (onInst_keeps fun _ _ => by simp)
    all_goals exact onInst_keeps fun _ _ => by simp
  | cfgTx =>
    simp only [exec, execCfgTx]
    split <;> exact onInst_keeps fun _ _ => by simp
  | cfgRx =>
    simp only [exec, execCfgRx]
    split <;> exact onInst_keeps fun _ _ => by simp
  | send =>
    simp only [exec, execSend]
    split
    case h_5 => exact spinRead_keeps (onInst_keeps fun _ _ => by simp)
    all_goals exact onInst_keeps fun _ _ => by simp
  | recv =>
    simp only [exec, execRecv]
    split
    case h_2 => exact spinRead_keeps (onInst_keeps fun _ _ => by simp)
    all_goals exact onInst_keeps fun _ _ => by simp
  | clrFlag =>
    simp only [exec, execClrFlag]
    split <;> exact onInst_keeps fun _ _ => by simp
  | enIrq =>
    simp only [exec, execEnIrq]
    split <;> exact onInst_keeps fun _ _ => by simp
  | dispatch =>
    simp only [exec, execDispatch]
    split
    · exact onInst_keeps fun _ _ => by simp
    · exact onInst_keeps fun found _ => by cases found <;> simp
    · exact onInst_keeps fun _ _ => by split <;> simp
  | regCb =>
    simp only [exec, execRegCb]
    exact onInst_keeps fun _ _ => by simp
  | _ =>
    simp only [exec]
    exact onInst_keeps fun _ _ => by simp

theorem exec_contextKept {i : Instr} {s t : State} (h : exec i s = .next t) : s.ContextKept t := exec_keeps i s t h

/-! ### What the host does next -/

/-- The host goes on with the innermost operation in progress (10_state.md R31). -/
theorem State.hostStep_continue {s : State} {a : Activation} {as : List Activation} (h : s.acts = a :: as) :
    s.hostStep = exec a.op s := by
  simp only [State.hostStep, h]

/-- A handler with no operation in progress is left (60_exceptions.md R333). -/
theorem State.hostStep_leave {s : State} {h : HandlerCtx} {hs : List HandlerCtx} (hh : s.handlers = h :: hs)
    (ha : h.acts = []) : s.hostStep = .next s.leaveHandler := by
  simp only [State.hostStep, State.acts, hh, ha]

/-- An idle mainline takes the next request of its program (log 11). -/
theorem State.hostStep_fetch {s : State} (hh : s.handlers = []) (hm : s.mainline = []) : s.hostStep = s.fetch := by
  simp only [State.hostStep, State.acts, hh, hm]

/-- While a handler runs the mainline keeps its position and takes no request (60_exceptions.md R334). -/
theorem State.hostStep_mainline {s t : State} (hh : s.handlers ≠ []) (h : s.hostStep = .next t) :
    t.mainline = s.mainline ∧ t.program = s.program := by
  rcases s.hostStep_cases with ⟨a, as, -, e⟩ | ⟨g, gs, -, -, e⟩ | ⟨hnone, -⟩
  · have kept := exec_contextKept (e.symm.trans h)
    exact ⟨kept.mainline hh, kept.program⟩
  · obtain rfl := Host.Outcome.next.inj (e.symm.trans h)
    exact ⟨rfl, rfl⟩
  · exact absurd hnone hh

/-- A host step that starts a request runs the operation it decodes to (10_state.md R31). -/
theorem step_starts_request {s : State} {es : List Event} {r : Request} {rest : List Request} {i : Instr}
    (hf : s.fault = none) (hs : s.schedule = .host :: es) (hh : s.handlers = []) (hm : s.mainline = [])
    (hp : s.program = r :: rest) (hd : decode r = .ok i) :
    step s = exec i { s with schedule := es, program := rest } := by
  rw [step_scheduled hf hs]
  refine (State.hostStep_fetch (s := { s with schedule := es }) hh hm).trans ?_
  simp only [State.fetch, hp, hd]

/-- A table word that names an operation decodes to it. -/
theorem decode_tableRequest {nbits w : Nat} {i : Instr} (h : decodeTableWord nbits w = some i) :
    decode (tableRequest nbits w) = .ok i := by
  unfold decodeTableWord at h
  cases hd : decode (tableRequest nbits w) with
  | ok j => simpa [hd, Except.toOption] using h
  | error e => simp [hd, Except.toOption] at h

end Sys2Proof.Machine

open Sys2Proof.Machine

/-- Settles O8: with the head of the schedule the host's, each clause is one of the host's next steps. -/
theorem stepContinues : Obligations.StepContinues := by
  intro s es hf hs
  rw [step_scheduled hf hs]
  refine ⟨fun a as ha => State.hostStep_continue (s := { s with schedule := es }) ha, fun h hs hh ha => ?_,
    fun t hh ht => State.hostStep_mainline (s := { s with schedule := es }) hh ht, fun hh hm hp => ?_⟩
  · refine (State.hostStep_leave (s := { s with schedule := es }) hh ha).trans ?_
    simp only [State.leaveHandler, hh, List.tail_cons]
  · refine (State.hostStep_fetch (s := { s with schedule := es }) hh hm).trans ?_
    simp only [State.fetch, hp]

/-- Settles O7: a request the idle mainline starts, and a table word placed as one. -/
theorem stepRunsDecoded : Obligations.StepRunsDecoded :=
  ⟨fun _ _ _ _ _ => step_starts_request, fun s nbits w _ hd =>
    step_starts_request (s := s.withFetchWord nbits w) rfl rfl rfl rfl rfl (decode_tableRequest hd)⟩

end

section
/-! Proofs about the state (10_state.md): what keeps the invariant of one controller. It is read slot by slot: a slot
whose code, hidden state and lock stay keeps its part of it, so each operation speaks only of the slot it touches. -/

namespace Sys2Proof.Machine

/-! ### The invariant, slot by slot -/

/-- The states that the invariant speaks of (10_state.md R61). -/
theorem Instance.slotState_receiveEmpty {x : Instance} {i : Nat} :
    x.slotState i = .receiveEmpty ↔ x.code i = 0x4#4 ∧ x.busy i = false := by
  obtain ⟨-, h, -⟩ := x.slotState_code i
  exact h

theorem Instance.slotState_busy {x : Instance} {i : Nat} :
    x.slotState i = .busy ↔ x.code i = 0x4#4 ∧ x.busy i = true := by
  obtain ⟨-, -, h, -⟩ := x.slotState_code i
  exact h

theorem Instance.slotState_abortPending {x : Instance} {i : Nat} :
    x.slotState i = .abortPending ↔ x.code i = 0x9#4 ∧ x.abortPending i = true := by
  obtain ⟨-, -, -, -, h, -⟩ := x.slotState_code i
  exact h

/-- What the invariant of a controller says of slot index `k` (10_state.md R56 to R59). -/
structure Instance.SlotInv (x : Instance) (k : Nat) : Prop where
  busySlot : x.busy k = true → k < x.hwSlots ∧ x.code k = 0x4#4 ∧
    ∃ f, (x.hidden.slot k).rxInflight = some f ∧ f.wellFormed = true ∧ x.bytes f ≤ capacity x.ws
  idleSlot : x.busy k = false → (x.hidden.slot k).rxInflight = none
  abortSlot : x.abortPending k = true → k < x.hwSlots ∧ x.code k = 0x9#4
  lockedSlot : x.hidden.locked = some k → k < x.hwSlots ∧ x.slotState k = .receiveEmpty

theorem Instance.Inv.slotInv {x : Instance} (h : x.Inv) (k : Nat) : x.SlotInv k :=
  ⟨h.busySlot k, h.idleSlot k, h.abortSlot k, h.lockedSlot k⟩

/-- From `x` to `y` slot index `k` keeps its code and its hidden state, and gains no lock. -/
structure Instance.SlotKept (x y : Instance) (k : Nat) : Prop where
  code : k < x.hwSlots → y.code k = x.code k
  hidden : y.hidden.slot k = x.hidden.slot k
  lock : y.hidden.locked = some k → x.hidden.locked = some k

/-- What the invariant needs of a controller beside its slots. -/
structure Instance.FrameKept (x y : Instance) : Prop where
  memory : Memory.wf x.mem → Memory.wf y.mem
  mbws : y.fields.mbws = x.fields.mbws
  params : y.params = x.params
  driver : y.driver = x.driver
  held : y.hidden.pendingRx = x.hidden.pendingRx

theorem Instance.ws_eq_of_mbws {x y : Instance} (h : y.fields.mbws = x.fields.mbws) : y.ws = x.ws :=
  congrArg BitVec.toNat h

theorem Instance.hwSlots_eq_of_mbws {x y : Instance} (h : y.fields.mbws = x.fields.mbws) : y.hwSlots = x.hwSlots := by
  unfold Instance.hwSlots
  rw [ws_eq_of_mbws h]

/-- A slot that is kept keeps its part of the invariant. -/
theorem Instance.SlotInv.of_kept {x y : Instance} {k : Nat} (h : x.SlotInv k) (hf : x.FrameKept y) (hk : x.SlotKept y k) :
    y.SlotInv k := by
  have hw := ws_eq_of_mbws hf.mbws
  have hn := hwSlots_eq_of_mbws hf.mbws
  have hb : y.busy k = x.busy k := congrArg SlotHidden.busy hk.hidden
  have ha : y.abortPending k = x.abortPending k := congrArg SlotHidden.abortPending hk.hidden
  have hbytes (f : Frame) : y.bytes f = x.bytes f := congrArg (fun p : CtrlParams => f.bytes p.dlcMap) hf.params
  refine ⟨fun hy => ?_, fun hy => ?_, fun hy => ?_, fun hy => ?_⟩
  · obtain ⟨hlt, hcode, f, hfl, hwf, hfit⟩ := h.busySlot (hb ▸ hy)
    exact ⟨hn ▸ hlt, (hk.code hlt).trans hcode, f, hk.hidden ▸ hfl, hwf, by rw [hbytes, hw]; exact hfit⟩
  · rw [hk.hidden]
    exact h.idleSlot (hb ▸ hy)
  · obtain ⟨hlt, hcode⟩ := h.abortSlot (ha ▸ hy)
    exact ⟨hn ▸ hlt, (hk.code hlt).trans hcode⟩
  · obtain ⟨hlt, hstate⟩ := h.lockedSlot (hk.lock hy)
    exact ⟨hn ▸ hlt, (x.slotState_congr y k (hk.code hlt) hb ha).trans hstate⟩

/-- The invariant holds after an update where every slot is kept or holds its part of it anew. -/
theorem Instance.Inv.of_slots {x y : Instance} (h : x.Inv) (hf : x.FrameKept y)
    (hs : ∀ k, x.SlotKept y k ∨ y.SlotInv k) : y.Inv := by
  have slot (k : Nat) : y.SlotInv k := (hs k).elim ((h.slotInv k).of_kept hf) id
  exact
    { memory := hf.memory h.memory
      busySlot := fun k => (slot k).busySlot
      idleSlot := fun k => (slot k).idleSlot
      abortSlot := fun k => (slot k).abortSlot
      lockedSlot := fun k => (slot k).lockedSlot
      heldFrame := hf.held ▸ h.heldFrame
      wordSize := hf.driver ▸ h.wordSize
      range := hf.driver ▸ h.range }

/-! ### Updates of one controller -/

/-- New fields with the same MBWS. -/
theorem Instance.Inv.setFields {x : Instance} (h : x.Inv) {f : Fields} (hf : f.mbws = x.fields.mbws) :
    (x.setFields f).Inv := by
  refine h.of_slots ⟨id, hf, rfl, rfl, rfl⟩ fun k => .inl ⟨fun _ => ?_, rfl, id⟩
  unfold Instance.code Instance.ctrl
  rw [ws_eq_of_mbws hf, setFields_word]

theorem Instance.Inv.setFlag {x : Instance} (h : x.Inv) (i : Nat) : (x.setFlag i).Inv := h.setFields rfl

theorem Instance.Inv.clearFlags {x : Instance} (h : x.Inv) (v : Word) : (x.clearFlags v).Inv := h.setFields rfl

theorem Instance.Inv.pushBus {x : Instance} (h : x.Inv) (f : BusFrame) : (x.pushBus f).Inv :=
  h.of_slots ⟨id, rfl, rfl, rfl, rfl⟩ fun _ => .inl ⟨fun _ => rfl, rfl, id⟩

/-- A lock is released, or a slot that may be locked takes it (43_mb_hardware.md R235). -/
theorem Instance.Inv.setLocked {x : Instance} (h : x.Inv) {l : Option Nat}
    (hl : ∀ k, l = some k → k < x.hwSlots ∧ x.slotState k = .receiveEmpty) : (x.setLocked l).Inv :=
  h.of_slots ⟨id, rfl, rfl, rfl, rfl⟩ fun k => .inr
    ⟨(h.slotInv k).busySlot, (h.slotInv k).idleSlot, (h.slotInv k).abortSlot, hl k⟩

theorem Instance.Inv.unlock {x : Instance} (h : x.Inv) : (x.setLocked none).Inv :=
  h.setLocked fun _ hk => absurd hk (by simp)

theorem Instance.Inv.setPendingRx {x : Instance} (h : x.Inv) {f : Option Frame}
    (hf : ∀ g, f = some g → g.wellFormed = true) : (x.setPendingRx f).Inv :=
  { h with heldFrame := hf }

/-- A stored word that is no slot's control word. -/
theorem Instance.Inv.setWord {x : Instance} (h : x.Inv) {w : Nat} (v : Word)
    (hw : ∀ k < x.hwSlots, wordAddr x.ws k 0 ≠ w) : (x.setWord w v).Inv :=
  h.of_slots ⟨x.setWord_wf w v, rfl, rfl, rfl, rfl⟩ fun k =>
    .inl ⟨fun hk => congrArg codeOf (x.ctrl_setWord_other w k v (hw k hk) h.memory), rfl, id⟩

/-- Several stored words none of which is a slot's control word. -/
theorem Instance.Inv.setWords {x : Instance} (h : x.Inv) {base : Nat} (f : Nat → Word) {n : Nat}
    (hw : ∀ j < n, ∀ k < x.hwSlots, wordAddr x.ws k 0 ≠ base + j) : (x.setWords base f n).Inv := by
  induction n with
  | zero => exact h
  | succ n ih =>
    refine (ih fun j hj => hw j (by omega)).setWord (f n) fun k hk => ?_
    rw [setWords_ws]
    exact hw n (by omega) k (by simpa using hk)

/-- The words of a slot behind its control word are no slot's control word. -/
theorem Instance.wordAddr_ne_ctrl (x : Instance) {i j : Nat} (hi : i < x.hwSlots) (hj : j < x.ws) (h0 : j ≠ 0) :
    ∀ k < x.hwSlots, wordAddr x.ws k 0 ≠ wordAddr x.ws i j := fun k hk e =>
  h0 (x.wordAddr_inj k 0 i j hk (by omega) hi hj e).2.symm

/-- A stored control word whose code agrees with what the slot's hidden state and lock ask for. -/
theorem Instance.Inv.setCtrl {x : Instance} (h : x.Inv) {i : Nat} {v : Word} (hi : i < x.hwSlots)
    (hb : x.busy i = true → codeOf v = 0x4#4) (ha : x.abortPending i = true → codeOf v = 0x9#4)
    (hl : x.hidden.locked ≠ some i) : (x.setWord (wordAddr x.ws i 0) v).Inv := by
  have code (k : Nat) (hk : k < x.hwSlots) :
      (x.setWord (wordAddr x.ws i 0) v).code k = if k = i then codeOf v else x.code k := by
    unfold Instance.code
    rw [x.ctrl_setWord i k v hi hk h.memory, apply_ite codeOf]
  refine h.of_slots ⟨x.setWord_wf _ v, rfl, rfl, rfl, rfl⟩ fun k => ?_
  by_cases hk : k = i
  · subst hk
    have hc := code k hi
    rw [if_pos rfl] at hc
    refine .inr ⟨fun hy => ?_, h.idleSlot k, fun hy => ⟨hi, hc.trans (ha hy)⟩, fun hy => absurd hy hl⟩
    obtain ⟨-, -, hfit⟩ := h.busySlot k hy
    exact ⟨hi, hc.trans (hb hy), hfit⟩
  · exact .inl ⟨fun hlt => by rw [code k hlt, if_neg hk], rfl, id⟩

/-- New hidden state of one slot. -/
theorem Instance.Inv.setSlot {x : Instance} (h : x.Inv) {i : Nat} {v : SlotHidden} (hs : (x.setSlot i v).SlotInv i) :
    (x.setSlot i v).Inv := by
  refine h.of_slots ⟨id, rfl, rfl, rfl, rfl⟩ fun k => ?_
  by_cases hk : k = i
  · exact .inr (hk ▸ hs)
  · exact .inl ⟨fun _ => rfl, by rw [setSlot_hidden, Hidden.slot_setSlot_iff, if_neg fun e => hk e.1], id⟩

/-- Whether an abort is pending has no part in which slots are busy. -/
@[simp] theorem Instance.setAbortPending_busy (x : Instance) (i k : Nat) (b : Bool) :
    (x.setAbortPending i b).busy k = x.busy k := by
  unfold Instance.busy
  rw [setAbortPending_hidden, Hidden.slot_setSlot_iff]
  split
  · rename_i hk
    rw [hk.1]
  · rfl

theorem Instance.setAbortPending_same (x : Instance) {i : Nat} (b : Bool) (hi : i < x.hwSlots) :
    (x.setAbortPending i b).abortPending i = b := by
  simp [Instance.abortPending, Hidden.slot_setSlot_iff, Nat.lt_of_lt_of_le hi x.hwSlots_le]

/-- An abort becomes pending only where the code is 9 (10_state.md R58). -/
theorem Instance.Inv.setAbortPending {x : Instance} (h : x.Inv) {i : Nat} {b : Bool} (hi : i < x.hwSlots)
    (hb : b = true → x.code i = 0x9#4) : (x.setAbortPending i b).Inv := by
  have h32 := Nat.lt_of_lt_of_le hi x.hwSlots_le
  have busy := x.setAbortPending_busy i i b
  have inflight : ((x.setAbortPending i b).hidden.slot i).rxInflight = (x.hidden.slot i).rxInflight := by
    simp [Hidden.slot_setSlot_iff, h32]
  have pending := x.setAbortPending_same b hi
  refine h.setSlot ⟨fun hy => ?_, fun hy => ?_, fun hy => ⟨hi, hb (pending.symm.trans hy)⟩, fun hy => ?_⟩
  · obtain ⟨hlt, hcode, f, hf, hfit⟩ := h.busySlot i (busy.symm.trans hy)
    exact ⟨hlt, hcode, f, inflight.trans hf, hfit⟩
  · exact inflight.trans (h.idleSlot i (busy.symm.trans hy))
  · obtain ⟨hlt, hstate⟩ := h.lockedSlot i hy
    have armed := slotState_receiveEmpty.1 hstate
    exact ⟨hlt, slotState_receiveEmpty.2 ⟨armed.1, busy.trans armed.2⟩⟩

/-- A reception ends: its slot holds no frame (10_state.md R57). -/
theorem Instance.Inv.endRx {x : Instance} (h : x.Inv) {i : Nat} (hi : i < x.hwSlots) : (x.endRx i).Inv := by
  have h32 := Nat.lt_of_lt_of_le hi x.hwSlots_le
  have busy : (x.endRx i).busy i = false := by simp [Instance.busy, Hidden.slot_setSlot_iff, h32]
  have inflight : ((x.endRx i).hidden.slot i).rxInflight = none := by simp [Hidden.slot_setSlot_iff, h32]
  have pending : (x.endRx i).abortPending i = x.abortPending i := by
    simp [Instance.abortPending, Hidden.slot_setSlot_iff, h32]
  refine h.setSlot ⟨fun hy => absurd (busy.symm.trans hy) (by decide), fun _ => inflight,
    fun hy => h.abortSlot i (pending.symm.trans hy), fun hy => ?_⟩
  obtain ⟨hlt, hstate⟩ := h.lockedSlot i hy
  exact ⟨hlt, slotState_receiveEmpty.2 ⟨(slotState_receiveEmpty.1 hstate).1, busy⟩⟩

/-- An armed slot that is not locked begins to receive a frame that fits it (43_mb_hardware.md R232). -/
theorem Instance.Inv.beginRx {x : Instance} (h : x.Inv) {i : Nat} {f : Frame} (hi : i < x.hwSlots)
    (ha : x.slotState i = .receiveEmpty) (hl : x.hidden.locked ≠ some i) (hw : f.wellFormed = true)
    (hf : x.bytes f ≤ capacity x.ws) : (x.beginRx i f).Inv := by
  have h32 := Nat.lt_of_lt_of_le hi x.hwSlots_le
  have busy : (x.beginRx i f).busy i = true := by simp [Instance.busy, Hidden.slot_setSlot_iff, h32]
  have inflight : ((x.beginRx i f).hidden.slot i).rxInflight = some f := by simp [Hidden.slot_setSlot_iff, h32]
  have pending : (x.beginRx i f).abortPending i = x.abortPending i := by
    simp [Instance.abortPending, Hidden.slot_setSlot_iff, h32]
  exact h.setSlot ⟨fun _ => ⟨hi, (slotState_receiveEmpty.1 ha).1, f, inflight, hw, hf⟩,
    fun hy => absurd (busy.symm.trans hy) (by decide), fun hy => h.abortSlot i (pending.symm.trans hy),
    fun hy => absurd hy hl⟩

/-! ### Accesses of the host -/

/-- A preemption (43_mb_hardware.md R223). -/
theorem Instance.Inv.preempt {x : Instance} (h : x.Inv) {i : Nat} (hi : i < x.hwSlots) (s : SlotState) (d : Nat) :
    (x.preempt i s d).Inv := by
  have flag {y : Instance} (hy : y.Inv) : (if drawBool d then y.setFlag i else y).Inv := by
    split
    · exact hy.setFlag i
    · exact hy
  have received : ((x.endRx i).setWords (wordAddr x.ws i 1) (fun k => Config.draw (d + 2 + k)) (x.ws - 1)).Inv :=
    (h.endRx hi).setWords _ fun j hj => by
      have := x.wordAddr_ne_ctrl hi (j := 1 + j) (by omega) (by omega)
      simpa [wordAddr, Nat.add_assoc] using this
  have sent : ((if drawBool (d + 1) then x.pushBus (x.busImage i) else x).setAbortPending i false).Inv := by
    split
    · exact (h.pushBus _).setAbortPending hi (by simp)
    · exact h.setAbortPending hi (by simp)
  cases s with
  | busy => exact flag received
  | send | abortPending => exact flag sent
  | _ => exact flag h

/-- The rule of the code that the slot now shows (43_mb_hardware.md R239 to R243). -/
theorem Instance.Inv.codeEffect {x : Instance} (h : x.Inv) {i : Nat} (hi : i < x.hwSlots) (s : SlotState) :
    (codeEffect (x.code i) i s x).Inv := by
  unfold Machine.codeEffect
  split
  case h_4 hc => exact h.setAbortPending hi fun _ => BitVec.eq_of_toNat_eq hc
  case h_2 | h_3 => exact h
  all_goals exact h.setAbortPending hi (by simp)

/-- An admitted control-word write of a slot on which the hardware has nothing pending (43_mb_hardware.md R222). -/
theorem Instance.Inv.storeCode {x : Instance} (h : x.Inv) {i : Nat} (hi : i < x.hwSlots) (v : Word) (s : SlotState)
    (hb : x.busy i = false) (ha : x.abortPending i = false) : (x.storeCode i v s).Inv := by
  have stored {y : Instance} (hy : y.Inv) (hyi : i < y.hwSlots) (hyb : y.busy i = false) (hya : y.abortPending i = false)
      (hl : y.hidden.locked ≠ some i) : (Machine.codeEffect (codeOf v) i s (y.setWord (wordAddr y.ws i 0) v)).Inv := by
    have hc : (y.setWord (wordAddr y.ws i 0) v).code i = codeOf v :=
      congrArg codeOf ((y.ctrl_setWord i i v hyi hyi hy.memory).trans (if_pos rfl))
    have hz := hy.setCtrl (v := v) hyi (by simp [hyb]) (by simp [hya]) hl
    exact hc ▸ hz.codeEffect hyi s
  unfold Instance.storeCode
  split
  · exact stored h.unlock hi hb ha (by simp)
  · rename_i hl
    exact stored h hi hb ha hl

/-- A busy slot is in the state Busy, as its code is 4 (10_state.md R56, R61). -/
theorem Instance.Inv.busy_eq_false {x : Instance} (h : x.Inv) {i : Nat} (hs : x.slotState i ≠ .busy) : x.busy i = false :=
  Bool.eq_false_iff.2 fun hb => hs (slotState_busy.2 ⟨(h.busySlot i hb).2.1, hb⟩)

/-- A slot with an abort pending is in the state AbortPending, as its code is 9 (10_state.md R58, R61). -/
theorem Instance.Inv.abortPending_eq_false {x : Instance} (h : x.Inv) {i : Nat} (hs : x.slotState i ≠ .abortPending) :
    x.abortPending i = false :=
  Bool.eq_false_iff.2 fun ha => hs (slotState_abortPending.2 ⟨(h.abortSlot i ha).2, ha⟩)

/-- After a preemption the hardware has nothing pending on the slot (43_mb_hardware.md R223). -/
theorem Instance.Inv.preempt_idle {x : Instance} (h : x.Inv) {i : Nat} (hi : i < x.hwSlots) (d : Nat) :
    (x.preempt i (x.slotState i) d).busy i = false ∧ (x.preempt i (x.slotState i) d).abortPending i = false := by
  have hb := h.busy_eq_false (i := i)
  have ha := h.abortPending_eq_false (i := i)
  unfold Instance.busy Instance.abortPending at *
  rw [x.preempt_slot, if_pos ⟨rfl, Nat.lt_of_lt_of_le hi x.hwSlots_le⟩]
  cases hs : x.slotState i <;> simp [hs] at hb ha <;> simp [hb, ha]

/-- A code is written without a preemption only where the hardware has nothing pending (43_mb_hardware.md R222). -/
theorem admission_yes {b : Bool} {s : SlotState} {c : BitVec 4} (h : admission b s c = .yes) :
    s ≠ .busy ∧ s ≠ .abortPending := by
  constructor <;> rintro rfl <;> revert b c <;> decide

theorem Instance.Inv.codeWrite {x y : Instance} (h : x.Inv) {i d u : Nat} {v : Word} (hi : i < x.hwSlots)
    (hw : codeWrite i v d x = .ok () y u) : y.Inv := by
  obtain ⟨-, ⟨hadm, rfl, -⟩ | ⟨-, rfl, -⟩⟩ := (codeWrite_ok i v d x y u).1 hw
  · obtain ⟨hb, ha⟩ := admission_yes hadm
    exact h.storeCode hi v _ (h.busy_eq_false hb) (h.abortPending_eq_false ha)
  · obtain ⟨hb, ha⟩ := h.preempt_idle hi d
    exact (h.preempt hi _ d).storeCode (by simpa using hi) v _ hb ha

theorem Instance.Inv.wordWrite {x y : Instance} (h : x.Inv) {w d u : Nat} {v : Word} (hw : wordWrite w v d x = .ok () y u) :
    y.Inv := by
  obtain ⟨-, ⟨hs, rfl, -⟩ | ⟨i, hs, hc⟩ | ⟨i, j, hs, hj, -, rfl, -⟩⟩ := wordWrite_ok w v d x y u hw
  · refine h.setWord v fun k hk e => x.slotOf_none w k 0 hs hk ?_ e.symm
    have := (x.hwSlots_pos k hk).1
    omega
  · exact h.codeWrite (x.slotOf_some w i 0 hs).1 hc
  · obtain ⟨hi, hjw, rfl⟩ := x.slotOf_some w i j hs
    exact h.setWord v (x.wordAddr_ne_ctrl hi hjw hj)

theorem Instance.Inv.wordRead {x y : Instance} (h : x.Inv) {w d u : Nat} {v : Word} (hr : wordRead w d x = .ok v y u) :
    y.Inv := by
  obtain ⟨-, rfl | ⟨i, hs, -, rfl⟩⟩ := wordRead_ok w d x y v u hr
  · exact h
  · rw [x.lockOnRead_eq]
    refine h.setLocked fun k hk => ?_
    split at hk
    · rename_i ha
      obtain rfl : i = k := by simpa using hk
      exact ⟨(x.slotOf_some w i 0 hs).1, ha⟩
    · split at hk
      · rename_i hl
        exact h.lockedSlot k (hl.trans hk)
      · exact absurd hk (by simp)

/-- A field write keeps the slots, and a write of MBWS leaves none busy, pending or locked (43_mb_hardware.md R248). -/
theorem Instance.Inv.storeField {x : Instance} (h : x.Inv) (f : Field) (v : Word) : (x.storeField f v).Inv := by
  cases f with
  | mbws =>
    have slot (k : Nat) : (x.storeField .mbws v).hidden.slot k = {} := Hidden.slot_idle k
    exact
      { memory := h.memory
        busySlot := fun k hk => absurd ((congrArg SlotHidden.busy (slot k)).symm.trans hk) (by decide)
        idleSlot := fun k _ => congrArg SlotHidden.rxInflight (slot k)
        abortSlot := fun k hk => absurd ((congrArg SlotHidden.abortPending (slot k)).symm.trans hk) (by decide)
        lockedSlot := fun k hk => absurd hk (by simp [Instance.storeField])
        heldFrame := fun f hf => absurd hf (by simp [Instance.storeField])
        wordSize := h.wordSize
        range := h.range }
  | _ => exact h.setFields rfl

theorem Instance.Inv.fieldWrite {x y : Instance} (h : x.Inv) {sel : FieldSel} {d u : Nat} {v : Word}
    (hw : fieldWrite sel v d x = .ok () y u) : y.Inv := by
  obtain ⟨f, -, -, -, -, -, -, -, rfl, -⟩ := (fieldWrite_ok sel v d x y u).1 hw
  exact h.storeField f v

/-- Line 12 of INIT writes MBWS and records the word size and its slot range (44_driver_ops.md R276). -/
theorem initGeometry_ok {x y : Instance} {ws : BitVec 8} {d u : Nat} (h : initGeometry ws d x = .ok () y u) :
    ∃ z, fieldWrite (.named .mbws) (ws.setWidth 32) d x = .ok () z u ∧ legalWordSize ws.toNat = true ∧
      y = { z with driver := { z.driver with wordSize := some ws.toNat, slotRange := some (slotRange ws.toNat) } } := by
  unfold initGeometry at h
  split at h
  · exact absurd h (by simp)
  · rename_i _ z used hz
    obtain ⟨rfl, rfl⟩ : _ = y ∧ used = u := by simpa using h
    obtain ⟨f, hf, -, -, -, hlegal, -⟩ := (fieldWrite_ok _ _ _ _ _ _).1 hz
    have hws : (ws.setWidth 32).toNat = ws.toNat := BitVec.toNat_setWidth_of_le (by decide)
    exact ⟨z, hz, hws ▸ hlegal (FieldSel.named.inj hf).symm, rfl⟩

theorem Instance.Inv.initGeometry {x y : Instance} (h : x.Inv) {ws : BitVec 8} {d u : Nat}
    (hw : initGeometry ws d x = .ok () y u) : y.Inv := by
  obtain ⟨z, hz, hlegal, rfl⟩ := initGeometry_ok hw
  exact
    { h.fieldWrite hz with
      wordSize := fun n hn => Option.some.inj hn ▸ hlegal
      range := rfl }

/-- Every access of the host keeps the invariant of the controller it is made to. -/
theorem Instance.Inv.hostAccess {x y : Instance} (h : x.Inv) {i : Instr} {p : Pos} {d : Nat} (ha : HostAccess i p d x y) :
    y.Inv := by
  cases ha with
  | none hy => exact hy ▸ h
  | unlock _ hy => exact hy ▸ h.unlock
  | read _ w v u hr => exact h.wordRead hr
  | field f v u _ _ hw => exact h.fieldWrite hw
  | flags v _ hy => exact hy ▸ h.clearFlags v
  | word _ w v u _ hw => exact h.wordWrite hw
  | geometry _ ws u _ hw => exact h.initGeometry hw
  | callback c _ hy => exact hy ▸ { h with }

end Sys2Proof.Machine
end

section
/-! Proofs about the state (10_state.md): every hardware step keeps the invariant of its controller
(43_mb_hardware.md R225 to R234). -/

namespace Sys2Proof.Machine

/-! ### What each hardware step asks for and does -/

theorem freezeAck_some {x y : Instance} : freezeAck x = some y ↔
    (x.fields.mdis = 0#1 ∧ x.fields.frz = 1#1 ∧ x.fields.halt = 1#1 ∧ x.fields.frzack = 0#1) ∧
      x.setFields { x.fields with frzack := 1#1, notrdy := 1#1, synch := 0#1 } = y := by
  rw [freezeAck, Option.ite_none_right_eq_some, Option.some.injEq]

theorem freezeExit_some {x y : Instance} : freezeExit x = some y ↔
    (x.fields.mdis = 0#1 ∧ x.fields.frzack = 1#1 ∧ ¬(x.fields.frz = 1#1 ∧ x.fields.halt = 1#1)) ∧
      x.setFields { x.fields with frzack := 0#1, notrdy := 0#1 } = y := by
  rw [freezeExit, Option.ite_none_right_eq_some, Option.some.injEq]

theorem syncStep_some {x y : Instance} : syncStep x = some y ↔
    (x.fields.mdis = 0#1 ∧ x.fields.frzack = 0#1 ∧ x.fields.notrdy = 0#1 ∧ x.fields.synch = 0#1) ∧
      x.setFields { x.fields with synch := 1#1 } = y := by
  rw [syncStep, Option.ite_none_right_eq_some, Option.some.injEq]

theorem txComplete_some {x y : Instance} {order : RxMatchOrder} {i pick : Nat} {t : BitVec 16} :
    txComplete order i t pick x = some y ↔ (x.fields.running = true ∧ i < x.hwSlots ∧ x.slotState i = .send) ∧
      ((x.pushBus (x.busImage i)).finishTx i 0x8 t).selfReceive order i (x.decodeSlot i) pick = y := by
  rw [txComplete, Option.ite_none_right_eq_some, Option.some.injEq]

theorem abortResolve_some {x y : Instance} {order : RxMatchOrder} {i pick : Nat} {sent keep9 : Bool} {t : BitVec 16} :
    abortResolve order i sent keep9 t pick x = some y ↔
      (x.fields.mdis = 0#1 ∧ i < x.hwSlots ∧ x.slotState i = .abortPending ∧
        (sent = true → x.fields.running = true)) ∧
      (if sent then (((x.pushBus (x.busImage i)).setAbortPending i false).finishTx i 0x8 t).selfReceive order i
          (x.decodeSlot i) pick
        else (x.setAbortPending i false).finishTx i (x.params.abortFinal.code keep9) t) = y := by
  rw [abortResolve, Option.ite_none_right_eq_some, ← apply_ite some, Option.some.injEq]

theorem rxBegin_some {x y : Instance} {order : RxMatchOrder} {src : RxSource} {pick : Nat} :
    rxBegin order src pick x = some y ↔ x.fields.running = true ∧
      ((∃ f, src = .bus f ∧ f.wellFormed = true ∧ x.accept order f none pick = y) ∨
       ∃ f, src = .held ∧ x.hidden.pendingRx = some f ∧ x.eligibleSlots f none ≠ [] ∧
        (x.accept order f none pick).setPendingRx none = y) := by
  unfold rxBegin
  rw [Option.ite_none_right_eq_some]
  cases src with
  | bus f => simp
  | held => cases x.hidden.pendingRx <;> simp

theorem rxCommit_some {x y : Instance} {i : Nat} {t : BitVec 16} {fill : Word} :
    rxCommit i t fill x = some y ↔ (x.fields.mdis = 0#1 ∧ i < x.hwSlots ∧ x.busy i = true) ∧
      ∃ f, (x.hidden.slot i).rxInflight = some f ∧ ((x.writeRxImage i f t fill).endRx i).setFlag i = y := by
  rw [rxCommit, Option.ite_none_right_eq_some]
  cases (x.hidden.slot i).rxInflight <;> simp

/-! ### Frames the hardware reads and writes -/

/-- A standard identifier read from an ID word has at most 11 bits (41_frame_mapper.md R180). -/
theorem decodeId_standard_lt (shift : Fin 19) (w : Word) : (decodeId shift w false).toNat < 2 ^ 11 := by
  simp only [decodeId, Bool.false_eq_true, if_false, BitVec.toNat_setWidth]
  exact Nat.lt_of_le_of_lt (Nat.mod_le _ _) (BitVec.isLt _)

/-- The frame that words hold is one the bus can offer (41_frame_mapper.md R182). -/
theorem frameOfWords_wellFormed (shift : Fin 19) (cw idw : Word) (words : List Word) (nb : Nat) :
    (frameOfWords shift cw idw words nb).wellFormed = true := by
  have hid : (frameOfWords shift cw idw words nb).id = decodeId shift idw (frameOfWords shift cw idw words nb).ide := rfl
  unfold Frame.wellFormed
  rw [hid]
  cases (frameOfWords shift cw idw words nb).ide with
  | true => rfl
  | false => simpa using decodeId_standard_lt shift idw

theorem Instance.decodeSlot_wellFormed (x : Instance) (i : Nat) : (x.decodeSlot i).wellFormed = true :=
  frameOfWords_wellFormed ..

/-- The receive image ends in a control word of code 4 (41_frame_mapper.md R183). -/
theorem codeOf_rxControl (f : Frame) (t : BitVec 16) :
    codeOf ((encodeControl 0x4 f &&& ~~~0x0000FFFF#32) ||| t.setWidth 32) = 0x4#4 := by
  have hc : codeOf (encodeControl 0x4 f) = 0x4#4 := codeOf_toWord _ _
  rw [← hc]
  apply BitVec.eq_of_getLsbD_eq
  intro i hi
  simp only [codeOf, BitVec.getLsbD_extractLsb', BitVec.getLsbD_or, BitVec.getLsbD_and, BitVec.getLsbD_not,
    BitVec.getLsbD_setWidth]
  interval_cases i <;> simp

/-! ### The invariant -/

/-- Offering a frame keeps the invariant, whatever its outcome (43_mb_hardware.md R231, R232). -/
theorem Instance.Inv.offered {x y : Instance} (h : x.Inv) {order : RxMatchOrder} {f : Frame} {e : Option Nat}
    (hf : f.wellFormed = true) (ho : x.Offered y order f e) : y.Inv := by
  obtain ⟨i, hc, hl, -, rfl⟩ | ⟨-, ⟨k, -, -, rfl⟩ | ⟨-, rfl⟩⟩ := ho
  · exact h.beginRx hc.slot hc.armed hl hf hc.fits
  · exact h.setPendingRx fun g hg => by
      obtain rfl : f = g := by simpa using hg
      exact hf
  · exact h

theorem Instance.Inv.accept {x : Instance} (h : x.Inv) (order : RxMatchOrder) {f : Frame} (e : Option Nat) (pick : Nat)
    (hf : f.wellFormed = true) : (x.accept order f e pick).Inv :=
  h.offered hf (x.accept_offered order f e pick)

theorem Instance.Inv.selfReceive {x : Instance} (h : x.Inv) (order : RxMatchOrder) (i : Nat) {f : Frame} (pick : Nat)
    (hf : f.wellFormed = true) : (x.selfReceive order i f pick).Inv := by
  unfold Instance.selfReceive
  split
  · exact h.accept order _ pick hf
  · exact h

/-- A transmission or an abort ends on a slot that is not busy, not locked and has no abort pending any more. -/
theorem Instance.Inv.finishTx {x : Instance} (h : x.Inv) {i : Nat} (hi : i < x.hwSlots) (c : BitVec 4) (t : BitVec 16)
    (hb : x.busy i = false) (ha : x.abortPending i = false) (hl : x.hidden.locked ≠ some i) : (x.finishTx i c t).Inv :=
  (h.setCtrl hi (by simp [hb]) (by simp [ha]) hl).setFlag i

/-- The locked slot is armed (43_mb_hardware.md R235). -/
theorem Instance.Inv.locked_ne {x : Instance} (h : x.Inv) {i : Nat} (hs : x.slotState i ≠ .receiveEmpty) :
    x.hidden.locked ≠ some i := fun hl => hs (h.lockedSlot i hl).2

theorem Instance.Inv.txComplete {x y : Instance} (h : x.Inv) {order : RxMatchOrder} {i pick : Nat} {t : BitVec 16}
    (hy : txComplete order i t pick x = some y) : y.Inv := by
  obtain ⟨⟨-, hi, hs⟩, rfl⟩ := txComplete_some.1 hy
  have sent := (h.pushBus (x.busImage i)).finishTx hi 0x8 t (h.busy_eq_false (by simp [hs]))
    (h.abortPending_eq_false (by simp [hs])) (h.locked_ne (by simp [hs]))
  exact sent.selfReceive order i pick (x.decodeSlot_wellFormed i)

/-- The end of an abort, with whatever final code (43_mb_hardware.md R234). -/
theorem Instance.Inv.finishAbort {x : Instance} (h : x.Inv) {i : Nat} (hi : i < x.hwSlots)
    (hs : x.slotState i = .abortPending) (c : BitVec 4) (t : BitVec 16) :
    ((x.setAbortPending i false).finishTx i c t).Inv := by
  have hb := h.busy_eq_false (i := i) (by simp [hs])
  exact (h.setAbortPending hi (by simp)).finishTx hi c t (by simpa using hb) (x.setAbortPending_same false hi)
    (h.locked_ne (by simp [hs]))

theorem Instance.Inv.abortResolve {x y : Instance} (h : x.Inv) {order : RxMatchOrder} {i pick : Nat} {sent keep9 : Bool}
    {t : BitVec 16} (hy : abortResolve order i sent keep9 t pick x = some y) : y.Inv := by
  obtain ⟨⟨-, hi, hs, -⟩, rfl⟩ := abortResolve_some.1 hy
  split
  · exact ((h.pushBus _).finishAbort hi hs 0x8 t).selfReceive order i pick (x.decodeSlot_wellFormed i)
  · exact h.finishAbort hi hs _ t

theorem Instance.Inv.rxBegin {x y : Instance} (h : x.Inv) {order : RxMatchOrder} {src : RxSource} {pick : Nat}
    (hy : rxBegin order src pick x = some y) : y.Inv := by
  obtain ⟨-, ⟨f, -, hf, rfl⟩ | ⟨f, -, hp, -, rfl⟩⟩ := rxBegin_some.1 hy
  · exact h.accept order none pick hf
  · exact (h.accept order none pick (h.heldFrame f hp)).setPendingRx (by simp)

/-- The receive image of a frame that fits lies inside its slot, and its control word shows the code of a busy slot. -/
theorem Instance.Inv.writeRxImage {x : Instance} (h : x.Inv) {i : Nat} {f : Frame} (hb : x.busy i = true)
    (hf : x.bytes f ≤ capacity x.ws) (t : BitVec 16) (fill : Word) : (x.writeRxImage i f t fill).Inv := by
  obtain ⟨hi, hc, -⟩ := h.busySlot i hb
  have h4 : 4 ≤ x.ws := (x.hwSlots_pos i hi).1
  have hid := h.setWord (x.idWord f) (x.wordAddr_ne_ctrl hi (j := 1) (by omega) (by omega))
  have hpay := hid.setWords (base := wordAddr x.ws i 2) (packWord f.data (x.bytes f) fill) (n := payloadWords (x.bytes f))
    fun j hj => by
      have hlt : 2 + j < x.ws := by
        simp only [payloadWords, capacity] at hj hf
        omega
      have := x.wordAddr_ne_ctrl hi hlt (by omega)
      simpa [wordAddr, Nat.add_assoc] using this
  have hs : x.slotState i = .busy := Instance.slotState_busy.2 ⟨hc, hb⟩
  have hl : x.hidden.locked ≠ some i := h.locked_ne (by simp [hs])
  have pending : ((x.setWord (wordAddr x.ws i 1) (x.idWord f)).setWords (wordAddr x.ws i 2)
      (packWord f.data (x.bytes f) fill) (payloadWords (x.bytes f))).abortPending i = false := by
    unfold Instance.abortPending
    rw [Instance.setWords_hidden]
    exact h.abortPending_eq_false (by simp [hs])
  have hz := hpay.setCtrl (i := i) (by simpa using hi) (fun _ => codeOf_rxControl f t)
    (by simp [pending]) (by simpa using hl)
  rw [Instance.setWords_ws, Instance.setWord_ws] at hz
  exact hz

theorem Instance.Inv.rxCommit {x y : Instance} (h : x.Inv) {i : Nat} {t : BitVec 16} {fill : Word}
    (hy : rxCommit i t fill x = some y) : y.Inv := by
  obtain ⟨⟨-, hi, hb⟩, f, hf, rfl⟩ := rxCommit_some.1 hy
  obtain ⟨-, -, g, hg, -, hfit⟩ := h.busySlot i hb
  obtain rfl : g = f := Option.some.inj (hg.symm.trans hf)
  exact ((h.writeRxImage hb hfit t fill).endRx (by simpa [Instance.writeRxImage] using hi)).setFlag i

/-- Every hardware step keeps the invariant of its controller. -/
theorem Instance.Inv.hardware {x y : Instance} (h : x.Inv) {order : RxMatchOrder} {e : Event}
    {f : Instance → Option Instance} (he : hardware order e = some f) (hy : f x = some y) : y.Inv := by
  cases e <;> simp only [Machine.hardware, Option.some.injEq, reduceCtorEq] at he <;> subst he
  case freezeAck => exact (freezeAck_some.1 hy).2 ▸ h.setFields rfl
  case freezeExit => exact (freezeExit_some.1 hy).2 ▸ h.setFields rfl
  case sync => exact (syncStep_some.1 hy).2 ▸ h.setFields rfl
  case txComplete => exact h.txComplete hy
  case abortResolve => exact h.abortResolve hy
  case rxBegin => exact h.rxBegin hy
  case rxCommit => exact h.rxCommit hy

end Sys2Proof.Machine
end

section
/-! Proofs about the state (10_state.md): every step of every agent keeps the invariant of the system. -/

namespace Sys2Proof.Machine

/-- A step leaves each controller as it is, or makes one access of the host to it, or takes one hardware step of it. -/
theorem step_controller {s t : State} (h : step s = .next t) {n : Nat} {x y : Instance} (hx : s.insts[n]? = some x)
    (hy : t.insts[n]? = some y) :
    y = x ∨ (s.nextEvent = .host ∧ ∃ i p d, HostAccess i p d x y) ∨
    ∃ f, s.nextEvent.controller = some n ∧ hardware s.params.rxMatchOrder s.nextEvent = some f ∧ f x = some y := by
  have replaced {m : Nat} {a b : Instance} (ha : s.insts[m]? = some a) (ht : t.insts = s.insts.set m b) :
      y = x ∨ n = m ∧ a = x ∧ b = y := by
    rw [ht, getElem?_set_cases s.insts m n b a ha] at hy
    split at hy
    · rename_i hn
      subst hn
      exact .inr ⟨rfl, Option.some.inj (ha.symm.trans hx), Option.some.inj hy⟩
    · exact .inl (Option.some.inj (hy.symm.trans hx))
  rcases step_insts h with ht | ⟨he, i, u, a, b, -, -, ha, ht, hacc⟩ | ⟨m, f, a, b, hc, hf, ha, hb, ht⟩
  · rw [ht] at hy
    exact .inl (Option.some.inj (hy.symm.trans hx))
  · rcases replaced ha ht with e | ⟨rfl, rfl, rfl⟩
    · exact .inl e
    · exact .inr (.inl ⟨he, i, u.pos, u.draws, hacc⟩)
  · rcases replaced ha ht with e | ⟨rfl, rfl, rfl⟩
    · exact .inl e
    · exact .inr (.inr ⟨f, hc, hf, hb⟩)

/-- No step adds or removes a controller. -/
theorem step_insts_length {s t : State} (h : step s = .next t) : t.insts.length = s.insts.length := by
  rcases step_insts h with ht | ⟨-, _, _, _, _, -, -, -, ht, -⟩ | ⟨_, _, _, _, -, -, -, -, ht⟩ <;> simp [ht]

/-- Taking the event changes nothing that an interrupt entry asks for. -/
@[simp] theorem State.takeEvent_entryEnabled (s : State) (n : Nat) : s.takeEvent.entryEnabled n = s.entryEnabled n := by
  unfold State.entryEnabled
  simp

/-- What an interrupt entry asks for (60_exceptions.md R332). -/
theorem State.entryEnabled_spec {s : State} {n : Nat} (h : s.entryEnabled n = true) :
    n < s.insts.length ∧ n ∉ s.handlers.map HandlerCtx.inst := by
  unfold State.entryEnabled at h
  split at h
  · exact absurd h (by simp)
  · rename_i x hx
    simp only [Bool.and_eq_true, List.all_eq_true, bne_iff_ne, ne_eq] at h
    obtain ⟨⟨-, hother⟩, -⟩ := h
    refine ⟨(List.getElem?_eq_some_iff.1 hx).1, fun hn => ?_⟩
    obtain ⟨g, hg, rfl⟩ := List.mem_map.1 hn
    exact hother g hg rfl

/-- A step leaves which handlers run, or enters one that may be entered, or leaves the innermost one. -/
theorem step_handlers {s t : State} (h : step s = .next t) :
    t.handlers.map HandlerCtx.inst = s.handlers.map HandlerCtx.inst ∨
    (∃ n, s.entryEnabled n = true ∧ t.handlers.map HandlerCtx.inst = n :: s.handlers.map HandlerCtx.inst) ∨
    t.handlers = s.handlers.tail := by
  obtain ⟨-, h⟩ := step_next h
  cases he : s.nextEvent with
  | host =>
    rw [he] at h
    have kept {i : Instr} {u : State} (hu : u.handlers = s.handlers) (hx : exec i u = .next t) :
        t.handlers.map HandlerCtx.inst = s.handlers.map HandlerCtx.inst :=
      hu ▸ (exec_contextKept hx).handlers
    rcases s.takeEvent.hostStep_cases with ⟨a, as, -, e⟩ | ⟨g, gs, -, -, e⟩ |
      ⟨-, -, ⟨-, e⟩ | ⟨r, rest, -, ⟨i, -, e⟩ | ⟨d, -, e⟩⟩⟩ <;> replace h := e.symm.trans h
    · exact .inl (kept (by simp) h)
    · obtain rfl := Host.Outcome.next.inj h
      exact .inr (.inr (by simp))
    · obtain rfl := Host.Outcome.next.inj h
      exact .inl (by simp)
    · exact .inl (kept (by simp) h)
    · obtain rfl := Host.Outcome.next.inj h
      exact .inl (by simp)
  | irqEntry n =>
    rw [he] at h
    obtain rfl := Host.Outcome.next.inj h
    cases hn : s.entryEnabled n with
    | true => exact .inr (.inl ⟨n, hn, by simp [State.irqStep, hn]⟩)
    | false => exact .inl (by simp [State.irqStep, hn])
  | _ =>
    rw [he] at h
    obtain rfl := Host.Outcome.next.inj h
    exact .inl (by simp)

/-- The controllers after a step keep their invariant. -/
theorem State.Inv.step_insts {s t : State} (h : s.Inv) (hst : step s = .next t) : ∀ y ∈ t.insts, y.Inv := by
  intro y hy
  obtain ⟨n, hn⟩ := List.mem_iff_getElem?.1 hy
  have hlt : n < s.insts.length := step_insts_length hst ▸ (List.getElem?_eq_some_iff.1 hn).1
  have hx : s.insts[n]? = some s.insts[n] := List.getElem?_eq_getElem hlt
  have hinv : s.insts[n].Inv := h.insts _ (List.getElem_mem hlt)
  rcases step_controller hst hx hn with e | ⟨-, i, p, d, ha⟩ | ⟨f, -, hf, hfy⟩
  · exact e ▸ hinv
  · exact hinv.hostAccess ha
  · exact hinv.hardware hf hfy

/-- The handlers after a step run for different controllers that exist (60_exceptions.md R334). -/
theorem State.Inv.step_handlers {s t : State} (h : s.Inv) (hst : step s = .next t) :
    (t.handlers.map HandlerCtx.inst).Nodup ∧ ∀ n ∈ t.handlers.map HandlerCtx.inst, n < s.insts.length := by
  have exist : ∀ n ∈ s.handlers.map HandlerCtx.inst, n < s.insts.length := by
    intro n hn
    obtain ⟨g, hg, rfl⟩ := List.mem_map.1 hn
    exact h.handlersExist g hg
  rcases Machine.step_handlers hst with e | ⟨m, hm, e⟩ | e <;> rw [e]
  · exact ⟨h.handlersOnce, exist⟩
  · obtain ⟨hlt, hnew⟩ := State.entryEnabled_spec hm
    exact ⟨List.nodup_cons.2 ⟨hnew, h.handlersOnce⟩, fun n hn => (List.mem_cons.1 hn).elim (· ▸ hlt) (exist n)⟩
  · rw [List.map_tail]
    exact ⟨h.handlersOnce.sublist (List.tail_sublist _), fun n hn => exist n (List.mem_of_mem_tail hn)⟩

end Sys2Proof.Machine

open Sys2Proof.Machine

/-- Settles O13: a step replaces at most one controller, by an access or a hardware step that keeps its invariant, and it enters
a handler only for a controller whose handler does not run. -/
theorem stepKeepsInvariant : Obligations.StepKeepsInvariant := by
  intro s t hinv hst
  obtain ⟨once, exist⟩ := hinv.step_handlers hst
  exact
    { insts := hinv.step_insts hst
      handlersOnce := once
      handlersExist := fun g hg => step_insts_length hst ▸ exist g.inst (List.mem_map_of_mem hg) }

end

section
/-! Proofs about the fields (10_state.md R33 to R53): every way a step can change the fields of a controller, said once, and
which agent may change which field. -/

namespace Sys2Proof.Machine

/-! ### One field at a time -/

/-- A stored field leaves every other one. -/
theorem Fields.get_set_ne (x : Fields) {f g : Field} (v : Word) (h : g ≠ f) : (x.set f v).get g = x.get g := by
  cases f <;> cases g <;> first | rfl | exact absurd rfl h

/-- The host's field writes leave the status fields (40_register_interface.md R143). -/
theorem Fields.set_status (x : Fields) {f : Field} (v : Word) (h : f.readOnly = false) :
    (x.set f v).frzack = x.frzack ∧ (x.set f v).notrdy = x.notrdy ∧ (x.set f v).synch = x.synch := by
  cases f <;> first | exact ⟨rfl, rfl, rfl⟩ | cases h

theorem Fields.set_iflag_ne (x : Fields) {f : Field} (v : Word) (h : f ≠ .iflag) : (x.set f v).iflag = x.iflag :=
  x.get_set_ne v h.symm

/-- The flags are a field of their own. -/
theorem Fields.get_withFlags (x : Fields) (v : Word) {g : Field} (h : g ≠ .iflag) :
    { x with iflag := v }.get g = x.get g :=
  x.get_set_ne v h

/-- The status fields are fields of their own. -/
theorem Fields.get_withStatus (x : Fields) (ack rdy sync : BitVec 1) {g : Field}
    (hg : g ≠ .frzack ∧ g ≠ .notrdy ∧ g ≠ .synch) :
    { x with frzack := ack, notrdy := rdy, synch := sync }.get g = x.get g := by
  obtain ⟨hack, hrdy, hsync⟩ := hg
  cases g <;> first | rfl | contradiction

/-- A hardware step that completes slot `i` of controller `n` (43_mb_hardware.md R228, R233, R234). -/
def Event.Completes (e : Event) (n i : Nat) : Prop :=
  (∃ d p, e = .txComplete n i d p) ∨ (∃ a k d p, e = .abortResolve n i a k d p) ∨ ∃ d l, e = .rxCommit n i d l

/-- Every way the step of an event `e` can take the fields of controller `n` from `x` to `y`. -/
inductive FieldChange (e : Event) (n : Nat) (x y : Fields) : Prop where
  | kept (h : y = x)
  | stored (f : Field) (v : Word) (he : e = .host) (hro : f.readOnly = false) (hfl : f ≠ .iflag)
      (hfrz : f.freezeProtected = true → x.frzack ≠ 0#1) (hclk : f = .clksrc → x.mdis ≠ 0#1) (h : y = x.set f v)
  | flags (v : Word) (he : e = .host) (h : y = { x with iflag := v })
  | frozen (he : e = .freezeAck n) (h : y = { x with frzack := 1#1, notrdy := 1#1, synch := 0#1 })
  | thawed (he : e = .freezeExit n) (h : y = { x with frzack := 0#1, notrdy := 0#1 })
  | synced (he : e = .sync n) (h : y = { x with synch := 1#1 })
  | completed (i : Nat) (he : Event.Completes e n i) (h : y = { x with iflag := x.iflag ||| slotBit i })

/-! ### The accesses of the host -/

/-- From `x` to `y` no field changes but the flags, and no parameter does. -/
structure Instance.OnlyFlags (x y : Instance) : Prop where
  fields : y.fields = { x.fields with iflag := y.fields.iflag }
  params : y.params = x.params
  line : y.lineEnabled = x.lineEnabled

theorem Instance.OnlyFlags.refl (x : Instance) : x.OnlyFlags x := ⟨rfl, rfl, rfl⟩

theorem Instance.OnlyFlags.trans {x y z : Instance} (h : x.OnlyFlags y) (g : y.OnlyFlags z) : x.OnlyFlags z :=
  ⟨by rw [g.fields, h.fields], g.params.trans h.params, g.line.trans h.line⟩

theorem Instance.preempt_onlyFlags (x : Instance) (i : Nat) (s : SlotState) (d : Nat) : x.OnlyFlags (x.preempt i s d) := by
  refine ⟨?_, x.preempt_params i s d, x.preempt_lineEnabled i s d⟩
  rw [x.preempt_fields]
  split <;> rfl

theorem Instance.storeCode_onlyFlags (x : Instance) (i : Nat) (v : Word) (s : SlotState) :
    x.OnlyFlags (x.storeCode i v s) := by
  have stored : x.OnlyFlags ((if x.hidden.locked = some i then x.setLocked none else x).setWord (wordAddr x.ws i 0) v) := by
    split <;> exact ⟨rfl, rfl, rfl⟩
  unfold Instance.storeCode
  rcases codeEffect_eq (codeOf v) i s _ with e | ⟨b, e⟩ <;> rw [e]
  · exact stored
  · exact stored.trans ⟨rfl, rfl, rfl⟩

theorem wordWrite_onlyFlags {w d u : Nat} {v : Word} {x y : Instance} (h : wordWrite w v d x = .ok () y u) :
    x.OnlyFlags y := by
  obtain ⟨-, ⟨-, rfl, -⟩ | ⟨i, -, hc⟩ | ⟨i, j, -, -, -, rfl, -⟩⟩ := wordWrite_ok w v d x y u h
  · exact ⟨rfl, rfl, rfl⟩
  · obtain ⟨-, ⟨-, rfl, -⟩ | ⟨-, rfl, -⟩⟩ := (codeWrite_ok i v d x y u).1 hc
    · exact x.storeCode_onlyFlags i v _
    · exact (x.preempt_onlyFlags i _ d).trans (Instance.storeCode_onlyFlags _ i v _)
  · exact ⟨rfl, rfl, rfl⟩

theorem wordRead_onlyFlags {w d u : Nat} {v : Word} {x y : Instance} (h : wordRead w d x = .ok v y u) : x.OnlyFlags y := by
  obtain ⟨-, rfl | ⟨i, -, -, rfl⟩⟩ := wordRead_ok w d x y v u h
  · exact .refl _
  · rw [x.lockOnRead_eq]
    exact ⟨rfl, rfl, rfl⟩

/-- A field write stores one field that no check refuses, and no parameter. -/
theorem fieldWrite_change {sel : FieldSel} {d u n : Nat} {v : Word} {x y : Instance}
    (h : fieldWrite sel v d x = .ok () y u) :
    FieldChange .host n x.fields y.fields ∧ y.params = x.params ∧ y.lineEnabled = x.lineEnabled := by
  obtain ⟨f, -, hro, hfl, -, -, hfrz, hclk, rfl, -⟩ := (fieldWrite_ok sel v d x y u).1 h
  have stored : (x.storeField f v).fields = x.fields.set f v ∧ (x.storeField f v).params = x.params ∧
      (x.storeField f v).lineEnabled = x.lineEnabled := by
    cases f <;> exact ⟨rfl, rfl, rfl⟩
  exact ⟨.stored f v rfl hro hfl hfrz hclk stored.1, stored.2⟩

/-- An access of the host stores one field that no check refuses or changes flags, and writes no parameter. -/
theorem HostAccess.change {i : Instr} {p : Pos} {d : Nat} {x y : Instance} (h : HostAccess i p d x y) (n : Nat) :
    FieldChange .host n x.fields y.fields ∧ y.params = x.params ∧ y.lineEnabled = x.lineEnabled := by
  have flags (hf : x.OnlyFlags y) :
      FieldChange .host n x.fields y.fields ∧ y.params = x.params ∧ y.lineEnabled = x.lineEnabled :=
    ⟨.flags _ rfl hf.fields, hf.params, hf.line⟩
  cases h with
  | none h => exact h ▸ ⟨.kept rfl, rfl, rfl⟩
  | unlock _ h => exact h ▸ ⟨.kept rfl, rfl, rfl⟩
  | read _ w v u hr => exact flags (wordRead_onlyFlags hr)
  | field f v u _ _ hw => exact fieldWrite_change hw
  | flags v _ h => exact flags (h ▸ ⟨rfl, rfl, rfl⟩)
  | word _ w v u _ hw => exact flags (wordWrite_onlyFlags hw)
  | geometry _ ws u _ hg =>
    obtain ⟨z, hz, -, rfl⟩ := initGeometry_ok hg
    exact fieldWrite_change (y := z) hz
  | callback c _ h => exact h ▸ ⟨.kept rfl, rfl, rfl⟩

/-! ### The hardware steps -/

/-- The acceptance of a frame changes hidden state only (43_mb_hardware.md R232). -/
theorem Instance.accept_eq (x : Instance) (order : RxMatchOrder) (f : Frame) (e : Option Nat) (pick : Nat) :
    ∃ h, x.accept order f e pick = x.setHidden h := by
  obtain ⟨i, -, -, -, e⟩ | ⟨-, ⟨k, -, -, e⟩ | ⟨-, e⟩⟩ := x.accept_offered order f e pick
  · exact ⟨_, e⟩
  · exact ⟨_, e⟩
  · exact ⟨x.hidden, e⟩

theorem Instance.selfReceive_eq (x : Instance) (order : RxMatchOrder) (i : Nat) (f : Frame) (pick : Nat) :
    ∃ h, x.selfReceive order i f pick = x.setHidden h := by
  unfold Instance.selfReceive
  split
  · exact x.accept_eq order f _ pick
  · exact ⟨_, rfl⟩

/-- What a hardware event does to the fields of its controller; it writes no parameter and no driver record. -/
theorem hardware_change {order : RxMatchOrder} {e : Event} {n : Nat} {f : Instance → Option Instance} {x y : Instance}
    (hc : e.controller = some n) (he : hardware order e = some f) (hy : f x = some y) :
    FieldChange e n x.fields y.fields ∧ y.driver = x.driver ∧ y.params = x.params ∧ y.lineEnabled = x.lineEnabled := by
  cases e <;> simp only [hardware, Option.some.injEq, reduceCtorEq] at he <;> subst he <;>
    simp only [Event.controller, Option.some.injEq] at hc <;> subst hc
  case freezeAck => exact (freezeAck_some.1 hy).2 ▸ ⟨.frozen rfl rfl, rfl, rfl, rfl⟩
  case freezeExit => exact (freezeExit_some.1 hy).2 ▸ ⟨.thawed rfl rfl, rfl, rfl, rfl⟩
  case sync => exact (syncStep_some.1 hy).2 ▸ ⟨.synced rfl rfl, rfl, rfl, rfl⟩
  case txComplete i t pick =>
    obtain ⟨-, rfl⟩ := txComplete_some.1 hy
    obtain ⟨h, e⟩ := ((x.pushBus (x.busImage i)).finishTx i 0x8 t).selfReceive_eq order i (x.decodeSlot i) pick
    rw [e]
    exact ⟨.completed i (.inl ⟨_, _, rfl⟩) rfl, rfl, rfl, rfl⟩
  case abortResolve m i sent keep9 t pick =>
    have finished : Event.Completes (.abortResolve m i sent keep9 t pick) m i := .inr (.inl ⟨_, _, _, _, rfl⟩)
    obtain ⟨-, rfl⟩ := abortResolve_some.1 hy
    split
    · obtain ⟨h, e⟩ := (((x.pushBus (x.busImage i)).setAbortPending i false).finishTx i 0x8 t).selfReceive_eq order i
        (x.decodeSlot i) pick
      rw [e]
      exact ⟨.completed i finished rfl, rfl, rfl, rfl⟩
    · exact ⟨.completed i finished rfl, rfl, rfl, rfl⟩
  case rxBegin =>
    obtain ⟨-, ⟨f, -, -, rfl⟩ | ⟨f, -, -, -, rfl⟩⟩ := rxBegin_some.1 hy <;>
      obtain ⟨h, e⟩ := x.accept_eq order f none _ <;> rw [e] <;> exact ⟨.kept rfl, rfl, rfl, rfl⟩
  case rxCommit i t fill =>
    obtain ⟨-, f, -, rfl⟩ := rxCommit_some.1 hy
    exact ⟨.completed i (.inr (.inr ⟨_, _, rfl⟩)) (by simp [Instance.writeRxImage]), by simp [Instance.writeRxImage],
      by simp [Instance.writeRxImage], by simp [Instance.writeRxImage]⟩

/-! ### Any step -/

/-- Every way a step can change the fields of a controller. Only a host step writes its driver record, none a parameter. -/
theorem step_change {s t : State} (h : step s = .next t) {n : Nat} {x y : Instance} (hx : s.insts[n]? = some x)
    (hy : t.insts[n]? = some y) :
    FieldChange s.nextEvent n x.fields y.fields ∧ (y.driver ≠ x.driver → s.nextEvent = .host) ∧ y.params = x.params ∧
      y.lineEnabled = x.lineEnabled := by
  rcases step_controller h hx hy with rfl | ⟨he, i, p, d, ha⟩ | ⟨f, hc, hf, hfy⟩
  · exact ⟨.kept rfl, fun hd => absurd rfl hd, rfl, rfl⟩
  · obtain ⟨hfields, hrest⟩ := ha.change n
    exact ⟨he ▸ hfields, fun _ => he, hrest⟩
  · obtain ⟨hfields, hd, hrest⟩ := hardware_change hc hf hfy
    exact ⟨hfields, fun hne => absurd hd hne, hrest⟩

/-- A field that the hardware does not move by itself changes in a host step only, and there only where its write is allowed
(40_register_interface.md R143). -/
theorem FieldChange.hostField {e : Event} {n : Nat} {x y : Fields} (h : FieldChange e n x y) {g : Field}
    (hg : g ∉ [Field.frzack, .notrdy, .synch, .iflag]) (hne : y.get g ≠ x.get g) :
    e = .host ∧ (g.freezeProtected = true → x.frzack ≠ 0#1) ∧ (g = .clksrc → x.mdis ≠ 0#1) := by
  simp only [List.mem_cons, List.not_mem_nil, or_false, not_or] at hg
  obtain ⟨hack, hrdy, hsync, hflag⟩ := hg
  have status (a r b : BitVec 1) := x.get_withStatus a r b ⟨hack, hrdy, hsync⟩
  cases h with
  | kept h => exact absurd (h ▸ rfl) hne
  | stored f v he _ _ hfrz hclk h =>
    by_cases hgf : g = f
    · exact hgf ▸ ⟨he, hfrz, hclk⟩
    · exact absurd (h ▸ x.get_set_ne v hgf) hne
  | flags v _ h => exact absurd (h ▸ x.get_withFlags v hflag) hne
  | completed i _ h => exact absurd (h ▸ x.get_withFlags _ hflag) hne
  | frozen _ h => exact absurd (h ▸ status 1#1 1#1 0#1) hne
  | thawed _ h => exact absurd (h ▸ status 0#1 0#1 x.synch) hne
  | synced _ h => exact absurd (h ▸ status x.frzack x.notrdy 1#1) hne

/-- The status fields after a step: as they were, or as the handshake step that the event names leaves them. -/
theorem FieldChange.status {e : Event} {n : Nat} {x y : Fields} (h : FieldChange e n x y) :
    (y.frzack = x.frzack ∧ y.notrdy = x.notrdy ∧ y.synch = x.synch) ∨
    (e = .freezeAck n ∧ y.frzack = 1#1 ∧ y.notrdy = 1#1 ∧ y.synch = 0#1) ∨
    (e = .freezeExit n ∧ y.frzack = 0#1 ∧ y.notrdy = 0#1 ∧ y.synch = x.synch) ∨
    (e = .sync n ∧ y.frzack = x.frzack ∧ y.notrdy = x.notrdy ∧ y.synch = 1#1) := by
  cases h with
  | kept h => exact h ▸ .inl ⟨rfl, rfl, rfl⟩
  | stored f v _ hro _ _ _ h => exact h ▸ .inl (x.set_status v hro)
  | flags v _ h => exact h ▸ .inl ⟨rfl, rfl, rfl⟩
  | frozen he h => exact h ▸ .inr (.inl ⟨he, rfl, rfl, rfl⟩)
  | thawed he h => exact h ▸ .inr (.inr (.inl ⟨he, rfl, rfl, rfl⟩))
  | synced he h => exact h ▸ .inr (.inr (.inr ⟨he, rfl, rfl, rfl⟩))
  | completed i _ h => exact h ▸ .inl ⟨rfl, rfl, rfl⟩

/-- The flags after a step: as they were, or changed by the host, or with the flag of a completed slot set. -/
theorem FieldChange.iflag {e : Event} {n : Nat} {x y : Fields} (h : FieldChange e n x y) :
    y.iflag = x.iflag ∨ e = .host ∨ ∃ i, Event.Completes e n i ∧ y.iflag = x.iflag ||| slotBit i := by
  cases h with
  | kept h => exact .inl (h ▸ rfl)
  | stored f v he => exact .inr (.inl he)
  | flags v he => exact .inr (.inl he)
  | frozen _ h => exact .inl (h ▸ rfl)
  | thawed _ h => exact .inl (h ▸ rfl)
  | synced _ h => exact .inl (h ▸ rfl)
  | completed i he h => exact .inr (.inr ⟨i, he, h ▸ rfl⟩)

/-- The flag of slot `i` is bit `i` alone (10_state.md R50). -/
theorem slotBit_getLsbD {i k : Nat} (h : (slotBit i).getLsbD k = true) : k = i := by
  unfold slotBit at h
  rw [BitVec.getLsbD_shiftLeft] at h
  simp only [Bool.and_eq_true, decide_eq_true_eq, Bool.not_eq_true', decide_eq_false_iff_not, BitVec.getLsbD_one] at h
  omega

/-- A flag that clears was cleared by the host; one that sets was set by the host or by a completion of its slot. -/
theorem FieldChange.flagBit {e : Event} {n : Nat} {x y : Fields} (h : FieldChange e n x y) (k : Nat) :
    (x.iflag.getLsbD k = true → y.iflag.getLsbD k = false → e = .host) ∧
    (x.iflag.getLsbD k = false → y.iflag.getLsbD k = true → e = .host ∨ Event.Completes e n k) := by
  rcases h.iflag with hy | he | ⟨i, hc, hy⟩
  · rw [hy]
    exact ⟨fun h1 h0 => absurd (h1.symm.trans h0) (by decide), fun h0 h1 => absurd (h0.symm.trans h1) (by decide)⟩
  · exact ⟨fun _ _ => he, fun _ _ => .inl he⟩
  · rw [hy, BitVec.getLsbD_or]
    refine ⟨fun h1 h0 => absurd h0 (by simp [h1]), fun h0 h1 => ?_⟩
    rw [h0, Bool.false_or] at h1
    exact .inr (slotBit_getLsbD h1 ▸ hc)

/-- A one-bit field that is not 0 is 1. -/
theorem bit_eq_one {b : BitVec 1} (h : b ≠ 0#1) : b = 1#1 := by
  revert b
  decide

end Sys2Proof.Machine

open Sys2Proof Sys2Proof.Machine

/-- Settles O18: each of these fields is one the hardware does not move, and a host's write of it passed its check. -/
theorem protectedFields : Obligations.ProtectedFields := by
  intro s t n x y hst hx hy
  obtain ⟨hchange, -⟩ := step_change hst hx hy
  have fields : ∀ g ∈ [Field.srxdis, .presdiv, .rjw, .pseg1, .pseg2, .propseg, .smp, .mbws, .rxmgmask, .imask],
      g.freezeProtected = true ∧ g ∉ [Field.frzack, .notrdy, .synch, .iflag] := by decide
  refine ⟨fun g hg hne => ?_, fun hne => ?_⟩
  · obtain ⟨hprot, hnot⟩ := fields g hg
    obtain ⟨-, hack, -⟩ := hchange.hostField hnot hne
    exact bit_eq_one (hack hprot)
  · have hget : y.fields.get .clksrc ≠ x.fields.get .clksrc := fun e =>
      hne (by simpa [Fields.get] using congrArg (BitVec.setWidth 1) e)
    obtain ⟨-, -, hmdis⟩ := hchange.hostField (by decide) hget
    exact bit_eq_one (hmdis rfl)

/-- Settles O19: of the four ways the status fields can stand after a step, each move leaves one. -/
theorem statusFields : Obligations.StatusFields := by
  intro s t n x y hst hx hy
  obtain ⟨hchange, -⟩ := step_change hst hx hy
  rcases hchange.status with ⟨ha, hr, hs⟩ | ⟨he, ha, hr, hs⟩ | ⟨he, ha, hr, hs⟩ | ⟨he, ha, hr, hs⟩ <;>
    rw [ha, hr, hs]
  · simp +contextual
  · simp [he]
  · simp +contextual [he]
  · simp +contextual [he]

/-- Settles O20: what a step changes is one of the cases of `step_change`. -/
theorem hostFields : Obligations.HostFields := by
  intro s t n x y hst hx hy
  obtain ⟨hchange, hdriver, hparams, hline⟩ := step_change hst hx hy
  exact ⟨fun g hg hne => (hchange.hostField hg hne).1, hdriver, hparams, hline, fun k => hchange.flagBit k⟩

end

section
/-! Proofs about the memory (20_memory.md R95): a step of one controller is given by the host context and that controller alone.
Every step is a run from a list of controllers; `ActsOn` says that it looks at one of them and replaces at most that one. -/

namespace Sys2Proof.Machine

/-! ### The controllers apart from the host context -/

/-- The state with `l` for its controllers. -/
def State.withInsts (s : State) (l : List Instance) : State := { s with insts := l }

@[simp] theorem State.withInsts_insts (s : State) (l : List Instance) : (s.withInsts l).insts = l := rfl
@[simp] theorem State.withInsts_handlers (s : State) (l : List Instance) : (s.withInsts l).handlers = s.handlers := rfl
@[simp] theorem State.withInsts_fault (s : State) (l : List Instance) : (s.withInsts l).fault = s.fault := rfl
@[simp] theorem State.withInsts_params (s : State) (l : List Instance) : (s.withInsts l).params = s.params := rfl
@[simp] theorem State.withInsts_acts (s : State) (l : List Instance) : (s.withInsts l).acts = s.acts := rfl
@[simp] theorem State.withInsts_pos (s : State) (l : List Instance) : (s.withInsts l).pos = s.pos := rfl

@[simp] theorem State.withInsts_setInst (s : State) (l : List Instance) (n : Nat) (x : Instance) :
    (s.withInsts l).setInst n x = s.withInsts (l.set n x) := rfl

@[simp] theorem State.withInsts_commit (s : State) (l : List Instance) (n : Nat) (x : Instance) (used : Nat) :
    (s.withInsts l).commit n x used = (s.commit n x used).withInsts (l.set n x) := rfl

@[simp] theorem State.withInsts_enterHandler (s : State) (l : List Instance) (n : Nat) :
    (s.withInsts l).enterHandler n = (s.enterHandler n).withInsts l := rfl

@[simp] theorem State.withInsts_raise (s : State) (l : List Instance) (r : Fault) (op : FaultOp) (slot word : Option Nat) :
    (s.withInsts l).raise r op slot word = (s.raise r op slot word).withInsts l := rfl

/-- The host goes on in the same way whatever the controllers are: `k` neither reads nor writes them. -/
def State.ContextOnly (k : State → State) : Prop := ∀ (s : State) (l : List Instance), k (s.withInsts l) = (k s).withInsts l

theorem State.withInsts_setActs (s : State) (l : List Instance) (a : List Activation) :
    (s.withInsts l).setActs a = (s.setActs a).withInsts l := by
  cases s with
  | mk _ _ handlers => cases handlers <;> rfl

@[simp] theorem State.withInsts_goto (s : State) (l : List Instance) (i : Instr) (p : Pos) :
    (s.withInsts l).goto i p = (s.goto i p).withInsts l := s.withInsts_setActs l _

@[simp] theorem State.withInsts_call (s : State) (l : List Instance) (i : Instr) (p : Pos) (sub : Instr) :
    (s.withInsts l).call i p sub = (s.call i p sub).withInsts l := s.withInsts_setActs l _

@[simp] theorem State.withInsts_ret (s : State) (l : List Instance) (i : Instr) (r : Result) (v : RetVal) :
    (s.withInsts l).ret i r v = (s.ret i r v).withInsts l := by
  cases r <;> simp only [State.ret, State.withInsts_acts, State.withInsts_setActs] <;> rfl

/-- One of two ways to go on. -/
@[simp] theorem State.withInsts_ite (s t : State) (l : List Instance) (c : Prop) [Decidable c] :
    (if c then s else t).withInsts l = if c then s.withInsts l else t.withInsts l :=
  apply_ite (State.withInsts · l) c s t

@[simp] theorem State.withInsts_spinAgain (s : State) (l : List Instance) (i : Instr) (p : Pos) (pc : Nat) :
    (s.withInsts l).spinAgain i p pc = (s.spinAgain i p pc).withInsts l := by
  simp [State.spinAgain]

@[simp] theorem State.withInsts_startCallback (s : State) (l : List Instance) (i : Instr) (p : Pos) (h : Handler) (slot : Nat) :
    (s.withInsts l).startCallback i p h slot = (s.startCallback i p h slot).withInsts l :=
  State.withInsts_goto { s with draws := s.draws + (s.bodyOf h slot).2 } l i _

/-! ### Runs that look at one controller -/

/-- What the run does from a list of controllers is given by controller `n`, there or not: the host context after it, and what
becomes of that controller. The others stay. -/
def ActsOn (n : Nat) (run : List Instance → Outcome State) : Prop :=
  ∀ l : List Instance, ∃ (t : State) (g : Instance → Instance),
    ∀ l' : List Instance, l'[n]? = l[n]? → run l' = .next (t.withInsts (l'.modify n g))

/-- A run that leaves every controller as it is acts on whichever one is named. -/
theorem ActsOn.of_kept {n : Nat} {t : State} {run : List Instance → Outcome State}
    (h : ∀ l, run l = .next (t.withInsts l)) : ActsOn n run :=
  fun _ => ⟨t, id, fun l' _ => by rw [h l', List.modify_id]⟩

/-- A step of an operation on its controller looks at that controller only (40_register_interface.md R140, R141). -/
theorem onInst_actsOn {α : Type} {i : Instr} {s : State} {f : Nat → Instance → Acc α} {k : α → State → State}
    (hk : ∀ a, State.ContextOnly (k a)) : ActsOn i.inst.toNat fun l => onInst i i.inst (s.withInsts l) f k := by
  intro l
  cases hx : l[i.inst.toNat]? with
  | none => exact ⟨s.ret i .invalidInstance .none, id, fun l' hl => by simp [onInst_absent (s := s.withInsts l') hl]⟩
  | some x =>
    cases hf : f s.draws x with
    | ok a y u =>
      exact ⟨k a (s.commit i.inst.toNat y u), fun _ => y, fun l' hl => by
        simp [onInst_ok (s := s.withInsts l') hl hf, hk a _ _, List.set_eq_modify]⟩
    | fault r sl w =>
      exact ⟨s.raise r (.instr i) sl w, id, fun l' hl => by simp [onInst_fault (s := s.withInsts l') hl hf]⟩

/-- A spin's read acts on the controller the read acts on (00_scope.md R20). -/
theorem spinRead_actsOn {n : Nat} {s : State} {i : Instr} {p : Pos} {read : List Instance → Outcome State}
    (h : ActsOn n read) : ActsOn n fun l => (s.withInsts l).spinRead i p (read l) := by
  simp only [State.spinRead, State.withInsts_params, State.withInsts_ret]
  split
  · exact .of_kept fun _ => rfl
  · exact h

/-- Every operation acts on the controller its selector names. An operation of several steps reads its position first, in the
tests that say how it goes on too (hence `+instances`), and the position is part of the host context. -/
theorem exec_actsOn (i : Instr) (s : State) : ActsOn i.inst.toNat fun l => exec i (s.withInsts l) := by
  cases i with
  | init | cfgTx | cfgRx | clrFlag | enIrq =>
    dsimp +instances only [exec, execInit, execCfgTx, execCfgRx, execClrFlag, execEnIrq, indexStep, State.withInsts_pos]
    split <;> exact onInst_actsOn fun _ _ _ => by simp
  | frzEnter | frzExit =>
    dsimp +instances only [exec, execFrzEnter, execFrzExit, State.withInsts_pos]
    split
    case h_4 => exact spinRead_actsOn (onInst_actsOn fun _ _ _ => by simp)
    all_goals exact onInst_actsOn fun _ _ _ => by simp
  | send =>
    dsimp +instances only [exec, execSend, indexStep, State.withInsts_pos]
    split
    case h_5 => exact spinRead_actsOn (onInst_actsOn fun _ _ _ => by simp)
    all_goals exact onInst_actsOn fun _ _ _ => by simp
  | recv =>
    dsimp +instances only [exec, execRecv, indexStep, State.withInsts_pos]
    split
    case h_2 => exact spinRead_actsOn (onInst_actsOn fun _ _ _ => by simp)
    all_goals exact onInst_actsOn fun _ _ _ => by simp
  | dispatch =>
    dsimp +instances only [exec, execDispatch, State.withInsts_pos]
    split
    · exact onInst_actsOn fun _ _ _ => by simp
    · exact onInst_actsOn fun found _ _ => by cases found <;> simp
    · exact onInst_actsOn fun _ _ _ => by split <;> simp
  | _ =>
    simp only [exec, execRegCb]
    exact onInst_actsOn fun _ _ _ => by simp

/-- A hardware step acts on its controller (43_mb_hardware.md). -/
theorem State.hwStep_actsOn (s : State) (n : Nat) (f : Instance → Option Instance) :
    ActsOn n fun l => .next ((s.withInsts l).hwStep n f) := by
  intro l
  cases hf : l[n]?.bind f with
  | none => exact ⟨s, id, fun l' hl => by simp [State.hwStep, hl, hf]⟩
  | some y => exact ⟨s, fun _ => y, fun l' hl => by simp [State.hwStep, hl, hf, List.set_eq_modify]⟩

/-- Whether a controller's interrupt may be taken is said by that controller (60_exceptions.md R330, R332). -/
theorem State.entryEnabled_congr {s : State} {n : Nat} {l l' : List Instance} (h : l'[n]? = l[n]?) :
    (s.withInsts l').entryEnabled n = (s.withInsts l).entryEnabled n := by
  simp [State.entryEnabled, h]

/-- An interrupt entry looks at its controller, and leaves it as it is (60_exceptions.md R332). -/
theorem State.irqStep_actsOn (s : State) (n : Nat) : ActsOn n fun l => .next ((s.withInsts l).irqStep n) := by
  intro l
  refine ⟨if (s.withInsts l).entryEnabled n then s.enterHandler n else s, id, fun l' hl => ?_⟩
  simp [State.irqStep, State.entryEnabled_congr hl]

/-- An event of a controller acts on that controller. -/
theorem runEvent_actsOn {e : Event} {n : Nat} (h : e.controller = some n) (s : State) :
    ActsOn n fun l => runEvent e (s.withInsts l) := by
  cases e with
  | host => cases h
  | irqEntry =>
    cases h
    exact s.irqStep_actsOn n
  | _ =>
    cases h
    simp only [runEvent, State.withInsts_params]
    exact s.hwStep_actsOn n _

/-- What a run that acts on a controller leaves unchanged and does not depend on (20_memory.md R95). -/
theorem ActsOn.independent {n : Nat} {run : List Instance → Outcome State} (h : ActsOn n run) {l : List Instance} {t : State}
    (ht : run l = .next t) :
    (∀ m, m ≠ n → t.insts[m]? = l[m]?) ∧ t.insts.length = l.length ∧
      ∀ l' : List Instance, l'[n]? = l[n]? → ∃ u, run l' = .next u ∧ u.insts[n]? = t.insts[n]? ∧
        u.withInsts [] = t.withInsts [] := by
  obtain ⟨c, g, hrun⟩ := h l
  obtain rfl := Host.Outcome.next.inj (ht.symm.trans (hrun l rfl))
  refine ⟨fun m hm => ?_, by simp, fun l' hl => ⟨_, hrun l' hl, ?_, rfl⟩⟩
  · simp [Ne.symm hm]
  · simp [hl]

end Sys2Proof.Machine

open Sys2Proof Sys2Proof.Machine

/-- Settles O14: an operation acts on the controller its selector names, an event of a controller on that controller. -/
theorem instancesIndependent : Obligations.InstancesIndependent := by
  refine ⟨fun i s t l ht => ?_, fun e n s t l he ht => ?_⟩
  · obtain ⟨hothers, hlength, hruns⟩ := (exec_actsOn i s).independent ht
    exact ⟨hothers, hlength, hruns l⟩
  · obtain ⟨hothers, hlength, hruns⟩ := (runEvent_actsOn he s).independent ht
    exact ⟨hothers, hlength, hruns l⟩

end

section
/-! Proofs about the encoding (30_encoding.md): what the decoder reads from the bytes the encoder writes, and what an
operation or field number that names nothing does. -/

namespace Sys2Proof

/-! ### Field numbers (30_encoding.md R117) -/

/-- A number past the last field's names no field. -/
theorem decodeField_unnamed {n : BitVec 8} (h : 19 ≤ n.toNat) : decodeField n = .unnamed n := by
  unfold decodeField
  split <;> simp_all

theorem decodeField_encodeField {field : FieldSel} (h : field.wellFormed = true) :
    decodeField (encodeField field) = field := by
  cases field with
  | named f => cases f <;> rfl
  | unnamed n => exact decodeField_unnamed (of_decide_eq_true h)

/-! ### Reading from a later byte on -/

theorem byteAt_drop (bs : List Byte) (k j : Nat) : byteAt (bs.drop k) j = byteAt bs (k + j) := by
  simp [byteAt, List.getD_eq_getElem?_getD]

theorem wordAt_drop (bs : List Byte) (k j : Nat) : wordAt (bs.drop k) j = wordAt bs (k + j) := by
  simp [wordAt, byteAt_drop, Nat.add_assoc]

theorem decodeTiming_drop (num : Nat) (bs : List Byte) (k : Nat) :
    decodeTiming num (bs.drop k) 0 = decodeTiming num bs k := by
  simp [decodeTiming, byteAt_drop, wordAt_drop]

theorem decodeFrame_drop (num : Nat) (bs : List Byte) (k : Nat) :
    decodeFrame num (bs.drop k) 0 = decodeFrame num bs k := by
  simp [decodeFrame, byteAt_drop, wordAt_drop, Nat.add_assoc]

/-! ### Operands where the encoder puts them (log 4) -/

/-- The word at byte `k`, where its bytes stand there. -/
theorem wordAt_of_prefix {bs : List Byte} {k : Nat} {v : Word} (h : wordBytes v <+: bs.drop k) : wordAt bs k = v := by
  obtain ⟨r, hr⟩ := h
  calc wordAt bs k = wordAt (bs.drop k) 0 := (wordAt_drop bs k 0).symm
    _ = wordAt (wordBytes v ++ r) 0 := by rw [hr]
    _ = v := wordAt_append [] r v

/-- The array at byte `k`, where its bytes stand there. -/
theorem bytes64_of_prefix {bs : List Byte} {k : Nat} {v : Vector Byte 64} (h : v.toList <+: bs.drop k) :
    (bytes64 fun j => byteAt bs (k + j)) = v := by
  obtain ⟨r, hr⟩ := h
  ext j hj : 1
  have hbyte : byteAt bs (k + j) = v[j] := by
    rw [← byteAt_drop, ← hr]
    simp [byteAt, List.getD_eq_getElem?_getD, List.getElem?_append_left, hj]
  simpa [bytes64] using hbyte

theorem decodeTiming_encodeTiming (num : Nat) (timing : Option Timing) :
    decodeTiming num (encodeTiming timing) 0 = .ok timing := by
  cases timing with
  | none => rfl
  | some t =>
    have hpresent : (byteAt (encodeTiming (some t)) 0).toNat = 1 := rfl
    have hpresdiv : wordAt (encodeTiming (some t)) 1 = t.presdiv := wordAt_of_prefix ⟨_, rfl⟩
    have hrjw : wordAt (encodeTiming (some t)) 5 = t.rjw := wordAt_of_prefix ⟨_, rfl⟩
    have hpseg1 : wordAt (encodeTiming (some t)) 9 = t.pseg1 := wordAt_of_prefix ⟨_, rfl⟩
    have hpseg2 : wordAt (encodeTiming (some t)) 13 = t.pseg2 := wordAt_of_prefix ⟨_, rfl⟩
    have hpropseg : wordAt (encodeTiming (some t)) 17 = t.propseg := wordAt_of_prefix ⟨_, rfl⟩
    have hsmp : wordAt (encodeTiming (some t)) 21 = t.smp := wordAt_of_prefix ⟨[], rfl⟩
    simp only [decodeTiming, Nat.zero_add, hpresent, hpresdiv, hrjw, hpseg1, hpseg2, hpropseg, hsmp]

/-- The bits of the flag byte of a frame record. -/
theorem frameFlags_bits (esi brs edl rtr ide : Bool) :
    let flags := 0#3 ++ BitVec.ofBool esi ++ BitVec.ofBool brs ++ BitVec.ofBool edl ++ BitVec.ofBool rtr ++
      BitVec.ofBool ide
    flags.toNat < 32 ∧ flags.getLsbD 0 = ide ∧ flags.getLsbD 1 = rtr ∧ flags.getLsbD 2 = edl ∧
      flags.getLsbD 3 = brs ∧ flags.getLsbD 4 = esi := by
  revert esi brs edl rtr ide
  decide

theorem decodeFrame_encodeFrame (num : Nat) (frame : Option FrameRec) :
    decodeFrame num (encodeFrame frame) 0 = .ok frame := by
  cases frame with
  | none => rfl
  | some f =>
    have hpresent : (byteAt (encodeFrame (some f)) 0).toNat = 1 := rfl
    have hid : wordAt (encodeFrame (some f)) 1 = f.id := wordAt_of_prefix ⟨_, rfl⟩
    obtain ⟨hlt, hide, hrtr, hedl, hbrs, hesi⟩ :
        (byteAt (encodeFrame (some f)) 5).toNat < 32 ∧ (byteAt (encodeFrame (some f)) 5).getLsbD 0 = f.ide ∧
        (byteAt (encodeFrame (some f)) 5).getLsbD 1 = f.rtr ∧ (byteAt (encodeFrame (some f)) 5).getLsbD 2 = f.edl ∧
        (byteAt (encodeFrame (some f)) 5).getLsbD 3 = f.brs ∧ (byteAt (encodeFrame (some f)) 5).getLsbD 4 = f.esi :=
      frameFlags_bits f.esi f.brs f.edl f.rtr f.ide
    have hdlc : byteAt (encodeFrame (some f)) 6 = f.dlc := rfl
    have hdata : (bytes64 fun j => byteAt (encodeFrame (some f)) (7 + j)) = f.data := bytes64_of_prefix List.prefix_rfl
    simp only [decodeFrame, Nat.zero_add, hpresent, hid, Nat.not_le.mpr hlt, hide, hrtr, hedl, hbrs, hesi, hdlc, hdata,
      if_false]

theorem encodeTiming_length (timing : Option Timing) : (encodeTiming timing).length = 25 := by
  cases timing <;> rfl

theorem encodeFrame_length (frame : Option FrameRec) : (encodeFrame frame).length = 71 := by
  cases frame <;> simp [encodeFrame, wordBytes]

theorem decodeTiming_append (num : Nat) (l : List Byte) (timing : Option Timing) :
    decodeTiming num (l ++ encodeTiming timing) l.length = .ok timing := by
  rw [← decodeTiming_drop, List.drop_left, decodeTiming_encodeTiming]

theorem decodeFrame_append (num : Nat) (l : List Byte) (frame : Option FrameRec) :
    decodeFrame num (l ++ encodeFrame frame) l.length = .ok frame := by
  rw [← decodeFrame_drop, List.drop_left, decodeFrame_encodeFrame]

/-! ### Control words (30_encoding.md R111) -/

/-- No bit of a control word beside its code is dropped. -/
@[simp] theorem CtrlBits.ofWord_toWord (b : CtrlBits) (c : BitVec 4) : CtrlBits.ofWord (b.toWord c) = b := by
  have hdlc : (b.toWord c).extractLsb' 16 4 = b.dlc := by
    apply BitVec.eq_of_getLsbD_eq
    intro i hi
    rw [BitVec.getLsbD_extractLsb', b.toWord_getLsbD c _ (by omega)]
    simp [hi, show 16 + i < 20 by omega]
  have hlow : (b.toWord c).extractLsb' 0 16 = b.low := by
    apply BitVec.eq_of_getLsbD_eq
    intro i hi
    rw [BitVec.getLsbD_extractLsb', b.toWord_getLsbD c _ (by omega)]
    simp [hi]
  unfold CtrlBits.ofWord
  simp only [hdlc, hlow, CtrlBits.toWord_getLsbD, Nat.reduceLT]
  rfl

@[simp] theorem controlRequest_format (inst slot : BitVec 8) (w : Word) :
    (controlRequest inst slot w).format = .controlWord := rfl

@[simp] theorem controlRequest_length (inst slot : BitVec 8) (w : Word) :
    (controlRequest inst slot w).bytes.length = 6 := rfl

@[simp] theorem controlRequest_word (inst slot : BitVec 8) (w : Word) :
    wordAt (controlRequest inst slot w).bytes 0 = w := wordAt_append [] [inst, slot] w

@[simp] theorem controlRequest_inst (inst slot : BitVec 8) (w : Word) :
    byteAt (controlRequest inst slot w).bytes 4 = inst := rfl

@[simp] theorem controlRequest_slot (inst slot : BitVec 8) (w : Word) :
    byteAt (controlRequest inst slot w).bytes 5 = slot := rfl

/-- The bytes of a control word that reads busy hold the controller and the slot (43_mb_hardware.md R238). -/
theorem decodeControlRead_busy (inst slot : BitVec 8) {w : Word} (h : isBusyCode (codeOf w) = true) :
    decodeControlRead (controlRequest inst slot w).bytes = .ok (.codeBusy inst slot) := by
  simp [decodeControlRead, h]

/-! ### Host operations (30_encoding.md R113, R120) -/

/-- An operation whose tuple is complete is decoded from its number and its bytes. -/
theorem decode_hostRequest {num : Byte} {operands : List Byte} (h : opLength num.toNat = some (operands.length + 1)) :
    decode (hostRequest num operands) = decodeOperands num.toNat (num :: operands) := by
  simp [decode, hostRequest, decodeHostOp, byteAt, h]

theorem opLength_eq_none {n : Nat}
    (h : n ∉ [0x01, 0x02, 0x03, 0x04, 0x05, 0x06, 0x10, 0x11, 0x12, 0x13, 0x14, 0x15, 0x16, 0x17, 0x18, 0x19, 0x1A]) :
    opLength n = none := by
  unfold opLength
  split <;> simp_all

theorem decode_unknownOperation {num : Byte} {operands : List Byte} (h : opLength num.toNat = none) :
    decode ⟨.hostOp, num :: operands⟩ = .error (.unknownOperation num.toNat) := by
  simp [decode, decodeHostOp, byteAt, h]

end Sys2Proof

namespace Sys2Proof.Machine

/-- A host step that starts a request which is no operation raises that request's fault (log 5). -/
theorem step_refuses_request {s : State} {es : List Event} {r : Request} {rest : List Request} {e : DecodeError}
    (hf : s.fault = none) (hs : s.schedule = .host :: es) (hh : s.handlers = []) (hm : s.mainline = [])
    (hp : s.program = r :: rest) (hd : decode r = .error e) :
    step s = .next ({ s with schedule := es, program := rest }.raise (decodeFault e) (.undecoded r) none none) := by
  rw [step_scheduled hf hs]
  refine (State.hostStep_fetch (s := { s with schedule := es }) hh hm).trans ?_
  simp only [State.fetch, hp, hd]

/-- With a fault set no step is taken (60_exceptions.md R322). -/
theorem step_of_fault {s : State} {r : FaultRecord} (h : s.fault = some r) : step s = .fault r.reason := by
  simp only [step, h]

/-- FLD.RD of a number that names no field (30_encoding.md R117; 40_register_interface.md R142). -/
theorem exec_fldRd_unnamed {inst n : BitVec 8} {s : State} {x : Instance} (hx : s.insts[inst.toNat]? = some x) :
    exec (.fldRd inst (.unnamed n)) s = .next (s.raise .badAccess (.instr (.fldRd inst (.unnamed n))) none none) := by
  simp only [exec, execFldRd]
  exact onInst_fault hx rfl

/-- FLD.WR of a number that names no field (30_encoding.md R117; 40_register_interface.md R143). -/
theorem exec_fldWr_unnamed {inst n : BitVec 8} {v : Word} {s : State} {x : Instance}
    (hx : s.insts[inst.toNat]? = some x) :
    exec (.fldWr inst (.unnamed n) v) s = .next (s.raise .badAccess (.instr (.fldWr inst (.unnamed n) v)) none none) := by
  simp only [exec, execFldWr]
  exact onInst_fault hx rfl

end Sys2Proof.Machine

open Sys2Proof Sys2Proof.Machine

/-- Settles O1: each operand is read from where the encoder puts it. -/
theorem decodeEncode : Obligations.DecodeEncode := by
  intro i hi
  cases i with
  | mbRd | timerRd | frzEnter | frzExit | recv | clrFlag | enIrq | dispatch => rfl
  | regCb inst handler => cases handler <;> rfl
  | fldRd inst field =>
    have hfield : decodeField (encodeField field) = field := decodeField_encodeField hi
    exact congrArg (fun f => Except.ok (Instr.fldRd inst f)) hfield
  | fldWr inst field value =>
    have hfield : decodeField (encodeField field) = field := decodeField_encodeField hi
    have hvalue := wordAt_append [0x02, inst, encodeField field] [] value
    exact congrArg₂ (fun f v => Except.ok (Instr.fldWr inst f v)) hfield hvalue
  | mbWr inst word value =>
    have hvalue := wordAt_append [0x04, inst, word] [] value
    exact congrArg (fun v => Except.ok (Instr.mbWr inst word v)) hvalue
  | iflagW1c inst value =>
    have hvalue := wordAt_append [0x05, inst] [] value
    exact congrArg (fun v => Except.ok (Instr.iflagW1c inst v)) hvalue
  | cfgRx inst slot filterId filterMask =>
    have hid := wordAt_append [0x14, inst, slot] (wordBytes filterMask) filterId
    have hmask := wordAt_append (0x14 :: inst :: slot :: wordBytes filterId) [] filterMask
    exact congrArg₂ (fun v m => Except.ok (Instr.cfgRx inst slot v m)) hid hmask
  | init inst wordSize timing =>
    have htiming := decodeTiming_append 0x10 [0x10, inst, wordSize] timing
    rw [encode, decode_hostRequest (by simp [encodeTiming_length, opLength])]
    exact congrArg (Except.map (Instr.init inst wordSize)) htiming
  | cfgTx inst slot frame =>
    have hframe := decodeFrame_append 0x13 [0x13, inst, slot] frame
    rw [encode, decode_hostRequest (by simp [encodeFrame_length, opLength])]
    exact congrArg (Except.map (Instr.cfgTx inst slot)) hframe
  | send inst slot frame =>
    have hframe := decodeFrame_append 0x15 [0x15, inst, slot] frame
    rw [encode, decode_hostRequest (by simp [encodeFrame_length, opLength])]
    exact congrArg (Except.map (Instr.send inst slot)) hframe
  | codeInactiveRx inst slot bits | codeReceiveEmpty inst slot bits | codeInactiveTx inst slot bits
  | codeAbort inst slot bits | codeSend inst slot bits =>
    simp [encode, decode, decodeControlWrite]
  | codeBusy inst slot => exact decodeControlRead_busy inst slot (by decide)

/-- Settles O3: the decoder refuses the number and the step that starts the request raises its fault; a read or a
write of a number that names no field raises its own. -/
theorem numbers : Obligations.Numbers := by
  refine ⟨fun s es num operands rest hf hs hh hm hp hnum => ?_, by decide, fun n inst v s x hn hx => ?_⟩
  · have hd := decode_unknownOperation (operands := operands) (opLength_eq_none hnum)
    exact ⟨_, ⟨.badAccess, .undecoded _, none, none⟩, step_refuses_request hf hs hh hm hp hd, rfl, rfl, rfl,
      step_of_fault (r := ⟨.badAccess, .undecoded _, none, none⟩) rfl⟩
  · rw [decodeField_unnamed hn]
    exact ⟨exec_fldRd_unnamed hx, exec_fldWr_unnamed hx⟩

/-- Settles O2: each of these requests is the encoding of its operation. -/
theorem decodeSpecWords : Obligations.DecodeSpecWords := by
  have decoded {r : Request} (i : Instr) (hr : encode i = r) (hi : i.wellFormed = true) : decode r = .ok i :=
    hr ▸ decodeEncode i hi
  refine ⟨?_, ?_, ?_, ?_, ?_, ?_, ?_, ?_, ?_⟩ <;> exact decoded _ (by decide) rfl

end

section
/-! Proofs about the register interface (40_register_interface.md R142 to R148): which bytes, fields and flags a host step of an
operation may write. `Instance.Frames` says it for the controller before and after the step; each access has it. -/

namespace Sys2Proof.Machine

/-- A host step on a controller that is there makes one access to it, or leaves it. -/
theorem exec_hostAccess {i : Instr} {s t : State} {x y : Instance} (h : exec i s = .next t)
    (hx : s.insts[i.inst.toNat]? = some x) (hy : t.insts[i.inst.toNat]? = some y) : HostAccess i s.pos s.draws x y := by
  rcases exec_access i s t h with ht | ⟨a, b, ha, ht, hacc⟩
  · rw [ht, hx] at hy
    exact .none (Option.some.inj hy).symm
  · rw [ht, getElem?_set_cases _ _ _ b a ha, if_pos rfl] at hy
    obtain rfl := Option.some.inj (ha.symm.trans hx)
    obtain rfl := Option.some.inj hy
    exact hacc

/-! ### What each access writes -/

/-- A byte is a byte of the word at its place (20_memory.md R80). -/
theorem Memory.byte_eq_wordByte (m : Memory) (a : Nat) : m.byte a = wordByte (m.word (a / 4)) (a % 4) := by
  have hlt : a % 4 < 4 := Nat.mod_lt a (by decide)
  have ha : a = 4 * (a / 4) + a % 4 := (Nat.div_add_mod a 4).symm
  rw [Memory.word, wordByte_append _ _ _ _ _ hlt]
  generalize a % 4 = k at *
  interval_cases k <;> exact congrArg m.byte ha

/-- A word read moves the lock only (40_register_interface.md R144). -/
theorem wordRead_kept {w d u : Nat} {v : Word} {x y : Instance} (h : wordRead w d x = .ok v y u) :
    y.mem = x.mem ∧ y.fields = x.fields := by
  obtain ⟨-, rfl | ⟨i, -, -, rfl⟩⟩ := wordRead_ok w d x y v u h
  · exact ⟨rfl, rfl⟩
  · rw [x.lockOnRead_eq]
    exact ⟨rfl, rfl⟩

/-- A stored field leaves the controller apart from its fields and, at MBWS, its hidden state (40_register_interface.md R143;
43_mb_hardware.md R248). -/
theorem Instance.storeField_eq (x : Instance) (f : Field) (v : Word) :
    x.storeField f v = { x with fields := x.fields.set f v, hidden := if f = .mbws then .idle else x.hidden } := by
  cases f <;> rfl

@[simp] theorem Instance.storeField_fields (x : Instance) (f : Field) (v : Word) :
    (x.storeField f v).fields = x.fields.set f v := by
  rw [x.storeField_eq]

@[simp] theorem Instance.storeField_mem (x : Instance) (f : Field) (v : Word) : (x.storeField f v).mem = x.mem := by
  rw [x.storeField_eq]

/-- Line 12 of INIT stores MBWS, and beside it nothing but the driver record (44_driver_ops.md R276). -/
theorem initGeometry_kept {x y : Instance} {ws : BitVec 8} {d u : Nat} (h : initGeometry ws d x = .ok () y u) :
    y.mem = x.mem ∧ y.fields = x.fields.set .mbws (ws.setWidth 32) := by
  obtain ⟨z, hz, -, rfl⟩ := initGeometry_ok h
  obtain ⟨f, hf, -, -, -, -, -, -, rfl, -⟩ := (fieldWrite_ok _ _ _ _ _ _).1 hz
  obtain rfl := FieldSel.named.inj hf
  exact ⟨rfl, rfl⟩

/-- The states of a slot on which the hardware has something pending (43_mb_hardware.md R223). -/
def SlotState.pending : SlotState → Bool
  | .busy | .send | .abortPending => true
  | .inactiveRx | .receiveEmpty | .inactiveTx | .aborted | .reserved => false

/-- A code write preempts only where the hardware has something pending (43_mb_hardware.md R222). -/
theorem admission_preempt {b : Bool} {s : SlotState} {c : BitVec 4} (h : admission b s c = .preempt) : s.pending = true := by
  cases s <;> revert b c <;> decide

/-- The place inside its slot of a word that lies in one (10_state.md R55). -/
theorem Instance.slotOf_place {x : Instance} {w k j : Nat} (h : x.slotOf w = some (k, j)) : j = w % x.ws := by
  unfold Instance.slotOf at h
  split at h
  · exact (congrArg Prod.snd (Option.some.inj h)).symm
  · cases h

/-- What a word write of word `w` leaves (43_mb_hardware.md R222 to R224): every word but the one stored and those of a slot whose
reception it cancels, and every field but the flag of a slot where it cancels what the hardware had pending. -/
structure Instance.WroteWord (x y : Instance) (w : Nat) : Prop where
  words : ∀ u, u ≠ w → (∀ k j, x.slotOf w = some (k, 0) → x.slotState k = .busy → x.slotOf u ≠ some (k, j)) →
    y.word u = x.word u
  fields : y.fields = x.fields ∨ ∃ k, x.slotOf w = some (k, 0) ∧ (x.slotState k).pending = true ∧
    y.fields = { x.fields with iflag := x.fields.iflag ||| slotBit k }

/-- A stored word. -/
theorem Instance.setWord_wroteWord {x : Instance} (h : Memory.wf x.mem) {w : Nat} (v : Word) (hw : w < Config.mbWords) :
    x.WroteWord (x.setWord w v) w :=
  ⟨fun u hu _ => by rw [x.word_setWord w u v hw h, if_neg hu], .inl rfl⟩

/-- A written code, with the preemption it may make first (43_mb_hardware.md R222). -/
theorem codeWrite_wroteWord {x y : Instance} (h : Memory.wf x.mem) {i d u w : Nat} {v : Word} (hs : x.slotOf w = some (i, 0))
    (hc : codeWrite i v d x = .ok () y u) : x.WroteWord y w := by
  obtain ⟨hi, h0, rfl⟩ := x.slotOf_some w i 0 hs
  obtain ⟨-, ⟨-, rfl, -⟩ | ⟨hadm, rfl, -⟩⟩ := (codeWrite_ok i v d x y u).1 hc
  · have stored := x.storeCode_stored i v (x.slotState i) hi h
    exact ⟨fun u hu _ => by rw [stored.words, if_neg hu], .inl stored.fields⟩
  · have stored := Instance.storeCode_stored _ i v (x.slotState i) (by simpa using hi) (x.preempt_wf i (x.slotState i) d h)
    refine ⟨fun u hu hslot => ?_, ?_⟩
    · have outside : x.slotState i ≠ .busy ∨ ∀ j, 1 ≤ j → j < x.ws → u ≠ wordAddr x.ws i j := by
        by_cases hb : x.slotState i = .busy
        · refine .inr fun j _ hj e => hslot i j hs hb ?_
          rw [e, x.slotOf_wordAddr i j hi hj]
        · exact .inl hb
      rw [stored.words, Instance.preempt_ws, if_neg hu, x.preempt_word i u _ d hi h outside]
    · rw [stored.fields, x.preempt_fields]
      split
      · exact .inr ⟨i, hs, admission_preempt hadm, rfl⟩
      · exact .inl rfl

/-- A word write stores a word or writes a code (40_register_interface.md R145). -/
theorem wordWrite_wroteWord {x y : Instance} (h : Memory.wf x.mem) {w d u : Nat} {v : Word}
    (hw : wordWrite w v d x = .ok () y u) : x.WroteWord y w := by
  obtain ⟨hlt, ⟨-, rfl, -⟩ | ⟨i, hs, hc⟩ | ⟨i, j, -, -, -, rfl, -⟩⟩ := wordWrite_ok w v d x y u hw
  · exact x.setWord_wroteWord h v hlt
  · exact codeWrite_wroteWord h hs hc
  · exact x.setWord_wroteWord h v hlt

/-! ### The frame of a host step -/

/-- The flag a word write of operation `i` sets by a preemption is one the operation may set. -/
theorem settableFlags_of_pending {i : Instr} {p : Pos} {x : Instance} {w k : Nat} (hw : storedWord i p x = some w)
    (hs : x.slotOf w = some (k, 0)) (hk : (x.slotState k).pending = true) : settableFlags i p x = slotBit k := by
  have hslot : storedSlot i p x = some k := by simp [storedSlot, hw, hs]
  cases e : x.slotState k <;> simp_all [settableFlags, SlotState.pending]

/-- From `x` to `y` a step of operation `i` at position `p` changed only bytes, fields and flags that it may change. -/
structure Instance.Frames (i : Instr) (p : Pos) (x y : Instance) : Prop where
  bytes : ∀ a, ¬ storesByte i p x a → y.mem.byte a = x.mem.byte a
  fields : ∀ f : Field, f ≠ .iflag → storedField i p ≠ some f → y.fields.get f = x.fields.get f
  flags : ∀ k, (clearedFlags i p).getLsbD k = false → (settableFlags i p x).getLsbD k = false →
    y.fields.iflag.getLsbD k = x.fields.iflag.getLsbD k

/-- An access that writes neither memory nor fields. -/
theorem Instance.Frames.of_kept {i : Instr} {p : Pos} {x y : Instance} (hm : y.mem = x.mem) (hf : y.fields = x.fields) :
    Frames i p x y :=
  ⟨fun _ _ => by rw [hm], fun _ _ _ => by rw [hf], fun _ _ _ => by rw [hf]⟩

/-- An access that stores the operation's field. -/
theorem Instance.Frames.of_field {i : Instr} {p : Pos} {x y : Instance} {f : Field} {v : Word}
    (hs : storedField i p = some f) (hfl : f ≠ .iflag) (hm : y.mem = x.mem) (hf : y.fields = x.fields.set f v) :
    Frames i p x y where
  bytes _ _ := by rw [hm]
  fields g _ hg := by
    rw [hf]
    exact x.fields.get_set_ne v fun e => hg (e ▸ hs)
  flags _ _ _ := by rw [hf, x.fields.set_iflag_ne v hfl]

/-- An access that clears the operation's flags. -/
theorem Instance.Frames.of_clearFlags {i : Instr} {p : Pos} (x : Instance) :
    Frames i p x (x.clearFlags (clearedFlags i p)) where
  bytes _ _ := rfl
  fields _ hg _ := x.fields.get_withFlags _ hg
  flags k hk _ := by
    rw [clearFlags_fields, BitVec.getLsbD_and, BitVec.getLsbD_not, hk]
    by_cases hlt : k < 32
    · simp [hlt]
    · simp [BitVec.getLsbD_of_ge x.fields.iflag k (Nat.le_of_not_lt hlt)]

/-- An access that writes the operation's word. -/
theorem Instance.Frames.of_wroteWord {i : Instr} {p : Pos} {x y : Instance} {w : Nat} (hs : storedWord i p x = some w)
    (h : x.WroteWord y w) : Frames i p x y where
  bytes a ha := by
    have kept : y.word (a / 4) = x.word (a / 4) := by
      refine h.words _ (fun e => ha (.inl (e ▸ hs))) fun k j hw hb hj => ha (.inr ⟨k, ?_, hb, ?_⟩)
      · simp [storedSlot, hs, hw]
      · rw [hj, x.slotOf_place hj]
    rw [Memory.byte_eq_wordByte y.mem, Memory.byte_eq_wordByte x.mem]
    exact congrArg (wordByte · (a % 4)) kept
  fields g hg _ := by
    rcases h.fields with e | ⟨k, -, -, e⟩ <;> rw [e]
    exact x.fields.get_withFlags _ hg
  flags n _ hn := by
    rcases h.fields with e | ⟨k, hw, hk, e⟩ <;> rw [e]
    rw [settableFlags_of_pending hs hw hk] at hn
    simp [hn]

/-- Every access of the host writes only what its operation may write. -/
theorem HostAccess.frames {i : Instr} {p : Pos} {d : Nat} {x y : Instance} (ha : HostAccess i p d x y)
    (h : Memory.wf x.mem) : Instance.Frames i p x y := by
  cases ha with
  | none e => exact e ▸ .of_kept rfl rfl
  | unlock _ e => exact e ▸ .of_kept rfl rfl
  | read _ w v u hr =>
    obtain ⟨hm, hf⟩ := wordRead_kept hr
    exact .of_kept hm hf
  | field f v u hs _ hw =>
    obtain ⟨g, hg, -, hfl, -, -, -, -, rfl, -⟩ := (fieldWrite_ok _ _ _ _ _ _).1 hw
    obtain rfl := FieldSel.named.inj hg
    exact .of_field hs hfl (x.storeField_mem f v) (x.storeField_fields f v)
  | flags v hv e => exact e ▸ hv ▸ .of_clearFlags x
  | word _ w v u hs hw => exact .of_wroteWord hs (wordWrite_wroteWord h hw)
  | geometry _ ws u hi hg =>
    obtain ⟨n, c, hi, hpc⟩ := hi
    obtain ⟨hm, hf⟩ := initGeometry_kept hg
    exact .of_field (by rw [hi]; simp [storedField, hpc]) (by decide) hm hf
  | callback c _ e => exact e ▸ .of_kept rfl rfl

end Sys2Proof.Machine

open Sys2Proof.Machine

/-- Settles O58: a host step is one access to its controller, and each access writes only what its operation may write. -/
theorem memoryAndFieldFrame : Obligations.MemoryAndFieldFrame := by
  intro i s t x y ht hx hy hinv
  obtain ⟨hbytes, hfields, hflags⟩ := (exec_hostAccess ht hx hy).frames hinv.memory
  exact ⟨hbytes, hfields, hflags⟩

end

section
/-! Proofs about the register interface (40_register_interface.md R140): a selector that names no controller. -/

namespace Sys2Proof.Machine

/-- The first step of any operation checks its selector: the one step of an operation of one step, and line 0 of a driver
operation (40_register_interface.md R140; 44_driver_ops.md R270). -/
theorem exec_absent {i : Instr} {s : State} (h : s.insts[i.inst.toNat]? = none)
    (hstart : i.primitive = true ∨ s.pos.pc = 0) : exec i s = .next (s.ret i .invalidInstance .none) := by
  cases i with
  | init | frzEnter | frzExit | cfgTx | cfgRx | send | recv | clrFlag | enIrq | dispatch =>
    have hpc : s.pos.pc = 0 := hstart.resolve_left Bool.false_ne_true
    simp only [exec, execInit, execFrzEnter, execFrzExit, execCfgTx, execCfgRx, execSend, execRecv, execClrFlag, execEnIrq,
      execDispatch, hpc]
    exact onInst_absent h
  | _ =>
    simp only [exec, execRegCb]
    exact onInst_absent h

theorem checksSelector_of_primitive {i : Instr} (h : i.primitive = true) (s : State) : ChecksSelector i s :=
  fun hx => exec_absent hx (.inl h)

theorem checksSelector_of_start (i : Instr) {s : State} (h : s.pos.pc = 0) : ChecksSelector i s :=
  fun hx => exec_absent hx (.inr h)

end Sys2Proof.Machine

open Sys2Proof.Machine

/-- Settles O15: the first step of every operation checks its selector, and a return writes no controller. -/
theorem invalidInstance : Obligations.InvalidInstance :=
  fun i s h hstart => ⟨exec_absent h hstart, s.ret_insts i .invalidInstance .none⟩

end

section
/-! Proofs about the register interface (40_register_interface.md R142, R143, R146, R148): the accesses to fields. -/

namespace Sys2Proof.Machine

/-- An access that succeeds and leaves the controller as it is. -/
theorem onInst_unchanged {α : Type} {i : Instr} {inst : BitVec 8} {s : State} {f : Nat → Instance → Acc α}
    {k : α → State → State} {x : Instance} {a : α} (h : s.insts[inst.toNat]? = some x) (hf : f s.draws x = .ok a x 0) :
    onInst i inst s f k = .next (k a s) := by
  rw [onInst_ok h hf, State.commit_zero, s.setInst_self _ x h]

/-! ### Each operation on fields is one access -/

theorem exec_fldRd (inst : BitVec 8) (field : FieldSel) (s : State) : exec (.fldRd inst field) s =
    onInst (.fldRd inst field) inst s (fieldRead field) fun v t => t.ret (.fldRd inst field) .success (.word v) := rfl

theorem exec_fldWr (inst : BitVec 8) (field : FieldSel) (value : Word) (s : State) : exec (.fldWr inst field value) s =
    onInst (.fldWr inst field value) inst s (fieldWrite field value) fun _ t =>
      t.ret (.fldWr inst field value) .success .none := rfl

theorem exec_iflagW1c (inst : BitVec 8) (value : Word) (s : State) : exec (.iflagW1c inst value) s =
    onInst (.iflagW1c inst value) inst s (flagClear value) fun _ t => t.ret (.iflagW1c inst value) .success .none := rfl

theorem exec_timerRd (inst : BitVec 8) (s : State) : exec (.timerRd inst) s =
    onInst (.timerRd inst) inst s timerRead fun v t => t.ret (.timerRd inst) .success (.word v) := rfl

/-! ### The value of a field -/

/-- A field's value fits its width (10_state.md R52). -/
theorem Fields.get_lt (x : Fields) (f : Field) : (x.get f).toNat < 2 ^ f.width := by
  have narrow {n : Nat} (b : BitVec n) : (b.setWidth 32).toNat < 2 ^ n :=
    Nat.lt_of_le_of_lt (BitVec.toNat_setWidth 32 b ▸ Nat.mod_le _ _) b.isLt
  cases f with
  | rxmgmask | imask | iflag => exact BitVec.isLt _
  | timer => exact Nat.two_pow_pos _
  | _ => exact narrow _

/-- A stored value that fits its field reads back; TIMER holds none (70_reset_and_hazards.md R351). -/
theorem Fields.get_set_same (x : Fields) {f : Field} {v : Word} (hf : f ≠ .timer) (hv : v.toNat < 2 ^ f.width) :
    (x.set f v).get f = v := by
  have narrow {n : Nat} (h : v.toNat < 2 ^ n) (hn : n ≤ 32) : (v.setWidth n).setWidth 32 = v := by
    refine BitVec.eq_of_toNat_eq ?_
    rw [BitVec.toNat_setWidth_of_le hn, BitVec.toNat_setWidth, Nat.mod_eq_of_lt h]
  cases f with
  | timer => exact absurd rfl hf
  | rxmgmask | imask | iflag => rfl
  | _ => exact narrow hv (by decide)

/-! ### FLD.WR -/

/-- A word size that is not admissible (00_scope.md R12). -/
theorem legalWordSize_eq_false {n : Nat} : legalWordSize n = false ↔ n < 4 ∨ 18 < n := by
  simp [legalWordSize, imp_iff_not_or]

/-- The fields the host never writes (40_register_interface.md R143). -/
theorem Field.mem_readOnly {f : Field} : f ∈ [Field.frzack, .notrdy, .synch, .timer] ↔ f.readOnly = true := by
  cases f <;> decide

/-- The fields the host writes only while frozen (10_state.md R53). -/
theorem Field.mem_freezeProtected {f : Field} :
    f ∈ [Field.srxdis, .presdiv, .rjw, .pseg1, .pseg2, .propseg, .smp, .mbws, .rxmgmask, .imask] ↔
      f.freezeProtected = true := by
  cases f <;> decide

end Sys2Proof.Machine

open Sys2Proof Sys2Proof.Machine

/-- Settles O16: a field read looks at the controller, but for TIMER, whose read takes a draw and releases the lock. -/
theorem fldRd : Obligations.FldRd := by
  refine ⟨fun inst f s => checksSelector_of_primitive rfl s, fun inst s x hx => ⟨fun f hf => ?_, ?_, ?_⟩⟩
  · rw [exec_fldRd]
    exact ⟨onInst_unchanged hx (fieldRead_named f s.draws x hf), x.fields.get_lt f⟩
  · rw [exec_fldRd]
    exact ⟨drawTimer s.draws, onInst_ok (f := fieldRead _) hx rfl⟩
  · exact fun n => exec_fldRd_unnamed hx

/-- Settles O17: the checks of a field write, one after another, and the one field it stores where they pass. -/
theorem fldWr : Obligations.FldWr := by
  refine ⟨fun inst f v s => checksSelector_of_primitive rfl s, fun inst v s x hx =>
    ⟨fun n => exec_fldWr_unnamed hx, fun f => ?_⟩⟩
  simp only [Field.mem_readOnly, Field.mem_freezeProtected, ← legalWordSize_eq_false, exec_fldWr,
    BitVec.ofNat_eq_ofNat]
  split_ifs with hro hfl hwide hsize hfrz hclk
  · exact onInst_fault hx (by rw [fieldWrite, if_pos hro])
  · exact onInst_fault hx (by rw [fieldWrite, if_neg hro, if_pos hfl])
  · exact onInst_fault hx (by rw [fieldWrite, if_neg hro, if_neg hfl, if_pos hwide])
  · exact onInst_fault hx (by rw [fieldWrite, if_neg hro, if_neg hfl, if_neg hwide, if_pos hsize])
  · exact onInst_fault hx (by rw [fieldWrite, if_neg hro, if_neg hfl, if_neg hwide, if_neg hsize, if_pos hfrz])
  · exact onInst_fault hx (by rw [fieldWrite, if_neg hro, if_neg hfl, if_neg hwide, if_neg hsize, if_neg hfrz, if_pos hclk])
  · simp only [not_and, Bool.not_eq_true, Bool.not_eq_false, not_le] at hro hwide hsize hfrz hclk
    have hok := (fieldWrite_ok (.named f) v s.draws x _ 0).2 ⟨f, rfl, hro, hfl, hwide, hsize, hfrz, hclk, rfl, rfl⟩
    have htimer : f ≠ .timer := by
      rintro rfl
      exact absurd hro (by decide)
    refine ⟨_, onInst_ok hx hok, ?_⟩
    rw [x.storeField_eq]
    refine ⟨x.fields.get_set_same htimer hwide, fun g hg => x.fields.get_set_ne v hg, rfl, rfl, rfl, rfl, rfl,
      fun h => if_neg h, fun h => ?_⟩
    simp [h, Instance.busy, Instance.abortPending]

/-- Settles O31: both operations are one access, and FLD.RD of TIMER makes the access of TIMER.RD. -/
theorem flagsAndTimer : Obligations.FlagsAndTimer := by
  refine ⟨fun inst v s => ⟨checksSelector_of_primitive rfl s, checksSelector_of_primitive rfl s⟩, fun inst v s x hx => ?_⟩
  constructor
  · rw [exec_iflagW1c]
    exact onInst_ok (f := flagClear v) hx rfl
  · refine ⟨drawTimer s.draws, fun i hi => ?_⟩
    simp only [List.mem_cons, List.not_mem_nil, or_false] at hi
    rcases hi with rfl | rfl
    · rw [exec_timerRd]
      exact onInst_ok (f := timerRead) hx rfl
    · rw [exec_fldRd]
      exact onInst_ok (f := fieldRead _) hx rfl

end

section
/-! Proofs about the register interface (40_register_interface.md R144, R145): the accesses to message-buffer words. -/

namespace Sys2Proof.Machine

/-! ### What a word read answers, case by case -/

/-- There is no word above 127 (10_state.md R54). -/
theorem wordRead_above {w d : Nat} {x : Instance} (hw : Config.mbWords ≤ w) :
    wordRead w d x = .fault .badAccess none (some w) :=
  if_pos hw

/-- A word outside every slot. -/
theorem wordRead_outside {w d : Nat} {x : Instance} (hw : w < Config.mbWords) (hs : x.slotOf w = none) :
    wordRead w d x = .ok (x.word w) x 0 := by
  rw [wordRead, if_neg (Nat.not_le.2 hw), hs]

/-- A word of a slot that is not busy. -/
theorem wordRead_idle {w d k j : Nat} {x : Instance} (hw : w < Config.mbWords) (hs : x.slotOf w = some (k, j))
    (hb : x.busy k = false) :
    wordRead w d x = .ok (x.word w) (if j = 0 then x.lockOnRead k else x) 0 := by
  rw [wordRead, if_neg (Nat.not_le.2 hw), hs]
  simp only [hb, Bool.false_eq_true, if_false]

/-- A word of a busy slot. -/
theorem wordRead_busy {w d k j : Nat} {x : Instance} (hw : w < Config.mbWords) (hs : x.slotOf w = some (k, j))
    (hb : x.busy k = true) :
    wordRead w d x = busyRead j d x := by
  rw [wordRead, if_neg (Nat.not_le.2 hw), hs]
  simp only [hb, if_true]

/-- Every value of BUSY_READ shows one of the two busy codes (43_mb_hardware.md R238). -/
theorem BusyRead.code_eq (b : BusyRead) (first : Bool) : b.code first = 0x1#4 ∨ b.code first = 0x5#4 := by
  cases b <;> cases first <;> simp [BusyRead.code]

/-- A busy read changes nothing, and shows a busy code in the control word (43_mb_hardware.md R238). -/
theorem busyRead_ok (j d : Nat) (x : Instance) :
    ∃ v u, busyRead j d x = .ok v x u ∧ (j = 0 → codeOf v = 0x1#4 ∨ codeOf v = 0x5#4) := by
  unfold busyRead
  split
  · exact ⟨_, _, rfl, fun _ => codeOf_withCode _ _ ▸ BusyRead.code_eq _ _⟩
  · rename_i hj
    exact ⟨_, _, rfl, fun h => absurd h hj⟩

theorem exec_mbRd (inst word : BitVec 8) (s : State) : exec (.mbRd inst word) s =
    onInst (.mbRd inst word) inst s (wordRead word.toNat) fun v t => t.ret (.mbRd inst word) .success (.word v) := rfl

/-! ### The code commands -/

/-- A code command is one access, the write of its control word (43_mb_hardware.md section 8). -/
theorem exec_codeCommand (inst slot : BitVec 8) (b : CtrlBits) (s : State) :
    ∀ p ∈ [(Instr.codeInactiveRx inst slot b, 0x0#4), (Instr.codeReceiveEmpty inst slot b, 0x4#4),
        (Instr.codeInactiveTx inst slot b, 0x8#4), (Instr.codeAbort inst slot b, 0x9#4), (Instr.codeSend inst slot b, 0xC#4)],
      exec p.1 s = onInst p.1 inst s (controlWrite slot (b.toWord p.2)) fun _ t => t.ret p.1 .success .none := by
  intro p hp
  simp only [List.mem_cons, List.not_mem_nil, or_false] at hp
  rcases hp with rfl | rfl | rfl | rfl | rfl <;> rfl

theorem exec_mbWr (inst word : BitVec 8) (value : Word) (s : State) : exec (.mbWr inst word value) s =
    onInst (.mbWr inst word value) inst s (wordWrite word.toNat value) fun _ t =>
      t.ret (.mbWr inst word value) .success .none := rfl

/-- What a return leaves of a committed access tells the controllers and the free values it took. -/
theorem State.commit_eq_of_ret {s : State} {n u u' : Nat} {y y' : Instance} {i : Instr} {r : Result} {v : RetVal}
    (h : (s.commit n y u).ret i r v = (s.commit n y' u').ret i r v) : s.commit n y u = s.commit n y' u' := by
  have hinsts := congrArg State.insts h
  have hdraws := congrArg State.draws h
  simp only [State.ret_insts, State.ret_draws, State.commit_insts, State.commit_draws] at hinsts hdraws
  simp only [State.commit, hinsts, hdraws]

/-- With no fault set before it, an access that succeeds raises none. -/
theorem State.ret_ne_raise {s : State} (hf : s.fault = none) {n u : Nat} {y : Instance} {i : Instr} {r : Result} {v : RetVal}
    {reason : Fault} {op : FaultOp} {slot word : Option Nat} : (s.commit n y u).ret i r v ≠ s.raise reason op slot word := by
  intro h
  simpa [hf] using congrArg State.fault h

/-- Two operations that make the same access to the same controller answer alike (40_register_interface.md R145). -/
theorem exec_same_answer {i m : Instr} {inst : BitVec 8} {s : State} {x : Instance} {f g : Nat → Instance → Acc Unit}
    (hi : exec i s = onInst i inst s f fun _ t => t.ret i .success .none)
    (hm : exec m s = onInst m inst s g fun _ t => t.ret m .success .none)
    (hfault : s.fault = none) (hx : s.insts[inst.toNat]? = some x) (hfg : f s.draws x = g s.draws x) :
    (∀ y u, exec m s = .next ((s.commit inst.toNat y u).ret m .success .none) →
      exec i s = .next ((s.commit inst.toNat y u).ret i .success .none)) ∧
    ∀ r k w, exec m s = .next (s.raise r (.instr m) k w) → exec i s = .next (s.raise r (.instr i) k w) := by
  cases hg : g s.draws x with
  | ok a z n =>
    have answer := hm.trans (onInst_ok hx hg)
    refine ⟨fun y u h => ?_, fun r k w h => ?_⟩
    · rw [← State.commit_eq_of_ret (Host.Outcome.next.inj (answer.symm.trans h))]
      exact hi.trans (onInst_ok hx (hfg.trans hg))
    · exact absurd (Host.Outcome.next.inj (answer.symm.trans h)) (State.ret_ne_raise hfault)
  | fault reason sl wd =>
    have answer := hm.trans (onInst_fault hx hg)
    refine ⟨fun y u h => ?_, fun r k w h => ?_⟩
    · exact absurd (Host.Outcome.next.inj (answer.symm.trans h)).symm (State.ret_ne_raise hfault)
    · have record := congrArg State.fault (Host.Outcome.next.inj (answer.symm.trans h))
      simp only [State.raise_fault, Option.some.injEq, FaultRecord.mk.injEq, true_and] at record
      obtain ⟨rfl, rfl, rfl⟩ := record
      exact hi.trans (onInst_fault hx (hfg.trans hg))

end Sys2Proof.Machine

open Sys2Proof Sys2Proof.Machine

/-- Settles O21: by where the word lies, and whether its slot is busy. -/
theorem mbRd : Obligations.MbRd := by
  refine ⟨fun inst word s => checksSelector_of_primitive rfl s, fun inst word s x hx => ⟨fun hw => ?_, fun hw hs => ?_,
    fun k j hs => ?_⟩⟩
  · rw [exec_mbRd]
    exact onInst_fault hx (wordRead_above hw)
  · rw [exec_mbRd]
    exact onInst_unchanged hx (wordRead_outside (Nat.lt_succ_of_le hw) hs)
  · have hw : word.toNat < Config.mbWords := by
      obtain ⟨hk, hj, e⟩ := x.slotOf_some _ k j hs
      exact e ▸ x.wordAddr_lt k j hk hj
    rw [exec_mbRd]
    refine ⟨fun hb => ?_, fun hb hj => ?_, fun hb hj => ?_⟩
    · obtain ⟨v, u, hv, hcode⟩ := busyRead_ok j s.draws x
      exact ⟨v, u, onInst_ok hx ((wordRead_busy hw hs hb).trans hv), hcode⟩
    · exact onInst_unchanged hx ((wordRead_idle hw hs hb).trans (by rw [if_neg hj]))
    · exact onInst_ok hx ((wordRead_idle hw hs hb).trans (by rw [if_pos hj, x.lockOnRead_eq]))

/-- Settles O24: a code command and MB.WR of its word make the same access. -/
theorem codeCommandsAreMbWr : Obligations.CodeCommandsAreMbWr := by
  intro inst slot b s x hfault hx p hp
  have command := exec_codeCommand inst slot b s p hp
  refine ⟨fun hw => command.trans (onInst_fault hx (if_pos hw)), fun hw => ?_⟩
  have haddr : (BitVec.ofNat 8 (slot.toNat * x.ws)).toNat = slot.toNat * x.ws := by
    rw [BitVec.toNat_ofNat]
    omega
  exact exec_same_answer command (exec_mbWr ..) hfault hx (by rw [haddr]; rfl)

end

section
/-! Proofs about the frame mapper (41_frame_mapper.md): the words of a frame bit by bit, the bytes of its payload, and the
places of a slot's words. -/

namespace Sys2Proof

/-! ### Control words (41_frame_mapper.md R177) -/

/-- The decoded bits and the code of a control word are all of it (30_encoding.md R111). -/
@[simp] theorem CtrlBits.toWord_ofWord (w : Word) : (CtrlBits.ofWord w).toWord (codeOf w) = w := by
  apply BitVec.eq_of_getLsbD_eq
  intro i hi
  rw [CtrlBits.toWord_getLsbD _ _ i hi]
  simp only [CtrlBits.ofWord, codeOf, BitVec.getLsbD_extractLsb']
  interval_cases i <;> rfl

/-! ### Payload arrays (41_frame_mapper.md R170) -/

/-- Byte `k` of an array given byte by byte. -/
theorem bytes64_getD (f : Nat → Byte) {k : Nat} (hk : k < 64) : (bytes64 f).toList.getD k 0 = f k := by
  simp [bytes64, List.getD_eq_getElem?_getD, hk]

end Sys2Proof

namespace Sys2Proof.Machine

theorem ofWord_encodeControl (code : BitVec 4) (f : Frame) : CtrlBits.ofWord (encodeControl code f) = f.ctrlBits :=
  CtrlBits.ofWord_toWord f.ctrlBits code

/-! ### ID words (41_frame_mapper.md R180) -/

theorem encodeId_extended (sh : Fin 19) {f : Frame} (h : f.ide = true) : encodeId sh f = f.id.setWidth 32 :=
  if_pos h

theorem encodeId_standard (sh : Fin 19) {f : Frame} (h : f.ide = false) :
    encodeId sh f = (f.id.setWidth 11).setWidth 32 <<< sh.val := by
  rw [BitVec.setWidth_eq_extractLsb' (by decide : 11 ≤ 29)]
  simp only [encodeId, h, Bool.false_eq_true, if_false]

/-- Either identifier ends below bit 29: 11 bits shifted by at most 18 do. -/
theorem encodeId_top (sh : Fin 19) (f : Frame) : (encodeId sh f).extractLsb' 29 3 = 0 := by
  apply BitVec.eq_of_getLsbD_eq
  intro i hi
  cases h : f.ide with
  | true => simp [encodeId_extended sh h]
  | false =>
    have hsh : 11 ≤ 29 + i - sh.val := by omega
    simp [encodeId_standard sh h, BitVec.getLsbD_shiftLeft, hsh]

theorem decodeId_encodeId (sh : Fin 19) {f : Frame} (hf : f.wellFormed = true) :
    decodeId sh (encodeId sh f) f.ide = f.id := by
  apply BitVec.eq_of_getLsbD_eq
  intro i hi
  cases h : f.ide with
  | true =>
    have hword : i < 32 := by omega
    simp [decodeId, encodeId_extended sh h, hi, hword]
  | false =>
    have hid : f.id.toNat < 2 ^ 11 := by simpa [Frame.wellFormed, h] using hf
    by_cases hlow : i < 11
    · have hplace : sh.val + i < 32 := by omega
      simp [decodeId, encodeId_standard sh h, hi, hlow, hplace]
    · have hzero : f.id.getLsbD i = false :=
        Nat.testBit_lt_two_pow (Nat.lt_of_lt_of_le hid (Nat.pow_le_pow_right (by decide) (Nat.le_of_not_lt hlow)))
      simp [decodeId, hlow, hzero]

/-! ### Payload words (41_frame_mapper.md R178, R179) -/

/-- Lane `j` of payload word `p` is byte `4 * p + j` of the payload, 0 past it. -/
theorem wordByte_packWord (data : Vector Byte 64) (nb p : Nat) {j : Nat} (hj : j < 4) :
    wordByte (packWord data nb 0 p) j = laneByte data nb 0 (4 * p + j) := by
  unfold packWord
  rw [wordByte_append _ _ _ _ j hj]
  interval_cases j <;> simp

theorem pack_length (data : Vector Byte 64) (nb : Nat) : (pack data nb).length = payloadWords nb := by
  simp [pack]

theorem pack_getD (data : Vector Byte 64) {nb p : Nat} (hp : p < payloadWords nb) :
    (pack data nb).getD p 0 = packWord data nb 0 p := by
  simp [pack, List.getD_eq_getElem?_getD, hp]

/-- Payload byte `k` stands in word `k / 4`, lane `k % 4`. -/
theorem wordByte_pack (data : Vector Byte 64) {nb k : Nat} (hk : k < 4 * payloadWords nb) :
    wordByte ((pack data nb).getD (k / 4) 0) (k % 4) = laneByte data nb 0 k := by
  rw [pack_getD data (by omega), wordByte_packWord data nb _ (Nat.mod_lt k (by decide)), Nat.div_add_mod]

theorem unpack_getD (words : List Word) (nb : Nat) {k : Nat} (hk : k < 64) :
    (unpack words nb).toList.getD k 0 = if k < nb then wordByte (words.getD (k / 4) 0) (k % 4) else 0 :=
  bytes64_getD _ hk

/-! ### Lengths (41_frame_mapper.md R175, R176) -/

theorem dlcBytes_le_eight (m : DlcMap) (edl : Bool) {d : BitVec 4} (h : d.toNat ≤ 8) : dlcBytes m edl d = d.toNat :=
  if_pos h

/-- No length code counts more bytes than a frame has. -/
theorem dlcBytes_le (m : DlcMap) (edl : Bool) (d : BitVec 4) : dlcBytes m edl d ≤ 64 := by
  unfold dlcBytes
  split <;> omega

/-! ### The frame a slot holds (41_frame_mapper.md R182, R184) -/

theorem Instance.slotBytes_le (x : Instance) (i : Nat) : x.slotBytes i ≤ 64 :=
  Nat.le_trans (Nat.min_le_left _ _) (dlcBytes_le _ _ _)

/-- Byte `k` of the frame slot `i` holds stands in its payload word `k / 4`. -/
theorem Instance.decodeSlot_data (x : Instance) (i : Nat) {k : Nat} (hk : k < 64) :
    (x.decodeSlot i).data.toList.getD k 0 =
      if k < x.slotBytes i then wordByte (x.word (wordAddr x.ws i (2 + k / 4))) (k % 4) else 0 := by
  refine (unpack_getD _ _ hk).trans ?_
  split
  next hlt =>
    have hword : k / 4 < payloadWords (x.slotBytes i) := by
      unfold payloadWords
      omega
    simp [List.getD_eq_getElem?_getD, hword]
  next => rfl

theorem Instance.busImage_length (x : Instance) (i : Nat) :
    (x.busImage i).data.length = if (x.decodeSlot i).rtr = true then 0 else x.slotBytes i := by
  unfold Instance.busImage Frame.onBus
  split
  next => rfl
  next => simp [x.slotBytes_le i]

/-- The bus image carries the first bytes of the data. -/
theorem Instance.busImage_data (x : Instance) (i : Nat) {k : Nat} (hk : k < (x.busImage i).data.length) :
    (x.busImage i).data.getD k 0 = wordByte (x.word (wordAddr x.ws i (2 + k / 4))) (k % 4) := by
  rw [x.busImage_length i] at hk
  split at hk
  next => omega
  next hrtr =>
    have hk64 : k < 64 := Nat.lt_of_lt_of_le hk (x.slotBytes_le i)
    calc (x.busImage i).data.getD k 0
        = (x.decodeSlot i).data.toList.getD k 0 := by
          simp [Instance.busImage, Frame.onBus, hrtr, List.getD_eq_getElem?_getD, hk]
      _ = wordByte (x.word (wordAddr x.ws i (2 + k / 4))) (k % 4) := by rw [x.decodeSlot_data i hk64, if_pos hk]

/-! ### Places (41_frame_mapper.md R171 to R173, R186) -/

/-- A word's address gives back its slot. -/
theorem wordAddr_div {ws i j : Nat} (hj : j < ws) : wordAddr ws i j / ws = i := by
  rw [wordAddr, Nat.mul_comm, Nat.mul_add_div (Nat.zero_lt_of_lt hj), Nat.div_eq_of_lt hj, Nat.add_zero]

/-- Every slot in range ends inside the memory. -/
theorem wordAddr_lt {ws i j : Nat} (hi : i < slotRange ws) (hj : j < ws) : wordAddr ws i j < Config.mbWords := by
  have hend : (i + 1) * (ws * 4) ≤ 512 := (Nat.le_div_iff_mul_le (by omega)).1 hi
  have hslot : (i + 1) * ws = i * ws + ws := Nat.succ_mul i ws
  rw [← Nat.mul_assoc, hslot] at hend
  simp only [wordAddr, Config.mbWords]
  omega

end Sys2Proof.Machine

open Sys2Proof Sys2Proof.Machine

/-- Settles O4: the decoder of a control word gives each bit of an encoded one back, and the two ID layouts are read where
they are written. -/
theorem slotWords : Obligations.SlotWords := by
  refine ⟨fun code f => ?_, fun w => ⟨rfl, rfl, rfl, rfl, rfl, rfl, rfl, rfl, CtrlBits.toWord_ofWord w⟩,
    fun b c => ⟨CtrlBits.ofWord_toWord b c, codeOf_toWord b c⟩,
    fun sh f => ⟨encodeId_extended sh, encodeId_standard sh, encodeId_top sh f, decodeId_encodeId sh⟩,
    fun sh w => ⟨rfl, rfl⟩, rfl⟩
  obtain ⟨hedl, hbrs, hesi, h28, h23, hsrr, hide, hrtr, hdlc, hlow⟩ :=
    CtrlBits.mk.inj (ofWord_encodeControl code f)
  exact ⟨hedl, hbrs, hesi, codeOf_toWord f.ctrlBits code, hsrr, hide, hrtr, hdlc, h28, h23, hlow⟩

/-- Settles O5: a byte is packed into the lane it is unpacked from, and a slot's frame is unpacked from its own words. -/
theorem payloadBytes : Obligations.PayloadBytes := by
  intro data nb _
  exact ⟨pack_length data nb, fun _ => wordByte_pack data, fun words _ => unpack_getD words nb,
    fun x i => ⟨rfl, rfl, rfl, rfl, rfl, rfl, rfl, fun _ => x.decodeSlot_data i, rfl, rfl, rfl, rfl, rfl, rfl, rfl,
      x.busImage_length i, fun _ => x.busImage_data i⟩⟩

/-- Settles O6: the tables are evaluated, and dividing an address by the word size gives the slot back. -/
theorem geometry : Obligations.Geometry := by
  refine ⟨by decide, by decide, fun ws => ⟨rfl, rfl⟩, fun m edl _ => dlcBytes_le_eight m edl, by decide, by decide,
    fun ws i j _ _ hi hj => ⟨rfl, Nat.le_of_lt_succ (wordAddr_lt hi hj), fun k l _ hl hne heq => hne ?_⟩⟩
  rw [← wordAddr_div (i := k) hl, heq, wordAddr_div hj]

end

section
/-! Proofs about the controller hardware (43_mb_hardware.md R222, R223, R235, R236, R248): what a host step of an operation
may write of a controller's hidden state, its driver record and its bus output. -/

namespace Sys2Proof.Machine

/-! ### What a code write leaves beside words and fields -/

/-- A preemption of slot `i` leaves the hidden state of every other slot. -/
theorem Instance.preempt_slot_ne (x : Instance) {i k : Nat} (s : SlotState) (d : Nat) (hk : k ≠ i) :
    (x.preempt i s d).hidden.slot k = x.hidden.slot k := by
  rw [x.preempt_slot, if_neg fun e => hk e.1]

/-- From `x` to `y` nothing but slot `i` and the lock changed in the hidden state, and the driver record stays. -/
structure Instance.OthersKept (x y : Instance) (i : Nat) : Prop where
  slots : ∀ k, k ≠ i → y.hidden.slot k = x.hidden.slot k
  held : y.hidden.pendingRx = x.hidden.pendingRx
  driver : y.driver = x.driver

theorem Instance.OthersKept.trans {x y z : Instance} {i : Nat} (h : x.OthersKept y i) (g : y.OthersKept z i) :
    x.OthersKept z i where
  slots k hk := (g.slots k hk).trans (h.slots k hk)
  held := g.held.trans h.held
  driver := g.driver.trans h.driver

theorem Instance.preempt_othersKept (x : Instance) (i : Nat) (s : SlotState) (d : Nat) :
    x.OthersKept (x.preempt i s d) i :=
  ⟨fun _ hk => x.preempt_slot_ne s d hk, x.preempt_pendingRx i s d, x.preempt_driver i s d⟩

/-- An admitted control-word write adds no frame to the bus output either (43_mb_hardware.md R222). -/
theorem Instance.storeCode_othersKept (x : Instance) (i : Nat) (v : Word) (s : SlotState) :
    x.OthersKept (x.storeCode i v s) i ∧ (x.storeCode i v s).busOut = x.busOut := by
  have stored : x.OthersKept ((if x.hidden.locked = some i then x.setLocked none else x).setWord (wordAddr x.ws i 0) v) i ∧
      ((if x.hidden.locked = some i then x.setLocked none else x).setWord (wordAddr x.ws i 0) v).busOut = x.busOut := by
    split <;> exact ⟨⟨fun _ _ => rfl, rfl, rfl⟩, rfl⟩
  unfold Instance.storeCode
  rcases codeEffect_eq (codeOf v) i s _ with e | ⟨b, e⟩ <;> rw [e]
  · exact stored
  · refine ⟨stored.1.trans ⟨fun k hk => ?_, rfl, rfl⟩, stored.2⟩
    rw [setAbortPending_hidden, Hidden.slot_setSlot_iff, if_neg fun e => hk e.1]

/-- A code write of slot `i` may put that slot's frame on the bus (43_mb_hardware.md R223). -/
theorem codeWrite_othersKept {x y : Instance} {i d u : Nat} {v : Word} (hc : codeWrite i v d x = .ok () y u) :
    x.OthersKept y i ∧ (y.busOut = x.busOut ∨ y.busOut = x.busOut ++ [x.busImage i]) := by
  obtain ⟨-, ⟨-, rfl, -⟩ | ⟨-, rfl, -⟩⟩ := (codeWrite_ok i v d x y u).1 hc
  · obtain ⟨kept, bus⟩ := x.storeCode_othersKept i v (x.slotState i)
    exact ⟨kept, .inl bus⟩
  · obtain ⟨kept, bus⟩ := (x.preempt i (x.slotState i) d).storeCode_othersKept i v (x.slotState i)
    refine ⟨(x.preempt_othersKept i _ d).trans kept, ?_⟩
    rw [bus, x.preempt_busOut]
    split <;> simp

/-! ### The frame of a host step -/

/-- From `x` to `y` a step of operation `i` at position `p` changed only hidden state, driver record and bus output that it
may change. -/
structure Instance.RestFrames (i : Instr) (p : Pos) (x y : Instance) : Prop where
  slots : ∀ k, storedSlot i p x ≠ some k → storedField i p ≠ some .mbws → y.hidden.slot k = x.hidden.slot k
  held : storedField i p ≠ some .mbws → y.hidden.pendingRx = x.hidden.pendingRx
  lock : movesLock i p = false → y.hidden.locked = x.hidden.locked
  callback : y.driver.callback ≠ x.driver.callback → ∃ h, i = .regCb i.inst (some h)
  geometry : y.driver.wordSize ≠ x.driver.wordSize ∨ y.driver.slotRange ≠ x.driver.slotRange →
    ∃ w c, i = .init i.inst w c ∧ p.pc = 12
  bus : y.busOut = x.busOut ∨ ∃ k, storedSlot i p x = some k ∧ y.busOut = x.busOut ++ [x.busImage k]

/-- An access that moves at most the lock. -/
theorem Instance.RestFrames.of_locked {i : Instr} {p : Pos} {x y : Instance} {l : Option Nat}
    (hh : y.hidden = { x.hidden with locked := l }) (hl : movesLock i p = false → l = x.hidden.locked)
    (hd : y.driver = x.driver) (hb : y.busOut = x.busOut) : RestFrames i p x y where
  slots _ _ _ := by rw [hh]; rfl
  held _ := by rw [hh]
  lock hm := by rw [hh]; exact hl hm
  callback hne := absurd (by rw [hd]) hne
  geometry hne := by simp [hd] at hne
  bus := .inl hb

/-- An access that leaves hidden state, driver record and bus output. -/
theorem Instance.RestFrames.of_kept {i : Instr} {p : Pos} {x y : Instance} (hh : y.hidden = x.hidden)
    (hd : y.driver = x.driver) (hb : y.busOut = x.busOut) : RestFrames i p x y :=
  .of_locked (l := x.hidden.locked) hh (fun _ => rfl) hd hb

/-- An access that stores MBWS (43_mb_hardware.md R248). -/
theorem Instance.RestFrames.of_mbws {i : Instr} {p : Pos} {x y : Instance} (hs : storedField i p = some .mbws)
    (hm : movesLock i p = true) (hc : y.driver.callback = x.driver.callback)
    (hg : y.driver = x.driver ∨ ∃ w c, i = .init i.inst w c ∧ p.pc = 12) (hb : y.busOut = x.busOut) :
    RestFrames i p x y where
  slots _ _ hne := absurd hs hne
  held hne := absurd hs hne
  lock hf := absurd (hm.symm.trans hf) (by decide)
  callback hne := absurd hc hne
  geometry hne := hg.resolve_left fun hd => by simp [hd] at hne
  bus := .inl hb

/-- An access that writes the operation's word. -/
theorem Instance.RestFrames.of_wordWrite {i : Instr} {p : Pos} {x y : Instance} {w d u : Nat} {v : Word}
    (hm : movesLock i p = true) (hs : storedWord i p x = some w) (hw : wordWrite w v d x = .ok () y u) :
    RestFrames i p x y := by
  obtain ⟨-, ⟨-, rfl, -⟩ | ⟨k, hk, hc⟩ | ⟨k, j, -, -, -, rfl, -⟩⟩ := wordWrite_ok w v d x y u hw
  · exact .of_kept rfl rfl rfl
  · have hslot : storedSlot i p x = some k := by simp [storedSlot, hs, hk]
    obtain ⟨kept, bus⟩ := codeWrite_othersKept hc
    exact
      { slots := fun n hn _ => kept.slots n fun e => hn (e ▸ hslot)
        held := fun _ => kept.held
        lock := fun hf => absurd (hm.symm.trans hf) (by decide)
        callback := fun hne => absurd (by rw [kept.driver]) hne
        geometry := fun hne => by simp [kept.driver] at hne
        bus := bus.imp id fun e => ⟨k, hslot, e⟩ }
  · exact .of_kept rfl rfl rfl

/-- Every access of the host writes of the rest of the controller only what its operation may write. -/
theorem HostAccess.restFrames {i : Instr} {p : Pos} {d : Nat} {x y : Instance} (ha : HostAccess i p d x y) :
    Instance.RestFrames i p x y := by
  cases ha with
  | none e => exact e ▸ .of_kept rfl rfl rfl
  | unlock hm e => exact e ▸ .of_locked (l := Option.none) rfl (fun hf => absurd (hm.symm.trans hf) (by decide)) rfl rfl
  | read hm w v u hr =>
    obtain ⟨-, rfl | ⟨k, -, -, rfl⟩⟩ := wordRead_ok w d x y v u hr
    · exact .of_kept rfl rfl rfl
    · rw [x.lockOnRead_eq]
      exact .of_locked rfl (fun hf => absurd (hm.symm.trans hf) (by decide)) rfl rfl
  | field f v u hs hm hw =>
    obtain ⟨g, hg, -, -, -, -, -, -, rfl, -⟩ := (fieldWrite_ok _ _ _ _ _ _).1 hw
    obtain rfl := FieldSel.named.inj hg
    rw [x.storeField_eq]
    by_cases hf : f = .mbws
    · exact .of_mbws (hf ▸ hs) (hm hf) rfl (.inl rfl) rfl
    · exact .of_kept (if_neg hf) rfl rfl
  | flags v _ e => exact e ▸ .of_kept rfl rfl rfl
  | word hm w v u hs hw => exact .of_wordWrite hm hs hw
  | geometry hm ws u hi hg =>
    obtain ⟨n, c, hin, hpc⟩ := hi
    obtain ⟨z, hz, -, rfl⟩ := initGeometry_ok hg
    obtain ⟨f, -, -, -, -, -, -, -, rfl, -⟩ := (fieldWrite_ok _ _ _ _ _ _).1 hz
    rw [x.storeField_eq]
    exact .of_mbws (by rw [hin]; simp [storedField, hpc]) hm rfl (.inr ⟨n, c, hin, hpc⟩) rfl
  | callback c hi e =>
    subst e
    exact
      { slots := fun _ _ _ => rfl
        held := fun _ => rfl
        lock := fun _ => rfl
        callback := fun _ => ⟨c, hi⟩
        geometry := fun hne => by simp at hne
        bus := .inl rfl }

end Sys2Proof.Machine

open Sys2Proof.Machine

/-- Settles O59: a host step is one access to its controller, and each access leaves the rest of it but for what its operation
may write. -/
theorem hiddenAndDriverFrame : Obligations.HiddenAndDriverFrame := by
  intro i s t x y ht hx hy
  have access := exec_hostAccess ht hx hy
  obtain ⟨-, params, line⟩ := access.change i.inst.toNat
  obtain ⟨slots, held, lock, callback, geometry, bus⟩ := access.restFrames
  exact ⟨slots, held, lock, callback, geometry, bus, line, params⟩

end

section
/-! Proofs about the controller hardware (43_mb_hardware.md R222, R224, R235, R238, R244): what a write of a message-buffer
word does or is refused with, case by case, and the busy read. -/

namespace Sys2Proof.Machine

/-- A word that lies in a slot lies in the memory (41_frame_mapper.md R173). -/
theorem Instance.slotOf_lt {x : Instance} {w k j : Nat} (h : x.slotOf w = some (k, j)) : w < Config.mbWords := by
  obtain ⟨hk, hj, rfl⟩ := x.slotOf_some w k j h
  exact x.wordAddr_lt k j hk hj

/-! ### What a word write answers, case by case -/

/-- There is no word above 127 (10_state.md R54). -/
theorem wordWrite_above {w d : Nat} {v : Word} {x : Instance} (hw : Config.mbWords ≤ w) :
    wordWrite w v d x = .fault .badAccess none (some w) :=
  if_pos hw

/-- A word outside every slot. -/
theorem wordWrite_outside {w d : Nat} {v : Word} {x : Instance} (hw : w < Config.mbWords) (hs : x.slotOf w = none) :
    wordWrite w v d x = .ok () (x.setWord w v) 0 := by
  rw [wordWrite, if_neg (Nat.not_le.2 hw), hs]

/-- A slot's control word. -/
theorem wordWrite_control {w d k : Nat} {v : Word} {x : Instance} (hs : x.slotOf w = some (k, 0)) :
    wordWrite w v d x = codeWrite k v d x := by
  rw [wordWrite, if_neg (Nat.not_le.2 (Instance.slotOf_lt hs)), hs]
  exact if_pos rfl

/-- Another word of a slot: refused where the slot is armed (43_mb_hardware.md R224). -/
theorem wordWrite_plain {w d k j : Nat} {v : Word} {x : Instance} (hs : x.slotOf w = some (k, j)) (hj : j ≠ 0) :
    wordWrite w v d x =
      if (x.slotState k).armed then .fault .writeToArmedSlot (some k) (some w) else .ok () (x.setWord w v) 0 := by
  rw [wordWrite, if_neg (Nat.not_le.2 (Instance.slotOf_lt hs)), hs]
  exact if_neg hj

/-! ### What a code write answers, case by case -/

/-- A code that is no command (43_mb_hardware.md R244). -/
theorem codeWrite_reserved {i d : Nat} {v : Word} {x : Instance} (hw : writableCode (codeOf v) = false) :
    codeWrite i v d x = .fault .reservedCode (some i) (some (wordAddr x.ws i 0)) := by
  rw [codeWrite, hw]
  rfl

/-- A code that the table refuses in the slot's state (43_mb_hardware.md R244). -/
theorem codeWrite_refused {i d : Nat} {v : Word} {x : Instance} (hw : writableCode (codeOf v) = true)
    (ha : admission x.params.abortPreempts (x.slotState i) (codeOf v) = .no) :
    codeWrite i v d x = .fault .illegalCodeTransition (some i) (some (wordAddr x.ws i 0)) := by
  rw [codeWrite, if_pos hw, ha]

/-- Every other code is admitted (43_mb_hardware.md R222). -/
theorem codeWrite_admitted {i : Nat} (d : Nat) {v : Word} {x : Instance} (hw : writableCode (codeOf v) = true)
    (ha : admission x.params.abortPreempts (x.slotState i) (codeOf v) ≠ .no) : ∃ y u, codeWrite i v d x = .ok () y u := by
  cases h : admission x.params.abortPreempts (x.slotState i) (codeOf v) with
  | no => exact absurd h ha
  | yes => exact ⟨_, _, (codeWrite_ok ..).2 ⟨hw, .inl ⟨h, rfl, rfl⟩⟩⟩
  | preempt => exact ⟨_, _, (codeWrite_ok ..).2 ⟨hw, .inr ⟨h, rfl, rfl⟩⟩⟩

/-! ### MB.WR -/

theorem exec_mbWr_ok {inst word : BitVec 8} {v : Word} {s : State} {x y : Instance} {u : Nat}
    (hx : s.insts[inst.toNat]? = some x) (hw : wordWrite word.toNat v s.draws x = .ok () y u) :
    exec (.mbWr inst word v) s = .next ((s.commit inst.toNat y u).ret (.mbWr inst word v) .success .none) :=
  (exec_mbWr ..).trans (onInst_ok hx hw)

theorem exec_mbWr_fault {inst word : BitVec 8} {v : Word} {s : State} {x : Instance} {r : Fault} {sl w : Option Nat}
    (hx : s.insts[inst.toNat]? = some x) (hw : wordWrite word.toNat v s.draws x = .fault r sl w) :
    exec (.mbWr inst word v) s = .next (s.raise r (.instr (.mbWr inst word v)) sl w) :=
  (exec_mbWr ..).trans (onInst_fault hx hw)

/-! ### The lists of the rules -/

/-- The armed states (43_mb_hardware.md R224). -/
theorem SlotState.mem_armed {s : SlotState} :
    s ∈ [SlotState.receiveEmpty, .busy, .send, .abortPending] ↔ s.armed = true := by
  cases s <;> decide

theorem SlotState.mem_notArmed {s : SlotState} :
    s ∈ [SlotState.inactiveRx, .inactiveTx, .aborted, .reserved] ↔ s.armed = false := by
  cases s <;> decide

/-- The codes that are commands (43_mb_hardware.md R244). -/
theorem mem_writableCode {c : BitVec 4} : c ∈ [0x0, 0x4, 0x8, 0x9, 0xC] ↔ writableCode c = true := by
  revert c
  decide

/-- The pairs that the table of 43_mb_hardware.md R222 refuses. -/
theorem mem_refused {b : Bool} {s : SlotState} {c : BitVec 4} (hc : writableCode c = true) :
    (s, c) ∈ ([(.inactiveRx, 0x9), (.receiveEmpty, 0x4), (.receiveEmpty, 0x8), (.receiveEmpty, 0x9), (.receiveEmpty, 0xC),
      (.busy, 0x4), (.busy, 0x8), (.busy, 0x9), (.busy, 0xC), (.inactiveTx, 0x4), (.send, 0x4), (.send, 0x8),
      (.send, 0xC), (.abortPending, 0x4), (.abortPending, 0x8), (.abortPending, 0x9), (.aborted, 0x4),
      (.reserved, 0x4), (.reserved, 0x8), (.reserved, 0x9), (.reserved, 0xC)] : List (SlotState × BitVec 4)) ↔
      admission b s c = .no := by
  cases s <;> revert b c <;> decide

/-! ### The busy read -/

theorem exec_codeBusy (inst slot : BitVec 8) (s : State) : exec (.codeBusy inst slot) s =
    onInst (.codeBusy inst slot) inst s (fun d x => wordRead (wordAddr x.ws slot.toNat 0) d x) fun v t =>
      t.ret (.codeBusy inst slot) .success (.word v) := rfl

theorem exec_codeBusy_ok {inst slot : BitVec 8} {s : State} {x y : Instance} {v : Word} {u : Nat}
    (hx : s.insts[inst.toNat]? = some x) (hr : wordRead (wordAddr x.ws slot.toNat 0) s.draws x = .ok v y u) :
    exec (.codeBusy inst slot) s = .next ((s.commit inst.toNat y u).ret (.codeBusy inst slot) .success (.word v)) :=
  (exec_codeBusy ..).trans (onInst_ok hx hr)

theorem exec_codeBusy_fault {inst slot : BitVec 8} {s : State} {x : Instance} {r : Fault} {sl w : Option Nat}
    (hx : s.insts[inst.toNat]? = some x) (hr : wordRead (wordAddr x.ws slot.toNat 0) s.draws x = .fault r sl w) :
    exec (.codeBusy inst slot) s = .next (s.raise r (.instr (.codeBusy inst slot)) sl w) :=
  (exec_codeBusy ..).trans (onInst_fault hx hr)

/-- The control word of an index past the hardware slots lies in none (10_state.md R55). -/
theorem Instance.slotOf_past {x : Instance} {k : Nat} (hk : x.hwSlots ≤ k) : x.slotOf (wordAddr x.ws k 0) = none := by
  refine if_neg (Nat.not_lt.2 ?_)
  by_cases hw : x.ws = 0
  · simp [Instance.hwSlots, hw, legalWordSize]
  · rwa [wordAddr_div (Nat.pos_of_ne_zero hw)]

end Sys2Proof.Machine

open Sys2Proof Sys2Proof.Machine

/-- Settles O22: by where the word lies, and whether its slot is armed. -/
theorem mbWrPlain : Obligations.MbWrPlain := by
  intro inst word v s x hx hmem i stored
  have store (hw : word.toNat < Config.mbWords)
      (hok : wordWrite word.toNat v s.draws x = .ok () (x.setWord word.toNat v) 0) : stored :=
    ⟨_, exec_mbWr_ok hx hok, fun u => x.word_setWord _ u v hw hmem, rfl, rfl, rfl, rfl, rfl, rfl⟩
  refine ⟨fun hw => exec_mbWr_fault hx (wordWrite_above hw), fun hw hs => ?_,
    fun k j hs hj => ⟨fun ha => ?_, fun ha => ?_⟩⟩
  · have hlt : word.toNat < Config.mbWords := Nat.lt_succ_of_le hw
    exact store hlt (wordWrite_outside hlt hs)
  · exact exec_mbWr_fault hx (by rw [wordWrite_plain hs hj, if_pos (SlotState.mem_armed.1 ha)])
  · exact store (Instance.slotOf_lt hs) (by simp [wordWrite_plain hs hj, SlotState.mem_notArmed.1 ha])

/-- Settles O23: the code first, then the table. -/
theorem codeAdmission : Obligations.CodeAdmission := by
  intro inst word v s x k hx hs i
  have access (d : Nat) : wordWrite word.toNat v d x = codeWrite k v d x := wordWrite_control hs
  obtain ⟨-, -, haddr⟩ := x.slotOf_some _ k 0 hs
  split
  next hc =>
    have hw : writableCode (codeOf v) = false := by simpa using mt mem_writableCode.2 hc
    exact exec_mbWr_fault hx (haddr ▸ (access _).trans (codeWrite_reserved hw))
  next hc =>
    have hw := mem_writableCode.1 (not_not.1 hc)
    split
    next ha => exact exec_mbWr_fault hx (haddr ▸ (access _).trans (codeWrite_refused hw ((mem_refused hw).1 ha)))
    next ha =>
      obtain ⟨y, u, hok⟩ := codeWrite_admitted s.draws hw (mt (mem_refused hw).2 ha)
      exact ⟨y, u, exec_mbWr_ok hx ((access _).trans hok)⟩

/-- Settles O30: by whether the slot exists, is busy, and has a control word in the memory. -/
theorem codeBusy : Obligations.CodeBusy := by
  intro inst slot s x hx i k
  have control (hk : k < x.hwSlots) : x.slotOf (wordAddr x.ws k 0) = some (k, 0) := by
    have := (x.hwSlots_pos k hk).1
    exact x.slotOf_wordAddr k 0 hk (by omega)
  refine ⟨fun hk hb => ?_, fun hk hb => ?_, fun hk hw => ?_, fun hw => exec_codeBusy_fault hx (wordRead_above hw)⟩
  · obtain ⟨v, u, hv, hcode⟩ := busyRead_ok 0 s.draws x
    have hs := control hk
    exact ⟨v, u, exec_codeBusy_ok hx ((wordRead_busy (Instance.slotOf_lt hs) hs hb).trans hv), hcode rfl⟩
  · have hs := control hk
    rw [← State.commit_zero, ← x.lockOnRead_eq]
    exact exec_codeBusy_ok hx (wordRead_idle (Instance.slotOf_lt hs) hs hb)
  · have answer := exec_codeBusy_ok hx (wordRead_outside (Nat.lt_succ_of_le hw) (Instance.slotOf_past hk))
    rwa [State.commit_zero, s.setInst_self _ x hx] at answer

end

section
/-! Proofs about the controller hardware (43_mb_hardware.md R222, R223, R239 to R243): the code commands. Each is refused, or
stores its control word, or preempts first; what any of them leaves is said once. -/

namespace Sys2Proof.Machine

/-! ### The columns of the table (43_mb_hardware.md R222) -/

theorem admission_inactiveRx (b : Bool) (s : SlotState) : admission b s 0x0#4 = if s.pending then .preempt else .yes := by
  cases s <;> rfl

theorem admission_receiveEmpty (b : Bool) (s : SlotState) :
    admission b s 0x4#4 = if s = .inactiveRx then .yes else .no := by
  cases s <;> rfl

theorem admission_inactiveTx (b : Bool) (s : SlotState) :
    admission b s 0x8#4 = if s ∈ [SlotState.inactiveRx, .inactiveTx, .aborted] then .yes else .no := by
  cases s <;> rfl

theorem admission_abort (b : Bool) (s : SlotState) : admission b s 0x9#4 =
    if s ∈ [SlotState.send, .inactiveTx, .aborted] then (if s = .send ∧ b = true then .preempt else .yes) else .no := by
  cases s <;> cases b <;> rfl

theorem admission_send (b : Bool) (s : SlotState) : admission b s 0xC#4 =
    if s ∈ [SlotState.inactiveRx, .inactiveTx, .aborted, .abortPending] then
      (if s = .abortPending then .preempt else .yes) else .no := by
  cases s <;> rfl

/-- The states that 43_mb_hardware.md R223 speaks of. -/
theorem SlotState.mem_pending {s : SlotState} : s ∈ [SlotState.busy, .send, .abortPending] ↔ s.pending = true := by
  cases s <;> decide

/-! ### What an admitted code write leaves, with or without a preemption -/

/-- The slot after a write of `v` to its control word: its code, whether an abort is pending there, and no lock. -/
structure Instance.CodeWritten (x y : Instance) (i : Nat) (v : Word) : Prop where
  inv : y.Inv
  mbws : y.fields.mbws = x.fields.mbws
  word : y.word (wordAddr x.ws i 0) = v
  code : y.code i = codeOf v
  pending : y.abortPending i = true ↔ codeOf v = 0x9#4 ∧ x.slotState i = .send
  unlocked : y.hidden.locked ≠ some i

/-- A word stored in a slot on which the hardware has nothing pending, `s` being the slot's state before any preemption. -/
theorem Instance.Inv.codeWritten {x z : Instance} (h : z.Inv) {i : Nat} (v : Word) (hi : i < z.hwSlots)
    (hb : z.busy i = false) (ha : z.abortPending i = false) (hw : z.fields.mbws = x.fields.mbws) :
    x.CodeWritten (z.storeCode i v (x.slotState i)) i v := by
  have stored := z.storeCode_stored i v (x.slotState i) hi h.memory
  refine ⟨h.storeCode hi v _ hb ha, by rw [stored.fields, hw], ?_, z.storeCode_code i v _ hi h.memory, ?_, ?_⟩
  · rw [← ws_eq_of_mbws hw, stored.words, if_pos rfl]
  · rw [z.storeCode_abortPending i v _ hi]
    split_ifs with h48 h9
    · rcases h48 with e | e <;> simp [ha, e]
    · simp [h9]
    · simp [h9]
  · rw [stored.lock]
    split <;> simp_all

/-- A preemption and then the written word (43_mb_hardware.md R222, R223). -/
theorem Instance.Inv.preempted {x : Instance} (h : x.Inv) {i : Nat} (v : Word) (d : Nat) (hi : i < x.hwSlots) :
    x.Preempted ((x.preempt i (x.slotState i) d).storeCode i v (x.slotState i)) i v := by
  have hw := x.preempt_ws i (x.slotState i) d
  have hz : i < (x.preempt i (x.slotState i) d).hwSlots := by simpa using hi
  have inv := h.preempt hi (x.slotState i) d
  obtain ⟨idle, -⟩ := h.preempt_idle hi d
  obtain ⟨words, fields, lock, held, others, ⟨busy, inflight⟩, driver, bus, line, params⟩ :=
    Instance.storeCode_stored _ i v (x.slotState i) hz inv.memory
  have ctrl (u : Nat) (hu : u ≠ wordAddr x.ws i 0) : _ = (x.preempt i (x.slotState i) d).word u :=
    (words u).trans (if_neg (hw ▸ hu))
  exact
    { written := (words _).trans (if_pos (by rw [hw]))
      fields := by
        rw [fields, x.preempt_fields]
        split
        · exact .inr rfl
        · exact .inl rfl
      reception := ⟨busy.trans idle, inflight.trans (inv.idleSlot i idle)⟩
      others := fun k hk => (others k hk).trans (x.preempt_slot_ne _ d hk)
      held := by rw [held, x.preempt_pendingRx]
      lock := by rw [lock, x.preempt_locked]
      driver := by rw [driver, x.preempt_driver]
      line := by rw [line, x.preempt_lineEnabled]
      params := by rw [params, x.preempt_params]
      receiving := fun hs => by
        refine ⟨by rw [bus, x.preempt_busOut]; simp [hs], fun u hu => ?_⟩
        have outside (j : Nat) (hj : j < x.ws) : u ≠ wordAddr x.ws i j := by
          rintro rfl
          simp [x.slotOf_wordAddr i j hi hj] at hu
        have h0 : 0 < x.ws := by have := (x.hwSlots_pos i hi).1; omega
        rw [ctrl u (outside 0 h0), x.preempt_word i u _ d hi h.memory (.inr fun j _ => outside j)]
      sending := fun hs => by
        refine ⟨?_, fun u hu => ?_⟩
        · rw [bus, x.preempt_busOut]
          split <;> simp
        · rw [ctrl u hu, x.preempt_word i u _ d hi h.memory (.inl hs)] }

/-! ### The code commands -/

/-- The code commands of a slot with their codes (30_encoding.md R115). -/
abbrev codeCommands (inst slot : BitVec 8) (b : CtrlBits) : List (Instr × BitVec 4) :=
  [(.codeInactiveRx inst slot b, 0x0#4), (.codeReceiveEmpty inst slot b, 0x4#4), (.codeInactiveTx inst slot b, 0x8#4),
   (.codeAbort inst slot b, 0x9#4), (.codeSend inst slot b, 0xC#4)]

/-- The control word of a hardware slot is written by its code (log 6). -/
theorem controlWrite_slot {slot : BitVec 8} {v : Word} {d : Nat} {x : Instance} (hk : slot.toNat < x.hwSlots) :
    controlWrite slot v d x = codeWrite slot.toNat v d x := by
  have h4 := (x.hwSlots_pos _ hk).1
  exact wordWrite_control (x.slotOf_wordAddr _ 0 hk (by omega))

/-- The word of a code command has a code that is a command. -/
theorem writableCode_command {inst slot : BitVec 8} {b : CtrlBits} {p : Instr × BitVec 4}
    (hp : p ∈ codeCommands inst slot b) : writableCode (codeOf (b.toWord p.2)) = true := by
  rw [codeOf_toWord]
  simp only [codeCommands, List.mem_cons, List.not_mem_nil, or_false] at hp
  rcases hp with rfl | rfl | rfl | rfl | rfl <;> rfl

section
variable {inst slot : BitVec 8} {b : CtrlBits} {s : State} {x : Instance} {p : Instr × BitVec 4}

/-- A code command that the table refuses (43_mb_hardware.md R244). -/
theorem codeCommand_refused (hp : p ∈ codeCommands inst slot b) (hx : s.insts[inst.toNat]? = some x)
    (hk : slot.toNat < x.hwSlots) (ha : admission x.params.abortPreempts (x.slotState slot.toNat) p.2 = .no) :
    exec p.1 s =
      .next (s.raise .illegalCodeTransition (.instr p.1) (some slot.toNat) (some (wordAddr x.ws slot.toNat 0))) := by
  refine (exec_codeCommand inst slot b s p hp).trans (onInst_fault hx ((controlWrite_slot hk).trans ?_))
  exact codeWrite_refused (writableCode_command hp) ((codeOf_toWord b p.2).symm ▸ ha)

/-- A code command that the table admits stores its word. -/
theorem codeCommand_stores (hp : p ∈ codeCommands inst slot b) (hx : s.insts[inst.toNat]? = some x) (h : x.Inv)
    (hk : slot.toNat < x.hwSlots) (ha : admission x.params.abortPreempts (x.slotState slot.toNat) p.2 = .yes) :
    ∃ y, exec p.1 s = .next ((s.setInst inst.toNat y).ret p.1 .success .none) ∧
      x.CodeWritten y slot.toNat (b.toWord p.2) ∧ x.ControlStored y slot.toNat (b.toWord p.2) := by
  obtain ⟨hb, hpend⟩ := admission_yes ha
  have hok := (codeWrite_ok slot.toNat (b.toWord p.2) s.draws x _ 0).2
    ⟨writableCode_command hp, .inl ⟨(codeOf_toWord b p.2).symm ▸ ha, rfl, rfl⟩⟩
  exact ⟨_, (exec_codeCommand inst slot b s p hp).trans (onInst_ok hx ((controlWrite_slot hk).trans hok)),
    h.codeWritten _ hk (h.busy_eq_false hb) (h.abortPending_eq_false hpend) rfl, x.storeCode_stored _ _ _ hk h.memory⟩

/-- A code command that the table admits with a preemption. -/
theorem codeCommand_preempts (hp : p ∈ codeCommands inst slot b) (hx : s.insts[inst.toNat]? = some x) (h : x.Inv)
    (hk : slot.toNat < x.hwSlots) (ha : admission x.params.abortPreempts (x.slotState slot.toNat) p.2 = .preempt) :
    ∃ y u, exec p.1 s = .next ((s.commit inst.toNat y u).ret p.1 .success .none) ∧
      x.CodeWritten y slot.toNat (b.toWord p.2) ∧ x.Preempted y slot.toNat (b.toWord p.2) := by
  obtain ⟨hb, hpend⟩ := h.preempt_idle hk s.draws
  have mbws : (x.preempt slot.toNat (x.slotState slot.toNat) s.draws).fields.mbws = x.fields.mbws := by
    rw [x.preempt_fields]
    split <;> rfl
  have hok := (codeWrite_ok slot.toNat (b.toWord p.2) s.draws x _ _).2
    ⟨writableCode_command hp, .inr ⟨(codeOf_toWord b p.2).symm ▸ ha, rfl, rfl⟩⟩
  exact ⟨_, _, (exec_codeCommand inst slot b s p hp).trans (onInst_ok hx ((controlWrite_slot hk).trans hok)),
    (h.preempt hk _ _).codeWritten _ (by simpa using hk) hb hpend mbws, h.preempted _ _ hk⟩

end

/-! ### The slot after a code command -/

/-- No hardware step acts on a slot that is not armed (43_mb_hardware.md R239, R241, R242). -/
theorem Instance.Inv.quiet {x : Instance} (h : x.Inv) {i : Nat} (ha : (x.slotState i).armed = false) : x.Quiet i := by
  have state {s : SlotState} (hs : s.armed = true) : x.slotState i ≠ s := by
    rintro rfl
    exact absurd (ha.symm.trans hs) (by decide)
  refine ⟨fun _ _ _ => if_neg fun ⟨_, _, hs⟩ => state (s := .send) rfl hs,
    fun _ _ _ _ _ => if_neg fun ⟨_, _, hs, _⟩ => state (s := .abortPending) rfl hs,
    fun _ _ => if_neg fun ⟨_, _, hb⟩ => ?_, fun _ _ take => state (s := .receiveEmpty) rfl take.armed⟩
  have idle := h.busy_eq_false (state (s := .busy) rfl)
  exact absurd (idle.symm.trans hb) (by decide)

section
variable {x y : Instance} {i : Nat} {b : CtrlBits}

theorem Instance.CodeWritten.inactiveRx (h : x.CodeWritten y i (b.toWord 0x0#4)) :
    y.slotState i = .inactiveRx ∧ y.abortPending i = false := by
  obtain ⟨state, -⟩ := y.slotState_code i
  exact ⟨state.2 (by simp [h.code]), Bool.eq_false_iff.2 (by simp [h.pending])⟩

theorem Instance.CodeWritten.inactiveTx (h : x.CodeWritten y i (b.toWord 0x8#4)) : y.slotState i = .inactiveTx := by
  obtain ⟨-, -, -, state, -⟩ := y.slotState_code i
  exact state.2 (by simp [h.code])

theorem Instance.CodeWritten.abort (h : x.CodeWritten y i (b.toWord 0x9#4)) :
    y.slotState i = if x.slotState i = .send then .abortPending else .aborted := by
  obtain ⟨-, -, -, -, pending, aborted, -⟩ := y.slotState_code i
  split
  next hs => exact pending.2 ⟨by simp [h.code], h.pending.2 ⟨by simp, hs⟩⟩
  next hs => exact aborted.2 ⟨by simp [h.code], Bool.eq_false_iff.2 fun ha => hs (h.pending.1 ha).2⟩

theorem Instance.CodeWritten.send (h : x.CodeWritten y i (b.toWord 0xC#4)) :
    y.slotState i = .send ∧ y.abortPending i = false := by
  obtain ⟨-, -, -, -, -, -, state⟩ := y.slotState_code i
  exact ⟨state.2 (by simp [h.code]), Bool.eq_false_iff.2 (by simp [h.pending])⟩

/-- An armed slot takes the frames whose IDE is the one written and whose identifier passes the filter (43_mb_hardware.md
R230, R240). -/
theorem Instance.ControlStored.couldTake_iff (h : x.ControlStored y i (b.toWord 0x4#4)) (hi : i < x.hwSlots)
    (hs : y.slotState i = .receiveEmpty) (hr : x.params.rtrMatch = .ignored) (f : Frame) :
    y.CouldTake f none i ↔ f.ide = b.ide ∧
      (x.idWord f ^^^ y.word (wordAddr x.ws i 1)) &&& y.fields.rxmgmask &&& 0x1FFFFFFF#32 = 0#32 ∧
      x.bytes f ≤ (x.ws - 2) * 4 := by
  have hw : y.ws = x.ws := ws_eq_of_mbws (by rw [h.fields])
  have hslots : y.hwSlots = x.hwSlots := hwSlots_eq_of_mbws (by rw [h.fields])
  have hid : y.idWord f = x.idWord f := by simp only [Instance.idWord, h.params]
  have hbytes : y.bytes f = x.bytes f := by simp only [Instance.bytes, h.params]
  have hide : (y.word (wordAddr y.ws i 0)).getLsbD 21 = b.ide := by
    rw [hw, h.words, if_pos rfl]
    exact congrArg CtrlBits.ide (CtrlBits.ofWord_toWord b 0x4#4)
  rw [← hid, ← hbytes, ← hw, ← hide]
  constructor
  · rintro ⟨-, -, ide, -, id, fits, -⟩
    exact ⟨ide, id, fits⟩
  · rintro ⟨ide, id, fits⟩
    exact ⟨hslots ▸ hi, hs, ide, fun hc => by simp [h.params, hr] at hc, id, fits, by simp⟩

end

end Sys2Proof.Machine

open Sys2Proof Sys2Proof.Machine

/-- Settles O29: these are the writes that the table admits with a preemption. -/
theorem preemption : Obligations.Preemption := by
  intro inst slot b s x hx h hk i c hic
  rcases hic with ⟨rfl, rfl, hs⟩ | ⟨rfl, rfl, hs⟩
  · have hp : (Instr.codeInactiveRx inst slot b, 0x0#4) ∈ codeCommands inst slot b := by simp
    obtain ⟨y, u, answer, w, preempted⟩ := codeCommand_preempts hp hx h hk
      (by rw [admission_inactiveRx, if_pos (SlotState.mem_pending.1 hs)])
    exact ⟨y, u, answer, preempted, w.inactiveRx.2⟩
  · have hp : (Instr.codeSend inst slot b, 0xC#4) ∈ codeCommands inst slot b := by simp
    obtain ⟨y, u, answer, w, preempted⟩ := codeCommand_preempts hp hx h hk (by simp [admission_send, hs])
    exact ⟨y, u, answer, preempted, w.send.2⟩

/-- Settles O25: code 0 is admitted everywhere, with a preemption where the hardware has something pending. -/
theorem codeInactiveRx : Obligations.CodeInactiveRx := by
  intro inst slot b s x hx h hk i
  have hp : (i, 0x0#4) ∈ codeCommands inst slot b := by simp [i]
  have after {y : Instance} (w : x.CodeWritten y slot.toNat (b.toWord 0x0#4)) := w.inv.quiet (by rw [w.inactiveRx.1]; rfl)
  cases hs : (x.slotState slot.toNat).pending with
  | true =>
    obtain ⟨y, u, answer, w, -⟩ := codeCommand_preempts hp hx h hk (by rw [admission_inactiveRx, if_pos hs])
    obtain ⟨state, idle⟩ := w.inactiveRx
    exact ⟨y, u, answer, w.word, state, idle, w.unlocked, after w, fun hn => absurd (SlotState.mem_pending.2 hs) hn⟩
  | false =>
    obtain ⟨y, answer, w, stored⟩ := codeCommand_stores hp hx h hk (by rw [admission_inactiveRx, hs]; rfl)
    obtain ⟨state, idle⟩ := w.inactiveRx
    exact ⟨y, 0, answer, w.word, state, idle, w.unlocked, after w, fun _ => ⟨rfl, stored⟩⟩

/-- Settles O26: the columns of codes 4 and 8. -/
theorem codeArmReceiveAndInactiveTx : Obligations.CodeArmReceiveAndInactiveTx := by
  intro inst slot b s x hx h hk r i
  have hr : (r, 0x4#4) ∈ codeCommands inst slot b := by simp [r]
  have hi : (i, 0x8#4) ∈ codeCommands inst slot b := by simp [i]
  constructor
  · split
    next hs =>
      obtain ⟨y, answer, w, stored⟩ := codeCommand_stores hr hx h hk (by rw [admission_receiveEmpty, if_pos hs])
      have idle : y.busy slot.toNat = false := stored.reception.1.trans (h.busy_eq_false (by simp [hs]))
      have armed : y.slotState slot.toNat = .receiveEmpty :=
        Instance.slotState_receiveEmpty.2 ⟨by simp [w.code], idle⟩
      exact ⟨y, answer, armed, stored, stored.couldTake_iff hk armed⟩
    next hs => exact codeCommand_refused hr hx hk (by rw [admission_receiveEmpty, if_neg hs])
  · split
    next hs =>
      obtain ⟨y, answer, w, stored⟩ := codeCommand_stores hi hx h hk (by rw [admission_inactiveTx, if_pos hs])
      exact ⟨y, answer, w.inactiveTx, stored, w.inv.quiet (by rw [w.inactiveTx]; rfl)⟩
    next hs => exact codeCommand_refused hi hx hk (by rw [admission_inactiveTx, if_neg hs])

/-- Settles O27: the column of code 9; under `abortPreempts` its entry for Send preempts. -/
theorem codeAbort : Obligations.CodeAbort := by
  intro inst slot b s x hx h hk i k
  have hp : (i, 0x9#4) ∈ codeCommands inst slot b := by simp [i]
  have resolves {y : Instance} (w : x.CodeWritten y k (b.toWord 0x9#4)) (hs : x.slotState k = .send)
      (hm : y.fields.mdis = 0) (o : RxMatchOrder) (k9 : Bool) (d : BitVec 16) (n : Nat) :
      (abortResolve o k false k9 d n y).isSome = true := by
    have hlt : k < y.hwSlots := Instance.hwSlots_eq_of_mbws w.mbws ▸ hk
    exact Option.isSome_iff_exists.2 ⟨_, abortResolve_some.2 ⟨⟨hm, hlt, by rw [w.abort, if_pos hs], by simp⟩, rfl⟩⟩
  have quiet {y : Instance} (w : x.CodeWritten y k (b.toWord 0x9#4)) (hs : x.slotState k ≠ .send) : y.Quiet k :=
    w.inv.quiet (by rw [w.abort, if_neg hs]; rfl)
  split
  next hs =>
    by_cases hpre : x.slotState k = .send ∧ x.params.abortPreempts = true
    · obtain ⟨y, u, answer, w, preempted⟩ := codeCommand_preempts hp hx h hk
        (by rw [admission_abort, if_pos hs, if_pos hpre])
      refine ⟨y, u, answer, w.abort, fun _ _ => preempted, fun hn => ?_, resolves w, quiet w⟩
      simp [hpre] at hn
    · obtain ⟨y, answer, w, stored⟩ := codeCommand_stores hp hx h hk
        (by rw [admission_abort, if_pos hs, if_neg hpre])
      exact ⟨y, 0, answer, w.abort, fun hs hb => absurd ⟨hs, hb⟩ hpre, fun _ => ⟨rfl, stored⟩, resolves w, quiet w⟩
  next hs => exact codeCommand_refused hp hx hk (by rw [admission_abort, if_neg hs])

/-- Settles O28: the column of code 0xC; its entry for AbortPending preempts. -/
theorem codeSend : Obligations.CodeSend := by
  intro inst slot b s x hx h hk i
  have hp : (i, 0xC#4) ∈ codeCommands inst slot b := by simp [i]
  have transmits {y : Instance} (w : x.CodeWritten y slot.toNat (b.toWord 0xC#4)) (hr : y.fields.running = true)
      (o : RxMatchOrder) (d : BitVec 16) (n : Nat) : (txComplete o slot.toNat d n y).isSome = true := by
    have hlt : slot.toNat < y.hwSlots := Instance.hwSlots_eq_of_mbws w.mbws ▸ hk
    exact Option.isSome_iff_exists.2 ⟨_, txComplete_some.2 ⟨⟨hr, hlt, w.send.1⟩, rfl⟩⟩
  split
  next hs =>
    by_cases hpre : x.slotState slot.toNat = .abortPending
    · obtain ⟨y, u, answer, w, preempted⟩ := codeCommand_preempts hp hx h hk
        (by rw [admission_send, if_pos hs, if_pos hpre])
      exact ⟨y, u, answer, w.send.1, fun _ => preempted, w.send.2, fun hn => absurd hpre hn, transmits w⟩
    · obtain ⟨y, answer, w, stored⟩ := codeCommand_stores hp hx h hk
        (by rw [admission_send, if_pos hs, if_neg hpre])
      exact ⟨y, 0, answer, w.send.1, fun hn => absurd hn hpre, w.send.2, fun _ => ⟨rfl, stored⟩, transmits w⟩
  next hs => exact codeCommand_refused hp hx hk (by rw [admission_send, if_neg hs])

end

section
/-! Proofs about the controller hardware (43_mb_hardware.md R220, R225 to R234): when each hardware step may be taken, and
what it does. -/

namespace Sys2Proof.Machine

/-! ### Guard and effect of a hardware step -/

section
variable {s : State} {e : Event} {n : Nat} {f : Instance → Option Instance} {x : Instance}

/-- A hardware step is enabled where its effect on the controller has an outcome. -/
theorem State.enabled_hardware (hc : e.controller = some n) (hf : hardware s.params.rxMatchOrder e = some f)
    (hx : s.insts[n]? = some x) : s.enabled e = true ↔ ∃ y, f x = some y := by
  rw [← Option.isSome_iff_exists]
  cases e <;> simp only [hardware, Option.some.injEq, reduceCtorEq] at hf <;> subst hf <;> cases hc <;>
    simp [State.enabled, hx]

/-- A scheduled hardware step that has an outcome replaces its controller by it. -/
theorem step_hardware {es : List Event} {y : Instance} (hc : e.controller = some n)
    (hf : hardware s.params.rxMatchOrder e = some f) (hx : s.insts[n]? = some x) (hfault : s.fault = none)
    (hs : s.schedule = e :: es) (hy : f x = some y) : step s = .next ({ s with schedule := es }.setInst n y) := by
  have hirq : e ≠ .irqEntry n := by
    rintro rfl
    cases hf
  obtain ⟨g, hg, hrun⟩ := runEvent_hardware e { s with schedule := es } n hc hirq
  obtain rfl := Option.some.inj (hf.symm.trans hg)
  rw [step_scheduled hfault hs, hrun]
  simp [State.hwStep, hx, hy]

/-- A hardware step with guard `G` and outcome `z`: when it is enabled, and what taking it does. -/
theorem hardware_guarded {G : Prop} {z : Instance} (hc : e.controller = some n)
    (hf : hardware s.params.rxMatchOrder e = some f) (hx : s.insts[n]? = some x) (hfault : s.fault = none)
    (hspec : ∀ y, f x = some y ↔ G ∧ z = y) :
    (s.enabled e = true ↔ G) ∧
      ∀ es, s.schedule = e :: es → G → step s = .next ({ s with schedule := es }.setInst n z) := by
  refine ⟨?_, fun es hs hG => step_hardware hc hf hx hfault hs ((hspec z).2 ⟨hG, rfl⟩)⟩
  rw [State.enabled_hardware hc hf hx]
  simp [hspec]

end

/-- 43_mb_hardware.md R220. -/
theorem Fields.running_iff (x : Fields) :
    x.running = true ↔ x.mdis = 0#1 ∧ x.frzack = 0#1 ∧ x.notrdy = 0#1 ∧ x.synch = 1#1 := by
  simp [Fields.running, and_assoc]

/-- A disabled controller takes no hardware step (43_mb_hardware.md R220). -/
theorem hardware_mdis {order : RxMatchOrder} {e : Event} {f : Instance → Option Instance} {x y : Instance}
    (hf : hardware order e = some f) (hy : f x = some y) : x.fields.mdis = 0#1 := by
  have running (h : x.fields.running = true) : x.fields.mdis = 0#1 := (x.fields.running_iff.1 h).1
  cases e <;> simp only [hardware, Option.some.injEq, reduceCtorEq] at hf <;> subst hf
  case freezeAck => exact (freezeAck_some.1 hy).1.1
  case freezeExit => exact (freezeExit_some.1 hy).1.1
  case sync => exact (syncStep_some.1 hy).1.1
  case txComplete => exact running (txComplete_some.1 hy).1.1
  case abortResolve => exact (abortResolve_some.1 hy).1.1
  case rxBegin => exact running (rxBegin_some.1 hy).1
  case rxCommit => exact (rxCommit_some.1 hy).1.1

/-! ### Transmission and abort (43_mb_hardware.md R228, R231, R234) -/

/-- The end of a transmission or of an abort writes one word. -/
theorem Instance.finishTx_wordStored (x : Instance) {i : Nat} (c : BitVec 4) (t : BitVec 16) (hi : i < x.hwSlots)
    (h : Memory.wf x.mem) :
    x.WordStored (x.finishTx i c t) (wordAddr x.ws i 0) (withCodeStamp (x.word (wordAddr x.ws i 0)) c t) := by
  have h4 := (x.hwSlots_pos i hi).1
  exact fun u => x.word_setWord _ u _ (x.wordAddr_lt i 0 hi (by omega)) h

/-- With SRXDIS = 1 a transmitted frame is offered to no slot. -/
theorem Instance.selfReceive_disabled {x : Instance} (order : RxMatchOrder) (i : Nat) (f : Frame) (pick : Nat)
    (h : x.fields.srxdis = 1#1) : x.selfReceive order i f pick = x :=
  if_neg (by simp [h])

/-- With SRXDIS = 0 it is offered to the other slots. -/
theorem Instance.selfReceive_offered {x : Instance} (order : RxMatchOrder) (i : Nat) (f : Frame) (pick : Nat)
    (h : x.fields.srxdis = 0#1) : x.Offered (x.selfReceive order i f pick) order f (some i) := by
  rw [Instance.selfReceive, if_pos h]
  exact x.accept_offered order f _ pick

/-- What the end of an abort leaves, transmitted or not: the code `c` with a time stamp, the flag, and no abort pending. -/
structure Instance.AbortEnded (x z : Instance) (i : Nat) (c : BitVec 4) (t : BitVec 16) : Prop where
  word : x.WordStored z (wordAddr x.ws i 0) (withCodeStamp (x.word (wordAddr x.ws i 0)) c t)
  fields : z.fields = { x.fields with iflag := x.fields.iflag ||| (1#32 <<< i) }
  pending : z.abortPending i = false
  others : ∀ k, k ≠ i → z.hidden.slot k = x.hidden.slot k
  lock : z.hidden.locked = x.hidden.locked
  held : z.hidden.pendingRx = x.hidden.pendingRx
  driver : z.driver = x.driver
  bus : z.busOut = x.busOut
  line : z.lineEnabled = x.lineEnabled
  params : z.params = x.params

theorem Instance.abortEnded (x : Instance) {i : Nat} (c : BitVec 4) (t : BitVec 16) (hi : i < x.hwSlots)
    (h : Memory.wf x.mem) : x.AbortEnded ((x.setAbortPending i false).finishTx i c t) i c t where
  word := (x.setAbortPending i false).finishTx_wordStored c t hi h
  fields := rfl
  pending := x.setAbortPending_same false hi
  others k hk := by
    show (x.setAbortPending i false).hidden.slot k = _
    rw [setAbortPending_hidden, Hidden.slot_setSlot_iff, if_neg fun e => hk e.1]
  lock := rfl
  held := rfl
  driver := rfl
  bus := rfl
  line := rfl
  params := rfl

/-- The final code of an abort that did not transmit (43_mb_hardware.md R234). -/
theorem AbortFinal.code_setWidth (a : AbortFinal) (keep9 : Bool) :
    (a.code keep9).setWidth 32 = if a = .only9 ∨ a = .either ∧ keep9 = true then 0x9#32 else 0x8#32 := by
  cases a <;> cases keep9 <;> rfl

/-! ### Reception (43_mb_hardware.md R232, R233) -/

theorem Instance.eligibleSlots_ne_nil (x : Instance) (f : Frame) (e : Option Nat) :
    x.eligibleSlots f e ≠ [] ↔ ∃ i, x.CouldTake f e i ∧ x.hidden.locked ≠ some i := by
  simp only [ne_eq, List.eq_nil_iff_forall_not_mem, x.mem_eligibleSlots, not_forall, not_not]

/-- Where a slot is eligible, one takes the frame, under LowestIndex none above it. -/
theorem Instance.accept_eligible (x : Instance) (order : RxMatchOrder) {f : Frame} {e : Option Nat} (pick : Nat) {i : Nat}
    (hi : x.CouldTake f e i) (hl : x.hidden.locked ≠ some i) :
    ∃ k, x.CouldTake f e k ∧ x.hidden.locked ≠ some k ∧ (order = .lowestIndex → k ≤ i) ∧
      x.accept order f e pick = x.beginRx k f := by
  obtain ⟨k, hk, hlk, lowest, hy⟩ | ⟨hall, -⟩ := x.accept_offered order f e pick
  · exact ⟨k, hk, hlk, fun ho => lowest ho i hi hl, hy⟩
  · exact absurd (hall i hi) hl

/-- Lane `j` of a packed word: the payload's byte, or that lane of `fill` past it (41_frame_mapper.md R183). -/
theorem wordByte_packWord_fill (data : Vector Byte 64) (nb : Nat) (fill : Word) (p : Nat) {j : Nat} (hj : j < 4) :
    wordByte (packWord data nb fill p) j = laneByte data nb (wordByte fill j) (4 * p + j) := by
  unfold packWord
  rw [wordByte_append _ _ _ _ j hj]
  interval_cases j <;> rfl

/-- The receive image of a frame that fits lies inside its slot. -/
theorem Instance.rxImage_fits {x : Instance} {i : Nat} {f : Frame} (hi : i < x.hwSlots) (hf : x.bytes f ≤ capacity x.ws) :
    2 + payloadWords (x.bytes f) ≤ x.ws ∧ wordAddr x.ws i 2 + payloadWords (x.bytes f) ≤ Config.mbWords := by
  have h4 := (x.hwSlots_pos i hi).1
  have hl := x.wordAddr_lt i (x.ws - 1) hi (by omega)
  simp only [wordAddr, payloadWords, capacity] at *
  omega

/-- The words after the receive image of a frame that fits was written (41_frame_mapper.md R183). -/
theorem Instance.word_writeRxImage (x : Instance) {i : Nat} {f : Frame} (t : BitVec 16) (fill : Word) (u : Nat)
    (h : Memory.wf x.mem) (hi : i < x.hwSlots) (hf : x.bytes f ≤ capacity x.ws) :
    (x.writeRxImage i f t fill).word u =
      if u = wordAddr x.ws i 0 then (encodeControl 0x4 f &&& ~~~0x0000FFFF#32) ||| t.setWidth 32
      else if wordAddr x.ws i 2 ≤ u ∧ u < wordAddr x.ws i 2 + payloadWords (x.bytes f) then
        packWord f.data (x.bytes f) fill (u - wordAddr x.ws i 2)
      else if u = wordAddr x.ws i 1 then x.idWord f else x.word u := by
  have h4 := (x.hwSlots_pos i hi).1
  obtain ⟨-, hend⟩ := x.rxImage_fits hi hf
  have hid := x.setWord_wf (wordAddr x.ws i 1) (x.idWord f) h
  unfold Instance.writeRxImage
  rw [word_setWord _ _ _ _ (x.wordAddr_lt i 0 hi (by omega)) (setWords_wf _ _ _ _ hid), word_setWords _ _ _ _ _ hend hid,
    word_setWord _ _ _ _ (x.wordAddr_lt i 1 hi (by omega)) h]

section
variable {x : Instance} {i : Nat} {f : Frame} (t : BitVec 16) (fill : Word) (h : Memory.wf x.mem) (hi : i < x.hwSlots)
  (hf : x.bytes f ≤ capacity x.ws)
include h hi hf

theorem Instance.writeRxImage_control : (x.writeRxImage i f t fill).word (wordAddr x.ws i 0) =
    (encodeControl 0x4 f &&& ~~~0x0000FFFF#32) ||| t.setWidth 32 := by
  rw [x.word_writeRxImage t fill _ h hi hf, if_pos rfl]

theorem Instance.writeRxImage_id : (x.writeRxImage i f t fill).word (wordAddr x.ws i 1) = x.idWord f := by
  rw [x.word_writeRxImage t fill _ h hi hf, if_neg (by simp [wordAddr]), if_neg (by simp [wordAddr]), if_pos rfl]

/-- Byte `k` of the image is the payload's, or the draw's in its lane past it. -/
theorem Instance.writeRxImage_byte {k : Nat} (hk : k < 4 * payloadWords (x.bytes f)) :
    wordByte ((x.writeRxImage i f t fill).word (wordAddr x.ws i (2 + k / 4))) (k % 4) =
      laneByte f.data (x.bytes f) (wordByte fill (k % 4)) k := by
  have hplace : wordAddr x.ws i (2 + k / 4) = wordAddr x.ws i 2 + k / 4 := by simp only [wordAddr, Nat.add_assoc]
  have hne : wordAddr x.ws i 2 + k / 4 ≠ wordAddr x.ws i 0 := by simp only [wordAddr]; omega
  rw [hplace, x.word_writeRxImage t fill _ h hi hf, if_neg hne, if_pos (by omega), Nat.add_sub_cancel_left,
    wordByte_packWord_fill _ _ _ _ (Nat.mod_lt k (by decide)), Nat.div_add_mod]

/-- The image is all that is written. -/
theorem Instance.writeRxImage_other {u : Nat} (hu : ∀ j, j < 2 + payloadWords (x.bytes f) → u ≠ wordAddr x.ws i j) :
    (x.writeRxImage i f t fill).word u = x.word u := by
  have hpay : ¬(wordAddr x.ws i 2 ≤ u ∧ u < wordAddr x.ws i 2 + payloadWords (x.bytes f)) := by
    rintro ⟨h1, h2⟩
    simp only [wordAddr] at h1 h2
    exact hu (u - i * x.ws) (by omega) (by simp only [wordAddr]; omega)
  rw [x.word_writeRxImage t fill _ h hi hf, if_neg (hu 0 (by omega)), if_neg hpay, if_neg (hu 1 (by omega))]

end

/-- The hidden state of a slot after its reception ended (43_mb_hardware.md R233). -/
theorem Instance.endRx_slot (x : Instance) {i : Nat} (hi : i < x.hwSlots) :
    (x.endRx i).hidden.slot i = { x.hidden.slot i with busy := false, rxInflight := none } := by
  rw [endRx_hidden, Hidden.slot_setSlot_iff, if_pos ⟨rfl, Nat.lt_of_lt_of_le hi x.hwSlots_le⟩]

theorem Instance.endRx_slot_ne (x : Instance) {i k : Nat} (hk : k ≠ i) :
    (x.endRx i).hidden.slot k = x.hidden.slot k := by
  rw [endRx_hidden, Hidden.slot_setSlot_iff, if_neg fun e => hk e.1]

/-- The receive image is memory only. -/
theorem Instance.writeRxImage_eq (x : Instance) (i : Nat) (f : Frame) (t : BitVec 16) (fill : Word) :
    x.writeRxImage i f t fill = { x with mem := (x.writeRxImage i f t fill).mem } := by
  unfold Instance.writeRxImage
  rw [setWords_eq]
  rfl

end Sys2Proof.Machine

open Sys2Proof Sys2Proof.Machine

/-- Settles O33: each of the three steps is its guard and one write of fields. -/
theorem handshake : Obligations.Handshake := by
  intro s es n x hfault hx u ack exit sync
  obtain ⟨ackOn, ackTaken⟩ := hardware_guarded (e := .freezeAck n) rfl rfl hx hfault fun _ => freezeAck_some
  obtain ⟨exitOn, exitTaken⟩ := hardware_guarded (e := .freezeExit n) rfl rfl hx hfault fun _ => freezeExit_some
  obtain ⟨syncOn, syncTaken⟩ := hardware_guarded (e := .sync n) rfl rfl hx hfault fun _ => syncStep_some
  exact ⟨ackOn, exitOn, syncOn, ackTaken es, exitTaken es, syncTaken es⟩

/-- Settles O34: `z` is the controller before the frame is offered. -/
theorem txComplete : Obligations.TxComplete := by
  intro s es n i d pick x hfault hx hmem guard
  obtain ⟨enabled, taken⟩ := hardware_guarded (e := .txComplete n i d pick) rfl rfl hx hfault fun _ => txComplete_some
  refine ⟨enabled, fun hs hg => ?_⟩
  have answer := taken es hs hg
  obtain ⟨-, hi, -⟩ := hg
  exact ⟨(x.pushBus (x.busImage i)).finishTx i 0x8 d, _, answer,
    (x.pushBus (x.busImage i)).finishTx_wordStored 0x8 d hi hmem, rfl, rfl, rfl, rfl, rfl, rfl,
    fun h => Instance.selfReceive_disabled _ _ _ _ h, fun h => Instance.selfReceive_offered _ _ _ _ h⟩

/-- Settles O35: with or without a transmission before it, the abort ends with its final code. -/
theorem abortResolve : Obligations.AbortResolve := by
  intro s es n i sent keep9 d pick x hfault hx hmem guard
  obtain ⟨enabled, taken⟩ := hardware_guarded (e := .abortResolve n i sent keep9 d pick) rfl rfl hx hfault
    fun _ => abortResolve_some
  refine ⟨enabled, fun hs hg => ?_⟩
  have answer := taken es hs hg
  obtain ⟨-, hi, -⟩ := hg
  cases sent with
  | true =>
    rw [if_pos rfl] at answer
    obtain ⟨word, fields, pending, others, lock, held, driver, bus, line, params⟩ :=
      (x.pushBus (x.busImage i)).abortEnded 0x8 d hi hmem
    have word : x.WordStored _ _ _ := word
    exact ⟨((x.pushBus (x.busImage i)).setAbortPending i false).finishTx i 0x8 d, _, answer,
      by simpa [withCodeStamp] using word, fields, bus, pending, others, lock, held, driver, line, params,
      fun h => Instance.selfReceive_disabled _ _ _ _ (h.resolve_left (by simp)),
      fun _ h => Instance.selfReceive_offered _ _ _ _ h⟩
  | false =>
    rw [if_neg Bool.false_ne_true] at answer
    obtain ⟨word, fields, pending, others, lock, held, driver, bus, line, params⟩ :=
      x.abortEnded (x.params.abortFinal.code keep9) d hi hmem
    refine ⟨_, _, answer, ?_, fields, bus, pending, others, lock, held, driver, line, params, fun _ => rfl,
      fun h => absurd h (by simp)⟩
    simpa only [withCodeStamp, AbortFinal.code_setWidth, true_and] using word

/-- Settles O36: a frame of the bus has the outcomes of an offer; the held frame, with a slot eligible, has one of them. -/
theorem rxBegin : Obligations.RxBegin := by
  intro s es n pick x hfault hx u
  refine ⟨fun f hf => ?_, ?_, fun hs f i hrun hp hi hl => ?_⟩
  · obtain ⟨enabled, taken⟩ := hardware_guarded (e := .rxBegin n (.bus f) pick) (G := x.fields.running = true)
      (z := x.accept s.params.rxMatchOrder f none pick) rfl rfl hx hfault fun _ => rxBegin_some.trans (by simp [hf])
    exact ⟨enabled, fun hs hrun => ⟨_, taken es hs hrun, x.accept_offered ..⟩⟩
  · rw [State.enabled_hardware (e := .rxBegin n .held pick) rfl rfl hx]
    simp [rxBegin_some, ← Instance.eligibleSlots_ne_nil]
  · obtain ⟨k, hk, hlk, lowest, hy⟩ := x.accept_eligible s.params.rxMatchOrder pick hi hl
    refine ⟨k, hk, hlk, lowest, step_hardware (e := .rxBegin n .held pick) rfl rfl hx hfault hs ?_⟩
    exact rxBegin_some.2 ⟨hrun, .inr ⟨f, rfl, hp, (x.eligibleSlots_ne_nil f none).2 ⟨i, hi, hl⟩, by rw [hy]⟩⟩

/-- Settles O37: the words of the receive image, and one slot's hidden state and flag. -/
theorem rxCommit : Obligations.RxCommit := by
  intro s es n i d fill x hfault hx h
  refine ⟨?_, fun hs f hm hb hf => ?_⟩
  · rw [State.enabled_hardware (e := .rxCommit n i d fill) rfl rfl hx]
    simp only [rxCommit_some]
    constructor
    · rintro ⟨_, ⟨hm, -, hb⟩, -⟩
      exact ⟨hm, hb⟩
    · rintro ⟨hm, hb⟩
      obtain ⟨hi, -, f, hf, -⟩ := h.busySlot i hb
      exact ⟨_, ⟨hm, hi, hb⟩, f, hf, rfl⟩
  · obtain ⟨hi, -, g, hg, -, hfit⟩ := h.busySlot i hb
    obtain rfl : g = f := Option.some.inj (hg.symm.trans hf)
    have answer := step_hardware (e := .rxCommit n i d fill) rfl rfl hx hfault hs
      (rxCommit_some.2 ⟨⟨hm, hi, hb⟩, g, hf, rfl⟩)
    have image := x.writeRxImage_eq i g d fill
    have hslots : i < (x.writeRxImage i g d fill).hwSlots := by rw [image]; exact hi
    have slot := (x.writeRxImage i g d fill).endRx_slot hslots
    refine ⟨_, answer, Instance.writeRxImage_control d fill h.memory hi hfit,
      Instance.writeRxImage_id d fill h.memory hi hfit,
      fun _ => Instance.writeRxImage_byte d fill h.memory hi hfit,
      fun _ => Instance.writeRxImage_other d fill h.memory hi hfit, ?_, congrArg SlotHidden.busy slot,
      congrArg SlotHidden.rxInflight slot, fun k hk => ?_, ?_, ?_, ?_, ?_, ?_, ?_⟩
    · rw [image]; rfl
    · rw [Instance.setFlag_hidden, Instance.endRx_slot_ne _ hk, image]
    all_goals rw [image]; rfl

/-- Settles O38: every hardware step asks for MDIS = 0, and those that transmit or begin a reception for `running`. -/
theorem moduleActivity : Obligations.ModuleActivity := by
  intro s e n x hc hirq hx
  obtain ⟨f, hf, -⟩ := runEvent_hardware e s n hc hirq
  have enabled := State.enabled_hardware hc hf hx
  refine ⟨x.fields.running_iff, fun hm => Bool.eq_false_iff.2 fun he => ?_, fun hr he => Bool.eq_false_iff.2 fun hen => ?_⟩
  · obtain ⟨y, hy⟩ := enabled.1 he
    exact absurd (hm.symm.trans (hardware_mdis hf hy)) (by decide)
  · obtain ⟨y, hy⟩ := enabled.1 hen
    have running : x.fields.running = true := by
      rcases he with ⟨i, d, p, rfl⟩ | ⟨r, p, rfl⟩ | ⟨i, k, d, p, rfl⟩ <;> cases hf
      · exact (txComplete_some.1 hy).1.1
      · exact (rxBegin_some.1 hy).1
      · obtain ⟨⟨-, -, -, hsent⟩, -⟩ := abortResolve_some.1 hy
        exact hsent rfl
    exact absurd (running.symm.trans hr) (by decide)

end

section
/-! Proofs about the controller hardware (43_mb_hardware.md R237): no hardware step acts on a slot that is not armed. A step
names another slot, or offers a frame, which only an armed slot takes. -/

namespace Sys2Proof.Machine

/-- From `x` to `y` slot `i` keeps its words, its hidden state and its flag. -/
structure Instance.SlotStays (x y : Instance) (i : Nat) : Prop where
  mbws : y.fields.mbws = x.fields.mbws
  words : ∀ j, j < x.ws → y.word (wordAddr x.ws i j) = x.word (wordAddr x.ws i j)
  hidden : y.hidden.slot i = x.hidden.slot i
  flag : y.fields.iflag.getLsbD i = x.fields.iflag.getLsbD i

theorem Instance.SlotStays.refl (x : Instance) (i : Nat) : x.SlotStays x i := ⟨rfl, fun _ _ => rfl, rfl, rfl⟩

theorem Instance.SlotStays.trans {x y z : Instance} {i : Nat} (h : x.SlotStays y i) (g : y.SlotStays z i) :
    x.SlotStays z i where
  mbws := g.mbws.trans h.mbws
  words j hj := by
    have hw := ws_eq_of_mbws h.mbws
    have later := g.words j (hw ▸ hj)
    rw [hw] at later
    exact later.trans (h.words j hj)
  hidden := g.hidden.trans h.hidden
  flag := g.flag.trans h.flag

/-- A slot that stays keeps its state (10_state.md R61). -/
theorem Instance.SlotStays.slotState {x y : Instance} {i : Nat} (h : x.SlotStays y i) (hi : i < x.hwSlots) :
    y.slotState i = x.slotState i := by
  have h4 := (x.hwSlots_pos i hi).1
  have hctrl : y.ctrl i = x.ctrl i := by
    unfold Instance.ctrl
    rw [ws_eq_of_mbws h.mbws]
    exact h.words 0 (by omega)
  exact x.slotState_congr y i (congrArg codeOf hctrl) (congrArg SlotHidden.busy h.hidden)
    (congrArg SlotHidden.abortPending h.hidden)

/-! ### Updates of another slot -/

section
variable (x : Instance) {i k : Nat} (hk : k ≠ i)
include hk

theorem Instance.slotStays_setFlag : x.SlotStays (x.setFlag k) i := by
  refine ⟨rfl, fun _ _ => rfl, rfl, ?_⟩
  have hbit : (slotBit k).getLsbD i = false := Bool.eq_false_iff.2 fun h => hk (slotBit_getLsbD h).symm
  simp [hbit]

theorem Instance.slotStays_setSlot (v : SlotHidden) : x.SlotStays (x.setSlot k v) i := by
  refine ⟨rfl, fun _ _ => rfl, ?_, rfl⟩
  rw [setSlot_hidden, Hidden.slot_setSlot_iff, if_neg fun e => hk e.1.symm]

theorem Instance.slotStays_setWord {l : Nat} (v : Word) (h : Memory.wf x.mem) (hi : i < x.hwSlots) (hks : k < x.hwSlots)
    (hl : l < x.ws) : x.SlotStays (x.setWord (wordAddr x.ws k l) v) i := by
  refine ⟨rfl, fun j hj => ?_, rfl, rfl⟩
  rw [x.word_setWord _ _ v (x.wordAddr_lt k l hks hl) h, if_neg fun e => hk (x.wordAddr_inj i j k l hi hj hks hl e).1.symm]

/-- A transmission of slot `k` ends. -/
theorem Instance.slotStays_finishTx (c : BitVec 4) (t : BitVec 16) (h : Memory.wf x.mem) (hi : i < x.hwSlots)
    (hks : k < x.hwSlots) : x.SlotStays (x.finishTx k c t) i :=
  have h4 := (x.hwSlots_pos i hi).1
  (x.slotStays_setWord hk _ h hi hks (by omega)).trans (slotStays_setFlag _ hk)

/-- An abort of slot `k` ends (43_mb_hardware.md R234). -/
theorem Instance.slotStays_finishAbort (c : BitVec 4) (t : BitVec 16) (h : Memory.wf x.mem) (hi : i < x.hwSlots)
    (hks : k < x.hwSlots) : x.SlotStays ((x.setAbortPending k false).finishTx k c t) i :=
  have cleared : x.SlotStays (x.setAbortPending k false) i := x.slotStays_setSlot hk _
  cleared.trans (slotStays_finishTx _ hk c t h hi hks)

/-- The receive image of slot `k`. -/
theorem Instance.slotStays_writeRxImage {f : Frame} (t : BitVec 16) (fill : Word) (h : Memory.wf x.mem) (hi : i < x.hwSlots)
    (hks : k < x.hwSlots) (hf : x.bytes f ≤ capacity x.ws) : x.SlotStays (x.writeRxImage k f t fill) i := by
  have image := x.writeRxImage_eq k f t fill
  obtain ⟨hin, -⟩ := x.rxImage_fits hks hf
  refine ⟨by rw [image], fun j hj => writeRxImage_other t fill h hks hf fun l hl e => ?_, by rw [image], by rw [image]⟩
  exact hk (x.wordAddr_inj i j k l hi hj hks (by omega) e).1.symm

end

/-! ### Frames that are offered -/

/-- Only an armed slot takes a frame (43_mb_hardware.md R230). -/
theorem Instance.Offered.slotStays {x y : Instance} {order : RxMatchOrder} {f : Frame} {e : Option Nat} {i : Nat}
    (h : x.Offered y order f e) (hs : x.slotState i ≠ .receiveEmpty) : x.SlotStays y i := by
  obtain ⟨k, hk, -, -, rfl⟩ | ⟨-, ⟨k, -, -, rfl⟩ | ⟨-, rfl⟩⟩ := h
  · have hne : k ≠ i := by
      rintro rfl
      exact hs hk.armed
    exact x.slotStays_setSlot hne _
  · exact ⟨rfl, fun _ _ => rfl, rfl, rfl⟩
  · exact .refl _ i

theorem Instance.slotStays_selfReceive {x : Instance} {i : Nat} (order : RxMatchOrder) (k : Nat) (f : Frame) (pick : Nat)
    (hs : x.slotState i ≠ .receiveEmpty) : x.SlotStays (x.selfReceive order k f pick) i := by
  unfold Instance.selfReceive
  split
  · exact (x.accept_offered order f _ pick).slotStays hs
  · exact .refl _ i

/-! ### The hardware steps -/

/-- A hardware step leaves every slot that is not armed. -/
theorem hardware_slotStays {order : RxMatchOrder} {e : Event} {f : Instance → Option Instance} {x y : Instance} {i : Nat}
    (h : x.Inv) (hi : i < x.hwSlots) (hq : (x.slotState i).armed = false) (hf : hardware order e = some f)
    (hy : f x = some y) : x.SlotStays y i := by
  have state {s : SlotState} (hs : s.armed = true) : x.slotState i ≠ s := by
    rintro rfl
    exact absurd (hq.symm.trans hs) (by decide)
  have other {k : Nat} {s : SlotState} (hk : x.slotState k = s) (hs : s.armed = true) : k ≠ i := by
    rintro rfl
    exact state hs hk
  have sent {b : BusFrame} : x.SlotStays (x.pushBus b) i := ⟨rfl, fun _ _ => rfl, rfl, rfl⟩
  have received {z : Instance} (hz : x.SlotStays z i) (o : RxMatchOrder) (k : Nat) (g : Frame) (p : Nat) :
      x.SlotStays (z.selfReceive o k g p) i :=
    hz.trans (Instance.slotStays_selfReceive o k g p (by rw [hz.slotState hi]; exact state rfl))
  cases e <;> simp only [hardware, Option.some.injEq, reduceCtorEq] at hf <;> subst hf
  case freezeAck => exact (freezeAck_some.1 hy).2 ▸ ⟨rfl, fun _ _ => rfl, rfl, rfl⟩
  case freezeExit => exact (freezeExit_some.1 hy).2 ▸ ⟨rfl, fun _ _ => rfl, rfl, rfl⟩
  case sync => exact (syncStep_some.1 hy).2 ▸ ⟨rfl, fun _ _ => rfl, rfl, rfl⟩
  case txComplete m k t pick =>
    obtain ⟨⟨-, hk, hs⟩, rfl⟩ := txComplete_some.1 hy
    exact received (sent.trans ((x.pushBus _).slotStays_finishTx (other hs rfl) 0x8 t h.memory hi hk)) ..
  case abortResolve m k isSent keep9 t pick =>
    obtain ⟨⟨-, hk, hs, -⟩, rfl⟩ := abortResolve_some.1 hy
    have hne := other hs rfl
    split
    · exact received (sent.trans ((x.pushBus _).slotStays_finishAbort hne 0x8 t h.memory hi hk)) ..
    · exact x.slotStays_finishAbort hne _ t h.memory hi hk
  case rxBegin =>
    have offered (g : Frame) (p : Nat) : x.SlotStays (x.accept order g none p) i :=
      (x.accept_offered order g none p).slotStays (state rfl)
    obtain ⟨-, ⟨g, -, -, rfl⟩ | ⟨g, -, -, -, rfl⟩⟩ := rxBegin_some.1 hy
    · exact offered g _
    · exact (offered g _).trans ⟨rfl, fun _ _ => rfl, rfl, rfl⟩
  case rxCommit m k t fill =>
    obtain ⟨⟨-, hk, hb⟩, g, hg, rfl⟩ := rxCommit_some.1 hy
    obtain ⟨-, hcode, g', hg', -, hfit⟩ := h.busySlot k hb
    obtain rfl : g' = g := Option.some.inj (hg'.symm.trans hg)
    have hne := other (Instance.slotState_busy.2 ⟨hcode, hb⟩) rfl
    exact ((x.slotStays_writeRxImage hne t fill h.memory hi hk hfit).trans (Instance.slotStays_setSlot _ hne _)).trans
      (Instance.slotStays_setFlag _ hne)

end Sys2Proof.Machine

open Sys2Proof.Machine

/-- Settles O39: an interrupt entry leaves the controllers, and a hardware step a slot that is not armed. -/
theorem quietSlots : Obligations.QuietSlots := by
  intro s t e n x y i j hc hrun hx hy h hi hj hq
  have stays : x.SlotStays y i := by
    by_cases hirq : e = .irqEntry n
    · subst hirq
      obtain rfl := Host.Outcome.next.inj hrun
      rw [State.irqStep_insts, hx] at hy
      exact Option.some.inj hy ▸ .refl x i
    · obtain ⟨f, hf, hstep⟩ := runEvent_hardware e s n hc hirq
      obtain rfl := Host.Outcome.next.inj (hstep.symm.trans hrun)
      rcases s.hwStep_cases n f with ⟨same, -⟩ | ⟨a, b, ha, hb, replaced⟩
      · rw [same, hx] at hy
        exact Option.some.inj hy ▸ .refl x i
      · rw [replaced, State.setInst_insts, getElem?_set_cases _ _ _ b a ha, if_pos rfl] at hy
        obtain rfl := Option.some.inj (ha.symm.trans hx)
        obtain rfl := Option.some.inj hy
        exact hardware_slotStays h hi (SlotState.mem_notArmed.1 hq) hf hb
  exact ⟨stays.words j hj, stays.slotState hi, stays.flag⟩

end

section
/-! Proofs about the driver operations (44_driver_ops.md R270): the kinds of step their lines are made of, the preamble, and
the result a called operation passes on. -/

namespace Sys2Proof.Machine

/-! ### Returning to the calling operation (44_driver_ops.md R270) -/

@[simp] theorem State.setActs_setActs (s : State) (a b : List Activation) : (s.setActs a).setActs b = s.setActs b := by
  cases h : s.handlers <;> simp [State.setActs, h]

/-- A result that is not Success goes to the outermost operation that takes it over. -/
theorem State.ret_other {s : State} {i : Instr} {r : Result} {v : RetVal} (hr : r ≠ .success) :
    s.ret i r v =
      { s.setActs (unwind i s.acts.tail).2 with lastReturn := some ⟨(unwind i s.acts.tail).1, r, v⟩ } := by
  cases r with
  | success => exact absurd rfl hr
  | fail | invalidInstance | timeout => rfl

theorem unwind_calling {op : Instr} {b : Activation} {rest : List Activation} (hb : ∀ n, b.op ≠ .dispatch n) :
    unwind op (b :: rest) = unwind b.op rest := by
  rw [unwind]
  split
  · rename_i n hop
    exact absurd hop (hb n)
  · rfl

/-- A result that is not Success is at once the result of the operation that called. -/
theorem State.ret_passes {s : State} {a b : Activation} {rest : List Activation} {r : Result} (v : RetVal)
    (ha : s.acts = a :: b :: rest) (hb : ∀ n, b.op ≠ .dispatch n) (hr : r ≠ .success) :
    s.ret a.op r v = (s.setActs (b :: rest)).ret b.op r v := by
  rw [State.ret_other hr, State.ret_other hr, State.setActs_acts, ha]
  simp only [List.tail_cons, unwind_calling hb, State.setActs_setActs]

theorem callReturns {i : Instr} (sub : Instr) (hi : ∀ n, i ≠ .dispatch n) : CallReturns i sub := by
  intro s p q rest r v ha
  refine ⟨fun hr => ?_, State.ret_passes v ha hi⟩
  subst hr
  rw [State.ret_success_acts, ha, List.tail_cons]

/-! ### Steps on a controller that is there -/

/-- The conditions that 40_register_interface.md R143 sets on a write of any field but MBWS, and its effect. -/
theorem fieldWrite_stores {f : Field} {v : Word} {x : Instance} (d : Nat)
    (hf : f.readOnly = false ∧ f ≠ .iflag ∧ f ≠ .mbws) (hv : v.toNat < 2 ^ f.width)
    (hfrz : f.freezeProtected = true → x.fields.frzack = 1#1) (hclk : f = .clksrc → x.fields.mdis = 1#1) :
    fieldWrite (.named f) v d x = .ok () (x.setFields (x.fields.set f v)) 0 := by
  obtain ⟨hro, hfl, hm⟩ := hf
  have stores : x.setFields (x.fields.set f v) = x.storeField f v := by
    rw [x.storeField_eq, if_neg hm]
    rfl
  exact (fieldWrite_ok ..).2 ⟨f, rfl, hro, hfl, hv, fun e => absurd e hm, fun e => by simp [hfrz e],
    fun e => by simp [hclk e], stores, rfl⟩

section
variable {i : Instr} {inst : BitVec 8} {s : State} {x : Instance} (hx : s.insts[inst.toNat]? = some x)
include hx

theorem onInst_look {α : Type} (f : Instance → α) (k : α → State → State) :
    onInst i inst s (look f) k = .next (k (f x) s) :=
  onInst_unchanged hx rfl

theorem onInst_fieldRead {f : Field} (hf : f ≠ .timer) (k : Word → State → State) :
    onInst i inst s (fieldRead (.named f)) k = .next (k (x.fields.get f) s) :=
  onInst_unchanged hx (fieldRead_named f s.draws x hf)

theorem onInst_flagClear (v : Word) (k : Unit → State → State) :
    onInst i inst s (flagClear v) k = .next (k () (s.setInst inst.toNat (x.clearFlags v))) :=
  onInst_ok (f := flagClear v) hx rfl

theorem startStep_next (p : Pos) : startStep i inst p s = .next (s.goto i p) := onInst_look hx _ _

theorem callStep_next (sub : Instr) (p : Pos) : callStep i inst sub p s = .next (s.call i p sub) := onInst_look hx _ _

/-- A line that writes a field which holds the value, under the conditions of `fieldWrite_stores`. -/
theorem fieldStep_next {f : Field} {v : Word} (p : Pos) (hf : f.readOnly = false ∧ f ≠ .iflag ∧ f ≠ .mbws)
    (hv : v.toNat < 2 ^ f.width) (hfrz : f.freezeProtected = true → x.fields.frzack = 1#1)
    (hclk : f = .clksrc → x.fields.mdis = 1#1) :
    fieldStep i inst f v p s = .next ((s.setInst inst.toNat (x.setFields (x.fields.set f v))).goto i p) :=
  onInst_ok hx (fieldWrite_stores s.draws hf hv hfrz hclk)

/-- Line 0 of an index-bearing operation. -/
theorem indexStep_next (slot : BitVec 8) (args : Instance → Bool) :
    indexStep i inst slot args s =
      .next (if x.indexOk slot && args x then s.goto i { s.pos with pc := 1 } else s.ret i .fail .none) :=
  onInst_look hx _ _

end

/-! ### The preamble (44_driver_ops.md R270) -/

theorem Instance.indexOk_iff {x : Instance} {slot : BitVec 8} :
    x.indexOk slot = true ↔ x.driver.wordSize ≠ none ∧ slot.toNat < x.driver.slotRange.getD 0 := by
  simp [Instance.indexOk, Option.isSome_iff_ne_none]

/-- An index-bearing operation refuses a driver that is not set up and a slot not below its range. -/
theorem exec_index_refused {i : Instr} {slot : BitVec 8} {s : State} {x : Instance} (hpc : s.pos.pc = 0)
    (hx : s.insts[i.inst.toNat]? = some x) (hi : i.indexed = some slot)
    (h : x.driver.wordSize = none ∨ x.driver.slotRange.getD 0 ≤ slot.toNat) :
    exec i s = .next (s.ret i .fail .none) := by
  have hbad : x.indexOk slot = false := by
    refine Bool.eq_false_iff.2 fun hok => ?_
    obtain ⟨hws, hlt⟩ := Instance.indexOk_iff.1 hok
    exact h.elim hws (Nat.not_le.2 hlt)
  have refused {args : Instance → Bool} : indexStep i i.inst slot args s = .next (s.ret i .fail .none) := by
    rw [indexStep_next hx, hbad]
    rfl
  cases i <;> simp only [Instr.indexed, Option.some.injEq, reduceCtorEq] at hi <;> subst hi <;>
    simp only [exec, execCfgTx, execCfgRx, execSend, execRecv, execClrFlag, execEnIrq, hpc] <;> exact refused

theorem checksPreamble {i : Instr} {slot : BitVec 8} (hi : i.indexed = some slot) (s : State) : ChecksPreamble i slot s :=
  fun hpc => ⟨checksSelector_of_start i hpc, fun _ hx => exec_index_refused hpc hx hi⟩

/-- Line 0 of an index-bearing operation whose slot is in range leaves its own argument checks. -/
theorem indexStep_inRange {i : Instr} {inst slot : BitVec 8} {s : State} {x : Instance}
    (hx : s.insts[inst.toNat]? = some x) {ws R : Nat} (hws : x.driver.wordSize = some ws)
    (hR : x.driver.slotRange = some R) (hlt : slot.toNat < R) (args : Instance → Bool) :
    indexStep i inst slot args s =
      .next (if args x = true then s.goto i { s.pos with pc := 1 } else s.ret i .fail .none) := by
  have hok : x.indexOk slot = true := Instance.indexOk_iff.2 (by simp [hws, hR, hlt])
  rw [indexStep_next hx, hok, Bool.true_and]

/-! ### Spins (00_scope.md R20) -/

section
variable {s : State} {i : Instr} {p : Pos}

/-- The budget leaves this read. -/
theorem State.spinRead_within (h : ∀ k, s.params.spinBudget = .bounded k → p.spins < k) (read : Outcome State) :
    s.spinRead i p read = read := by
  refine if_neg ?_
  unfold Params.exhausted
  split
  · simp
  · rename_i k hk
    simpa using h k hk

theorem State.spinAgain_unbounded (h : s.params.spinBudget = .unbounded) (pc : Nat) :
    s.spinAgain i p pc = s.goto i { p with pc := pc, spins := p.spins + 1 } := by
  simp [State.spinAgain, Params.exhausted, h]

theorem State.spinAgain_bounded {k : Nat} (h : s.params.spinBudget = .bounded k) (pc : Nat) :
    s.spinAgain i p pc =
      if p.spins + 1 < k then s.goto i { p with pc := pc, spins := p.spins + 1 } else s.ret i .timeout .none := by
  by_cases hk : p.spins + 1 < k
  · simp [State.spinAgain, Params.exhausted, h, hk]
  · simp [State.spinAgain, Params.exhausted, h, hk, Nat.le_of_not_lt hk]

/-- A read that does not succeed is counted; where the budget was used up before it, both end in Timeout (log 16). -/
theorem State.spinRead_again (pc : Nat) :
    s.spinRead i p (.next (s.spinAgain i p pc)) = .next (s.spinAgain i p pc) := by
  unfold State.spinRead
  split
  · rename_i hused
    have hagain : s.params.exhausted (p.spins + 1) = true := by
      unfold Params.exhausted at hused ⊢
      split at hused
      · exact absurd hused (by simp)
      · exact decide_eq_true (Nat.le_succ_of_le (of_decide_eq_true hused))
    rw [State.spinAgain, if_pos hagain]
  · rfl

end

end Sys2Proof.Machine

open Sys2Proof Sys2Proof.Machine

/-- Settles O41: the selector first, then the index; and a returning operation unwinds what called it. -/
theorem preamble : Obligations.Preamble :=
  ⟨fun _ _ _ hpc hx => exec_absent hx (.inr hpc), fun _ _ _ _ hpc hx hi => exec_index_refused hpc hx hi,
    fun _ _ _ _ _ v ha hb hr => State.ret_passes v ha hb hr⟩

end

section
/-! Proofs about the driver operations (44_driver_ops.md R271 to R277): the lines of FRZ.ENTER, FRZ.EXIT and INIT. -/

namespace Sys2Proof.Machine

/-- A one-bit field as a word. -/
theorem setWidth_bit_eq_one {b : BitVec 1} : b.setWidth 32 = 1#32 ↔ b = 1#1 := by
  revert b
  decide

theorem setWidth_bit_eq_zero {b : BitVec 1} : b.setWidth 32 = 0#32 ↔ b = 0#1 := by
  revert b
  decide

/-- An operand that fits its field is stored as it is. -/
theorem setWidth_word_toNat_lt {n : Nat} (b : BitVec n) (hn : n ≤ 32) : (b.setWidth 32).toNat < 2 ^ n := by
  rw [BitVec.toNat_setWidth_of_le hn]
  exact b.isLt

theorem legalWordSize_iff {n : Nat} : legalWordSize n = true ↔ 4 ≤ n ∧ n ≤ 18 := by
  simp [legalWordSize]

/-! ### INIT (44_driver_ops.md R273, R274) -/

/-- Every member fits its field (42_bit_timing.md R203). -/
theorem inRange_iff {t : Timing} : t.inRange = true ↔
    t.presdiv.toNat < 2 ^ 8 ∧ t.rjw.toNat < 2 ^ 2 ∧ t.pseg1.toNat < 2 ^ 3 ∧ t.pseg2.toNat < 2 ^ 3 ∧
      t.propseg.toNat < 2 ^ 3 ∧ t.smp.toNat < 2 ^ 1 := by
  simp only [Timing.inRange, Bool.and_eq_true, decide_eq_true_eq, and_assoc]

/-- Line 12 of INIT, while frozen, with a word size that passed the check of line 0 (44_driver_ops.md R276). -/
theorem initGeometry_frozen {wordSize : BitVec 8} {x : Instance} (d : Nat) (hlegal : legalWordSize wordSize.toNat = true)
    (hfrz : x.fields.frzack = 1#1) :
    initGeometry wordSize d x = .ok () { x with
      fields := { x.fields with mbws := wordSize.setWidth 5 }, hidden := .idle,
      driver := { x.driver with wordSize := some wordSize.toNat, slotRange := some (512 / (wordSize.toNat * 4)) } } 0 := by
  have hsize : (wordSize.setWidth 32).toNat = wordSize.toNat := BitVec.toNat_setWidth_of_le (by decide)
  have hfits : wordSize.toNat < 2 ^ 5 := Nat.lt_of_le_of_lt (legalWordSize_iff.1 hlegal).2 (by decide)
  have hw : fieldWrite (.named .mbws) (wordSize.setWidth 32) d x = .ok () (x.storeField .mbws (wordSize.setWidth 32)) 0 :=
    (fieldWrite_ok ..).2 ⟨.mbws, rfl, rfl, by decide, hsize ▸ hfits, fun _ => hsize ▸ hlegal, fun _ => by simp [hfrz],
      by simp, rfl, rfl⟩
  have hnarrow : (wordSize.setWidth 32).setWidth 5 = wordSize.setWidth 5 := BitVec.setWidth_setWidth_of_le _ (by decide)
  rw [initGeometry, hw]
  simp only [Instance.storeField, Instance.setFields, Instance.setHidden, Fields.set, hnarrow, slotRange]

/-- Line 3 of INIT, while disabled. -/
theorem initClock_disabled {x : Instance} (d : Nat) (hm : x.fields.mdis = 1#1) :
    initClock d x = .ok () (x.setFields { x.fields with clksrc := x.params.initClksrc }) 0 := by
  have hnarrow : (x.params.initClksrc.setWidth 32).setWidth 1 = x.params.initClksrc := by simp
  have stores := fieldWrite_stores (f := .clksrc) (x := x) d (by decide)
    (setWidth_word_toNat_lt x.params.initClksrc (by decide)) nofun fun _ => hm
  rwa [Fields.set, hnarrow] at stores

/-- Line 13 of INIT writes a word, and counts the words of the slots (log 18). -/
theorem initClear_ok {wordSize : BitVec 8} {w d u : Nat} {x y : Instance} (h : wordWrite w 0 d x = .ok () y u) :
    initClear wordSize w d x = .ok (x.driver.slotRange.getD 0 * wordSize.toNat, ()) y u :=
  (along_ok ..).2 ⟨h, rfl⟩

/-- Line 13 of INIT on a slot's control word: code 0 is admitted in every state (43_mb_hardware.md R222, R239). -/
theorem wordWrite_zero_control {x : Instance} (h : x.Inv) {w k : Nat} (d : Nat)
    (hs : x.slotOf w = some (k, 0)) :
    ∃ y u, wordWrite w 0 d x = .ok () y u ∧ y.word w = 0 ∧ y.slotState k = .inactiveRx := by
  obtain ⟨hk, -, rfl⟩ := x.slotOf_some w k 0 hs
  have hw : writableCode (codeOf 0#32) = true := by decide
  have after {y : Instance} (c : x.CodeWritten y k 0#32) : y.word (wordAddr x.ws k 0) = 0 ∧ y.slotState k = .inactiveRx :=
    ⟨c.word, (y.slotState_code k).1.2 (c.code.trans (by decide))⟩
  rw [wordWrite_control hs]
  cases hp : (x.slotState k).pending with
  | true =>
    have ha : admission x.params.abortPreempts (x.slotState k) (codeOf 0#32) = .preempt := by
      rw [show codeOf 0#32 = 0x0#4 by decide, admission_inactiveRx, if_pos hp]
    obtain ⟨hb, hpend⟩ := h.preempt_idle hk d
    have mbws : (x.preempt k (x.slotState k) d).fields.mbws = x.fields.mbws := by
      rw [x.preempt_fields]
      split <;> rfl
    exact ⟨_, _, (codeWrite_ok ..).2 ⟨hw, .inr ⟨ha, rfl, rfl⟩⟩,
      after ((h.preempt hk _ d).codeWritten _ (by simpa using hk) hb hpend mbws)⟩
  | false =>
    have ha : admission x.params.abortPreempts (x.slotState k) (codeOf 0#32) = .yes := by
      rw [show codeOf 0#32 = 0x0#4 by decide, admission_inactiveRx, hp]
      rfl
    obtain ⟨hb, hpend⟩ := admission_yes ha
    exact ⟨_, _, (codeWrite_ok ..).2 ⟨hw, .inl ⟨ha, rfl, rfl⟩⟩,
      after (h.codeWritten _ hk (h.busy_eq_false hb) (h.abortPending_eq_false hpend) rfl)⟩

/-- Line 13 of INIT elsewhere: outside the slots, or in a slot that is InactiveRx by then. -/
theorem wordWrite_unarmed {x : Instance} {w : Nat} (v : Word) (d : Nat) (hw : w < Config.mbWords)
    (hs : x.slotOf w = none ∨ ∃ k j, x.slotOf w = some (k, j) ∧ j ≠ 0 ∧ (x.slotState k).armed = false) :
    wordWrite w v d x = .ok () (x.setWord w v) 0 := by
  obtain hs | ⟨k, j, hs, hj, ha⟩ := hs
  · exact wordWrite_outside hw hs
  · simp [wordWrite_plain hs hj, ha]

end Sys2Proof.Machine

open Sys2Proof Sys2Proof.Machine

/-- Settles O42: lines 0 to 2, then the spin; a read that does not succeed goes on or ends in Timeout. -/
theorem frzEnter : Obligations.FrzEnter := by
  refine ⟨fun inst s => checksSelector_of_start _, fun inst s x hx => ?_⟩
  intro i p
  refine ⟨fun hpc => ?_, fun hpc => ?_, fun hpc => ?_, fun hpc hack hk => ?_, fun hpc hack hb => ?_,
    fun k hpc hack hb => ?_⟩ <;> simp only [exec, execFrzEnter, hpc, i, p]
  · exact startStep_next hx _
  · exact fieldStep_next hx _ (by decide) (by decide) nofun nofun
  · exact fieldStep_next hx _ (by decide) (by decide) nofun nofun
  · rw [State.spinRead_within hk, onInst_fieldRead hx (by decide), Fields.get, if_pos (setWidth_bit_eq_one.2 hack)]
  · rw [onInst_fieldRead hx (by decide), if_neg (by simp [Fields.get, hack]), State.spinRead_again,
      State.spinAgain_unbounded hb]
  · rw [onInst_fieldRead hx (by decide), if_neg (by simp [Fields.get, hack]), State.spinRead_again,
      State.spinAgain_bounded hb]

/-- Settles O43: lines 0 to 2, then the two reads of an iteration. -/
theorem frzExit : Obligations.FrzExit := by
  refine ⟨fun inst s => checksSelector_of_start _, fun inst s x hx => ?_⟩
  intro i p
  have again (h : p.val ≠ 0 ∨ x.fields.notrdy = 1) : ¬(p.val = 0#32 ∧ x.fields.get .notrdy = 0#32) := by
    rintro ⟨hval, hrdy⟩
    have hzero : x.fields.notrdy = 0#1 := setWidth_bit_eq_zero.1 hrdy
    exact h.elim (fun hv => hv hval) fun hone => by simp [hone] at hzero
  refine ⟨fun hpc => ?_, fun hpc => ?_, fun hpc => ?_, fun hpc hk => ?_, fun hpc hval hrdy => ?_, fun hpc hread hb => ?_,
    fun k hpc hread hb => ?_⟩ <;> simp only [exec, execFrzExit, hpc, i, p]
  · exact startStep_next hx _
  · exact fieldStep_next hx _ (by decide) (by decide) nofun nofun
  · exact fieldStep_next hx _ (by decide) (by decide) nofun nofun
  · rw [State.spinRead_within hk, onInst_fieldRead hx (by decide)]
    rfl
  · rw [onInst_fieldRead hx (by decide), Fields.get, if_pos ⟨hval, setWidth_bit_eq_zero.2 hrdy⟩]
  · rw [onInst_fieldRead hx (by decide), if_neg (again hread), State.spinAgain_unbounded hb]
  · rw [onInst_fieldRead hx (by decide), if_neg (again hread), State.spinAgain_bounded hb]

/-- Settles O44: the word size, the presence of the timing record, its members. -/
theorem initChecks : Obligations.InitChecks := by
  intro inst wordSize timing s x hx hpc i
  have passed {b : Bool} (h : Machine.initChecks wordSize timing s.draws x = .ok b x 0) :
      exec i s = .next (if b then s.goto i { s.pos with pc := 1 } else s.ret i .fail .none) := by
    simp only [exec, execInit, hpc, i]
    exact onInst_unchanged hx h
  simp only [← legalWordSize_eq_false, ← inRange_iff]
  split
  next hsize => exact passed (b := false) (by simp [Machine.initChecks, hsize])
  next hsize =>
    rw [Bool.not_eq_false] at hsize
    cases timing with
    | none => exact passed (b := false) (by simp [Machine.initChecks, hsize])
    | some t =>
      dsimp only
      split
      next ht => exact passed (b := true) (by simp [Machine.initChecks, hsize, ht])
      next ht =>
        simp only [exec, execInit, hpc, i]
        exact onInst_fault hx (by simp [Machine.initChecks, hsize, ht])

/-- Settles O45: each line is one field access, a call, or the write of one word. -/
theorem initLines : Obligations.InitLines := by
  refine ⟨fun inst wordSize timing => ⟨callReturns _ nofun, callReturns _ nofun⟩, ?_⟩
  intro inst wordSize t s x hx hinv h4 h18 ht i p wrote
  obtain ⟨hpresdiv, hrjw, hpseg1, hpseg2, hpropseg, hsmp⟩ := inRange_iff.1 ht
  refine ⟨fun hpc => ?_, fun hpc => ?_, fun hpc hm => ?_, fun hpc => ?_, fun hpc => ?_,
    fun hfrz => ⟨fun hpc => ?_, fun hpc => ?_, fun hpc => ?_, fun hpc => ?_, fun hpc => ?_, fun hpc => ?_, fun hpc => ?_,
      fun hpc => ?_⟩, fun hpc hidx => ?_, fun hpc => ?_, fun hpc => ?_⟩ <;>
    simp only [exec, execInit, hpc, i, p, wrote, Option.getD_some]
  · rw [onInst_fieldRead hx (by decide)]
    simp only [Fields.get, setWidth_bit_eq_zero]
    rfl
  · exact fieldStep_next hx _ (by decide) (by decide) nofun nofun
  · exact onInst_ok hx (initClock_disabled s.draws hm)
  · exact fieldStep_next hx _ (by decide) (by decide) nofun nofun
  · exact callStep_next hx _ _
  · exact fieldStep_next hx _ (by decide) hpresdiv (fun _ => hfrz) nofun
  · exact fieldStep_next hx _ (by decide) hrjw (fun _ => hfrz) nofun
  · exact fieldStep_next hx _ (by decide) hpseg1 (fun _ => hfrz) nofun
  · exact fieldStep_next hx _ (by decide) hpseg2 (fun _ => hfrz) nofun
  · exact fieldStep_next hx _ (by decide) hpropseg (fun _ => hfrz) nofun
  · exact fieldStep_next hx _ (by decide) hsmp (fun _ => hfrz) nofun
  · exact onInst_ok hx (initGeometry_frozen s.draws (legalWordSize_iff.2 ⟨h4, h18⟩) hfrz)
  · exact fieldStep_next hx _ (by decide) (by decide) (fun _ => hfrz) nofun
  · have hlt : s.pos.idx < Config.mbWords := Nat.lt_succ_of_le hidx
    refine ⟨fun k hs => ?_, fun hs => ?_⟩
    · obtain ⟨y, u, hw, hzero, hstate⟩ := wordWrite_zero_control hinv s.draws hs
      exact ⟨y, u, onInst_ok hx (initClear_ok hw), hzero, hstate⟩
    · have hw := wordWrite_unarmed 0 s.draws hlt
        (hs.imp id fun ⟨k, j, hkj, hj, hstate⟩ => ⟨k, j, hkj, hj, by rw [hstate]; rfl⟩)
      exact ⟨_, onInst_ok hx (initClear_ok hw), fun u => x.word_setWord _ u 0 hlt hinv.memory, rfl, rfl⟩
  · exact callStep_next hx _ _
  · rw [onInst_fieldRead hx (by decide)]
    simp only [Fields.get, setWidth_bit_eq_one]
    rfl

end

section
/-! Proofs about the driver operations (44_driver_ops.md R291 to R299): CLRFLAG, ENIRQ, REGCB and DISPATCH. -/

namespace Sys2Proof.Machine

/-- Clearing the flag of slot `i` keeps every other flag. -/
theorem clearedFlag_getLsbD (v : Word) (i : Nat) {k : Nat} (hk : k < 32) :
    (v &&& ~~~slotBit i).getLsbD k = (v.getLsbD k && decide (k ≠ i)) := by
  have hbit : (slotBit i).getLsbD k = decide (k = i) := by
    refine Bool.eq_iff_iff.2 ⟨fun h => decide_eq_true (slotBit_getLsbD h), fun h => ?_⟩
    obtain rfl := of_decide_eq_true h
    simp [slotBit, hk]
  simp only [BitVec.getLsbD_and, BitVec.getLsbD_not, hbit, hk, decide_true, Bool.true_and, decide_not]

/-- Clearing a flag that is 0 changes nothing (44_driver_ops.md R292). -/
theorem Instance.clearFlags_of_clear {x : Instance} {i : Nat} (h : x.fields.iflag.getLsbD i = false) :
    x.clearFlags (slotBit i) = x := by
  have same : x.fields.iflag &&& ~~~slotBit i = x.fields.iflag := by
    refine BitVec.eq_of_getLsbD_eq fun k hk => ?_
    rw [clearedFlag_getLsbD _ _ hk]
    by_cases hki : k = i
    · simp [hki, h]
    · simp [hki]
  rw [Instance.clearFlags, same]
  rfl

/-- REGCB is one access (44_driver_ops.md R295). -/
theorem exec_regCb (inst : BitVec 8) (h : Option Handler) (s : State) : exec (.regCb inst h) s =
    onInst (.regCb inst h) inst s (setCallback h) fun ok t =>
      t.ret (.regCb inst h) (if ok then .success else .fail) .none := rfl

/-! ### DISPATCH (44_driver_ops.md R297) -/

/-- The lowest flag below the range (44_driver_ops.md R297). -/
theorem firstFlag_eq_some {v : Word} {range k : Nat} (hk : k < range) (hv : v.getLsbD k = true)
    (hlow : ∀ j, j < k → v.getLsbD j = false) : firstFlag v range = some k := by
  rw [firstFlag, List.find?_range_eq_some]
  exact ⟨hv, List.mem_range.2 hk, fun j hj => by simp [hlow j hj]⟩

theorem firstFlag_eq_none {v : Word} {range : Nat} (h : ∀ k, k < range → v.getLsbD k = false) :
    firstFlag v range = none := by
  rw [firstFlag, List.find?_eq_none]
  intro k hk
  simp [h k (List.mem_range.1 hk)]

/-- Nothing to dispatch: no flag below the range, or no callback. -/
theorem dispatchScan_none {x : Instance} (d : Nat)
    (h : (∀ k, k < x.driver.slotRange.getD 0 → x.fields.iflag.getLsbD k = false) ∨ x.driver.callback = none) :
    dispatchScan d x = .ok none x 0 := by
  rw [dispatchScan]
  obtain h | h := h
  · rw [firstFlag_eq_none h]
  · rw [h]
    cases firstFlag x.fields.iflag (x.driver.slotRange.getD 0) <;> rfl

theorem dispatchScan_some {x : Instance} (d : Nat) {h : Handler} {k : Nat} (hc : x.driver.callback = some h)
    (hk : k < x.driver.slotRange.getD 0) (hv : x.fields.iflag.getLsbD k = true)
    (hlow : ∀ j, j < k → x.fields.iflag.getLsbD j = false) : dispatchScan d x = .ok (some (h, k)) x 0 := by
  rw [dispatchScan, firstFlag_eq_some hk hv hlow, hc]

/-- The host's code for a handler and a slot is the body that runs (log 13). -/
theorem State.bodyOf_fixed {s : State} {h : Handler} {k : Nat} {b : HandlerBody}
    (hb : s.handlerCode.find? (fun c => c.handler == h && c.slot == k) = some b) : s.bodyOf h k = (b.ops, 0) := by
  rw [State.bodyOf, hb]

end Sys2Proof.Machine

open Sys2Proof Sys2Proof.Machine

/-- Settles O53: the one access of CLRFLAG clears the slot's bit. -/
theorem clrFlag : Obligations.ClrFlag := by
  refine ⟨fun inst slot s => checksPreamble rfl s, fun inst slot s x hx => ?_⟩
  intro i
  refine ⟨fun hpc ws R hws hR hlt => ?_, fun hpc => ⟨x.clearFlags (slotBit slot.toNat), ?_, rfl, fun k hk => ?_,
    Instance.clearFlags_of_clear⟩⟩
  · simp only [exec, execClrFlag, hpc, i]
    exact indexStep_inRange hx hws hR hlt _
  · simp only [exec, execClrFlag, hpc, i]
    exact onInst_flagClear hx _ _
  · exact clearedFlag_getLsbD _ _ hk

/-- Settles O54: the read and the write of IMASK between two calls. -/
theorem enIrq : Obligations.EnIrq := by
  refine ⟨fun inst slot s => ⟨checksPreamble rfl s, callReturns _ nofun, callReturns _ nofun⟩, fun inst slot s x hx => ?_⟩
  intro i p
  refine ⟨fun hpc ws R hws hR hlt => ?_, fun hpc => ?_, fun hpc => ?_, fun hpc hfrz => ?_, fun hpc => ?_,
    fun hpc => ?_⟩ <;> simp only [exec, execEnIrq, hpc, i, p]
  · exact indexStep_inRange hx hws hR hlt _
  · exact callStep_next hx _ _
  · exact onInst_fieldRead hx (by decide) _
  · exact fieldStep_next hx _ (by decide) (BitVec.isLt _) (fun _ => hfrz) nofun
  · exact callStep_next hx _ _
  · exact onInst_look hx _ _

/-- Settles O55: one write of the driver record. -/
theorem regCb : Obligations.RegCb := by
  refine ⟨fun inst h s hx => (exec_regCb ..).trans (onInst_absent hx), fun inst s x hx => ⟨fun h => ?_, ?_⟩⟩ <;>
    rw [exec_regCb]
  · exact onInst_ok (f := setCallback (some h)) hx rfl
  · exact onInst_unchanged (f := setCallback none) hx rfl

/-- Settles O56: the scan of line 1, then the body one operation after another. -/
theorem dispatch : Obligations.Dispatch := by
  refine ⟨fun inst s => checksSelector_of_start _, fun inst s x hx => ?_⟩
  intro i p R
  refine ⟨fun hpc => ?_, fun hpc hnone => ?_, fun hpc h k hc hk hv hlow => ?_, fun hpc hbody => ?_,
    fun hpc op rest hbody => ?_⟩ <;> simp only [exec, execDispatch, hpc, i, p]
  · rw [onInst_look hx]
    cases x.driver.wordSize <;> rfl
  · exact onInst_unchanged hx (dispatchScan_none s.draws hnone)
  · refine ⟨(s.bodyOf h k).1, s.draws + (s.bodyOf h k).2,
      onInst_unchanged hx (dispatchScan_some s.draws hc hk hv hlow), fun b hb => ?_⟩
    rw [State.bodyOf_fixed hb]
  · rw [onInst_look hx, hbody]
  · rw [onInst_look hx, hbody]

end

section
/-! Proofs about the driver operations (44_driver_ops.md R278 to R289): the lines of CFGTX, SEND, CFGRX and RECV. -/

namespace Sys2Proof.Machine

/-! ### The words of a slot as a driver operation addresses them (44_driver_ops.md R270; log 18) -/

section
variable (j : Nat)

theorem Instance.cw_eq (x : Instance) (slot : BitVec 8) : x.cw slot = x.driver.wordSize.getD 0 * slot.toNat :=
  Nat.mul_comm _ _

theorem slotRead_eq (slot : BitVec 8) (d : Nat) (x : Instance) :
    slotRead slot j d x = wordRead (x.driver.wordSize.getD 0 * slot.toNat + j) d x := by
  rw [slotRead, x.cw_eq]

theorem slotWrite_eq (slot : BitVec 8) (v : Word) (d : Nat) (x : Instance) :
    slotWrite slot j v d x = wordWrite (x.driver.wordSize.getD 0 * slot.toNat + j) v d x := by
  rw [slotWrite, x.cw_eq]

theorem slotStore_eq (slot : BitVec 8) (v : Instance → Word) (d : Nat) (x : Instance) :
    slotStore slot j v d x = wordWrite (x.driver.wordSize.getD 0 * slot.toNat + j) (v x) d x :=
  slotWrite_eq j slot (v x) d x

theorem along_of_ok {α β : Type} {g : Instance → β} {f : Nat → Instance → Acc α} {d u : Nat} {x y : Instance} {a : α}
    (h : f d x = .ok a y u) : along g f d x = .ok (g x, a) y u :=
  (along_ok ..).2 ⟨h, rfl⟩

theorem along_fault {α β : Type} {g : Instance → β} {f : Nat → Instance → Acc α} {d : Nat} {e : Fault} {k w : Option Nat}
    (h : f d x = .fault e k w) : along g f d x = .fault e k w := by
  rw [along, h]

end

/-! ### Codes and checks -/

/-- The codes CFGTX arms a slot from (44_driver_ops.md R278). -/
theorem quiescentCode_iff {c : BitVec 4} : quiescentCode c = true ↔ c ∈ [0x0#4, 0x8#4, 0x9#4] := by
  revert c
  decide

/-- The check of CFGTX's frame (44_driver_ops.md R278; 41_frame_mapper.md R170). -/
theorem frameOk_some_iff {r : FrameRec} {x : Instance} {ws : Nat} (hws : x.driver.wordSize = some ws) :
    frameOk (some r) x = true ↔ r.dlc.toNat ≤ 15 ∧ r.id.toNat < (if r.ide = true then 2 ^ 29 else 2 ^ 11) ∧
      dlcBytes x.params.dlcMap r.edl (r.dlc.setWidth 4) ≤ (ws - 2) * 4 := by
  have hdws : x.dws = ws := by simp [Instance.dws, hws]
  unfold frameOk
  rw [Option.bind_some, FrameRec.frame?]
  by_cases h : r.dlc.toNat ≤ 15 ∧ r.id.toNat < (if r.ide = true then 2 ^ 29 else 2 ^ 11)
  · rw [if_pos h]
    simp only [hdws, Instance.bytes, Frame.bytes, decide_eq_true_eq, h.1, h.2, true_and]
  · simp only [if_neg h, Bool.false_eq_true, false_iff]
    exact fun hall => h ⟨hall.1, hall.2.1⟩

theorem checkedFrame_some {r : FrameRec} {f : Frame} (h : r.frame? = some f) : checkedFrame (some r) = f := by
  simp [checkedFrame, h]

/-- The busy test of the driver (44_driver_ops.md R287). -/
theorem showsBusy_iff {c : Word} : showsBusy c = true ↔ c.getLsbD 24 = true ∧ c.getLsbD 27 = false := by
  simp [showsBusy]

theorem showsBusy_receive {c : Word} (h : codeOf c = 0x4#4) : showsBusy c = false := by
  have hbit : c.getLsbD 24 = false := by
    have hlow := congrArg (BitVec.getLsbD · 0) h
    simpa [codeOf] using hlow
  rw [showsBusy, hbit, Bool.false_and]

theorem Instance.payloadFits_iff {x : Instance} {c : Word} : x.payloadFits c = true ↔
    ¬(x.driver.wordSize.getD 0 - 2) * 4 < dlcBytes x.params.dlcMap (c.getLsbD 31) (c.extractLsb' 16 4) :=
  decide_eq_true_iff.trans Nat.not_lt.symm

/-- The abort write changes only the code and, under `clears`, the unassigned bits (44_driver_ops.md R285; log 25). -/
theorem ofWord_abortWord (clears : Bool) (v : Word) : CtrlBits.ofWord (abortWord clears v) =
    if clears = true then { CtrlBits.ofWord v with un28 := false, un23 := false, low := 0 } else CtrlBits.ofWord v := by
  have recoded (u : Word) : CtrlBits.ofWord (withCode u 0x9#4) = CtrlBits.ofWord u := by
    have hdlc : (withCode u 0x9#4).extractLsb' 16 4 = u.extractLsb' 16 4 := by
      simp only [withCode, BitVec.extractLsb'_or, BitVec.extractLsb'_and]
      exact (congrArg (_ ||| ·) (by decide)).trans (BitVec.or_zero.trans BitVec.and_allOnes)
    have hlow : (withCode u 0x9#4).extractLsb' 0 16 = u.extractLsb' 0 16 := by
      simp only [withCode, BitVec.extractLsb'_or, BitVec.extractLsb'_and]
      exact (congrArg (_ ||| ·) (by decide)).trans (BitVec.or_zero.trans BitVec.and_allOnes)
    simp only [CtrlBits.ofWord, hdlc, hlow]
    simp [withCode]
  have assigned : CtrlBits.ofWord (assignedBits v) = { CtrlBits.ofWord v with un28 := false, un23 := false, low := 0 } := by
    have hdlc : (assignedBits v).extractLsb' 16 4 = v.extractLsb' 16 4 := by
      rw [assignedBits, BitVec.extractLsb'_and]
      exact BitVec.and_allOnes
    have hlow : (assignedBits v).extractLsb' 0 16 = 0 := by
      rw [assignedBits, BitVec.extractLsb'_and]
      exact BitVec.and_zero
    simp only [CtrlBits.ofWord, hdlc, hlow]
    simp [assignedBits]
  cases clears with
  | true => exact (recoded _).trans assigned
  | false => exact recoded v

/-- The control word that arms a slot to receive (44_driver_ops.md R281). -/
theorem armRxWord_eq (ide : Bool) : armRxWord ide = if ide = true then 0x04200000 else 0x04000000 := by
  cases ide <;> decide

end Sys2Proof.Machine

open Sys2Proof Sys2Proof.Machine

/-- Settles O46: each line is a check or the access to one word of the slot. -/
theorem cfgTx : Obligations.CfgTx := by
  refine ⟨fun inst slot frame s => checksPreamble rfl s, fun inst slot frame s x hx => ?_⟩
  intro i p
  refine ⟨fun hpc ws R hws hR hlt => ?_, fun r f hr hf => ?_⟩
  · simp only [exec, execCfgTx, hpc, i, p, indexStep_inRange hx hws hR hlt]
    refine ⟨fun hnone => ?_, fun r hr => ?_⟩
    · rw [hnone]
      rfl
    · subst hr
      simp only [← frameOk_some_iff hws]
      cases frameOk (some r) x <;> rfl
  · intro w P
    subst hr
    have payload {k : Nat} (hk : k < P) : (pack f.data (x.bytes f)).getD k 0 = packWord f.data (x.bytes f) 0 k :=
      pack_getD f.data hk
    refine ⟨fun hpc c y u hc => ?_, fun hpc y u hw hlt => ?_, fun hpc y u hw => ?_, fun hpc y u hw => ?_,
      fun e k a hfault => ?_⟩
    · simp only [exec, execCfgTx, hpc, i, p, checkedFrame_some hf]
      rw [onInst_ok hx (along_of_ok ((slotRead_eq ..).trans hc))]
      simp only [quiescentCode_iff]
      rfl
    · simp only [exec, execCfgTx, hpc, i, p, checkedFrame_some hf]
      rw [payload hlt, Nat.add_assoc] at hw
      have store := (slotStore_eq _ slot (fun x => packWord f.data (x.bytes f) 0 s.pos.idx) s.draws x).trans hw
      rw [onInst_ok hx (along_of_ok store)]
      rfl
    · simp only [exec, execCfgTx, hpc, i, p, checkedFrame_some hf]
      exact onInst_ok hx ((slotStore_eq ..).trans hw)
    · simp only [exec, execCfgTx, hpc, i, p, checkedFrame_some hf]
      exact onInst_ok hx ((slotWrite_eq ..).trans hw)
    · obtain ⟨hpc, hw⟩ | ⟨hpc, hlt, hw⟩ | ⟨hpc, hw⟩ | ⟨hpc, hw⟩ := hfault <;>
        simp only [exec, execCfgTx, hpc, i, p, checkedFrame_some hf]
      · exact onInst_fault hx (along_fault ((slotRead_eq ..).trans hw))
      · rw [payload hlt, Nat.add_assoc] at hw
        exact onInst_fault hx (along_fault ((slotStore_eq ..).trans hw))
      · exact onInst_fault hx ((slotStore_eq ..).trans hw)
      · exact onInst_fault hx ((slotWrite_eq ..).trans hw)

/-- Settles O50: the abort write and its spin stand between a read and the call of CFGTX. -/
theorem send : Obligations.Send := by
  refine ⟨fun inst slot frame s => ⟨checksPreamble rfl s, callReturns _ nofun⟩, fun clears v => ?_,
    fun inst slot frame s x hx => ?_⟩
  · exact ⟨codeOf_abortWord clears v, ofWord_abortWord clears v⟩
  intro i p w cleared back
  refine ⟨fun hpc ws R hws hR hlt => ?_, fun hpc => ?_, fun hpc c y u hc => ?_, fun hpc y u hw => ?_,
    fun hpc hflag hk => ?_, fun hpc hflag hb => ?_, fun k hpc hflag hb => ?_, fun hpc => ?_, fun hpc => ?_,
    fun hpc => ?_, fun e k a hfault => ?_⟩
  case refine_11 =>
    obtain ⟨hpc, hw⟩ | ⟨hpc, hw⟩ := hfault <;> simp only [exec, execSend, hpc, i, p]
    · exact onInst_fault hx ((slotRead_eq ..).trans hw)
    · exact onInst_fault hx ((slotStore_eq ..).trans hw)
  all_goals simp only [exec, execSend, hpc, i, p]
  · rw [indexStep_inRange hx hws hR hlt]
    cases frame <;> rfl
  · exact onInst_flagClear hx _ _
  · rw [onInst_ok hx ((slotRead_eq ..).trans hc)]
    simp only [quiescentCode_iff]
    rfl
  · exact onInst_ok hx ((slotStore_eq ..).trans hw)
  · rw [State.spinRead_within hk, onInst_fieldRead hx (by decide), Fields.get, if_pos hflag]
  · rw [onInst_fieldRead hx (by decide), Fields.get, if_neg (by simp [hflag]), State.spinRead_again,
      State.spinAgain_unbounded hb]
  · rw [onInst_fieldRead hx (by decide), Fields.get, if_neg (by simp [hflag]), State.spinRead_again,
      State.spinAgain_bounded hb]
  · exact onInst_flagClear hx _ _
  · exact callStep_next hx _ _
  · exact onInst_look hx _ _

/-- Settles O48: the slot is forced inactive, the mask is written between two calls, the filter and the code last. -/
theorem cfgRx : Obligations.CfgRx := by
  refine ⟨fun inst slot filterId filterMask s => ⟨checksPreamble rfl s, callReturns _ nofun, callReturns _ nofun⟩,
    fun inst slot filterId filterMask s x hx => ?_⟩
  intro i p w arm
  have harm : arm = armRxWord x.params.rxIde := (armRxWord_eq _).symm
  refine ⟨fun hpc ws R hws hR hlt => ?_, fun hpc c y u hc => ?_, fun hpc y u hw => ?_, fun hpc => ?_, fun hpc hfrz => ?_,
    fun hpc => ?_, fun hpc y u hw => ?_, fun hpc y u hw => ?_, fun e k a hfault => ?_⟩
  case refine_9 =>
    obtain ⟨hpc, hw⟩ | ⟨hpc, hw⟩ | ⟨hpc, hw⟩ | ⟨hpc, hw⟩ := hfault <;> simp only [exec, execCfgRx, hpc, i, p]
    · exact onInst_fault hx ((slotRead_eq ..).trans hw)
    · exact onInst_fault hx ((slotWrite_eq ..).trans hw)
    · exact onInst_fault hx ((slotWrite_eq ..).trans hw)
    · exact onInst_fault hx ((slotStore_eq ..).trans (harm ▸ hw))
  all_goals simp only [exec, execCfgRx, hpc, i, p]
  · rw [indexStep_inRange hx hws hR hlt]
    simp only [decide_eq_true_eq, ← Nat.not_lt, ite_not]
  · exact onInst_ok hx ((slotRead_eq ..).trans hc)
  · exact onInst_ok hx ((slotWrite_eq ..).trans hw)
  · exact callStep_next hx _ _
  · exact fieldStep_next hx _ (by decide) (BitVec.isLt _) (fun _ => hfrz) nofun
  · exact callStep_next hx _ _
  · exact onInst_ok hx ((slotWrite_eq ..).trans hw)
  · exact onInst_ok hx ((slotStore_eq ..).trans (harm ▸ hw))

/-- Settles O51: the spin on a busy code, the reads, and the read of TIMER that unlocks. -/
theorem recv : Obligations.Recv := by
  refine ⟨fun inst slot s => checksPreamble rfl s, fun inst slot s x hx => ?_⟩
  intro i p w P
  refine ⟨fun hpc ws R hws hR hlt => ?_, fun hpc hk c y u hc => ?_, fun hpc d y u hw => ?_, fun hpc d y u hw => ?_,
    fun hpc => ?_⟩ <;> simp only [exec, execRecv, hpc, i, p]
  · exact indexStep_inRange hx hws hR hlt _
  · rw [State.spinRead_within hk, onInst_ok hx (along_of_ok ((slotRead_eq ..).trans hc))]
    have budget : (s.commit inst.toNat y u).params.spinBudget = s.params.spinBudget := rfl
    dsimp only
    refine ⟨fun h24 h27 hb => ?_, fun k h24 h27 hb => ?_, fun hfree hcode => ?_, fun hcode => ?_⟩
    · rw [if_pos (showsBusy_iff.2 ⟨h24, h27⟩), State.spinAgain_unbounded (budget.trans hb)]
    · rw [if_pos (showsBusy_iff.2 ⟨h24, h27⟩), State.spinAgain_bounded (budget.trans hb)]
    · rw [if_neg (mt showsBusy_iff.1 hfree)]
      exact congrArg Host.Outcome.next (if_pos hcode)
    · have hrecv : codeOf c = 0x4#4 := hcode
      rw [if_neg (by simp [showsBusy_receive hrecv]), if_neg (not_not.2 hrecv)]
      simp only [Instance.payloadFits_iff, ite_not]
  · exact onInst_ok hx (along_of_ok ((slotRead_eq ..).trans hw))
  · exact onInst_ok hx (along_of_ok ((slotRead_eq ..).trans hw))
  · rw [onInst_ok hx (along_of_ok (f := timerRead) rfl)]
    cases s.pos.ok <;> rfl

end

section
/-! Proofs about runs of a driver operation (44_driver_ops.md): a stage of a run says which controller stands where, which
operations are in progress and which requests are left; events lead from one stage to the next. -/

namespace Sys2Proof.Machine

/-! ### Runs -/

/-- From every state with `P` the events `evs`, when they come next, lead to one with `Q`. -/
def Leads (evs : List Event) (P Q : State → Prop) : Prop :=
  ∀ t es, P t → t.schedule = evs ++ es → ∃ u, core.run evs.length t = .next u ∧ Q u ∧ u.schedule = es

theorem core_run_succ {s t : State} (h : step s = .next t) (k : Nat) : core.run (k + 1) s = core.run k t := by
  have hstep : core.step s = .next t := h
  simp only [Host.Core.run, hstep]

/-- A run of `k + 1` steps that stops nowhere takes a first step. -/
theorem core_run_first {s t : State} {k : Nat} (h : core.run (k + 1) s = .next t) :
    ∃ u, step s = .next u ∧ core.run k u = .next t := by
  cases hs : core.step s with
  | next u => exact ⟨u, hs, (core_run_succ hs k).symm.trans h⟩
  | fault r => simp only [Host.Core.run, hs, reduceCtorEq] at h
  | refused r => simp only [Host.Core.run, hs, reduceCtorEq] at h

theorem core_run_add {s t : State} {a : Nat} (h : core.run a s = .next t) (b : Nat) : core.run (a + b) s = core.run b t := by
  induction a generalizing s with
  | zero =>
    obtain rfl := Host.Outcome.next.inj h
    rw [Nat.zero_add]
  | succ a ih =>
    obtain ⟨u, hs, hu⟩ := core_run_first h
    rw [Nat.succ_add_eq_add_succ, Nat.add_succ, core_run_succ hs, ih hu]

theorem Leads.trans {a b : List Event} {P Q R : State → Prop} (h : Leads a P Q) (g : Leads b Q R) : Leads (a ++ b) P R := by
  intro t es ht hs
  obtain ⟨u, hrun, hu, hus⟩ := h t (b ++ es) ht (by rw [hs, List.append_assoc])
  obtain ⟨v, hrun', hv, hvs⟩ := g u es hu hus
  exact ⟨v, by rw [List.length_append, core_run_add hrun, hrun'], hv, hvs⟩

/-- A line that a loop takes `n` times. -/
theorem Leads.loop {e : Event} {P : Nat → State → Prop} {n : Nat} (h : ∀ k, k < n → Leads [e] (P k) (P (k + 1))) :
    Leads (List.replicate n e) (P 0) (P n) := by
  induction n with
  | zero => exact fun t es ht hs => ⟨t, rfl, ht, hs⟩
  | succ n ih =>
    rw [List.replicate_succ']
    exact (ih fun k hk => h k (Nat.lt_succ_of_lt hk)).trans (h n n.lt_succ_self)

theorem Leads.of_step {e : Event} {P Q : State → Prop}
    (h : ∀ t es, P t → t.schedule = e :: es → ∃ u, step t = .next u ∧ Q u ∧ u.schedule = es) : Leads [e] P Q := by
  intro t es ht hs
  obtain ⟨u, hstep, hu⟩ := h t es ht hs
  exact ⟨u, core_run_succ hstep 0, hu⟩

/-! ### Stages -/

/-- In `t`, a state of a run from `s`, controller `n` stands at `x`, the mainline has the operations `acts` in progress and the
requests `rest` to start, and no handler runs. -/
structure State.At (s : State) (n : Nat) (x : Instance) (acts : List Activation) (rest : List Request) (t : State) : Prop where
  insts : t.insts = s.insts.set n x
  present : t.insts[n]? = some x
  mainline : t.mainline = acts
  handlers : t.handlers = []
  fault : t.fault = none
  program : t.program = rest
  params : t.params = s.params

section
variable {s t : State} {n : Nat} {x : Instance} {ops : List Activation} {rest : List Request}

/-- The first stage of a run. -/
theorem State.At.start (hx : s.insts[n]? = some x) (hf : s.fault = none) (hh : s.handlers = []) :
    s.At n x s.mainline s.program s :=
  ⟨(congrArg State.insts (s.setInst_self n x hx)).symm, hx, rfl, hh, hf, rfl, rfl⟩

theorem State.At.acts (h : s.At n x ops rest t) : t.acts = ops := by
  simp only [State.acts, h.handlers, h.mainline]

theorem State.At.pos {a : Activation} {as : List Activation} (h : s.At n x (a :: as) rest t) : t.pos = a.pos := by
  simp only [State.pos, h.acts]

theorem State.At.pos_start (h : s.At n x [] rest t) : t.pos = {} := by
  simp only [State.pos, h.acts]

theorem State.At.withSchedule (h : s.At n x ops rest t) (es : List Event) : s.At n x ops rest { t with schedule := es } :=
  ⟨h.insts, h.present, h.mainline, h.handlers, h.fault, h.program, h.params⟩

theorem State.At.commit (h : s.At n x ops rest t) (y : Instance) (used : Nat) : s.At n y ops rest (t.commit n y used) := by
  refine ⟨?_, ?_, h.mainline, h.handlers, h.fault, h.program, h.params⟩
  · rw [State.commit_insts, h.insts, List.set_set]
  · rw [State.commit_insts, getElem?_set_cases _ _ _ y x h.present, if_pos rfl]

theorem State.At.setInst (h : s.At n x ops rest t) (y : Instance) : s.At n y ops rest (t.setInst n y) :=
  h.commit y 0

theorem State.At.setActs (h : s.At n x ops rest t) (a : List Activation) : s.At n x a rest (t.setActs a) := by
  have hset : t.setActs a = { t with mainline := a } := by simp only [State.setActs, h.handlers]
  rw [hset]
  exact ⟨h.insts, h.present, rfl, h.handlers, h.fault, h.program, h.params⟩

theorem State.At.goto (h : s.At n x ops rest t) (i : Instr) {p q : Pos} (hp : p = q) :
    s.At n x (⟨i, q⟩ :: ops.tail) rest (t.goto i p) := by
  rw [State.goto, h.acts, hp]
  exact h.setActs _

theorem State.At.call (h : s.At n x ops rest t) (i sub : Instr) {p q : Pos} (hp : p = q) :
    s.At n x (⟨sub, {}⟩ :: ⟨i, q⟩ :: ops.tail) rest (t.call i p sub) := by
  rw [State.call, h.acts, hp]
  exact h.setActs _

theorem State.At.ret (h : s.At n x ops rest t) (i : Instr) (v : RetVal) :
    s.At n x ops.tail rest (t.ret i .success v) := by
  have kept := h.setActs ops.tail
  rw [State.ret, h.acts]
  exact ⟨kept.insts, kept.present, kept.mainline, kept.handlers, kept.fault, kept.program, kept.params⟩

/-- The host goes on with the operation in progress. -/
theorem leads_host {a : Activation} {as : List Activation} {Q : State → Prop}
    (h : ∀ t, s.At n x (a :: as) rest t → ∃ u, exec a.op t = .next u ∧ Q u) :
    Leads [.host] (s.At n x (a :: as) rest) Q := by
  refine .of_step fun t es ht hs => ?_
  have stage := ht.withSchedule es
  obtain ⟨u, hexec, hu⟩ := h _ stage
  have hstep : step t = .next u :=
    (step_scheduled ht.fault hs).trans ((State.hostStep_continue stage.acts).trans hexec)
  exact ⟨u, hstep, hu, (exec_contextKept hexec).schedule⟩

/-- The host starts the next request of its program. -/
theorem leads_fetch {i : Instr} {Q : State → Prop} (hi : i.wellFormed = true)
    (h : ∀ t, s.At n x [] rest t → ∃ u, exec i t = .next u ∧ Q u) :
    Leads [.host] (s.At n x [] (encode i :: rest)) Q := by
  refine .of_step fun t es ht hs => ?_
  have stage : s.At n x [] rest { t with schedule := es, program := rest } :=
    ⟨ht.insts, ht.present, ht.mainline, ht.handlers, ht.fault, rfl, ht.params⟩
  obtain ⟨u, hexec, hu⟩ := h _ stage
  have hstep : step t = .next u :=
    (step_starts_request ht.fault hs ht.handlers ht.mainline ht.program (decodeEncode i hi)).trans hexec
  exact ⟨u, hstep, hu, (exec_contextKept hexec).schedule⟩

/-- The hardware takes a step of the controller. -/
theorem leads_hardware {e : Event} {f : Instance → Option Instance} {y : Instance} (hc : e.controller = some n)
    (hf : ∀ order, hardware order e = some f) (hy : f x = some y) :
    Leads [e] (s.At n x ops rest) (s.At n y ops rest) :=
  .of_step fun _ es ht hs => ⟨_, step_hardware hc (hf _) ht.present ht.fault hs hy, (ht.withSchedule es).setInst y, rfl⟩

end

/-! ### The freeze handshake inside a run (44_driver_ops.md R271, R272; 43_mb_hardware.md R225, R226) -/

section
variable {s : State} {inst : BitVec 8} {x : Instance} {as : List Activation} {rest : List Request}

/-- FRZ.ENTER with FREEZE_ACK where its spin waits for it. -/
theorem leads_frzEnter (hb : s.params.spinBudget = .unbounded) (hm : x.fields.mdis = 0) (hack : x.fields.frzack = 0) :
    Leads [.host, .host, .host, .freezeAck inst.toNat, .host] (s.At inst.toNat x (⟨.frzEnter inst, {}⟩ :: as) rest)
      (s.At inst.toNat (x.setFields { x.fields with frz := 1, halt := 1, frzack := 1, notrdy := 1, synch := 0 }) as rest) := by
  let i := Instr.frzEnter inst
  let x1 := x.setFields { x.fields with frz := 1 }
  let x2 := x1.setFields { x1.fields with halt := 1 }
  let x3 := x2.setFields { x2.fields with frzack := 1, notrdy := 1, synch := 0 }
  have line0 : Leads [.host] (s.At inst.toNat x (⟨i, {}⟩ :: as) rest) (s.At inst.toNat x (⟨i, { pc := 1 }⟩ :: as) rest) :=
    leads_host fun t ht => by
      obtain ⟨l, -⟩ := frzEnter.2 inst t x ht.present
      exact ⟨_, l (by rw [ht.pos]), ht.goto i (by rw [ht.pos])⟩
  have line1 : Leads [.host] (s.At inst.toNat x (⟨i, { pc := 1 }⟩ :: as) rest)
      (s.At inst.toNat x1 (⟨i, { pc := 2 }⟩ :: as) rest) :=
    leads_host fun t ht => by
      obtain ⟨-, l, -⟩ := frzEnter.2 inst t x ht.present
      exact ⟨_, l (by rw [ht.pos]), (ht.setInst x1).goto i (by rw [ht.pos])⟩
  have line2 : Leads [.host] (s.At inst.toNat x1 (⟨i, { pc := 2 }⟩ :: as) rest)
      (s.At inst.toNat x2 (⟨i, { pc := 3 }⟩ :: as) rest) :=
    leads_host fun t ht => by
      obtain ⟨-, -, l, -⟩ := frzEnter.2 inst t x1 ht.present
      exact ⟨_, l (by rw [ht.pos]), (ht.setInst x2).goto i (by rw [ht.pos])⟩
  have ack : Leads [.freezeAck inst.toNat] (s.At inst.toNat x2 (⟨i, { pc := 3 }⟩ :: as) rest)
      (s.At inst.toNat x3 (⟨i, { pc := 3 }⟩ :: as) rest) :=
    leads_hardware rfl (fun _ => rfl) (freezeAck_some.2 ⟨⟨hm, rfl, rfl, hack⟩, rfl⟩)
  have line3 : Leads [.host] (s.At inst.toNat x3 (⟨i, { pc := 3 }⟩ :: as) rest) (s.At inst.toNat x3 as rest) :=
    leads_host fun t ht => by
      obtain ⟨-, -, -, l, -⟩ := frzEnter.2 inst t x3 ht.present
      exact ⟨_, l (by rw [ht.pos]) rfl (by simp [ht.params, hb]), ht.ret i .none⟩
  exact line0.trans (line1.trans (line2.trans (ack.trans line3)))

/-- FRZ.EXIT with FREEZE_EXIT before its first iteration. -/
theorem leads_frzExit (hb : s.params.spinBudget = .unbounded) (hm : x.fields.mdis = 0) (hack : x.fields.frzack = 1) :
    Leads [.host, .host, .host, .freezeExit inst.toNat, .host, .host]
      (s.At inst.toNat x (⟨.frzExit inst, {}⟩ :: as) rest)
      (s.At inst.toNat (x.setFields { x.fields with frz := 0, halt := 0, frzack := 0, notrdy := 0 }) as rest) := by
  let i := Instr.frzExit inst
  let x1 := x.setFields { x.fields with halt := 0 }
  let x2 := x1.setFields { x1.fields with frz := 0 }
  let x3 := x2.setFields { x2.fields with frzack := 0, notrdy := 0 }
  have line0 : Leads [.host] (s.At inst.toNat x (⟨i, {}⟩ :: as) rest) (s.At inst.toNat x (⟨i, { pc := 1 }⟩ :: as) rest) :=
    leads_host fun t ht => by
      obtain ⟨l, -⟩ := frzExit.2 inst t x ht.present
      exact ⟨_, l (by rw [ht.pos]), ht.goto i (by rw [ht.pos])⟩
  have line1 : Leads [.host] (s.At inst.toNat x (⟨i, { pc := 1 }⟩ :: as) rest)
      (s.At inst.toNat x1 (⟨i, { pc := 2 }⟩ :: as) rest) :=
    leads_host fun t ht => by
      obtain ⟨-, l, -⟩ := frzExit.2 inst t x ht.present
      exact ⟨_, l (by rw [ht.pos]), (ht.setInst x1).goto i (by rw [ht.pos])⟩
  have line2 : Leads [.host] (s.At inst.toNat x1 (⟨i, { pc := 2 }⟩ :: as) rest)
      (s.At inst.toNat x2 (⟨i, { pc := 3 }⟩ :: as) rest) :=
    leads_host fun t ht => by
      obtain ⟨-, -, l, -⟩ := frzExit.2 inst t x1 ht.present
      exact ⟨_, l (by rw [ht.pos]), (ht.setInst x2).goto i (by rw [ht.pos])⟩
  have exit : Leads [.freezeExit inst.toNat] (s.At inst.toNat x2 (⟨i, { pc := 3 }⟩ :: as) rest)
      (s.At inst.toNat x3 (⟨i, { pc := 3 }⟩ :: as) rest) :=
    leads_hardware rfl (fun _ => rfl) (freezeExit_some.2 ⟨⟨hm, hack, fun h => absurd h.1 (by simp [x2, x1])⟩, rfl⟩)
  have line3 : Leads [.host] (s.At inst.toNat x3 (⟨i, { pc := 3 }⟩ :: as) rest)
      (s.At inst.toNat x3 (⟨i, { pc := 4 }⟩ :: as) rest) :=
    leads_host fun t ht => by
      obtain ⟨-, -, -, l, -⟩ := frzExit.2 inst t x3 ht.present
      exact ⟨_, l (by rw [ht.pos]) (by simp [ht.params, hb]), ht.goto i (by rw [ht.pos]; rfl)⟩
  have line4 : Leads [.host] (s.At inst.toNat x3 (⟨i, { pc := 4 }⟩ :: as) rest) (s.At inst.toNat x3 as rest) :=
    leads_host fun t ht => by
      obtain ⟨-, -, -, -, l, -⟩ := frzExit.2 inst t x3 ht.present
      exact ⟨_, l (by rw [ht.pos]) (by rw [ht.pos]) rfl, ht.ret i .none⟩
  exact line0.trans (line1.trans (line2.trans (exit.trans (line3.trans line4))))

end

end Sys2Proof.Machine

end

section
/-! Proofs about the driver operations (44_driver_ops.md R278, R279): CFGTX run to its end. -/

namespace Sys2Proof.Machine

/-! ### The driver's view of a hardware slot (10_state.md R55, R62) -/

/-- While the driver's word size is MBWS, its slots are those of the hardware. -/
theorem Instance.lt_slotRange {x : Instance} {k : Nat} (hk : k < x.hwSlots) : k < slotRange x.ws := by
  obtain ⟨-, -, he⟩ := x.hwSlots_pos k hk
  have hrange : slotRange x.ws = 128 / x.ws := Nat.mul_div_mul_right 128 x.ws (m := 4) (by decide)
  rw [hrange, ← he]
  exact hk

theorem Instance.Inv.driver_slotRange {x : Instance} (h : x.Inv) {ws : Nat} (hws : x.driver.wordSize = some ws) :
    x.driver.slotRange = some (slotRange ws) := by
  rw [h.range, hws]
  rfl

theorem Instance.driver_word {x : Instance} (hws : x.driver.wordSize = some x.ws) (k j : Nat) :
    x.driver.wordSize.getD 0 * k + j = wordAddr x.ws k j := by
  rw [hws, Option.getD_some, wordAddr, Nat.mul_comm]

/-! ### A quiescent slot (44_driver_ops.md R278) -/

/-- The states CFGTX arms a slot from. -/
theorem Instance.quiescent_code {x : Instance} {k : Nat} (h : x.slotState k ∈ [SlotState.inactiveRx, .inactiveTx, .aborted]) :
    x.code k ∈ [0x0#4, 0x8#4, 0x9#4] := by
  obtain ⟨inactiveRx, -, -, inactiveTx, -, aborted, -⟩ := x.slotState_code k
  simp only [List.mem_cons, List.not_mem_nil, or_false] at h ⊢
  exact h.imp inactiveRx.1 (Or.imp inactiveTx.1 fun ha => (aborted.1 ha).1)

theorem SlotState.quiescent_notArmed {st : SlotState} (h : st ∈ [SlotState.inactiveRx, .inactiveTx, .aborted]) :
    st.armed = false ∧ st ≠ .abortPending := by
  revert h
  cases st <;> decide

/-- A read of the control word of a slot that is neither busy nor armed to receive leaves no slot locked
(43_mb_hardware.md R235). -/
theorem wordRead_unlocks {x : Instance} (h : x.Inv) {k : Nat} (hk : k < x.hwSlots) (d : Nat)
    (ha : (x.slotState k).armed = false) :
    wordRead (wordAddr x.ws k 0) d x = .ok (x.ctrl k) (x.setLocked none) 0 := by
  have state {st : SlotState} (hst : st.armed = true) : x.slotState k ≠ st := by
    rintro rfl
    exact absurd (ha.symm.trans hst) (by decide)
  have h4 := (x.hwSlots_pos k hk).1
  have hs := x.slotOf_wordAddr k 0 hk (by omega)
  rw [wordRead_idle (Instance.slotOf_lt hs) hs (h.busy_eq_false (state rfl)), if_pos rfl, x.lockOnRead_eq,
    if_neg (state rfl), if_neg (h.locked_ne (state rfl))]
  rfl

/-- A word behind the control word of a slot that is not armed is stored (43_mb_hardware.md R224). -/
theorem wordWrite_behind {x : Instance} {k j : Nat} (hk : k < x.hwSlots) (hj : j < x.ws) (h0 : j ≠ 0)
    (ha : (x.slotState k).armed = false) (v : Word) (d : Nat) :
    wordWrite (wordAddr x.ws k j) v d x = .ok () (x.setWord (wordAddr x.ws k j) v) 0 := by
  rw [wordWrite_plain (x.slotOf_wordAddr k j hk hj) h0, ha]
  rfl

/-- A control word stored with no abort pending, before or after, leaves the hidden state of every slot. -/
theorem Instance.ControlStored.hidden_slot {x y : Instance} {k : Nat} {v : Word} (h : x.ControlStored y k v)
    (before : x.abortPending k = false) (after : y.abortPending k = false) (i : Nat) :
    y.hidden.slot i = x.hidden.slot i := by
  by_cases hi : i = k
  · subst hi
    obtain ⟨busy, inflight⟩ := h.reception
    have pending : y.abortPending i = x.abortPending i := after.trans before.symm
    simp only [Instance.busy, Instance.abortPending] at busy pending
    cases hy : y.hidden.slot i
    cases hx : x.hidden.slot i
    simp_all only
  · exact h.others i hi

/-- Words stored behind the control words change no slot's state. -/
theorem Instance.slotState_setWords {x : Instance} (h : Memory.wf x.mem) {k j m : Nat} (hk : k < x.hwSlots) (h0 : j ≠ 0)
    (hm : j + m ≤ x.ws) (f : Nat → Word) : (x.setWords (wordAddr x.ws k j) f m).slotState k = x.slotState k := by
  have hend := x.wordAddr_lt k (x.ws - 1) hk (by have := (x.hwSlots_pos k hk).1; omega)
  have hctrl : (x.setWords (wordAddr x.ws k j) f m).ctrl k = x.ctrl k := by
    have hfit : wordAddr x.ws k j + m ≤ Config.mbWords := by simp only [wordAddr] at *; omega
    have hout : ¬(wordAddr x.ws k j ≤ wordAddr x.ws k 0 ∧ wordAddr x.ws k 0 < wordAddr x.ws k j + m) := by
      simp only [wordAddr]
      omega
    unfold Instance.ctrl
    rw [setWords_ws, x.word_setWords _ _ _ _ hfit h, if_neg hout]
  exact x.slotState_congr _ k (congrArg codeOf hctrl) (by rw [Instance.busy, setWords_hidden]; rfl)
    (by rw [Instance.abortPending, setWords_hidden]; rfl)

/-! ### A frame in a slot's words (41_frame_mapper.md R185) -/

theorem codeOf_encodeControl (k : BitVec 4) (f : Frame) : codeOf (encodeControl k f) = k := codeOf_toWord ..

/-- A record that is well-formed is its frame (41_frame_mapper.md R170). -/
theorem FrameRec.frame?_eq_some {r : FrameRec} {f : Frame} (h : r.frame? = some f) :
    r.dlc.toNat ≤ 15 ∧ r.id.toNat < (if r.ide = true then 2 ^ 29 else 2 ^ 11) ∧ r.edl = f.edl ∧
      r.dlc.setWidth 4 = f.dlc ∧ f.wellFormed = true := by
  unfold FrameRec.frame? at h
  rw [Option.ite_none_right_eq_some] at h
  obtain ⟨⟨hdlc, hid⟩, hf⟩ := h
  obtain rfl := Option.some.inj hf
  refine ⟨hdlc, hid, rfl, rfl, ?_⟩
  unfold Frame.wellFormed
  cases hide : r.ide with
  | true => rfl
  | false =>
    rw [hide] at hid
    rw [Bool.false_or, decide_eq_true_eq, BitVec.toNat_setWidth]
    exact Nat.lt_of_le_of_lt (Nat.mod_le _ _) hid

section
variable {y : Instance} {k : Nat} {f : Frame} (hc : { CtrlBits.ofWord (y.ctrl k) with low := 0 } = f.ctrlBits)
include hc

/-- A slot whose control word has the frame's bits, its time stamp aside, and whose ID word is the frame's. -/
theorem Instance.decodeSlot_encoded (hid : y.word (wordAddr y.ws k 1) = y.idWord f) (hw : f.wellFormed = true) :
    { y.decodeSlot k with data := f.data } = f := by
  obtain ⟨hedl, hbrs, hesi, -, -, -, hide, hrtr, hdlc, -⟩ := CtrlBits.mk.inj hc
  have hdec : decodeId y.params.stdIdShift (y.word (wordAddr y.ws k 1)) (CtrlBits.ofWord (y.ctrl k)).ide = f.id := by
    rw [hide, hid]
    exact decodeId_encodeId _ hw
  simp only [Instance.decodeSlot, frameOfWords, hdec]
  simp only [hide, hrtr, hedl, hbrs, hesi, hdlc]

theorem Instance.ctrlBytes_encoded : ctrlBytes y.params.dlcMap (y.ctrl k) = y.bytes f := by
  obtain ⟨hedl, -, -, -, -, -, -, -, hdlc, -⟩ := CtrlBits.mk.inj hc
  rw [ctrlBytes, hedl, hdlc]
  rfl

theorem Instance.slotBytes_encoded (hfit : y.bytes f ≤ capacity y.ws) : y.slotBytes k = y.bytes f := by
  rw [Instance.slotBytes, Instance.ctrlBytes_encoded hc, Nat.min_eq_left hfit]

end

/-! ### The stages of CFGTX (44_driver_ops.md R278) -/

/-- What CFGTX asks of a slot and its frame (44_driver_ops.md R278). -/
structure Instance.TxReady (x : Instance) (k : Nat) (f : Frame) : Prop where
  inv : x.Inv
  driver : x.driver.wordSize = some x.ws
  slot : k < x.hwSlots
  fits : x.bytes f ≤ capacity x.ws
  quiescent : x.slotState k ∈ [SlotState.inactiveRx, .inactiveTx, .aborted]

/-- The controller while CFGTX writes the payload of `f` into slot `k`: `m` words are written. -/
def Instance.txPayload (x : Instance) (k : Nat) (f : Frame) (m : Nat) : Instance :=
  (x.setLocked none).setWords (wordAddr x.ws k 2) (packWord f.data (x.bytes f) 0) m

/-- The controller when CFGTX has written the ID word as well. -/
def Instance.txImage (x : Instance) (k : Nat) (f : Frame) : Instance :=
  (x.txPayload k f (payloadWords (x.bytes f))).setWord (wordAddr x.ws k 1) (x.idWord f)

/-- The controller when CFGTX is done. -/
def Instance.txArmed (x : Instance) (k : Nat) (f : Frame) : Instance :=
  (x.txImage k f).storeCode k (encodeControl 0xC f) (x.slotState k)

section
variable (x : Instance) (k : Nat) (f : Frame) (m : Nat)

/-! While it writes, CFGTX changes nothing but words and the lock. -/

@[simp] theorem Instance.txPayload_ws : (x.txPayload k f m).ws = x.ws := by simp [txPayload]
@[simp] theorem Instance.txPayload_hwSlots : (x.txPayload k f m).hwSlots = x.hwSlots := by simp [txPayload]
@[simp] theorem Instance.txPayload_fields : (x.txPayload k f m).fields = x.fields := by simp [txPayload]
@[simp] theorem Instance.txPayload_hidden : (x.txPayload k f m).hidden = { x.hidden with locked := none } := by
  simp [txPayload]
@[simp] theorem Instance.txPayload_driver : (x.txPayload k f m).driver = x.driver := by simp [txPayload]
@[simp] theorem Instance.txPayload_busOut : (x.txPayload k f m).busOut = x.busOut := by simp [txPayload]
@[simp] theorem Instance.txPayload_lineEnabled : (x.txPayload k f m).lineEnabled = x.lineEnabled := by simp [txPayload]
@[simp] theorem Instance.txPayload_params : (x.txPayload k f m).params = x.params := by simp [txPayload]
@[simp] theorem Instance.txPayload_bytes (g : Frame) : (x.txPayload k f m).bytes g = x.bytes g := by simp [Instance.bytes]
@[simp] theorem Instance.txPayload_idWord (g : Frame) : (x.txPayload k f m).idWord g = x.idWord g := by
  simp [Instance.idWord]

@[simp] theorem Instance.txImage_ws : (x.txImage k f).ws = x.ws := by simp [txImage]
@[simp] theorem Instance.txImage_hwSlots : (x.txImage k f).hwSlots = x.hwSlots := by simp [txImage]
@[simp] theorem Instance.txImage_fields : (x.txImage k f).fields = x.fields := by simp [txImage]
@[simp] theorem Instance.txImage_hidden : (x.txImage k f).hidden = { x.hidden with locked := none } := by
  simp [txImage]
@[simp] theorem Instance.txImage_driver : (x.txImage k f).driver = x.driver := by simp [txImage]
@[simp] theorem Instance.txImage_busOut : (x.txImage k f).busOut = x.busOut := by simp [txImage]
@[simp] theorem Instance.txImage_lineEnabled : (x.txImage k f).lineEnabled = x.lineEnabled := by simp [txImage]
@[simp] theorem Instance.txImage_params : (x.txImage k f).params = x.params := by simp [txImage]

end

namespace Instance.TxReady

variable {x : Instance} {k : Nat} {f : Frame} (h : x.TxReady k f)
include h

theorem wordSize : 4 ≤ x.ws := (x.hwSlots_pos k h.slot).1

theorem notArmed : (x.slotState k).armed = false := (SlotState.quiescent_notArmed h.quiescent).1

theorem payload_wf (m : Nat) : Memory.wf (x.txPayload k f m).mem := Instance.setWords_wf _ _ _ _ h.inv.memory

theorem image_wf : Memory.wf (x.txImage k f).mem := Instance.setWord_wf _ _ _ (h.payload_wf _)

theorem payload_state {m : Nat} (hm : m ≤ payloadWords (x.bytes f)) :
    (x.txPayload k f m).slotState k = x.slotState k := by
  obtain ⟨hend, -⟩ := x.rxImage_fits h.slot h.fits
  exact Instance.slotState_setWords (x := x.setLocked none) h.inv.memory h.slot (by decide)
    (Nat.le_trans (Nat.add_le_add_left hm 2) hend) _

theorem image_state : (x.txImage k f).slotState k = x.slotState k := by
  have hws := h.wordSize
  have single := Instance.slotState_setWords (h.payload_wf (payloadWords (x.bytes f))) (k := k) (j := 1) (m := 1)
    (by simpa using h.slot) (by decide) (by simp; omega) fun _ => x.idWord f
  rw [txPayload_ws, h.payload_state (Nat.le_refl _)] at single
  exact single

/-- Line 2 of CFGTX. -/
theorem write_payload {m : Nat} (hm : m < payloadWords (x.bytes f)) (d : Nat) :
    wordWrite ((x.txPayload k f m).driver.wordSize.getD 0 * k + 2 + m)
      ((pack f.data (x.bytes f)).getD m 0) d (x.txPayload k f m) = .ok () (x.txPayload k f (m + 1)) 0 := by
  obtain ⟨hend, -⟩ := x.rxImage_fits h.slot h.fits
  have stored := wordWrite_behind (x := x.txPayload k f m) (k := k) (j := 2 + m) (by simpa using h.slot)
    (by simp; omega) (by omega) (by rw [h.payload_state (Nat.le_of_lt hm), h.notArmed]) (packWord f.data (x.bytes f) 0 m) d
  have hplace : wordAddr x.ws k (2 + m) = wordAddr x.ws k 2 + m := (Nat.add_assoc ..).symm
  rw [txPayload_driver, pack_getD f.data hm, Nat.add_assoc, Instance.driver_word h.driver]
  rw [txPayload_ws] at stored
  rw [stored, hplace]
  rfl

/-- Line 3 of CFGTX. -/
theorem write_id (d : Nat) :
    wordWrite ((x.txPayload k f (payloadWords (x.bytes f))).driver.wordSize.getD 0 * k + 1)
      ((x.txPayload k f (payloadWords (x.bytes f))).idWord f) d (x.txPayload k f (payloadWords (x.bytes f))) =
      .ok () (x.txImage k f) 0 := by
  have hws := h.wordSize
  have stored := wordWrite_behind (x := x.txPayload k f (payloadWords (x.bytes f))) (k := k) (j := 1)
    (by simpa using h.slot) (by simp; omega) (by decide) (by rw [h.payload_state (Nat.le_refl _), h.notArmed])
    (x.idWord f) d
  rw [txPayload_driver, txPayload_idWord, Instance.driver_word h.driver]
  rw [txPayload_ws] at stored
  exact stored

/-- Line 4 of CFGTX arms the slot without a preemption (43_mb_hardware.md R222, R243). -/
theorem write_control (d : Nat) :
    wordWrite ((x.txImage k f).driver.wordSize.getD 0 * k) (encodeControl 0xC f) d (x.txImage k f) =
      .ok () (x.txArmed k f) 0 := by
  have hws := h.wordSize
  have hcode : codeOf (encodeControl 0xC f) = 0xC#4 := codeOf_encodeControl ..
  have hslot : (x.txImage k f).slotOf (wordAddr x.ws k 0) = some (k, 0) := by
    have place := (x.txImage k f).slotOf_wordAddr k 0 (by simpa using h.slot) (by simp; omega)
    rwa [txImage_ws] at place
  have hadm : admission (x.txImage k f).params.abortPreempts ((x.txImage k f).slotState k) (codeOf (encodeControl 0xC f)) =
      .yes := by
    have hmem : x.slotState k ∈ [SlotState.inactiveRx, .inactiveTx, .aborted, .abortPending] :=
      List.mem_append_left [SlotState.abortPending] h.quiescent
    rw [hcode, admission_send, h.image_state, if_pos hmem, if_neg (SlotState.quiescent_notArmed h.quiescent).2]
  have hplace : (x.txImage k f).driver.wordSize.getD 0 * k = wordAddr x.ws k 0 := by
    rw [txImage_driver]
    exact Instance.driver_word h.driver k 0
  rw [hplace, wordWrite_control hslot]
  refine (codeWrite_ok ..).2 ⟨by rw [hcode]; rfl, .inl ⟨hadm, ?_, rfl⟩⟩
  rw [h.image_state]
  rfl

/-! What CFGTX leaves (44_driver_ops.md R279). -/

theorem stored : (x.txImage k f).ControlStored (x.txArmed k f) k (encodeControl 0xC f) :=
  Instance.storeCode_stored _ k _ _ (by simpa using h.slot) h.image_wf

theorem armed_ws : (x.txArmed k f).ws = x.ws := by
  rw [Instance.ws, h.stored.fields, txImage_fields]
  rfl

theorem armed_state : (x.txArmed k f).slotState k = .send := by
  have hcode : (x.txArmed k f).code k = codeOf (encodeControl 0xC f) :=
    Instance.storeCode_code _ k _ _ (by simpa using h.slot) h.image_wf
  obtain ⟨-, -, -, -, -, -, send⟩ := (x.txArmed k f).slotState_code k
  exact send.2 (hcode.trans (codeOf_encodeControl ..))

/-- The words after CFGTX (41_frame_mapper.md R177 to R180). -/
theorem armed_word (u : Nat) : (x.txArmed k f).word u =
    if u = wordAddr x.ws k 0 then encodeControl 0xC f
    else if u = wordAddr x.ws k 1 then x.idWord f
    else if wordAddr x.ws k 2 ≤ u ∧ u < wordAddr x.ws k 2 + payloadWords (x.bytes f) then
      packWord f.data (x.bytes f) 0 (u - wordAddr x.ws k 2)
    else x.word u := by
  have hws := h.wordSize
  obtain ⟨-, hend⟩ := x.rxImage_fits h.slot h.fits
  rw [h.stored.words, txImage_ws, txImage, Instance.word_setWord _ _ _ _ (x.wordAddr_lt k 1 h.slot (by omega)) (h.payload_wf _),
    txPayload, (x.setLocked none).word_setWords _ _ _ _ hend h.inv.memory]
  rfl

theorem armed_other {w : Nat} (hw : ∀ j, x.slotOf w ≠ some (k, j)) : (x.txArmed k f).word w = x.word w := by
  have hws := h.wordSize
  obtain ⟨hend, -⟩ := x.rxImage_fits h.slot h.fits
  have outside (j : Nat) (hj : j < x.ws) : w ≠ wordAddr x.ws k j := by
    rintro rfl
    exact hw j (x.slotOf_wordAddr k j h.slot hj)
  have hpay : ¬(wordAddr x.ws k 2 ≤ w ∧ w < wordAddr x.ws k 2 + payloadWords (x.bytes f)) := by
    rintro ⟨h1, h2⟩
    simp only [wordAddr] at h1 h2
    exact outside (w - k * x.ws) (by omega) (by simp only [wordAddr]; omega)
  rw [h.armed_word, if_neg (outside 0 (by omega)), if_neg (outside 1 (by omega)), if_neg hpay]

/-- Decoding the slot gives the frame back (44_driver_ops.md R290; 41_frame_mapper.md R185). -/
theorem armed_decode (hw : f.wellFormed = true) :
    { (x.txArmed k f).decodeSlot k with data := f.data } = f ∧
      ∀ j, j < x.bytes f → ((x.txArmed k f).decodeSlot k).data.toList.getD j 0 = f.data.toList.getD j 0 := by
  have hws := h.armed_ws
  have hbytes : (x.txArmed k f).bytes f = x.bytes f := by rw [Instance.bytes, h.stored.params, txImage_params]; rfl
  have hctrl : (x.txArmed k f).ctrl k = encodeControl 0xC f := by rw [Instance.ctrl, hws, h.armed_word, if_pos rfl]
  have hbits : { CtrlBits.ofWord ((x.txArmed k f).ctrl k) with low := 0 } = f.ctrlBits := by
    rw [hctrl, ofWord_encodeControl]
    rfl
  have hid : (x.txArmed k f).word (wordAddr (x.txArmed k f).ws k 1) = (x.txArmed k f).idWord f := by
    rw [hws, h.armed_word, if_neg (by simp [wordAddr]), if_pos rfl, Instance.idWord, Instance.idWord, h.stored.params,
      txImage_params]
  refine ⟨Instance.decodeSlot_encoded hbits hid hw, fun j hj => ?_⟩
  have hj64 : j < 64 := Nat.lt_of_lt_of_le hj (dlcBytes_le ..)
  have hfit : (x.txArmed k f).bytes f ≤ capacity (x.txArmed k f).ws := by rw [hbytes, hws]; exact h.fits
  have hplace : wordAddr x.ws k (2 + j / 4) = wordAddr x.ws k 2 + j / 4 := by simp only [wordAddr, Nat.add_assoc]
  have hlt : j / 4 < payloadWords (x.bytes f) := by unfold payloadWords; omega
  rw [Instance.decodeSlot_data _ _ hj64, Instance.slotBytes_encoded hbits hfit, hbytes, if_pos hj, hws, hplace, h.armed_word,
    if_neg (by simp only [wordAddr]; omega), if_neg (by simp only [wordAddr]; omega), if_pos (by omega),
    Nat.add_sub_cancel_left, wordByte_packWord _ _ _ (Nat.mod_lt j (by decide)), Nat.div_add_mod, laneByte, if_pos hj]

/-- No slot's hidden state changes: the armed one had no abort pending. -/
theorem armed_hidden (i : Nat) : (x.txArmed k f).hidden.slot i = x.hidden.slot i := by
  have hslots (i : Nat) : (x.txImage k f).hidden.slot i = x.hidden.slot i := by rw [txImage_hidden]; rfl
  have before : (x.txImage k f).abortPending k = false := by
    rw [Instance.abortPending, hslots]
    exact h.inv.abortPending_eq_false (SlotState.quiescent_notArmed h.quiescent).2
  have after : (x.txArmed k f).abortPending k = false := by
    rw [txArmed, Instance.storeCode_abortPending _ _ _ _ (by simpa using h.slot), codeOf_encodeControl]
    rfl
  rw [h.stored.hidden_slot before after, hslots]

end Instance.TxReady

end Sys2Proof.Machine

end

section
/-! Proofs about the driver operations (44_driver_ops.md R278, R279): the run of CFGTX. -/

namespace Sys2Proof.Machine

/-- Where CFGTX stands when it has written `k` of `n` payload words; `c` is the control word it read. -/
def cfgTxPos (c : Word) (n k : Nat) : Pos :=
  if k < n then { pc := 2, val := c, idx := k } else { pc := 3, val := c, idx := n - 1 }

theorem cfgTxPos_zero (c : Word) (n : Nat) : { pc := if n = 0 then 3 else 2, val := c } = cfgTxPos c n 0 := by
  cases n <;> rfl

theorem cfgTxPos_lt (c : Word) {n k : Nat} (hk : k < n) : cfgTxPos c n k = { pc := 2, val := c, idx := k } := if_pos hk

theorem cfgTxPos_succ (c : Word) {n k : Nat} (hk : k < n) :
    (if k + 1 < n then { pc := 2, val := c, idx := k + 1 } else { pc := 3, val := c, idx := k }) = cfgTxPos c n (k + 1) := by
  unfold cfgTxPos
  split
  next => rfl
  next hlast =>
    obtain rfl : k = n - 1 := by omega
    rfl

theorem cfgTxPos_end (c : Word) (n : Nat) : cfgTxPos c n n = { pc := 3, val := c, idx := n - 1 } := if_neg (Nat.lt_irrefl n)

section
variable {s : State} {inst slot : BitVec 8} {r : FrameRec} {f : Frame} {x : Instance} {as : List Activation}
  {rest : List Request}

/-- CFGTX starts, and its arguments pass the checks (44_driver_ops.md R270, R278). -/
theorem leads_cfgTx_start (h : x.TxReady slot.toNat f) (hf : r.frame? = some f) :
    Leads [.host] (s.At inst.toNat x [] (encode (.cfgTx inst slot (some r)) :: rest))
      (s.At inst.toNat x [⟨.cfgTx inst slot (some r), { pc := 1 }⟩] rest) :=
  leads_fetch rfl fun t ht => by
    obtain ⟨hdlc, hid, hedl, hcode, -⟩ := FrameRec.frame?_eq_some hf
    have fits : dlcBytes x.params.dlcMap r.edl (r.dlc.setWidth 4) ≤ (x.ws - 2) * 4 := by
      rw [hedl, hcode]
      exact h.fits
    obtain ⟨l, -⟩ := cfgTx.2 inst slot (some r) t x ht.present
    have line := (l (by rw [ht.pos_start]) x.ws _ h.driver (h.inv.driver_slotRange h.driver)
      (Instance.lt_slotRange h.slot)).2 r rfl
    rw [if_pos ⟨hdlc, hid, fits⟩] at line
    exact ⟨_, line, ht.goto _ (by rw [ht.pos_start])⟩

/-- Line 1 of CFGTX reads the control word of a quiescent slot. -/
theorem leads_cfgTx_read (h : x.TxReady slot.toNat f) (hf : r.frame? = some f) :
    Leads [.host] (s.At inst.toNat x (⟨.cfgTx inst slot (some r), { pc := 1 }⟩ :: as) rest)
      (s.At inst.toNat (x.txPayload slot.toNat f 0)
        (⟨.cfgTx inst slot (some r), cfgTxPos (x.ctrl slot.toNat) (payloadWords (x.bytes f)) 0⟩ :: as) rest) :=
  leads_host fun t ht => by
    obtain ⟨-, lines⟩ := cfgTx.2 inst slot (some r) t x ht.present
    obtain ⟨l, -⟩ := lines r f rfl hf
    have read := wordRead_unlocks h.inv h.slot t.draws h.notArmed
    rw [← Instance.driver_word h.driver] at read
    have line := l (by rw [ht.pos]) _ _ _ read
    have ready : (x.ctrl slot.toNat).extractLsb' 24 4 ∈ [0x0#4, 0x8#4, 0x9#4] := Instance.quiescent_code h.quiescent
    rw [if_pos ready, ht.pos] at line
    exact ⟨_, line, (ht.commit _ 0).goto _ (cfgTxPos_zero _ (payloadWords (x.bytes f)))⟩

/-- Line 2 of CFGTX writes a payload word. -/
theorem leads_cfgTx_word (h : x.TxReady slot.toNat f) (hf : r.frame? = some f) (c : Word) {k : Nat}
    (hk : k < payloadWords (x.bytes f)) :
    Leads [.host]
      (s.At inst.toNat (x.txPayload slot.toNat f k)
        (⟨.cfgTx inst slot (some r), cfgTxPos c (payloadWords (x.bytes f)) k⟩ :: as) rest)
      (s.At inst.toNat (x.txPayload slot.toNat f (k + 1))
        (⟨.cfgTx inst slot (some r), cfgTxPos c (payloadWords (x.bytes f)) (k + 1)⟩ :: as) rest) :=
  leads_host fun t ht => by
    obtain ⟨-, lines⟩ := cfgTx.2 inst slot (some r) t _ ht.present
    obtain ⟨-, l, -⟩ := lines r f rfl hf
    rw [ht.pos, Instance.txPayload_bytes, ← payloadWords, cfgTxPos_lt c hk] at l
    have line := l rfl _ 0 (h.write_payload hk t.draws) hk
    exact ⟨_, line, (ht.commit _ 0).goto _ (cfgTxPos_succ c hk)⟩

/-- Lines 3 and 4 of CFGTX write the ID word and the control word. -/
theorem leads_cfgTx_finish (h : x.TxReady slot.toNat f) (hf : r.frame? = some f) (c : Word) (j : Nat) :
    Leads [.host, .host]
      (s.At inst.toNat (x.txPayload slot.toNat f (payloadWords (x.bytes f)))
        (⟨.cfgTx inst slot (some r), { pc := 3, val := c, idx := j }⟩ :: as) rest)
      (fun t => s.At inst.toNat (x.txArmed slot.toNat f) as rest t ∧
        t.lastReturn = some ⟨.cfgTx inst slot (some r), .success, .none⟩) := by
  have line3 : Leads [.host]
      (s.At inst.toNat (x.txPayload slot.toNat f (payloadWords (x.bytes f)))
        (⟨.cfgTx inst slot (some r), { pc := 3, val := c, idx := j }⟩ :: as) rest)
      (s.At inst.toNat (x.txImage slot.toNat f) (⟨.cfgTx inst slot (some r), { pc := 4, val := c, idx := j }⟩ :: as) rest) :=
    leads_host fun t ht => by
      obtain ⟨-, lines⟩ := cfgTx.2 inst slot (some r) t _ ht.present
      obtain ⟨-, -, l, -⟩ := lines r f rfl hf
      rw [ht.pos] at l
      exact ⟨_, l rfl _ 0 (h.write_id t.draws), (ht.commit _ 0).goto _ rfl⟩
  refine line3.trans (leads_host fun t ht => ?_)
  obtain ⟨-, lines⟩ := cfgTx.2 inst slot (some r) t _ ht.present
  obtain ⟨-, -, -, l, -⟩ := lines r f rfl hf
  rw [ht.pos] at l
  exact ⟨_, l rfl _ 0 (h.write_control t.draws), (ht.commit _ 0).ret _ _, State.ret_success_lastReturn ..⟩

/-- CFGTX run to its end. -/
theorem leads_cfgTx (h : x.TxReady slot.toNat f) (hf : r.frame? = some f) :
    Leads (List.replicate (payloadWords (x.bytes f) + 4) .host)
      (s.At inst.toNat x [] (encode (.cfgTx inst slot (some r)) :: rest))
      (fun t => s.At inst.toNat (x.txArmed slot.toNat f) [] rest t ∧
        t.lastReturn = some ⟨.cfgTx inst slot (some r), .success, .none⟩) := by
  have events : List.replicate (payloadWords (x.bytes f) + 4) Event.host =
      [.host] ++ ([.host] ++ (List.replicate (payloadWords (x.bytes f)) .host ++ [.host, .host])) := by
    rw [show payloadWords (x.bytes f) + 4 = 1 + (1 + (payloadWords (x.bytes f) + 2)) by omega, List.replicate_add,
      List.replicate_add, List.replicate_add]
    rfl
  have payload := Leads.loop fun k hk =>
    leads_cfgTx_word (s := s) (inst := inst) (as := []) (rest := rest) h hf (x.ctrl slot.toNat) (k := k) hk
  rw [cfgTxPos_end] at payload
  rw [events]
  exact (leads_cfgTx_start h hf).trans ((leads_cfgTx_read h hf).trans (payload.trans (leads_cfgTx_finish h hf _ _)))

end

end Sys2Proof.Machine

open Sys2Proof Sys2Proof.Machine

/-- Settles O47: each line of CFGTX leads to the next, and the words it leaves decode to the frame. -/
theorem cfgTxRoundTrip : Obligations.CfgTxRoundTrip := by
  intro inst slot r f s es rest x hf hh hm hp hs hx hinv hd hk hr hfit hq
  have ready : x.TxReady slot.toNat f := ⟨hinv, hd, hk, hfit, hq⟩
  obtain ⟨-, -, -, -, hw⟩ := FrameRec.frame?_eq_some hr
  have start := State.At.start hx hf hh
  rw [hm, hp] at start
  obtain ⟨t, run, ⟨stage, ret⟩, sched⟩ := leads_cfgTx ready hr s es start hs
  rw [List.length_replicate] at run
  obtain ⟨fields, payload⟩ := ready.armed_decode hw
  have stored := ready.stored
  refine ⟨t, x.txArmed slot.toNat f, run, stage.insts, stage.mainline, stage.handlers, stage.fault, stage.program, sched, ret,
    ready.armed_state, ?_, fun w hw => ready.armed_other hw, ?_⟩
  · obtain ⟨h1, h2, h3, h4, h5, h6, h7, -⟩ := Frame.mk.inj fields
    exact ⟨h1, h2, h3, h4, h5, h6, h7, payload⟩
  · refine ⟨stored.fields.trans ?_, ready.armed_hidden, ?_, stored.held.trans ?_, stored.bus.trans ?_, stored.driver.trans ?_,
      stored.line.trans ?_, stored.params.trans ?_⟩
    case refine_2 => rw [stored.lock]; simp
    all_goals simp

end

section
/-! Proofs about the driver operations (44_driver_ops.md R281): CFGRX run to its end. -/

namespace Sys2Proof.Machine

/-! ### The stages of CFGRX -/

/-- What CFGRX asks of a slot that it need not make inactive first (44_driver_ops.md R281). -/
structure Instance.RxReady (x : Instance) (k : Nat) : Prop where
  inv : x.Inv
  driver : x.driver.wordSize = some x.ws
  slot : k < x.hwSlots
  inactive : x.slotState k = .inactiveRx

theorem codeOf_armRxWord (ide : Bool) : codeOf (armRxWord ide) = 0x4#4 := by
  cases ide <;> decide

/-- The controller when CFGRX has set the mask and left freeze. -/
def Instance.rxOpen (x : Instance) (mask : Word) : Instance :=
  (x.setLocked none).setFields
    { x.fields with frz := 0, halt := 0, frzack := 0, notrdy := 0, synch := 0, rxmgmask := mask }

/-- The controller when CFGRX has written the filter. -/
def Instance.rxFiltered (x : Instance) (k : Nat) (filter mask : Word) : Instance :=
  (x.rxOpen mask).setWord (wordAddr x.ws k 1) filter

/-- The controller when CFGRX is done. -/
def Instance.rxArmed (x : Instance) (k : Nat) (filter mask : Word) : Instance :=
  (x.rxFiltered k filter mask).storeCode k (armRxWord x.params.rxIde) .inactiveRx

namespace Instance.RxReady

variable {x : Instance} {k : Nat} {filter mask : Word} (h : x.RxReady k)
include h

theorem wordSize : 4 ≤ x.ws := (x.hwSlots_pos k h.slot).1

theorem filtered_slot : k < (x.rxFiltered k filter mask).hwSlots := h.slot

theorem code : x.code k = 0x0#4 := (x.slotState_code k).1.1 h.inactive

/-- Line 1 of CFGRX. -/
theorem read_control (d : Nat) :
    wordRead (x.driver.wordSize.getD 0 * k) d x = .ok (x.ctrl k) (x.setLocked none) 0 := by
  have read := wordRead_unlocks h.inv h.slot d (by rw [h.inactive]; rfl)
  rwa [← Instance.driver_word h.driver] at read

/-- Line 6 of CFGRX. -/
theorem write_id (d : Nat) :
    wordWrite ((x.rxOpen mask).driver.wordSize.getD 0 * k + 1) filter d (x.rxOpen mask) =
      .ok () (x.rxFiltered k filter mask) 0 := by
  have hws := h.wordSize
  have stored := wordWrite_behind (x := x.rxOpen mask) (k := k) (j := 1) h.slot (show 1 < x.ws by omega) (by decide)
    (by rw [show (x.rxOpen mask).slotState k = .inactiveRx from h.inactive]; rfl) filter d
  rw [Instance.driver_word (x := x.rxOpen mask) h.driver]
  exact stored

theorem filtered_state : (x.rxFiltered k filter mask).slotState k = .inactiveRx := by
  have hws := h.wordSize
  have single := Instance.slotState_setWords (x := x.rxOpen mask) h.inv.memory (k := k) (j := 1) (m := 1) h.slot (by decide)
    (show 1 + 1 ≤ x.ws by omega) fun _ => filter
  exact single.trans h.inactive

theorem filtered_wf : Memory.wf (x.rxFiltered k filter mask).mem := Instance.setWord_wf _ _ _ h.inv.memory

/-- Line 7 of CFGRX arms the slot (43_mb_hardware.md R222, R240). -/
theorem write_control (d : Nat) :
    wordWrite ((x.rxFiltered k filter mask).driver.wordSize.getD 0 * k) (armRxWord (x.rxFiltered k filter mask).params.rxIde) d
      (x.rxFiltered k filter mask) = .ok () (x.rxArmed k filter mask) 0 := by
  have hws := h.wordSize
  have hslot : (x.rxFiltered k filter mask).slotOf (wordAddr x.ws k 0) = some (k, 0) :=
    x.slotOf_wordAddr k 0 h.slot (by omega)
  have hplace : (x.rxFiltered k filter mask).driver.wordSize.getD 0 * k = wordAddr x.ws k 0 :=
    Instance.driver_word h.driver k 0
  rw [hplace, wordWrite_control hslot]
  refine (codeWrite_ok ..).2 ⟨by rw [codeOf_armRxWord]; rfl, .inl ⟨?_, by rw [h.filtered_state]; rfl, rfl⟩⟩
  rw [codeOf_armRxWord, admission_receiveEmpty, if_pos h.filtered_state]

/-! What CFGRX leaves. -/

theorem stored :
    (x.rxFiltered k filter mask).ControlStored (x.rxArmed k filter mask) k (armRxWord x.params.rxIde) :=
  Instance.storeCode_stored _ k _ _ h.filtered_slot h.filtered_wf

theorem armed_word (u : Nat) : (x.rxArmed k filter mask).word u =
    if u = wordAddr x.ws k 0 then armRxWord x.params.rxIde else if u = wordAddr x.ws k 1 then filter else x.word u := by
  have hws := h.wordSize
  rw [h.stored.words, rxFiltered, (x.rxOpen mask).word_setWord _ _ _ (x.wordAddr_lt k 1 h.slot (by omega)) h.inv.memory]
  rfl

theorem armed_state : (x.rxArmed k filter mask).slotState k = .receiveEmpty := by
  have idle : (x.rxArmed k filter mask).busy k = false :=
    h.stored.reception.1.trans (h.inv.busy_eq_false (by simp [h.inactive]))
  refine Instance.slotState_receiveEmpty.2 ⟨?_, idle⟩
  exact (Instance.storeCode_code _ k _ _ h.filtered_slot h.filtered_wf).trans (codeOf_armRxWord _)

theorem armed_hidden (i : Nat) : (x.rxArmed k filter mask).hidden.slot i = x.hidden.slot i := by
  have before : (x.rxFiltered k filter mask).abortPending k = false :=
    h.inv.abortPending_eq_false (by simp [h.inactive])
  have after : (x.rxArmed k filter mask).abortPending k = false := by
    rw [rxArmed, Instance.storeCode_abortPending _ _ _ _ h.filtered_slot, codeOf_armRxWord, if_pos (.inl rfl), before]
  exact h.stored.hidden_slot before after i

end Instance.RxReady

/-! ### The run of CFGRX -/

section
variable {s : State} {inst slot : BitVec 8} {filter mask : Word} {x : Instance} {as : List Activation} {rest : List Request}

/-- CFGRX starts and reads the control word of an inactive slot (44_driver_ops.md R270, R281). -/
theorem leads_cfgRx_start (h : x.RxReady slot.toNat) (hid : filter.toNat < 2 ^ 29) :
    Leads [.host, .host] (s.At inst.toNat x [] (encode (.cfgRx inst slot filter mask) :: rest))
      (s.At inst.toNat (x.setLocked none) [⟨.cfgRx inst slot filter mask, { pc := 3, val := x.ctrl slot.toNat }⟩] rest) := by
  have line0 : Leads [.host] (s.At inst.toNat x [] (encode (.cfgRx inst slot filter mask) :: rest))
      (s.At inst.toNat x [⟨.cfgRx inst slot filter mask, { pc := 1 }⟩] rest) :=
    leads_fetch rfl fun t ht => by
      obtain ⟨l, -⟩ := cfgRx.2 inst slot filter mask t x ht.present
      have line := l (by rw [ht.pos_start]) x.ws _ h.driver (h.inv.driver_slotRange h.driver) (Instance.lt_slotRange h.slot)
      rw [if_neg (Nat.not_le.2 hid)] at line
      exact ⟨_, line, ht.goto _ (by rw [ht.pos_start])⟩
  refine line0.trans (leads_host fun t ht => ?_)
  obtain ⟨-, l, -⟩ := cfgRx.2 inst slot filter mask t x ht.present
  have line := l (by rw [ht.pos]) _ _ _ (h.read_control t.draws)
  have inactive : (x.ctrl slot.toNat).extractLsb' 24 4 = 0x0#4 := h.code
  rw [if_pos inactive] at line
  exact ⟨_, line, (ht.commit _ 0).goto _ (by rw [ht.pos])⟩

/-- Lines 3 to 5 of CFGRX set the mask inside the freeze bracket (44_driver_ops.md R281). -/
theorem leads_cfgRx_mask (hb : s.params.spinBudget = .unbounded) (hm : x.fields.mdis = 0) (hack : x.fields.frzack = 0)
    (c : Word) :
    Leads ([.host] ++ [.host, .host, .host, .freezeAck inst.toNat, .host] ++ [.host] ++ [.host] ++
        [.host, .host, .host, .freezeExit inst.toNat, .host, .host])
      (s.At inst.toNat (x.setLocked none) (⟨.cfgRx inst slot filter mask, { pc := 3, val := c }⟩ :: as) rest)
      (s.At inst.toNat (x.rxOpen mask) (⟨.cfgRx inst slot filter mask, { pc := 6, val := c }⟩ :: as) rest) := by
  let i := Instr.cfgRx inst slot filter mask
  let z := x.setLocked none
  let frozen := z.setFields { z.fields with frz := 1, halt := 1, frzack := 1, notrdy := 1, synch := 0 }
  let masked := frozen.setFields { frozen.fields with rxmgmask := mask }
  have line3 : Leads [.host] (s.At inst.toNat z (⟨i, { pc := 3, val := c }⟩ :: as) rest)
      (s.At inst.toNat z (⟨.frzEnter inst, {}⟩ :: ⟨i, { pc := 4, val := c }⟩ :: as) rest) :=
    leads_host fun t ht => by
      obtain ⟨-, -, -, l, -⟩ := cfgRx.2 inst slot filter mask t z ht.present
      exact ⟨_, l (by rw [ht.pos]), ht.call i _ (by rw [ht.pos])⟩
  have line4 : Leads [.host] (s.At inst.toNat frozen (⟨i, { pc := 4, val := c }⟩ :: as) rest)
      (s.At inst.toNat masked (⟨i, { pc := 5, val := c }⟩ :: as) rest) :=
    leads_host fun t ht => by
      obtain ⟨-, -, -, -, l, -⟩ := cfgRx.2 inst slot filter mask t frozen ht.present
      exact ⟨_, l (by rw [ht.pos]) rfl, (ht.setInst masked).goto i (by rw [ht.pos])⟩
  have line5 : Leads [.host] (s.At inst.toNat masked (⟨i, { pc := 5, val := c }⟩ :: as) rest)
      (s.At inst.toNat masked (⟨.frzExit inst, {}⟩ :: ⟨i, { pc := 6, val := c }⟩ :: as) rest) :=
    leads_host fun t ht => by
      obtain ⟨-, -, -, -, -, l, -⟩ := cfgRx.2 inst slot filter mask t masked ht.present
      exact ⟨_, l (by rw [ht.pos]), ht.call i _ (by rw [ht.pos])⟩
  exact (((line3.trans (leads_frzEnter hb hm hack)).trans line4).trans line5).trans (leads_frzExit hb hm rfl)

/-- Lines 6 and 7 of CFGRX write the filter and arm the slot. -/
theorem leads_cfgRx_finish (h : x.RxReady slot.toNat) (c : Word) :
    Leads [.host, .host]
      (s.At inst.toNat (x.rxOpen mask) (⟨.cfgRx inst slot filter mask, { pc := 6, val := c }⟩ :: as) rest)
      (fun t => s.At inst.toNat (x.rxArmed slot.toNat filter mask) as rest t ∧
        t.lastReturn = some ⟨.cfgRx inst slot filter mask, .success, .none⟩) := by
  have line6 : Leads [.host]
      (s.At inst.toNat (x.rxOpen mask) (⟨.cfgRx inst slot filter mask, { pc := 6, val := c }⟩ :: as) rest)
      (s.At inst.toNat (x.rxFiltered slot.toNat filter mask)
        (⟨.cfgRx inst slot filter mask, { pc := 7, val := c }⟩ :: as) rest) :=
    leads_host fun t ht => by
      obtain ⟨-, -, -, -, -, -, l, -⟩ := cfgRx.2 inst slot filter mask t _ ht.present
      exact ⟨_, l (by rw [ht.pos]) _ 0 (h.write_id t.draws), (ht.commit _ 0).goto _ (by rw [ht.pos])⟩
  refine line6.trans (leads_host fun t ht => ?_)
  obtain ⟨-, -, -, -, -, -, -, l, -⟩ := cfgRx.2 inst slot filter mask t _ ht.present
  exact ⟨_, l (by rw [ht.pos]) _ 0 (by rw [← armRxWord_eq]; exact h.write_control t.draws), (ht.commit _ 0).ret _ _,
    State.ret_success_lastReturn ..⟩

end

end Sys2Proof.Machine

open Sys2Proof Sys2Proof.Machine

/-- Settles O49: the lines of CFGRX, with the freeze handshake where its calls wait for it. -/
theorem cfgRxRun : Obligations.CfgRxRun := by
  intro inst slot filter mask s es rest x n i events hf hh hm hp hs hb hx hinv hmdis hack hd hk hq hid
  have ready : x.RxReady slot.toNat := ⟨hinv, hd, hk, hq⟩
  have start := State.At.start hx hf hh
  rw [hm, hp] at start
  obtain ⟨t, run, ⟨stage, ret⟩, sched⟩ :=
    ((leads_cfgRx_start ready hid).trans ((leads_cfgRx_mask hb hmdis hack _).trans (leads_cfgRx_finish ready _)))
      s es start hs
  have stored := ready.stored (filter := filter) (mask := mask)
  have hne : wordAddr x.ws slot.toNat 1 ≠ wordAddr x.ws slot.toNat 0 := by simp [wordAddr]
  refine ⟨t, x.rxArmed slot.toNat filter mask, run, stage.insts, stage.mainline, stage.handlers, stage.fault, stage.program,
    sched, ret, ready.armed_state, ?_, ?_, fun w h0 h1 => ?_, stored.fields, ready.armed_hidden, stored.lock.trans (ite_self _),
    stored.held, stored.driver, stored.bus, stored.line, stored.params⟩
  · rw [ready.armed_word, if_pos rfl, armRxWord_eq]
  · rw [ready.armed_word, if_neg hne, if_pos rfl]
  · rw [ready.armed_word, if_neg h0, if_neg h1]

end

section
/-! Proofs about the driver operations (44_driver_ops.md R287, R288): a reception and RECV run to its end. -/

namespace Sys2Proof.Machine

/-! ### A slot that RECV reads -/

/-- What RECV asks of a slot whose frame it returns (44_driver_ops.md R287). -/
structure Instance.RecvReady (x : Instance) (k : Nat) : Prop where
  inv : x.Inv
  driver : x.driver.wordSize = some x.ws
  slot : k < x.hwSlots
  full : x.slotState k = .receiveEmpty
  fits : ctrlBytes x.params.dlcMap (x.ctrl k) ≤ capacity x.ws

/-- The first `m` payload words of slot `k`. -/
def Instance.payload (x : Instance) (k m : Nat) : List Word := (List.range m).map fun p => x.word (wordAddr x.ws k (2 + p))

theorem Instance.payload_succ (x : Instance) (k m : Nat) :
    x.payload k (m + 1) = x.payload k m ++ [x.word (wordAddr x.ws k (2 + m))] := by
  rw [payload, List.range_succ, List.map_append]
  rfl

/-- The number of payload words RECV reads from slot `k`. -/
def Instance.heldWords (x : Instance) (k : Nat) : Nat := payloadWords (ctrlBytes x.params.dlcMap (x.ctrl k))

/-- Where RECV stands when it has read `m` payload words. -/
def Instance.recvPos (x : Instance) (k m : Nat) : Pos :=
  if m < x.heldWords k then
    { pc := 3, val := x.ctrl k, idw := x.word (wordAddr x.ws k 1), idx := m, words := x.payload k m }
  else { pc := 4, val := x.ctrl k, idw := x.word (wordAddr x.ws k 1), idx := x.heldWords k - 1, words := x.payload k m }

section
variable (x : Instance) {k m : Nat}

theorem Instance.recvPos_zero (k : Nat) :
    { pc := if x.heldWords k = 0 then 4 else 3, val := x.ctrl k, idw := x.word (wordAddr x.ws k 1) } = x.recvPos k 0 := by
  unfold recvPos
  cases x.heldWords k <;> rfl

theorem Instance.recvPos_lt (hm : m < x.heldWords k) : x.recvPos k m =
    { pc := 3, val := x.ctrl k, idw := x.word (wordAddr x.ws k 1), idx := m, words := x.payload k m } := if_pos hm

theorem Instance.recvPos_succ (hm : m < x.heldWords k) :
    (let words := x.payload k m ++ [x.word (wordAddr x.ws k (2 + m))]
      if m + 1 < x.heldWords k then
        { pc := 3, val := x.ctrl k, idw := x.word (wordAddr x.ws k 1), idx := m + 1, words := words }
      else { pc := 4, val := x.ctrl k, idw := x.word (wordAddr x.ws k 1), idx := m, words := words }) =
      x.recvPos k (m + 1) := by
  rw [recvPos, payload_succ]
  split
  next => rfl
  next hlast =>
    obtain rfl : m = x.heldWords k - 1 := by omega
    rfl

theorem Instance.recvPos_end : x.recvPos k (x.heldWords k) =
    { pc := 4, val := x.ctrl k, idw := x.word (wordAddr x.ws k 1), idx := x.heldWords k - 1,
      words := x.payload k (x.heldWords k) } := if_neg (Nat.lt_irrefl _)

end

namespace Instance.RecvReady

variable {x : Instance} {k : Nat} (h : x.RecvReady k)
include h

theorem wordSize : 4 ≤ x.ws := (x.hwSlots_pos k h.slot).1

theorem idle : x.busy k = false := h.inv.busy_eq_false (by simp [h.full])

theorem code : x.code k = 0x4#4 := (Instance.slotState_receiveEmpty.1 h.full).1

theorem payload_in {m : Nat} (hm : m < x.heldWords k) : 2 + m < x.ws := by
  have := h.fits
  simp only [heldWords, payloadWords, capacity] at *
  omega

/-- Line 1 of RECV takes the lock (43_mb_hardware.md R235). -/
theorem read_control (d : Nat) :
    wordRead (x.driver.wordSize.getD 0 * k) d x = .ok (x.ctrl k) (x.setLocked (some k)) 0 := by
  have hws := h.wordSize
  have hs := x.slotOf_wordAddr k 0 h.slot (by omega)
  have hplace : x.driver.wordSize.getD 0 * k = wordAddr x.ws k 0 := Instance.driver_word h.driver k 0
  rw [hplace, wordRead_idle (Instance.slotOf_lt hs) hs h.idle, if_pos rfl, x.lockOnRead_eq, if_pos h.full]
  rfl

/-- Lines 2 and 3 of RECV read a word behind the control word. -/
theorem read_behind {j : Nat} (h0 : j ≠ 0) (hj : j < x.ws) (d : Nat) :
    wordRead (x.driver.wordSize.getD 0 * k + j) d (x.setLocked (some k)) =
      .ok (x.word (wordAddr x.ws k j)) (x.setLocked (some k)) 0 := by
  have hs : (x.setLocked (some k)).slotOf (wordAddr x.ws k j) = some (k, j) := x.slotOf_wordAddr k j h.slot hj
  rw [Instance.driver_word h.driver, wordRead_idle (Instance.slotOf_lt hs) hs h.idle, if_neg h0]
  rfl

/-- The bytes of the slot are those of its length code. -/
theorem slotBytes : x.slotBytes k = ctrlBytes x.params.dlcMap (x.ctrl k) := Nat.min_eq_left h.fits

end Instance.RecvReady

/-! ### The run of RECV -/

section
variable {s : State} {inst slot : BitVec 8} {x : Instance} {as : List Activation} {rest : List Request}

/-- RECV starts, and line 1 reads the control word and locks the slot. -/
theorem leads_recv_start (hb : s.params.spinBudget = .unbounded) (h : x.RecvReady slot.toNat) :
    Leads [.host, .host] (s.At inst.toNat x [] (encode (.recv inst slot) :: rest))
      (s.At inst.toNat (x.setLocked (some slot.toNat)) [⟨.recv inst slot, { pc := 2, val := x.ctrl slot.toNat }⟩] rest) := by
  have line0 : Leads [.host] (s.At inst.toNat x [] (encode (.recv inst slot) :: rest))
      (s.At inst.toNat x [⟨.recv inst slot, { pc := 1 }⟩] rest) :=
    leads_fetch rfl fun t ht => by
      obtain ⟨l, -⟩ := recv.2 inst slot t x ht.present
      exact ⟨_, l (by rw [ht.pos_start]) x.ws _ h.driver (h.inv.driver_slotRange h.driver) (Instance.lt_slotRange h.slot),
        ht.goto _ (by rw [ht.pos_start])⟩
  refine line0.trans (leads_host fun t ht => ?_)
  obtain ⟨-, l, -⟩ := recv.2 inst slot t x ht.present
  obtain ⟨-, -, -, l⟩ := l (by rw [ht.pos]) (by simp [ht.params, hb]) _ _ _ (h.read_control t.draws)
  have line := l h.code
  have fits : ¬(x.driver.wordSize.getD 0 - 2) * 4 < dlcBytes x.params.dlcMap ((x.ctrl slot.toNat).getLsbD 31)
      ((x.ctrl slot.toNat).extractLsb' 16 4) := by
    rw [h.driver]
    exact Nat.not_lt.2 h.fits
  rw [if_neg fits] at line
  exact ⟨_, line, (ht.commit _ 0).goto _ (by rw [ht.pos])⟩

/-- Line 2 of RECV reads the ID word. -/
theorem leads_recv_id (h : x.RecvReady slot.toNat) :
    Leads [.host]
      (s.At inst.toNat (x.setLocked (some slot.toNat))
        (⟨.recv inst slot, { pc := 2, val := x.ctrl slot.toNat }⟩ :: as) rest)
      (s.At inst.toNat (x.setLocked (some slot.toNat)) (⟨.recv inst slot, x.recvPos slot.toNat 0⟩ :: as) rest) :=
  leads_host fun t ht => by
    have hws := h.wordSize
    obtain ⟨-, -, l, -⟩ := recv.2 inst slot t _ ht.present
    rw [ht.pos] at l
    exact ⟨_, l rfl _ _ _ (h.read_behind (by decide) (by omega) t.draws), (ht.commit _ 0).goto _ (x.recvPos_zero _)⟩

/-- Line 3 of RECV reads a payload word. -/
theorem leads_recv_word (h : x.RecvReady slot.toNat) {m : Nat} (hm : m < x.heldWords slot.toNat) :
    Leads [.host]
      (s.At inst.toNat (x.setLocked (some slot.toNat)) (⟨.recv inst slot, x.recvPos slot.toNat m⟩ :: as) rest)
      (s.At inst.toNat (x.setLocked (some slot.toNat)) (⟨.recv inst slot, x.recvPos slot.toNat (m + 1)⟩ :: as) rest) :=
  leads_host fun t ht => by
    obtain ⟨-, -, -, l, -⟩ := recv.2 inst slot t _ ht.present
    rw [ht.pos, x.recvPos_lt hm] at l
    have line := l rfl _ _ _ (h.read_behind (Nat.ne_of_gt (by omega)) (h.payload_in hm) t.draws)
    exact ⟨_, line, (ht.commit _ 0).goto _ (x.recvPos_succ hm)⟩

/-- Line 4 of RECV unlocks, and the frame is that of the slot's words (41_frame_mapper.md R182). -/
theorem leads_recv_finish (h : x.RecvReady slot.toNat) :
    Leads [.host]
      (s.At inst.toNat (x.setLocked (some slot.toNat))
        (⟨.recv inst slot, x.recvPos slot.toNat (x.heldWords slot.toNat)⟩ :: as) rest)
      (fun t => s.At inst.toNat (x.setLocked none) as rest t ∧
        t.lastReturn = some ⟨.recv inst slot, .success, .frame (x.decodeSlot slot.toNat)⟩) :=
  leads_host fun t ht => by
    obtain ⟨-, -, -, -, l⟩ := recv.2 inst slot t _ ht.present
    rw [ht.pos, x.recvPos_end] at l
    have line := l rfl
    rw [if_pos rfl, if_pos rfl] at line
    refine ⟨_, line, (ht.commit (x.setLocked none) 1).ret _ _, ?_⟩
    rw [State.ret_success_lastReturn, Instance.decodeSlot, h.slotBytes]
    rfl

/-- RECV run to its end. -/
theorem leads_recv (hb : s.params.spinBudget = .unbounded) (h : x.RecvReady slot.toNat) :
    Leads (List.replicate (x.heldWords slot.toNat + 4) .host) (s.At inst.toNat x [] (encode (.recv inst slot) :: rest))
      (fun t => s.At inst.toNat (x.setLocked none) [] rest t ∧
        t.lastReturn = some ⟨.recv inst slot, .success, .frame (x.decodeSlot slot.toNat)⟩) := by
  have events : List.replicate (x.heldWords slot.toNat + 4) Event.host =
      [.host, .host] ++ ([.host] ++ (List.replicate (x.heldWords slot.toNat) .host ++ [.host])) := by
    rw [show x.heldWords slot.toNat + 4 = 2 + (1 + (x.heldWords slot.toNat + 1)) by omega, List.replicate_add,
      List.replicate_add, List.replicate_add]
    rfl
  rw [events]
  exact (leads_recv_start hb h).trans ((leads_recv_id h).trans
    ((Leads.loop fun _ => leads_recv_word h).trans (leads_recv_finish h)))

end

/-! ### A slot whose reception ended (43_mb_hardware.md R233; 41_frame_mapper.md R183) -/

/-- A time stamp in a control word leaves the bits above it. -/
theorem ofWord_stamped (w : Word) (t : BitVec 16) :
    { CtrlBits.ofWord ((w &&& ~~~0x0000FFFF#32) ||| t.setWidth 32) with low := 0 } =
      { CtrlBits.ofWord w with low := 0 } := by
  have dlc : ((w &&& ~~~0x0000FFFF#32) ||| t.setWidth 32).extractLsb' 16 4 = w.extractLsb' 16 4 := by
    apply BitVec.eq_of_getLsbD_eq
    intro i hi
    interval_cases i <;> simp
  simp only [CtrlBits.ofWord, dlc]
  simp

theorem Instance.setFlag_flag (x : Instance) {i : Nat} (hi : i < 32) : (x.setFlag i).fields.iflag.getLsbD i = true := by
  simp [slotBit, hi]

/-- The controller after a reception of `f` into slot `k` ended. -/
def Instance.received (x : Instance) (k : Nat) (f : Frame) (t : BitVec 16) (fill : Word) : Instance :=
  ((x.writeRxImage k f t fill).endRx k).setFlag k

section
variable {x : Instance} {k : Nat} {f : Frame} (t : BitVec 16) (fill : Word)

theorem Instance.received_ws : (x.received k f t fill).ws = x.ws := by
  rw [received, x.writeRxImage_eq]
  rfl

theorem Instance.received_hwSlots : (x.received k f t fill).hwSlots = x.hwSlots := by
  rw [received, x.writeRxImage_eq]
  rfl

theorem Instance.received_params : (x.received k f t fill).params = x.params := by
  rw [received, x.writeRxImage_eq]
  rfl

theorem Instance.received_driver : (x.received k f t fill).driver = x.driver := by
  rw [received, x.writeRxImage_eq]
  rfl

theorem Instance.received_bytes : (x.received k f t fill).bytes f = x.bytes f := by
  rw [Instance.bytes, Instance.received_params]
  rfl

end

section
variable {x : Instance} {k : Nat} {f : Frame} (t : BitVec 16) (fill : Word) (h : x.Inv) (hb : x.busy k = true)
  (hf : (x.hidden.slot k).rxInflight = some f)
include h hb hf

theorem Instance.Inv.inflight_fits : k < x.hwSlots ∧ f.wellFormed = true ∧ x.bytes f ≤ capacity x.ws := by
  obtain ⟨hk, -, g, hg, hw, hfit⟩ := h.busySlot k hb
  obtain rfl : g = f := Option.some.inj (hg.symm.trans hf)
  exact ⟨hk, hw, hfit⟩

theorem Instance.Inv.received_ctrl :
    (x.received k f t fill).ctrl k = (encodeControl 0x4 f &&& ~~~0x0000FFFF#32) ||| t.setWidth 32 := by
  obtain ⟨hk, -, hfit⟩ := h.inflight_fits hb hf
  rw [Instance.ctrl, Instance.received_ws]
  exact Instance.writeRxImage_control t fill h.memory hk hfit

theorem Instance.Inv.received_bits : { CtrlBits.ofWord ((x.received k f t fill).ctrl k) with low := 0 } = f.ctrlBits := by
  rw [h.received_ctrl t fill hb hf, ofWord_stamped, ofWord_encodeControl]
  rfl

theorem Instance.Inv.received_full : (x.received k f t fill).slotState k = .receiveEmpty := by
  obtain ⟨hk, -⟩ := h.inflight_fits hb hf
  have idle : (x.received k f t fill).busy k = false :=
    congrArg SlotHidden.busy ((x.writeRxImage k f t fill).endRx_slot (by rw [x.writeRxImage_eq]; exact hk))
  refine Instance.slotState_receiveEmpty.2 ⟨?_, idle⟩
  rw [Instance.code, h.received_ctrl t fill hb hf]
  exact codeOf_rxControl f t

theorem Instance.Inv.received_id : (x.received k f t fill).word (wordAddr x.ws k 1) = x.idWord f := by
  obtain ⟨hk, -, hfit⟩ := h.inflight_fits hb hf
  exact Instance.writeRxImage_id t fill h.memory hk hfit

theorem Instance.Inv.received_byte {j : Nat} (hj : j < x.bytes f) :
    wordByte ((x.received k f t fill).word (wordAddr x.ws k (2 + j / 4))) (j % 4) = f.data.toList.getD j 0 := by
  obtain ⟨hk, -, hfit⟩ := h.inflight_fits hb hf
  refine (Instance.writeRxImage_byte t fill h.memory hk hfit (by unfold payloadWords; omega)).trans ?_
  rw [laneByte, if_pos hj]

end

end Sys2Proof.Machine

open Sys2Proof Sys2Proof.Machine

/-- Settles O52: the reception leaves a slot RECV can read, whose words decode to the frame. -/
theorem receiveRoundTrip : Obligations.ReceiveRoundTrip := by
  intro inst slot f d fill s es rest x hfault hh hm hp hbudget hs hx h hd hmdis hb hf
  obtain ⟨hk, hw, hfit⟩ := h.inflight_fits hb hf
  let y := x.received slot.toNat f d fill
  have commits : rxCommit slot.toNat d fill x = some y := rxCommit_some.2 ⟨⟨hmdis, hk, hb⟩, f, hf, rfl⟩
  have bits := h.received_bits d fill hb hf
  have bytes : y.bytes f = x.bytes f := Instance.received_bytes d fill
  have ready : y.RecvReady slot.toNat :=
    ⟨h.rxCommit commits, by rw [Instance.received_driver, hd, Instance.received_ws],
      by rw [Instance.received_hwSlots]; exact hk, h.received_full d fill hb hf,
      by rw [Instance.ctrlBytes_encoded bits, bytes, Instance.received_ws]; exact hfit⟩
  have words : y.heldWords slot.toNat = (x.bytes f + 3) / 4 := by
    rw [Instance.heldWords, Instance.ctrlBytes_encoded bits, bytes, payloadWords]
  have start := State.At.start hx hfault hh
  rw [hm, hp] at start
  rw [← words] at hs ⊢
  have received := leads_hardware (s := s) (ops := []) (rest := encode (.recv inst slot) :: rest)
    (e := .rxCommit inst.toNat slot.toNat d fill) rfl (fun _ => rfl) commits
  obtain ⟨t, run, ⟨stage, ret⟩, sched⟩ := (received.trans (leads_recv hbudget ready)) s es start hs
  rw [List.length_append, List.length_replicate, List.length_singleton, Nat.add_comm] at run
  refine ⟨t, y.decodeSlot slot.toNat, run, stage.mainline, stage.program, sched, ret, ?_, fun k hk64 => ?_,
    y.setLocked none, stage.present, rfl, h.received_full d fill hb hf, ?_⟩
  · have id : y.word (wordAddr y.ws slot.toNat 1) = y.idWord f := by
      rw [Instance.received_ws, h.received_id d fill hb hf, Instance.idWord, Instance.idWord, Instance.received_params]
    exact Instance.decodeSlot_encoded bits id hw
  · rw [Instance.decodeSlot_data _ _ hk64, ready.slotBytes, Instance.ctrlBytes_encoded bits, bytes, Instance.received_ws]
    refine ite_congr rfl (fun hlt => h.received_byte d fill hb hf hlt) fun _ => rfl
  · exact Instance.setFlag_flag _ (Nat.lt_of_lt_of_le hk x.hwSlots_le)

end

section
/-! Proofs about the exceptions (60_exceptions.md R320, R322, R330 to R334): what raises a fault and what it leaves, the
interrupt entry, and the host context of every operation. -/

namespace Sys2Proof.Machine

/-! ### A step that raises a fault (60_exceptions.md R322) -/

/-- With a fault set no run takes a step (60_exceptions.md R322). -/
theorem core_run_of_fault {s : State} {r : FaultRecord} (h : s.fault = some r) (k : Nat) :
    core.run (k + 1) s = .fault r.reason := by
  have hstep : core.step s = .fault r.reason := step_of_fault h
  simp only [Host.Core.run, hstep]

@[simp] theorem State.startCallback_fault (s : State) (i : Instr) (p : Pos) (h : Handler) (slot : Nat) :
    (s.startCallback i p h slot).fault = s.fault := by
  simp [State.startCallback]

/-- One of two ways to go on. -/
@[simp] theorem State.fault_ite (s t : State) (c : Prop) [Decidable c] :
    (if c then s else t).fault = if c then s.fault else t.fault :=
  apply_ite State.fault c s t

/-- The only fault a next state `o` answers from `s` can add is one of operation `i`, and raising it is then all it does. -/
def State.OnlyRaises (s : State) (i : Instr) (o : Outcome State) : Prop :=
  ∀ t, o = .next t → t.fault = s.fault ∨ ∃ r slot word, t = s.raise r (.instr i) slot word

/-- A step on a controller raises the fault of its access, where the way it goes on raises none. -/
theorem onInst_onlyRaises {α : Type} {i : Instr} {inst : BitVec 8} {s : State} {f : Nat → Instance → Acc α}
    {k : α → State → State} (hk : ∀ a (u : State), (k a u).fault = u.fault) : s.OnlyRaises i (onInst i inst s f k) := by
  intro t h
  rcases onInst_cases i inst s f k with ⟨e, -⟩ | ⟨x, a, y, u, -, -, e⟩ | ⟨x, r, slot, word, -, -, e⟩ <;>
    obtain rfl := Host.Outcome.next.inj (h.symm.trans e)
  · exact .inl (by simp)
  · exact .inl (hk a _)
  · exact .inr ⟨r, slot, word, rfl⟩

/-- A spin's read raises what the read raises; a Timeout is no fault (00_scope.md R20). -/
theorem spinRead_onlyRaises {s : State} {i : Instr} {p : Pos} {read : Outcome State} (h : s.OnlyRaises i read) :
    s.OnlyRaises i (s.spinRead i p read) := by
  intro t ht
  rcases s.spinRead_cases i p read with e | e
  · exact h t (e.symm.trans ht)
  · obtain rfl := Host.Outcome.next.inj (ht.symm.trans e)
    exact .inl (by simp)

/-- Every operation raises only faults that name it. -/
theorem exec_onlyRaises (i : Instr) (s : State) : s.OnlyRaises i (exec i s) := by
  cases i with
  | init | cfgTx | cfgRx | clrFlag | enIrq =>
    simp only [exec, execInit, execCfgTx, execCfgRx, execClrFlag, execEnIrq, indexStep]
    split <;> exact onInst_onlyRaises fun _ _ => by simp
  | frzEnter | frzExit =>
    simp only [exec, execFrzEnter, execFrzExit]
    split
    case h_4 => exact spinRead_onlyRaises (onInst_onlyRaises fun _ _ => by simp)
    all_goals exact onInst_onlyRaises fun _ _ => by simp
  | send =>
    simp only [exec, execSend, indexStep]
    split
    case h_5 => exact spinRead_onlyRaises (onInst_onlyRaises fun _ _ => by simp)
    all_goals exact onInst_onlyRaises fun _ _ => by simp
  | recv =>
    simp only [exec, execRecv, indexStep]
    split
    case h_2 => exact spinRead_onlyRaises (onInst_onlyRaises fun _ _ => by simp)
    all_goals exact onInst_onlyRaises fun _ _ => by simp
  | dispatch =>
    simp only [exec, execDispatch]
    split
    · exact onInst_onlyRaises fun _ _ => by simp
    · exact onInst_onlyRaises fun found _ => by cases found <;> simp
    · exact onInst_onlyRaises fun _ _ => by split <;> simp
  | _ =>
    simp only [exec, execRegCb]
    exact onInst_onlyRaises fun _ _ => by simp

/-- What a step that raises a fault leaves: the controllers, every position and the last return (60_exceptions.md R322;
40_register_interface.md R141). -/
structure State.Stopped (s t : State) : Prop where
  insts : t.insts = s.insts
  mainline : t.mainline = s.mainline
  handlers : t.handlers = s.handlers
  lastReturn : t.lastReturn = s.lastReturn

/-- An operation that raises a fault leaves all of that. -/
theorem exec_stopped {i : Instr} {s t : State} (h : exec i s = .next t) : t.fault = s.fault ∨ s.Stopped t := by
  rcases exec_onlyRaises i s t h with same | ⟨r, slot, word, rfl⟩
  · exact .inl same
  · exact .inr ⟨rfl, rfl, rfl, rfl⟩

/-- A host step that raises a fault is an operation's, or the start of a request that is no operation. -/
theorem State.hostStep_stopped {s t : State} (h : s.hostStep = .next t) : t.fault = s.fault ∨ s.Stopped t := by
  rcases s.hostStep_cases with ⟨a, as, -, e⟩ | ⟨g, gs, -, -, e⟩ |
    ⟨-, -, ⟨-, e⟩ | ⟨r, rest, -, ⟨i, -, e⟩ | ⟨d, -, e⟩⟩⟩ <;> replace h := e.symm.trans h
  · exact exec_stopped h
  · obtain rfl := Host.Outcome.next.inj h
    exact .inl rfl
  · obtain rfl := Host.Outcome.next.inj h
    exact .inl rfl
  · exact (exec_stopped h).imp id fun stopped =>
      ⟨stopped.insts, stopped.mainline, stopped.handlers, stopped.lastReturn⟩
  · obtain rfl := Host.Outcome.next.inj h
    exact .inr ⟨rfl, rfl, rfl, rfl⟩

/-- Only the host raises faults. -/
theorem runEvent_stopped {e : Event} {s t : State} (h : runEvent e s = .next t) : t.fault = s.fault ∨ s.Stopped t := by
  cases e with
  | host => exact State.hostStep_stopped h
  | _ =>
    obtain rfl := Host.Outcome.next.inj h
    exact .inl (by simp)

/-- The state a step raises a fault in keeps the controllers, the positions and the last return of the one before it. -/
theorem step_stopped {s t : State} (h : step s = .next t) (hf : t.fault ≠ none) : s.Stopped t := by
  obtain ⟨hnone, hrun⟩ := step_next h
  rcases runEvent_stopped hrun with same | stopped
  · exact absurd (by rw [same, State.takeEvent_fault, hnone]) hf
  · exact ⟨by simp [stopped.insts], by simp [stopped.mainline], by simp [stopped.handlers], by simp [stopped.lastReturn]⟩

/-! ### The interrupt request and its entry (60_exceptions.md R330, R332) -/

/-- IRQ[n] is asserted where the line is enabled and some flag is set that the mask lets through (60_exceptions.md R330). -/
theorem Instance.irq_iff (x : Instance) : x.irq = true ↔
    x.lineEnabled = true ∧ ∃ i, i < 32 ∧ x.fields.iflag.getLsbD i = true ∧ x.fields.imask.getLsbD i = true := by
  simp only [Instance.irq, Bool.and_eq_true, bne_iff_ne, ne_eq, BitVec.zero_iff_eq_false, BitVec.getLsbD_and, not_forall,
    Bool.not_eq_false]
  exact and_congr_right fun _ => exists_congr fun i =>
    ⟨fun ⟨hflag, hmask⟩ => ⟨BitVec.lt_of_getLsbD hflag, hflag, hmask⟩, And.right⟩

/-- When the entry for a controller whose selector has 8 bits may be taken (60_exceptions.md R332). -/
theorem State.entryEnabled_iff {s : State} {n : Nat} {x : Instance} (hx : s.insts[n]? = some x) (hn : n < 256) :
    s.entryEnabled n = true ↔ x.irq = true ∧ s.fault = none ∧ ∀ h ∈ s.handlers, h.inst ≠ n := by
  simp [State.entryEnabled, hx, hn, and_assoc]

/-- With a fault set no entry is taken (60_exceptions.md R322). -/
theorem State.entryEnabled_of_fault {s : State} (n : Nat) (hf : s.fault ≠ none) : s.entryEnabled n = false := by
  unfold State.entryEnabled
  split
  · rfl
  · simp [Option.isNone_eq_false_iff.2 (Option.isSome_iff_ne_none.2 hf)]

/-- The entry that comes next and may be taken is taken (60_exceptions.md R332). -/
theorem step_enters {s : State} {es : List Event} {n : Nat} (hf : s.fault = none) (hs : s.schedule = .irqEntry n :: es)
    (hn : s.entryEnabled n = true) : step s = .next ({ s with schedule := es }.enterHandler n) := by
  have enabled : { s with schedule := es }.entryEnabled n = true := hn
  rw [step_scheduled hf hs]
  simp only [runEvent, State.irqStep, enabled, if_true]

end Sys2Proof.Machine

open Sys2Proof.Machine

/-- Settles O9: a step tests for a fault first, and the one step that sets a fault is a host step that only raises it. -/
theorem faultStops : Obligations.FaultStops := by
  refine ⟨fun s r k h => ⟨step_of_fault h, core_run_of_fault h k⟩, fun s t h => ⟨(step_next h).1, fun hf => ?_⟩⟩
  obtain ⟨insts, mainline, handlers, lastReturn⟩ := step_stopped h hf
  exact ⟨insts, mainline, handlers, lastReturn⟩

/-- Settles O10: an operation acts on its controller, there or not, and that is a next state. -/
theorem execAnswersNext : Obligations.ExecAnswersNext := by
  intro i s
  obtain ⟨t, g, hrun⟩ := exec_actsOn i s s.insts
  exact ⟨_, hrun s.insts rfl⟩

/-- Settles O40: the request bit by bit, the guard of an entry, and the step that takes it. -/
theorem interrupt : Obligations.Interrupt := by
  refine ⟨fun s n => State.entryEnabled_of_fault n, Instance.irq_iff, fun s es n x hf hs hx hn => ?_⟩
  have guard : s.entryEnabled n = true ↔ x.irq = true ∧ ∀ h ∈ s.handlers, h.inst ≠ n := by
    simp [State.entryEnabled_iff hx hn, hf]
  exact ⟨guard, fun hirq hother => ⟨_, step_enters hf hs (guard.2 ⟨hirq, hother⟩), rfl, rfl, rfl⟩⟩

/-- Settles O60: each part is one of `State.ContextKept`, which every operation has. -/
theorem hostContextFrame : Obligations.HostContextFrame := by
  intro i s t h
  obtain ⟨params, handlerCode, program, schedule, outer, handlers, mainline, draws⟩ := exec_contextKept h
  exact ⟨params, handlerCode, program, schedule, outer, handlers, mainline, draws⟩

end

section
/-! Proofs about reset (70_reset_and_hazards.md R351): what stands after it, and the invariant. -/

namespace Sys2Proof.Machine

/-- A controller whose hidden state is idle and whose driver record agrees with itself has the invariant: it asks nothing of a
slot on which nothing is pending (10_state.md R56 to R60). -/
theorem Instance.Inv.of_idle {x : Instance} (hm : Memory.wf x.mem) (hh : x.hidden = .idle)
    (hws : ∀ ws, x.driver.wordSize = some ws → legalWordSize ws = true)
    (hr : x.driver.slotRange = x.driver.wordSize.map slotRange) : x.Inv where
  memory := hm
  busySlot i hi := by simp [Instance.busy, hh] at hi
  idleSlot i _ := by simp [hh]
  abortSlot i hi := by simp [Instance.abortPending, hh] at hi
  lockedSlot k hk := by simp [hh] at hk
  heldFrame f hf := by simp [hh] at hf
  wordSize := hws
  range := hr

theorem Instance.resetWith_inv {r : ResetDraw} (h : Memory.wf r.mem) : (Instance.resetWith r).Inv :=
  .of_idle h rfl (fun _ hws => nomatch hws) rfl

theorem State.resetWith_inv {rs : List ResetDraw} (h : ∀ r ∈ rs, Memory.wf r.mem) : (State.resetWith rs).Inv where
  insts x hx := by
    obtain ⟨r, hr, rfl⟩ := List.mem_map.1 hx
    exact Instance.resetWith_inv (h r hr)
  handlersOnce := .nil
  handlersExist _ hg := nomatch hg

end Sys2Proof.Machine

open Sys2Proof.Machine

/-- Settles O11: each controller is made of its draw, and the rest of it is idle. -/
theorem resetState : Obligations.ResetState := by
  refine ⟨fun rs n r hr => ⟨Instance.resetWith r, ?_, rfl, rfl, fun i => ?_, rfl, rfl, rfl, rfl, rfl, rfl⟩,
    fun rs => ⟨List.length_map _, rfl, rfl, rfl⟩, .named, rfl⟩
  · exact (List.getElem?_map ..).trans (congrArg (Option.map Instance.resetWith) hr)
  · have idle : (Instance.resetWith r).hidden.slot i = {} := Hidden.slot_idle i
    exact ⟨congrArg SlotHidden.busy idle, congrArg SlotHidden.abortPending idle, congrArg SlotHidden.rxInflight idle⟩

/-- Settles O12: the named draws list no byte of memory, so they are a case of the second part. -/
theorem resetInvariant : Obligations.ResetInvariant := by
  have named : ∀ r ∈ [ResetDraw.named], Memory.wf r.mem := by decide
  exact ⟨State.resetWith_inv named, fun _ => State.resetWith_inv⟩

end

section
/-! Proofs about the driver operations (44_driver_ops.md R274): what line 13 of INIT leaves of a controller on which nothing is
pending, word by word. -/

namespace Sys2Proof.Machine

/-! ### A controller whose hidden state is idle -/

theorem Hidden.eq_idle {h : Hidden} (slots : ∀ i, h.slot i = {}) (lock : h.locked = none) (held : h.pendingRx = none) :
    h = .idle := by
  obtain ⟨v, l, f⟩ := h
  obtain rfl : l = none := lock
  obtain rfl : f = none := held
  have hv : v = Vector.replicate 32 {} := Vector.ext fun i hi => by
    have slot := slots i
    simpa [Hidden.slot, List.getD_eq_getElem?_getD, hi] using slot
  rw [hv]
  rfl

/-- The words of the hardware slots are the lowest words of the memory (41_frame_mapper.md R172). -/
theorem Instance.slotOf_low {x : Instance} {w : Nat} (hw : w < x.hwSlots * x.ws) :
    x.slotOf w = some (w / x.ws, w % x.ws) :=
  if_pos (Nat.div_lt_of_lt_mul (Nat.mul_comm .. ▸ hw))

/-- A slot that is InactiveRx is not busy, holds no frame and has no abort pending (10_state.md R56 to R58). -/
theorem Instance.Inv.slot_idle {x : Instance} (h : x.Inv) {k : Nat} (hs : x.slotState k = .inactiveRx) :
    x.hidden.slot k = {} := by
  have busy : x.busy k = false := h.busy_eq_false (by simp [hs])
  have pending : x.abortPending k = false := h.abortPending_eq_false (by simp [hs])
  have inflight := h.idleSlot k busy
  unfold Instance.busy at busy
  unfold Instance.abortPending at pending
  cases hk : x.hidden.slot k
  simp_all

/-- An unlocked controller stays unlocked when a code is written (43_mb_hardware.md R222). -/
theorem codeWrite_unlocked {x y : Instance} (h : x.Inv) {k d u : Nat} {v : Word} (hk : k < x.hwSlots)
    (hl : x.hidden.locked = none) (hc : codeWrite k v d x = .ok () y u) : y.hidden.locked = none := by
  obtain ⟨-, ⟨-, rfl, -⟩ | ⟨-, rfl, -⟩⟩ := (codeWrite_ok k v d x y u).1 hc
  · rw [(x.storeCode_stored k v _ hk h.memory).lock, hl, ite_self]
  · rw [(Instance.storeCode_stored _ k v _ (by simpa using hk) (x.preempt_wf k _ d h.memory)).lock, x.preempt_locked, hl,
      ite_self]

/-! ### Line 13 of INIT on an idle controller -/

/-- Line 13 of INIT succeeds on a slot's control word, and elsewhere in a slot that is InactiveRx; it leaves nothing pending. -/
theorem wordWrite_zero_idle {x : Instance} (h : x.Inv) (idle : x.hidden = .idle) {w k j : Nat} (d : Nat)
    (hs : x.slotOf w = some (k, j)) (hj : j ≠ 0 → x.slotState k = .inactiveRx) :
    ∃ y u, wordWrite w 0 d x = .ok () y u ∧ y.word w = 0 ∧ y.hidden = .idle ∧ y.driver = x.driver := by
  by_cases h0 : j = 0
  · subst h0
    obtain ⟨y, u, hw, zero, state⟩ := wordWrite_zero_control h d hs
    have hc : codeWrite k 0 d x = .ok () y u := wordWrite_control hs ▸ hw
    obtain ⟨kept, -⟩ := codeWrite_othersKept hc
    have slots (i : Nat) : y.hidden.slot i = {} := by
      by_cases hi : i = k
      · exact hi ▸ (h.wordWrite hw).slot_idle state
      · rw [kept.slots i hi, idle, Hidden.slot_idle]
    have lock := codeWrite_unlocked h (x.slotOf_some w k 0 hs).1 (by rw [idle]; rfl) hc
    exact ⟨y, u, hw, zero, Hidden.eq_idle slots lock (by rw [kept.held, idle]; rfl), kept.driver⟩
  · have hlt := Instance.slotOf_lt hs
    have hw := wordWrite_unarmed 0 d hlt (.inr ⟨k, j, hs, h0, by rw [hj h0]; rfl⟩)
    exact ⟨_, 0, hw, by rw [x.word_setWord w w 0 hlt h.memory, if_pos rfl], idle, rfl⟩

/-- `y` is `x` with the words below `m` zeroed, nothing being pending; the flags may be others (43_mb_hardware.md R223). -/
structure Instance.Cleared (x y : Instance) (m : Nat) : Prop where
  inv : y.Inv
  onlyFlags : x.OnlyFlags y
  driver : y.driver = x.driver
  hidden : y.hidden = .idle
  words : ∀ w, y.word w = if w < m then 0 else x.word w

namespace Instance.Cleared

variable {x y : Instance} {m : Nat}

theorem start (h : x.Inv) (idle : x.hidden = .idle) : x.Cleared x 0 :=
  ⟨h, .refl x, rfl, idle, fun _ => rfl⟩

variable (h : x.Cleared y m)
include h

theorem mbws : y.fields.mbws = x.fields.mbws := by rw [h.onlyFlags.fields]

/-- A slot whose control word is zeroed is InactiveRx (10_state.md R61). -/
theorem inactiveRx {k : Nat} (hk : wordAddr x.ws k 0 < m) : y.slotState k = .inactiveRx := by
  obtain ⟨state, -⟩ := y.slotState_code k
  refine state.2 ?_
  rw [Instance.code, Instance.ctrl, ws_eq_of_mbws h.mbws, h.words, if_pos hk]
  decide

/-- Line 13 of INIT zeroes the next word. -/
theorem zero_next (hm : m < x.hwSlots * x.ws) (d : Nat) :
    ∃ z u, wordWrite m 0 d y = .ok () z u ∧ x.Cleared z (m + 1) := by
  have hs : y.slotOf m = some (m / y.ws, m % y.ws) :=
    slotOf_low (by rw [ws_eq_of_mbws h.mbws, hwSlots_eq_of_mbws h.mbws]; exact hm)
  have passed (hj : m % y.ws ≠ 0) : y.slotState (m / y.ws) = .inactiveRx := by
    refine h.inactiveRx ?_
    have place := Nat.div_add_mod' m y.ws
    rw [← ws_eq_of_mbws h.mbws, wordAddr]
    omega
  obtain ⟨z, u, hw, zero, hidden, driver⟩ := wordWrite_zero_idle h.inv h.hidden d hs passed
  have others := (wordWrite_wroteWord h.inv.memory hw).words
  have notBusy (k : Nat) : y.slotState k ≠ .busy := fun hb => by
    have busy := (slotState_busy.1 hb).2
    simp [Instance.busy, h.hidden] at busy
  refine ⟨z, u, hw, h.inv.wordWrite hw, h.onlyFlags.trans (wordWrite_onlyFlags hw), driver.trans h.driver, hidden,
    fun w => ?_⟩
  by_cases hwm : w = m
  · rw [hwm, zero, if_pos m.lt_succ_self]
  · rw [others w hwm fun k _ _ hb => absurd hb (notBusy k), h.words]
    exact if_congr (by omega) rfl rfl

end Instance.Cleared

end Sys2Proof.Machine

end

section
/-! Proofs about runs of a driver operation (44_driver_ops.md): lines that write fields, and the handshake steps of the hardware
from a controller that may have taken them before (43_mb_hardware.md R225, R227). -/

namespace Sys2Proof.Machine

/-- A run from one of several stages. -/
theorem Leads.any {α : Type} {evs : List Event} {C : α → Prop} {P : α → State → Prop} {Q : State → Prop}
    (h : ∀ y, C y → Leads evs (P y) Q) : Leads evs (fun t => ∃ y, C y ∧ P y t) Q :=
  fun t es ⟨y, hy, ht⟩ => h y hy t es ht

theorem Leads.imp {evs : List Event} {P Q R : State → Prop} (h : Leads evs P Q) (g : ∀ t, Q t → R t) : Leads evs P R := by
  intro t es ht hs
  obtain ⟨u, hrun, hu, hus⟩ := h t es ht hs
  exact ⟨u, hrun, g u hu, hus⟩

section
variable {s : State} {n : Nat} {x : Instance} {ops as : List Activation} {rest : List Request}

/-- A line that writes fields and goes on. -/
theorem leads_fields {i : Instr} {p : Pos} {q : Nat} {f : Fields}
    (line : ∀ t, t.insts[n]? = some x → t.pos.pc = p.pc →
      exec i t = .next ((t.setInst n (x.setFields f)).goto i { t.pos with pc := q })) :
    Leads [.host] (s.At n x (⟨i, p⟩ :: as) rest) (s.At n (x.setFields f) (⟨i, { p with pc := q }⟩ :: as) rest) :=
  leads_host fun t ht => ⟨_, line t ht.present (by rw [ht.pos]), (ht.setInst _).goto i (by rw [ht.pos])⟩

/-- A line that calls. -/
theorem leads_call {i sub : Instr} {p : Pos} {q : Nat}
    (line : ∀ t, t.insts[n]? = some x → t.pos.pc = p.pc → exec i t = .next (t.call i { t.pos with pc := q } sub)) :
    Leads [.host] (s.At n x (⟨i, p⟩ :: as) rest) (s.At n x (⟨sub, {}⟩ :: ⟨i, { p with pc := q }⟩ :: as) rest) :=
  leads_host fun t ht => ⟨_, line t ht.present (by rw [ht.pos]), ht.call i sub (by rw [ht.pos])⟩

/-- A line that only goes on. -/
theorem leads_goto {i : Instr} {p : Pos} {q : Nat}
    (line : ∀ t, t.insts[n]? = some x → t.pos.pc = p.pc → exec i t = .next (t.goto i { t.pos with pc := q })) :
    Leads [.host] (s.At n x (⟨i, p⟩ :: as) rest) (s.At n x (⟨i, { p with pc := q }⟩ :: as) rest) :=
  leads_host fun t ht => ⟨_, line t ht.present (by rw [ht.pos]), ht.goto i (by rw [ht.pos])⟩

/-- A hardware step that is not enabled changes nothing (log 22). -/
theorem leads_hardware_none {e : Event} {f : Instance → Option Instance} (hc : e.controller = some n)
    (hf : ∀ order, hardware order e = some f) (hy : f x = none) : Leads [e] (s.At n x ops rest) (s.At n x ops rest) := by
  refine .of_step fun t es ht hs => ?_
  have hirq : e ≠ .irqEntry n := by
    rintro rfl
    cases hf .any
  obtain ⟨g, hg, hrun⟩ := runEvent_hardware e { t with schedule := es } n hc hirq
  obtain rfl := Option.some.inj ((hf _).symm.trans hg)
  refine ⟨_, ?_, ht.withSchedule es, rfl⟩
  rw [step_scheduled ht.fault hs, hrun, State.hwStep_of_not_enabled (by simp [ht.present, hy])]

/-- SYNC leaves SYNCH = 1, whether it is enabled or not (43_mb_hardware.md R227). -/
theorem leads_sync (hm : x.fields.mdis = 0) (hack : x.fields.frzack = 0) (hrdy : x.fields.notrdy = 0) :
    Leads [.sync n] (s.At n x ops rest) (s.At n (x.setFields { x.fields with synch := 1 }) ops rest) := by
  rcases BitVec.eq_zero_or_eq_one x.fields.synch with h | h
  · exact leads_hardware rfl (fun _ => rfl) (syncStep_some.2 ⟨⟨hm, hack, hrdy, h⟩, rfl⟩)
  · have same : x.setFields { x.fields with synch := 1 } = x :=
      congrArg (fun b => x.setFields { x.fields with synch := b }) h.symm
    rw [same]
    exact leads_hardware_none rfl (fun _ => rfl) (if_neg fun ⟨_, _, _, h0⟩ => by simp [h] at h0)

end

section
variable {s : State} {inst : BitVec 8} {x : Instance} {as : List Activation} {rest : List Request}

/-- FRZ.ENTER on a controller that is frozen already: FREEZE_ACK is not enabled, and its spin ends without it. -/
theorem leads_frzEnter_frozen (hb : s.params.spinBudget = .unbounded) (hack : x.fields.frzack = 1) :
    Leads [.host, .host, .host, .freezeAck inst.toNat, .host] (s.At inst.toNat x (⟨.frzEnter inst, {}⟩ :: as) rest)
      (s.At inst.toNat (x.setFields { x.fields with frz := 1, halt := 1 }) as rest) := by
  let x1 := x.setFields { x.fields with frz := 1 }
  let x2 := x1.setFields { x1.fields with halt := 1 }
  have line0 : Leads [.host] (s.At inst.toNat x (⟨.frzEnter inst, {}⟩ :: as) rest)
      (s.At inst.toNat x (⟨.frzEnter inst, { pc := 1 }⟩ :: as) rest) :=
    leads_goto fun t hx => by
      obtain ⟨l, -⟩ := frzEnter.2 inst t x hx
      exact l
  have line1 : Leads [.host] (s.At inst.toNat x (⟨.frzEnter inst, { pc := 1 }⟩ :: as) rest)
      (s.At inst.toNat x1 (⟨.frzEnter inst, { pc := 2 }⟩ :: as) rest) :=
    leads_fields fun t hx => by
      obtain ⟨-, l, -⟩ := frzEnter.2 inst t x hx
      exact l
  have line2 : Leads [.host] (s.At inst.toNat x1 (⟨.frzEnter inst, { pc := 2 }⟩ :: as) rest)
      (s.At inst.toNat x2 (⟨.frzEnter inst, { pc := 3 }⟩ :: as) rest) :=
    leads_fields fun t hx => by
      obtain ⟨-, -, l, -⟩ := frzEnter.2 inst t x1 hx
      exact l
  have ack : Leads [.freezeAck inst.toNat] (s.At inst.toNat x2 (⟨.frzEnter inst, { pc := 3 }⟩ :: as) rest)
      (s.At inst.toNat x2 (⟨.frzEnter inst, { pc := 3 }⟩ :: as) rest) :=
    leads_hardware_none rfl (fun _ => rfl) (if_neg fun ⟨_, _, _, h0⟩ => by simp [x2, x1, hack] at h0)
  have line3 : Leads [.host] (s.At inst.toNat x2 (⟨.frzEnter inst, { pc := 3 }⟩ :: as) rest) (s.At inst.toNat x2 as rest) :=
    leads_host fun t ht => by
      obtain ⟨-, -, -, l, -⟩ := frzEnter.2 inst t x2 ht.present
      exact ⟨_, l (by rw [ht.pos]) hack (by simp [ht.params, hb]), ht.ret _ .none⟩
  exact line0.trans (line1.trans (line2.trans (ack.trans line3)))

/-- FRZ.ENTER from any enabled controller ends frozen; NOTRDY and SYNCH are as FREEZE_ACK leaves them, or as they were. -/
theorem leads_frzEnter_any (hb : s.params.spinBudget = .unbounded) (hm : x.fields.mdis = 0) : ∃ rdy sync,
    Leads [.host, .host, .host, .freezeAck inst.toNat, .host] (s.At inst.toNat x (⟨.frzEnter inst, {}⟩ :: as) rest)
      (s.At inst.toNat (x.setFields { x.fields with frz := 1, halt := 1, frzack := 1, notrdy := rdy, synch := sync })
        as rest) := by
  rcases BitVec.eq_zero_or_eq_one x.fields.frzack with h | h
  · exact ⟨1, 0, leads_frzEnter hb hm h⟩
  · refine ⟨x.fields.notrdy, x.fields.synch, ?_⟩
    have same : x.setFields { x.fields with frz := 1, halt := 1 } =
        x.setFields { x.fields with frz := 1, halt := 1, frzack := 1, notrdy := x.fields.notrdy, synch := x.fields.synch } :=
      congrArg (fun b => x.setFields { x.fields with frz := 1, halt := 1, frzack := b }) h
    rw [← same]
    exact leads_frzEnter_frozen hb h

end

end Sys2Proof.Machine

end

section
/-! Proofs about the driver operations (44_driver_ops.md R274; 70_reset_and_hazards.md R353): INIT run to its end. -/

namespace Sys2Proof.Machine

/-- The arguments that pass the checks of INIT (44_driver_ops.md R273). -/
structure InitArgs (wordSize : BitVec 8) (tm : Timing) : Prop where
  least : 4 ≤ wordSize.toNat
  most : wordSize.toNat ≤ 18
  timing : tm.inRange = true

/-! ### The stages of INIT -/

/-- The controller when INIT has chosen the clock source and enabled the module. -/
def Instance.initEnabled (x : Instance) : Instance :=
  x.setFields { x.fields with clksrc := x.params.initClksrc, mdis := 0 }

/-- The controller when INIT has frozen it; `rdy` and `sync` are what NOTRDY and SYNCH are then. -/
def Instance.initFrozen (x : Instance) (rdy sync : BitVec 1) : Instance :=
  x.initEnabled.setFields { x.initEnabled.fields with frz := 1, halt := 1, frzack := 1, notrdy := rdy, synch := sync }

/-- The controller when INIT has written the bit timing. -/
def Instance.timed (x : Instance) (tm : Timing) : Instance :=
  x.setFields { x.fields with
    presdiv := tm.presdiv.setWidth 8, rjw := tm.rjw.setWidth 2, pseg1 := tm.pseg1.setWidth 3,
    pseg2 := tm.pseg2.setWidth 3, propseg := tm.propseg.setWidth 3, smp := tm.smp.setWidth 1 }

/-- The controller when INIT has written MBWS and the driver record (44_driver_ops.md R276). -/
def Instance.shaped (x : Instance) (wordSize : BitVec 8) : Instance :=
  { x with
    fields := { x.fields with mbws := wordSize.setWidth 5 }, hidden := .idle,
    driver := { x.driver with wordSize := some wordSize.toNat, slotRange := some (512 / (wordSize.toNat * 4)) } }

/-- The controller when INIT has left freeze and SYNC has followed. -/
def Instance.opened (x : Instance) : Instance :=
  x.setFields { x.fields with srxdis := 1, frz := 0, halt := 0, frzack := 0, notrdy := 0, synch := 1 }

/-- The controller that INIT leaves but for the words and flags, while still frozen. -/
def Instance.initShaped (x : Instance) (wordSize : BitVec 8) (tm : Timing) (rdy sync : BitVec 1) : Instance :=
  ((x.initFrozen rdy sync).timed tm).shaped wordSize

/-- The number of words of the slots (44_driver_ops.md R274). -/
abbrev initWords (wordSize : BitVec 8) : Nat := 512 / (wordSize.toNat * 4) * wordSize.toNat

/-- Where INIT stands when it has zeroed `m` of `n` words. -/
def initPos (n m : Nat) : Pos := if m < n then { pc := 13, idx := m } else { pc := 14, idx := n - 1 }

theorem initPos_lt {n m : Nat} (hm : m < n) : initPos n m = { pc := 13, idx := m } := if_pos hm

theorem initPos_succ {n m : Nat} (hm : m < n) :
    (if m + 1 < n then { pc := 13, idx := m + 1 } else { pc := 14, idx := m }) = initPos n (m + 1) := by
  unfold initPos
  split
  next => rfl
  next hlast =>
    obtain rfl : m = n - 1 := by omega
    rfl

theorem initPos_end (n : Nat) : initPos n n = { pc := 14, idx := n - 1 } := if_neg (Nat.lt_irrefl n)

section
variable {wordSize : BitVec 8} {tm : Timing} (a : InitArgs wordSize tm) (x : Instance)
include a

theorem InitArgs.shaped_ws : (x.shaped wordSize).ws = wordSize.toNat := by
  have hlt : wordSize.toNat < 2 ^ 5 := Nat.lt_of_le_of_lt a.most (by decide)
  rw [Instance.ws, Instance.shaped, BitVec.toNat_setWidth, Nat.mod_eq_of_lt hlt]

/-- The hardware has as many slots as the driver uses (41_frame_mapper.md R172). -/
theorem InitArgs.shaped_hwSlots : (x.shaped wordSize).hwSlots = 512 / (wordSize.toNat * 4) := by
  rw [Instance.hwSlots, a.shaped_ws, if_pos (legalWordSize_iff.2 ⟨a.least, a.most⟩)]
  exact (Nat.mul_div_mul_right 128 wordSize.toNat (m := 4) (by decide)).symm

/-- INIT has a word to zero. -/
theorem InitArgs.words_pos : 0 < initWords wordSize := by
  obtain ⟨least, most, -⟩ := a
  exact Nat.mul_pos (Nat.div_pos (by omega) (by omega)) (by omega)

variable {x} in
theorem InitArgs.shaped_inv (h : Memory.wf x.mem) : (x.shaped wordSize).Inv :=
  .of_idle h rfl (fun _ hws => Option.some.inj hws ▸ legalWordSize_iff.2 ⟨a.least, a.most⟩) rfl

end

/-! ### The run of INIT -/

/-- Line 13 of INIT, where its word can be written. -/
theorem exec_init_clear {inst wordSize : BitVec 8} {timing : Option Timing} {s : State} {x y : Instance} {u : Nat}
    (hpc : s.pos.pc = 13) (hx : s.insts[inst.toNat]? = some x) (hw : wordWrite s.pos.idx 0 s.draws x = .ok () y u) :
    exec (.init inst wordSize timing) s = .next ((s.commit inst.toNat y u).goto (.init inst wordSize timing)
      (if s.pos.idx + 1 < x.driver.slotRange.getD 0 * wordSize.toNat then { s.pos with idx := s.pos.idx + 1 }
        else { s.pos with pc := 14 })) := by
  simp only [exec, execInit, hpc]
  exact onInst_ok hx (initClear_ok hw)

end Sys2Proof.Machine

namespace Sys2Proof

open Machine hiding initChecks

/-- Line 0 of INIT, where its arguments pass the checks (44_driver_ops.md R273). -/
theorem exec_init_checked {inst wordSize : BitVec 8} {tm : Timing} (a : InitArgs wordSize tm) {s : State} {x : Instance}
    (hpc : s.pos.pc = 0) (hx : s.insts[inst.toNat]? = some x) : exec (.init inst wordSize (some tm)) s =
      .next (s.goto (.init inst wordSize (some tm)) { s.pos with pc := 1 }) := by
  have checks := initChecks inst wordSize (some tm) s x hx hpc
  rw [if_neg (not_or.2 ⟨Nat.not_lt.2 a.least, Nat.not_lt.2 a.most⟩)] at checks
  dsimp only at checks
  rwa [if_pos (inRange_iff.1 a.timing)] at checks

end Sys2Proof

namespace Sys2Proof.Machine

section
variable {s : State} {inst wordSize : BitVec 8} {tm : Timing} {x : Instance} {as : List Activation} {rest : List Request}

/-- Lines 0 to 5 of INIT on a disabled controller, line 2 being passed over. -/
theorem leads_init_start (a : InitArgs wordSize tm) (h : x.Inv) (hm : x.fields.mdis = 1) :
    Leads [.host, .host, .host, .host, .host] (s.At inst.toNat x [] (encode (.init inst wordSize (some tm)) :: rest))
      (s.At inst.toNat x.initEnabled [⟨.frzEnter inst, {}⟩, ⟨.init inst wordSize (some tm), { pc := 6 }⟩] rest) := by
  let i := Instr.init inst wordSize (some tm)
  let x1 := x.setFields { x.fields with clksrc := x.params.initClksrc }
  have h1 : x1.Inv := h.setFields rfl
  have h2 : x.initEnabled.Inv := h.setFields rfl
  have lines {t : State} {z : Instance} (hz : z.Inv) (hx : t.insts[inst.toNat]? = some z) :=
    initLines.2 inst wordSize tm t z hx hz a.least a.most a.timing
  have line0 : Leads [.host] (s.At inst.toNat x [] (encode i :: rest)) (s.At inst.toNat x [⟨i, { pc := 1 }⟩] rest) :=
    leads_fetch rfl fun t ht =>
      ⟨_, exec_init_checked a (by rw [ht.pos_start]) ht.present, ht.goto i (by rw [ht.pos_start])⟩
  have line1 : Leads [.host] (s.At inst.toNat x [⟨i, { pc := 1 }⟩] rest) (s.At inst.toNat x [⟨i, { pc := 3 }⟩] rest) :=
    leads_goto fun t hx => by
      obtain ⟨l, -⟩ := lines h hx
      rwa [if_neg (by simp [hm])] at l
  have line3 : Leads [.host] (s.At inst.toNat x [⟨i, { pc := 3 }⟩] rest) (s.At inst.toNat x1 [⟨i, { pc := 4 }⟩] rest) :=
    leads_fields fun t hx hp => by
      obtain ⟨-, -, l, -⟩ := lines h hx
      exact l hp hm
  have line4 : Leads [.host] (s.At inst.toNat x1 [⟨i, { pc := 4 }⟩] rest)
      (s.At inst.toNat x.initEnabled [⟨i, { pc := 5 }⟩] rest) :=
    leads_fields fun t hx => by
      obtain ⟨-, -, -, l, -⟩ := lines h1 hx
      exact l
  have line5 : Leads [.host] (s.At inst.toNat x.initEnabled [⟨i, { pc := 5 }⟩] rest)
      (s.At inst.toNat x.initEnabled [⟨.frzEnter inst, {}⟩, ⟨i, { pc := 6 }⟩] rest) :=
    leads_call fun t hx => by
      obtain ⟨-, -, -, -, l, -⟩ := lines h2 hx
      exact l
  exact line0.trans (line1.trans (line3.trans (line4.trans line5)))

/-- Lines 6 to 11 of INIT write the bit timing (42_bit_timing.md R204). -/
theorem leads_init_timing (a : InitArgs wordSize tm) (h : x.Inv) (hack : x.fields.frzack = 1) :
    Leads [.host, .host, .host, .host, .host, .host]
      (s.At inst.toNat x (⟨.init inst wordSize (some tm), { pc := 6 }⟩ :: as) rest)
      (s.At inst.toNat (x.timed tm) (⟨.init inst wordSize (some tm), { pc := 12 }⟩ :: as) rest) := by
  let i := Instr.init inst wordSize (some tm)
  let f6 := { x.fields with presdiv := tm.presdiv.setWidth 8 }
  let f7 := { f6 with rjw := tm.rjw.setWidth 2 }
  let f8 := { f7 with pseg1 := tm.pseg1.setWidth 3 }
  let f9 := { f8 with pseg2 := tm.pseg2.setWidth 3 }
  let f10 := { f9 with propseg := tm.propseg.setWidth 3 }
  have lines {t : State} {f : Fields} (hx : t.insts[inst.toNat]? = some (x.setFields f)) (hf : f.mbws = x.fields.mbws) :=
    initLines.2 inst wordSize tm t _ hx (h.setFields hf) a.least a.most a.timing
  have line6 : Leads [.host] (s.At inst.toNat (x.setFields x.fields) (⟨i, { pc := 6 }⟩ :: as) rest)
      (s.At inst.toNat (x.setFields f6) (⟨i, { pc := 7 }⟩ :: as) rest) :=
    leads_fields fun t hx => by
      obtain ⟨-, -, -, -, -, frozen, -⟩ := lines hx rfl
      obtain ⟨l, -⟩ := frozen hack
      exact l
  have line7 : Leads [.host] (s.At inst.toNat (x.setFields f6) (⟨i, { pc := 7 }⟩ :: as) rest)
      (s.At inst.toNat (x.setFields f7) (⟨i, { pc := 8 }⟩ :: as) rest) :=
    leads_fields fun t hx => by
      obtain ⟨-, -, -, -, -, frozen, -⟩ := lines hx rfl
      obtain ⟨-, l, -⟩ := frozen hack
      exact l
  have line8 : Leads [.host] (s.At inst.toNat (x.setFields f7) (⟨i, { pc := 8 }⟩ :: as) rest)
      (s.At inst.toNat (x.setFields f8) (⟨i, { pc := 9 }⟩ :: as) rest) :=
    leads_fields fun t hx => by
      obtain ⟨-, -, -, -, -, frozen, -⟩ := lines hx rfl
      obtain ⟨-, -, l, -⟩ := frozen hack
      exact l
  have line9 : Leads [.host] (s.At inst.toNat (x.setFields f8) (⟨i, { pc := 9 }⟩ :: as) rest)
      (s.At inst.toNat (x.setFields f9) (⟨i, { pc := 10 }⟩ :: as) rest) :=
    leads_fields fun t hx => by
      obtain ⟨-, -, -, -, -, frozen, -⟩ := lines hx rfl
      obtain ⟨-, -, -, l, -⟩ := frozen hack
      exact l
  have line10 : Leads [.host] (s.At inst.toNat (x.setFields f9) (⟨i, { pc := 10 }⟩ :: as) rest)
      (s.At inst.toNat (x.setFields f10) (⟨i, { pc := 11 }⟩ :: as) rest) :=
    leads_fields fun t hx => by
      obtain ⟨-, -, -, -, -, frozen, -⟩ := lines hx rfl
      obtain ⟨-, -, -, -, l, -⟩ := frozen hack
      exact l
  have line11 : Leads [.host] (s.At inst.toNat (x.setFields f10) (⟨i, { pc := 11 }⟩ :: as) rest)
      (s.At inst.toNat (x.timed tm) (⟨i, { pc := 12 }⟩ :: as) rest) :=
    leads_fields fun t hx => by
      obtain ⟨-, -, -, -, -, frozen, -⟩ := lines hx rfl
      obtain ⟨-, -, -, -, -, l, -⟩ := frozen hack
      exact l
  exact line6.trans (line7.trans (line8.trans (line9.trans (line10.trans line11))))

/-- INIT stands at line 13 with `m` words zeroed, or behind it; `x` is the controller before line 12. -/
def Clearing (s : State) (inst wordSize : BitVec 8) (tm : Timing) (x : Instance) (as : List Activation)
    (rest : List Request) (m : Nat) (t : State) : Prop :=
  ∃ y, (x.shaped wordSize).Cleared y m ∧
    s.At inst.toNat y (⟨.init inst wordSize (some tm), initPos (initWords wordSize) m⟩ :: as) rest t

/-- Line 12 of INIT, after which no word is zeroed yet (44_driver_ops.md R276). -/
theorem leads_init_geometry (a : InitArgs wordSize tm) (h : x.Inv) (hack : x.fields.frzack = 1) :
    Leads [.host] (s.At inst.toNat x (⟨.init inst wordSize (some tm), { pc := 12 }⟩ :: as) rest)
      (Clearing s inst wordSize tm x as rest 0) :=
  leads_host fun t ht => by
    obtain ⟨-, -, -, -, -, frozen, -⟩ := initLines.2 inst wordSize tm t x ht.present h a.least a.most a.timing
    obtain ⟨-, -, -, -, -, -, l, -⟩ := frozen hack
    exact ⟨_, l (by rw [ht.pos]), _, .start (a.shaped_inv h.memory) rfl,
      (ht.setInst _).goto _ (by rw [ht.pos, initPos_lt a.words_pos])⟩

/-- Line 13 of INIT zeroes a word. -/
theorem leads_init_word (a : InitArgs wordSize tm) {m : Nat} (hm : m < initWords wordSize) :
    Leads [.host] (Clearing s inst wordSize tm x as rest m) (Clearing s inst wordSize tm x as rest (m + 1)) :=
  .any fun y hy => leads_host fun t ht => by
    have pos := ht.pos.trans (initPos_lt hm)
    obtain ⟨z, u, hw, hz⟩ := hy.zero_next (by rw [a.shaped_hwSlots, a.shaped_ws]; exact hm) t.draws
    have line := exec_init_clear (inst := inst) (wordSize := wordSize) (timing := some tm) (by rw [pos]) ht.present
      (by rw [pos]; exact hw)
    rw [pos, hy.driver] at line
    exact ⟨_, line, z, hz, (ht.commit z u).goto _ (initPos_succ hm)⟩

/-- Line 13 of INIT zeroes every word of the slots. -/
theorem leads_init_words (a : InitArgs wordSize tm) :
    Leads (List.replicate (initWords wordSize) .host) (Clearing s inst wordSize tm x as rest 0)
      (Clearing s inst wordSize tm x as rest (initWords wordSize)) :=
  Leads.loop (P := Clearing s inst wordSize tm x as rest) fun _ => leads_init_word a

/-- Lines 14 to 16 of INIT, with FREEZE_EXIT and SYNC where FRZ.EXIT and line 16 wait for them. -/
theorem leads_init_open (a : InitArgs wordSize tm) (hb : s.params.spinBudget = .unbounded) (h : x.Inv)
    (hm : x.fields.mdis = 0) (hack : x.fields.frzack = 1) (j : Nat) :
    Leads ([Event.host, .host] ++ [Event.host, .host, .host, .freezeExit inst.toNat, .host, .host] ++
        [Event.sync inst.toNat, .host])
      (s.At inst.toNat x (⟨.init inst wordSize (some tm), { pc := 14, idx := j }⟩ :: as) rest)
      (fun t => s.At inst.toNat x.opened as rest t ∧
        t.lastReturn = some ⟨.init inst wordSize (some tm), .success, .none⟩) := by
  let i := Instr.init inst wordSize (some tm)
  let x1 := x.setFields { x.fields with srxdis := 1 }
  let x2 := x1.setFields { x1.fields with frz := 0, halt := 0, frzack := 0, notrdy := 0 }
  have h1 : x1.Inv := h.setFields rfl
  have h3 : x.opened.Inv := h.setFields rfl
  have lines {t : State} {z : Instance} (hz : z.Inv) (hx : t.insts[inst.toNat]? = some z) :=
    initLines.2 inst wordSize tm t z hx hz a.least a.most a.timing
  have line14 : Leads [.host] (s.At inst.toNat x (⟨i, { pc := 14, idx := j }⟩ :: as) rest)
      (s.At inst.toNat x1 (⟨i, { pc := 15, idx := j }⟩ :: as) rest) :=
    leads_fields fun t hx => by
      obtain ⟨-, -, -, -, -, frozen, -⟩ := lines h hx
      obtain ⟨-, -, -, -, -, -, -, l⟩ := frozen hack
      exact l
  have line15 : Leads [.host] (s.At inst.toNat x1 (⟨i, { pc := 15, idx := j }⟩ :: as) rest)
      (s.At inst.toNat x1 (⟨.frzExit inst, {}⟩ :: ⟨i, { pc := 16, idx := j }⟩ :: as) rest) :=
    leads_call fun t hx => by
      obtain ⟨-, -, -, -, -, -, -, l, -⟩ := lines h1 hx
      exact l
  have sync : Leads [.sync inst.toNat] (s.At inst.toNat x2 (⟨i, { pc := 16, idx := j }⟩ :: as) rest)
      (s.At inst.toNat x.opened (⟨i, { pc := 16, idx := j }⟩ :: as) rest) :=
    leads_sync hm rfl rfl
  have line16 : Leads [.host] (s.At inst.toNat x.opened (⟨i, { pc := 16, idx := j }⟩ :: as) rest)
      (fun t => s.At inst.toNat x.opened as rest t ∧ t.lastReturn = some ⟨i, .success, .none⟩) :=
    leads_host fun t ht => by
      obtain ⟨-, -, -, -, -, -, -, -, l⟩ := lines h3 ht.present
      exact ⟨_, l (by rw [ht.pos]), ht.ret i .none, State.ret_success_lastReturn ..⟩
  exact ((line14.trans line15).trans (leads_frzExit hb hm hack)).trans (sync.trans line16)

/-- The lines of INIT behind line 13, from any controller that line leaves. -/
theorem leads_init_finish (a : InitArgs wordSize tm) (hb : s.params.spinBudget = .unbounded)
    (hm : x.fields.mdis = 0) (hack : x.fields.frzack = 1) :
    Leads ([Event.host, .host] ++ [Event.host, .host, .host, .freezeExit inst.toNat, .host, .host] ++
        [Event.sync inst.toNat, .host])
      (Clearing s inst wordSize tm x as rest (initWords wordSize))
      (fun t => ∃ y, (x.shaped wordSize).Cleared y (initWords wordSize) ∧ s.At inst.toNat y.opened as rest t ∧
        t.lastReturn = some ⟨.init inst wordSize (some tm), .success, .none⟩) :=
  .any fun y hy => by
    rw [initPos_end]
    exact (leads_init_open a hb hy.inv (by rw [hy.onlyFlags.fields]; exact hm) (by rw [hy.onlyFlags.fields]; exact hack)
      _).imp fun t ht => ⟨y, hy, ht⟩

/-- The schedule of INIT, cut where its stages meet; `w` words are zeroed. -/
theorem init_events (n w : Nat) :
    List.replicate 8 Event.host ++ [Event.freezeAck n] ++ List.replicate (8 + w + 5) Event.host ++ [Event.freezeExit n] ++
        List.replicate 2 Event.host ++ [Event.sync n, .host] =
      [Event.host, .host, .host, .host, .host] ++ ([Event.host, .host, .host, .freezeAck n, .host] ++
        ([Event.host, .host, .host, .host, .host, .host] ++ ([Event.host] ++ (List.replicate w Event.host ++
          ([Event.host, .host] ++ [Event.host, .host, .host, .freezeExit n, .host, .host] ++ [Event.sync n, .host]))))) := by
  rw [List.replicate_add, List.replicate_add]
  simp only [List.append_assoc]
  rfl

/-- INIT run to its end; `rdy` and `sync` are NOTRDY and SYNCH in freeze. -/
theorem leads_init (a : InitArgs wordSize tm) (hb : s.params.spinBudget = .unbounded) (h : x.Inv)
    (hm : x.fields.mdis = 1) : ∃ rdy sync,
    Leads (List.replicate 8 Event.host ++ [Event.freezeAck inst.toNat] ++
        List.replicate (8 + initWords wordSize + 5) Event.host ++ [Event.freezeExit inst.toNat] ++
        List.replicate 2 Event.host ++ [Event.sync inst.toNat, .host])
      (s.At inst.toNat x [] (encode (.init inst wordSize (some tm)) :: rest))
      (fun t => ∃ y, (x.initShaped wordSize tm rdy sync).Cleared y (initWords wordSize) ∧
        s.At inst.toNat y.opened [] rest t ∧ t.lastReturn = some ⟨.init inst wordSize (some tm), .success, .none⟩) := by
  obtain ⟨rdy, sync, enter⟩ := leads_frzEnter_any (s := s) (inst := inst) (x := x.initEnabled)
    (as := [⟨.init inst wordSize (some tm), { pc := 6 }⟩]) (rest := rest) hb rfl
  have frozen : (x.initFrozen rdy sync).Inv := h.setFields rfl
  have timed : ((x.initFrozen rdy sync).timed tm).Inv := frozen.setFields rfl
  refine ⟨rdy, sync, ?_⟩
  rw [init_events]
  exact (leads_init_start a h hm).trans (enter.trans ((leads_init_timing a frozen rfl).trans
    ((leads_init_geometry a timed rfl).trans
      ((leads_init_words a).trans (leads_init_finish a hb rfl rfl)))))

end

end Sys2Proof.Machine

open Sys2Proof Sys2Proof.Machine

/-- Settles O57: the lines of INIT, with the handshakes where its calls and its last read wait for them; a controller that was
frozen when it was disabled needs no FREEZE_ACK, and may still be synchronised. -/
theorem initRun : Obligations.InitRun := by
  intro inst wordSize tm s es rest x n R events hf hh hmain hp hs hx h hm hb h4 h18 ht
  have a : InitArgs wordSize tm := ⟨h4, h18, ht⟩
  have start := State.At.start hx hf hh
  rw [hmain, hp] at start
  obtain ⟨rdy, sync, run⟩ := leads_init (s := s) (inst := inst) (rest := rest) a hb h hm
  obtain ⟨u, hrun, ⟨y, cleared, stage, ret⟩, sched⟩ := run s es start hs
  have fields := cleared.onlyFlags.fields
  refine ⟨u, y.opened, hrun, stage.insts, stage.mainline, stage.fault, stage.program, sched, ret, cleared.driver,
    cleared.hidden, ?_, cleared.onlyFlags.line, cleared.onlyFlags.params, fun w hw => ?_, fun w hw => ?_, fun i hi => ?_⟩
  · show { y.fields with srxdis := 1, frz := 0, halt := 0, frzack := 0, notrdy := 0, synch := 1 } = _
    rw [fields]
    rfl
  · exact (cleared.words w).trans (if_pos hw)
  · exact (cleared.words w).trans (if_neg (Nat.not_lt.2 hw))
  · refine (y.slotState_congr y.opened i rfl rfl rfl).trans (cleared.inactiveRx ?_)
    have size : (x.initShaped wordSize tm rdy sync).ws = wordSize.toNat := a.shaped_ws _
    rw [size]
    exact Nat.mul_lt_mul_of_pos_right hi (by omega)

end
